-- ==== Sys2Proof/Word.lean ====
section
/-! DEFINITION. The byte of both serial links. Every other quantity of the manual is a whole number in a stated
range (00_scope.md, Units and ranges) and is a Nat or an Int here. -/

namespace Sys2Proof

/-- One byte of a frame on the command link or the span link (11_frame_formats_and_connections.md). -/
abbrev Byte := BitVec 8

/-- A 16-bit check register (R184). -/
abbrev Check := BitVec 16

end Sys2Proof
end

