-- ==== Sys2Proof/Syntax.lean ====
section
/-! DEFINITION. The commands and events of the part: one constructor per row of spec/opcode_table.json, with the
row's operands. A command of the command link carries the payload bytes of its frame (R169). -/

namespace Sys2Proof

/-- The 67 rows of the opcode table, in its order. -/
inductive Instr where
  /-- POWER_ON_RESET (R152, R176): `none` is the reset coming into force, and a level is its end, with the safety loop
  input at that level then (R145). -/
  | powerOnReset (ended : Option Bool)
  /-- TRANSACTION_START (R165). -/
  | transactionStart
  /-- TRANSACTION_END (R167), with the bytes received since the transaction's start. -/
  | transactionEnd (received : List Byte)
  | nop (payload : List Byte)
  | status (payload : List Byte)
  | restart (payload : List Byte)
  | sectorPut (payload : List Byte)
  | sectorAmend (payload : List Byte)
  | sectorRetire (payload : List Byte)
  | sectorGet (payload : List Byte)
  | sectorFind (payload : List Byte)
  | sectorWalk (payload : List Byte)
  | sectorClear (payload : List Byte)
  | motionSetup (payload : List Byte)
  | towerSet (payload : List Byte)
  | towerTrim (payload : List Byte)
  | towerGet (payload : List Byte)
  | towerAck (payload : List Byte)
  | towerReset (payload : List Byte)
  | linkSetup (payload : List Byte)
  | alignTune (payload : List Byte)
  | online (payload : List Byte)
  | offline (payload : List Byte)
  | start (payload : List Byte)
  | stop (payload : List Byte)
  | pause (payload : List Byte)
  | continueRun (payload : List Byte)
  | reverse (payload : List Byte)
  | jog (payload : List Byte)
  | estop (payload : List Byte)
  | clearTrip (payload : List Byte)
  | timingSetup (payload : List Byte)
  | machineGet (payload : List Byte)
  | svcSubmit (payload : List Byte)
  | svcResult (payload : List Byte)
  | svcCancel (payload : List Byte)
  | evtRead (payload : List Byte)
  | evtAck (payload : List Byte)
  | evtEnable (payload : List Byte)
  | evtDisable (payload : List Byte)
  /-- ATTN_HIGH_END (R180). -/
  | attnHighEnd
  /-- ATTN_GAP_END (R180). -/
  | attnGapEnd
  /-- ROUND_START (R81). -/
  | roundStart
  /-- UNREACHABLE (R159): the request in this slot grows too old. -/
  | unreachable (slot : Nat)
  /-- ANGLE_SAMPLE (R32): an answer of the angle port, its angle as the 16 bits received and its valid status. -/
  | angleSample (angle : BitVec 16) (valid : Bool)
  /-- ANGLE_LOSS (R34): the round's sample is bad and brings the bad count to 2 or more. -/
  | angleLoss
  | pollBegin
  | resetExchangeBegin
  | serviceExchangeBegin
  | requestSent
  | noReply
  | replyGapTimeout
  | reservationUsedUp
  | replyFramingError
  /-- REPLY_COMPLETE (R93), with the bytes of the reply. -/
  | replyComplete (reply : List Byte)
  | missLimitReached (position : Nat)
  | followLimitReached (position : Nat)
  | stall (position : Nat)
  | jogRoundsExpired
  | startTimerExpiry
  | dwellTimerExpiry
  | reversalTimerExpiry
  | resetTimerExpiry (position : Nat)
  /-- SAFETY_LOOP_CHANGE (R145): the input has held this level for 10 ms. -/
  | safetyLoopChange (closed : Bool)
  | breakBegin
  | breakEnd
  | replyBegun
  deriving DecidableEq, Repr

end Sys2Proof
end

