-- ==== Sys2Proof/Decode.lean ====
section
/-! DEFINITION. The command a word spells by the opcode table's bits. No row of spec/opcode_table.json gives any bits
(every "fields" is empty and no row has a width), so no word spells a command. The frames of the command link are decoded
where the part decodes them, at a transaction's end (Machine/Port.lean). -/

namespace Sys2Proof

/-- The command an `nbits`-bit word `w` spells by the table's bits: none, for no row gives any. -/
def decodeTableWord (_nbits _w : Nat) : Option Instr := none

end Sys2Proof
end

