-- ==== Sys2Proof/Config.lean ====
section
/-! DEFINITION. What the part fixes once: the sizes and limits of its tables, the lengths of its exchanges, and the
free values the manual leaves open. -/

namespace Sys2Proof.Config

/-- One whole turn, in centidegrees (00_scope.md, Units and ranges). -/
def circle : Nat := 36000
/-- The most records the field plan holds (R6). -/
def planSize : Nat := 96
/-- The least width of a sector record, in centidegrees (R6). -/
def minWidth : Nat := 10
/-- The roster's positions, and the corner tower's (R55). -/
def positions : Nat := 21
/-- The corner tower's position (R55). -/
def cornerPos : Nat := 21
/-- The most main-line towers (R55). -/
def mainPositions : Nat := 20
/-- The slots of the Service Request Table (R153). -/
def slots : Nat := 8
/-- Reserved occupancies in character times (R83). -/
def pollReserve : Nat := 26
def serviceReserve : Nat := 22
def resetReserve : Nat := 16
def breakReserve : Nat := 4
/-- The reply window, in character times (R83, R91). -/
def replyWindow : Nat := 8
/-- The quiet time a cut-short reply asks for before BREAK, in character times (R96). -/
def quietTime : Nat := 2
/-- The bad count stops here (R33). -/
def badCountTop : Nat := 255

/-- FREE VALUE (log 15): the swing reading TOWER_GET reports for position 21 while it holds no geometry. R74 defines the
reading as the reported swing less the swing offset in force, and without geometry no offset is in force. -/
opaque swingWithoutGeometry : Nat → BitVec 16

end Sys2Proof.Config
end

