-- ==== Sys2Proof/Machine/State.lean ====
section
/-! DEFINITION. The state of the part, one structure per block of 00_scope.md ("Blocks and how they work together"), and
State.reset. Everything is plain data. -/

namespace Sys2Proof.Machine

/-! ### The field plan (01_the_field_plan.md) -/

/-- The kind of a sector record (R2). -/
inductive SectorKind where | run | hold | barrier
  deriving DecidableEq, Repr

/-- What ends a HOLD record's wait (R3). -/
inductive Resume where | auto | manual
  deriving DecidableEq, Repr

/-- What the machine does on arriving at a BARRIER record (R3). -/
inductive BarrierAction where | reverse | stop
  deriving DecidableEq, Repr

/-- The state of a sector record (R5). -/
inductive RecordState where | live | retiring
  deriving DecidableEq, Repr

/-- A sector record (R2); an absent optional field is `none`. -/
structure Sector where
  start : Nat
  kind : SectorKind
  pace : Nat
  reversePace : Option Nat
  lead : Option Nat
  warnLimit : Option Nat
  swing : Option (Nat × Nat)
  dwell : Option Nat
  resume : Option Resume
  action : Option BarrierAction
  revision : Nat
  state : RecordState
  deriving DecidableEq, Repr

/-! ### The Sector Tracker (02_following_the_field.md) -/

/-- The tracker's settings (R53). -/
structure MotionSettings where
  arrivalWindow : Nat
  defaultLead : Nat
  escapePace : Nat
  jumpLimit : Nat
  deriving DecidableEq, Repr

/-- What the tracker's last refresh found (R35, R38 to R40), with the fields of the active record it read then: the
record's revision (R52), its warn limit (R115), its swing pair, its width and the distance stood into it (R50). -/
structure View where
  activeKey : Nat
  revision : Nat
  nextKey : Nat
  dist : Nat
  currentPace : Nat
  nextPace : Nat
  lead : Nat
  warnLimit : Option Nat
  swing : Option (Nat × Nat)
  into : Nat
  width : Nat
  deriving DecidableEq, Repr

/-- The Sector Tracker's state. `view = none` is: active and next record keys and distance none, paces and lead 0
(R35, R54). `served` is the hold-served mark: the served record's key and the key of the record active when the mark was
set (R45). `awaiting`: this round's angle request is unanswered and its poll phase is not complete (R30). -/
structure Tracker where
  lastGood : Option Nat
  badCount : Nat
  angleUsed : Option Nat
  held : Bool
  view : Option View
  pace : Nat
  served : Option (Nat × Nat)
  escape : Option Nat
  heldSwing : Option Nat
  capturePending : Bool
  awaiting : Bool
  settings : MotionSettings
  deriving DecidableEq, Repr

/-! ### The Tower Roster (03_the_tower_roster.md) -/

/-- Which way round a drive unit is mounted (R56). -/
inductive Mount where | normal | reversed
  deriving DecidableEq, Repr

/-- A tower's geometry: the main-line form of positions 1 to 20 and the corner form of position 21 (R56). -/
inductive Geometry where
  | mainLine (address radius fullSpeed : Nat) (mount : Mount) (trim : Int)
  | corner (address : Nat) (mount : Mount) (ratio : Nat) (swingOffset : Int)
  deriving DecidableEq, Repr

/-- The states of a tower (R60). -/
inductive TowerState where | vacant | silent | online | driving | following | resetting | faulted
  deriving DecidableEq, Repr

/-- The stages of a reset (R75 to R77). -/
inductive ResetStage where | none | requested | acknowledged | unrequested
  deriving DecidableEq, Repr

/-- Why a tower is FAULTED (R60). -/
inductive FaultReason where | none | drive | localStop | sensor | stall | resetTimeout
  deriving DecidableEq, Repr

/-- A tower record (R60). `status` holds the five indications and `changes` the five change flags, in the bits of
11_frame_formats_and_connections.md. `resetPending` is the pending RESET exchange (R75), `resetTimer` the time left in
steps of 100 ms while the reset timer runs (R77). -/
structure Tower where
  geometry : Option Geometry
  state : TowerState
  status : BitVec 5
  joint : Int
  track : Nat
  lastRound : Nat
  fresh : Bool
  miss : Nat
  follow : Nat
  stall : Nat
  stage : ResetStage
  target : Nat
  applied : Nat
  saturated : Bool
  alignWarn : Bool
  followingFlag : Bool
  changes : BitVec 5
  reason : FaultReason
  resetPending : Bool
  resetTimer : Option Nat
  deriving DecidableEq, Repr

/-! ### The Span Link Controller (04_rounds_and_the_span_link.md) -/

/-- The rates of the span link (R79). -/
inductive Rate where | r9600 | r19200 | r38400
  deriving DecidableEq, Repr

/-- The settings of LINK_SETUP (R101). `towers` is N. -/
structure LinkSettings where
  rate : Rate
  roundMs : Nat
  towers : Nat
  corner : Bool
  missLimit : Nat
  resetLimit : Nat
  ageLimit : Nat
  deriving DecidableEq, Repr

/-- The phase of a round. -/
inductive Phase where | poll | service | closed
  deriving DecidableEq, Repr

/-- Who an exchange belongs to (R94): a POLL or RESET names the position, a SERVICE the slot. -/
inductive Owner where
  | poll (position : Nat)
  | reset (position : Nat)
  | service (slot : Nat)
  deriving DecidableEq, Repr

/-- The steps of an exchange (R91). -/
inductive ExStep where | sending | awaiting | receiving
  deriving DecidableEq, Repr

/-- The exchange on the line: its owner, the link address its request carries, the request frame, its step, the
character times used since its request began, those used when its reply began, and the mark of an exchange whose outcome
is delivered to no block (R103). -/
structure Exchange where
  owner : Owner
  address : Nat
  request : List Byte
  step : ExStep
  used : Nat
  replyAt : Nat
  discard : Bool
  deriving DecidableEq, Repr

/-- BREAK: none; waiting, requested while a reply was arriving (R96, RECEIVING), with the character times until the reservation
of the cut exchange is used up and those until the line has been idle for 2 (log 9); PENDING; or SENDING with the character
times sent (R95). -/
inductive BreakState where
  | none
  | waiting (left quiet : Nat)
  | pending
  | sending (used : Nat)
  deriving DecidableEq, Repr

/-- The Span Link Controller's state. `clock` counts the character times of the present 100 ms step (log 4). -/
structure Link where
  settings : LinkSettings
  running : Bool
  round : Nat
  remaining : Nat
  phase : Phase
  nextPos : Option Nat
  exchange : Option Exchange
  offered : List Nat
  brk : BreakState
  clock : Nat
  deriving DecidableEq, Repr

/-! ### The Alignment Engine (05_keeping_the_line_straight.md) -/

/-- The ten tuning settings (R125), with the manual's letters: `gain` G, `deadband` D, `slew` S, `warn` W, `trip` X,
`cornerGain` Gc, `swingTrip` Y, `follow` F. -/
structure Tune where
  gain : Nat
  deadband : Nat
  slew : Nat
  warn : Nat
  trip : Nat
  cornerGain : Nat
  swingTrip : Nat
  follow : Nat
  stallThreshold : Nat
  stallRounds : Nat
  deriving DecidableEq, Repr

/-! ### The Motion Supervisor (06_machine_states_run_permit_and_trips.md) -/

/-- The nine machine states (R127). -/
inductive MachineState where
  | setup | standby | starting | running | holding | reversing | stopping | jogging | tripped
  deriving DecidableEq, Repr

/-- The directions of travel. -/
inductive Direction where | forward | reverse
  deriving DecidableEq, Repr

/-- The dwell timer of a hold (R136, R137), its time left in steps of 100 ms. -/
inductive Dwell where
  | stopped
  | running (left : Nat)
  | expired
  deriving DecidableEq, Repr

/-- The hold context: held record key or none, and the dwell timer. -/
structure Hold where
  held : Option Nat
  dwell : Dwell
  deriving DecidableEq, Repr

/-- The reversal wait (R142). -/
inductive ReversalWait where
  | none
  | awaitingRest
  | delay (left : Nat)
  deriving DecidableEq, Repr

/-- The modes of a jog (R143). -/
inductive JogMode where | fixed | align
  deriving DecidableEq, Repr

/-- The jog context (R143); a jog speed is at most 300. -/
structure Jog where
  position : Nat
  direction : Direction
  speed : Fin 301
  roundsLeft : Nat
  mode : JogMode
  deriving DecidableEq, Repr

/-- The nine trip causes. -/
inductive TripCause where
  | misalign | swing | stall | linkLoss | towerFault | angleLoss | overrun | safetyLoop | panelStop
  deriving DecidableEq, Repr

/-- A filled trip record (R147). `further` is the set of further causes, bit n − 1 for cause n of
11_frame_formats_and_connections.md. -/
structure Trip where
  cause : TripCause
  position : Option Nat
  round : Nat
  angle : Option Nat
  further : BitVec 9
  deriving DecidableEq, Repr

/-- The Motion Supervisor's state. `startTimer` is the time left in steps of 100 ms while the timer runs. -/
structure Supervisor where
  machine : MachineState
  direction : Direction
  permit : Bool
  loopClosed : Bool
  startTimer : Option Nat
  hold : Hold
  reversal : ReversalWait
  jog : Option Jog
  trip : Option Trip
  startDelay : Nat
  reversalDelay : Nat
  deriving DecidableEq, Repr

/-! ### The Service Request Table (07_service_requests_to_tower_drive_units.md) -/

/-- The operations of a service request (R153). -/
inductive Operation where | read | write
  deriving DecidableEq, Repr

/-- The states of a slot that is not FREE (R153). -/
inductive SlotState where | queued | sent | done | failed | cancelling
  deriving DecidableEq, Repr

/-- The result codes of a slot (R153). -/
inductive ResultCode where | none | ok | unitRefused | noReply | check | unreachable | abandoned
  deriving DecidableEq, Repr

/-- A slot that is not FREE (R153). -/
structure Request where
  state : SlotState
  position : Nat
  operation : Operation
  index : Nat
  value : Nat
  submission : Nat
  age : Nat
  code : ResultCode
  result : Option Nat
  deriving DecidableEq, Repr

/-- The Service Request Table: slot n is entry n − 1, a FREE slot is `none`; `order` lists the QUEUED slots, oldest
first (R153); `counter` is the submission counter (R155). -/
structure Service where
  slots : Vector (Option Request) Config.slots
  order : List Nat
  counter : Nat
  deriving DecidableEq, Repr

/-! ### The Command Link Port (08_the_command_link.md) -/

/-- The command being carried out (R169). -/
structure Command where
  code : Byte
  payload : List Byte
  deriving DecidableEq, Repr

/-- A transaction in progress (SEL low): whether it began by shifting out BUSY (R167), and the bytes MISO carries before
the filler (R165). -/
structure Transaction where
  busy : Bool
  miso : List Byte
  deriving DecidableEq, Repr

/-- The snapshot (R123). The revision is 0 when the active key is none. -/
structure Snapshot where
  round : Nat
  angle : Option Nat
  held : Bool
  pace : Nat
  activeKey : Option Nat
  revision : Nat
  nextKey : Option Nat
  dist : Option Nat
  direction : Direction
  machine : MachineState
  cause : Option TripCause
  deriving DecidableEq, Repr

/-- How power-on reset stands to the select input (R176): not at all; the reset is in force, SEL high; it is in force and SEL
has fallen meanwhile; it has ended and SEL is still low from such a fall, which started no transaction. -/
inductive SelectMask where | clear | inReset | inResetSelected | ignored
  deriving DecidableEq, Repr

/-- The Command Link Port's state. A slot that is EMPTY is `none`. `dropped`: a frame has been dropped while the command in
the command slot was executing (R167, R175). -/
structure Port where
  command : Option Command
  response : Option (List Byte)
  rdy : Bool
  transaction : Option Transaction
  snapshot : Snapshot
  dropped : Bool
  mask : SelectMask
  deriving DecidableEq, Repr

/-! ### The Event Unit (09_events_and_the_attention_line.md) -/

/-- The eleven event flags, in the order of R177's table. -/
inductive EventFlag where
  | towerChange | machineState | trip | sectorCrossed | arrival | serviceDone | alignWarn | angle | roundShort
  | cmdDropped | retireDone
  deriving DecidableEq, Repr

/-- The phase of the ATTN line (R180). -/
inductive LinePhase where | low | high | gap
  deriving DecidableEq, Repr

/-- The Event Unit's state: flags and enables as the 11-bit sets of 11_frame_formats_and_connections.md. -/
structure Events where
  flags : BitVec 11
  enables : BitVec 11
  master : Bool
  phase : LinePhase
  owed : Bool
  deriving DecidableEq, Repr

/-! ### The whole part -/

/-- The part's state, the queue of commands that wait, and the counter that the free values of Config are applied to. -/
structure State where
  plan : List Sector
  tracker : Tracker
  roster : Vector Tower Config.positions
  link : Link
  tune : Tune
  sup : Supervisor
  svc : Service
  port : Port
  ev : Events
  free : Nat
  pending : List Instr
  deriving DecidableEq, Repr

/-- The reasons the machine stops with a fault: none. No event of the manual stops the part. -/
inductive Fault where
  deriving DecidableEq, Repr

/-- The reasons a command has no meaning. -/
inductive Refusal where
  /-- Raised by exec's arm of a command that has no meaning yet, with the command's mnemonic; safe, since the machine
  stops where the part goes on. -/
  | notModelled (mnemonic : String)
  deriving DecidableEq, Repr

/-! ### Power-on values -/

/-- R53, R54. -/
def MotionSettings.powerOn : MotionSettings :=
  { arrivalWindow := 20, defaultLead := 300, escapePace := 150, jumpLimit := 200 }

/-- R54: the tracker with every live field cleared and the settings given. -/
def Tracker.cleared (settings : MotionSettings) : Tracker :=
  { lastGood := none, badCount := 0, angleUsed := none, held := false, view := none, pace := 0, served := none,
    escape := none, heldSwing := none, capturePending := false, awaiting := false, settings := settings }

/-- R78: a tower record with its live fields clear, in the state given, keeping the geometry given. -/
def Tower.cleared (geometry : Option Geometry) (state : TowerState) : Tower :=
  { geometry := geometry, state := state, status := 0, joint := 0, track := 0, lastRound := 0, fresh := false,
    miss := 0, follow := 0, stall := 0, stage := .none, target := 0, applied := 0, saturated := false,
    alignWarn := false, followingFlag := false, changes := 0, reason := .none, resetPending := false,
    resetTimer := none }

/-- R101. -/
def LinkSettings.powerOn : LinkSettings :=
  { rate := .r19200, roundMs := 500, towers := 0, corner := false, missLimit := 3, resetLimit := 10, ageLimit := 40 }

/-- R105; the round remaining, the phase, the next position and the clock are DESIGN CHOICE (log 2). -/
def Link.powerOn : Link :=
  { settings := .powerOn, running := false, round := 0, remaining := 0, phase := .closed, nextPos := none,
    exchange := none, offered := [], brk := .none, clock := 0 }

/-- R125. -/
def Tune.powerOn : Tune :=
  { gain := 24, deadband := 15, slew := 80, warn := 300, trip := 700, cornerGain := 16, swingTrip := 1500, follow := 4,
    stallThreshold := 200, stallRounds := 12 }

/-- The cleared hold context (R128). -/
def Hold.cleared : Hold := { held := none, dwell := .stopped }

/-- R152, R150: the supervisor at power-on reset, its safety loop at the level of the input (R145). -/
def Supervisor.powerOn (loopClosed : Bool) : Supervisor :=
  { machine := .setup, direction := .forward, permit := false, loopClosed := loopClosed, startTimer := none,
    hold := .cleared, reversal := .none, jog := none, trip := none, startDelay := 10, reversalDelay := 8 }

/-- R164. -/
def Service.empty : Service := { slots := Vector.replicate Config.slots none, order := [], counter := 0 }

/-- R124: the snapshot's reset values, with the round number given. -/
def Snapshot.reset (round : Nat) : Snapshot :=
  { round := round, angle := none, held := false, pace := 0, activeKey := none, revision := 0, nextKey := none,
    dist := none, direction := .forward, machine := .setup, cause := none }

/-- R176; no transaction is in progress (log 2). -/
def Port.powerOn : Port :=
  { command := none, response := none, rdy := false, transaction := none, snapshot := .reset 0, dropped := false,
    mask := .clear }

/-- R183. -/
def Events.reset : Events := { flags := 0, enables := 0, master := false, phase := .low, owed := false }

/-- The part after power-on reset with the safety loop input at the level given. -/
def State.powerOn (loopClosed : Bool) : State :=
  { plan := [], tracker := .cleared .powerOn, roster := Vector.replicate Config.positions (.cleared none .vacant),
    link := .powerOn, tune := .powerOn, sup := .powerOn loopClosed, svc := .empty, port := .powerOn, ev := .reset,
    free := 0, pending := [] }

/-- The part right after reset; the safety loop input is taken as CLOSED (log 1). -/
def State.reset : State := State.powerOn true

end Sys2Proof.Machine
end

