-- ==== Sys2Proof/Machine/Flags.lean ====
section
/-! DEFINITION. The Event Unit's flags and the pulse rule of ATTN (09_events_and_the_attention_line.md), and the bits of a
tower record's status and change flags (11_frame_formats_and_connections.md). -/

namespace Sys2Proof.Machine

/-! ### Event flags -/

/-- The flag's bit in a flag set (R177's table, 11 "Event flag sets"). -/
def EventFlag.bit : EventFlag → BitVec 11
  | .towerChange => 0x001
  | .machineState => 0x002
  | .trip => 0x004
  | .sectorCrossed => 0x008
  | .arrival => 0x010
  | .serviceDone => 0x020
  | .alignWarn => 0x040
  | .angle => 0x080
  | .roundShort => 0x100
  | .cmdDropped => 0x200
  | .retireDone => 0x400

/-- Whether the flag is set. -/
def Events.isSet (e : Events) (f : EventFlag) : Bool := (e.flags &&& f.bit) != 0

/-- The pending flags: set, enabled, and the master enable on (R179). -/
def Events.pendingFlags (e : Events) : BitVec 11 := if e.master then e.flags &&& e.enables else 0

/-- The pending count (R179). -/
def Events.pendingCount (e : Events) : Nat := ((List.range 11).filter e.pendingFlags.getLsbD).length

/-- Whether the pending count is one or more. -/
def Events.anyPending (e : Events) : Bool := e.pendingFlags != 0

/-- The level of the ATTN output (R180). -/
def Events.attn (e : Events) : Bool := e.phase == .high

/-- A pulse is called for (R180): it begins at once in phase LOW and is owed in HIGH or GAP. -/
def Events.pulse (e : Events) : Events :=
  match e.phase with
  | .low => { e with phase := .high }
  | .high | .gap => { e with owed := true }

/-- What R179 gives a change of the unit from `old` to `new`: a pulse if the pending count has risen from zero. -/
def Events.settle (old new : Events) : Events := if !old.anyPending && new.anyPending then new.pulse else new

/-- A block raises a flag (R177, R179). -/
def Events.raise (f : EventFlag) (e : Events) : Events := e.settle { e with flags := e.flags ||| f.bit }

/-- EVT_ENABLE's change of the unit (R178, R179). -/
def Events.enable (set : BitVec 11) (master : Bool) (e : Events) : Events :=
  e.settle { e with enables := e.enables ||| set, master := e.master || master }

/-- EVT_DISABLE's change of the unit (R178). -/
def Events.disable (set : BitVec 11) (master : Bool) (e : Events) : Events :=
  { e with enables := e.enables &&& ~~~set, master := e.master && !master }

/-- EVT_ACK's change of the unit (R181): a pulse whenever something is still pending. -/
def Events.acknowledge (set : BitVec 11) (e : Events) : Events :=
  let cleared := { e with flags := e.flags &&& ~~~set }
  if cleared.anyPending then cleared.pulse else cleared

/-- The high time of a pulse ends (R180). -/
def Events.highEnd (e : Events) : Events :=
  match e.phase with
  | .high => { e with phase := .gap }
  | .low | .gap => e

/-- The gap ends (R180): an owed pulse begins if something is pending and is dropped otherwise. -/
def Events.gapEnd (e : Events) : Events :=
  match e.phase with
  | .gap => { e with phase := if e.owed && e.anyPending then .high else .low, owed := false }
  | .low | .high => e

/-- Raise an event flag of the part. -/
def raise (f : EventFlag) (s : State) : State := { s with ev := s.ev.raise f }

/-! ### Status indications of a tower (R60, 11 "The status byte") -/

/-- The indications' bits. -/
def statusReady : BitVec 5 := 0x01
def statusDriveFault : BitVec 5 := 0x02
def statusLocalStop : BitVec 5 := 0x04
def statusInitialising : BitVec 5 := 0x08
def statusSensorInvalid : BitVec 5 := 0x10

/-- Whether a status shows an indication. -/
def shows (status bit : BitVec 5) : Bool := (status &&& bit) != 0

/-! ### Change flags of a tower (R60, R72) -/

/-- The five change flags. -/
inductive ChangeFlag where | presence | fault | resetDone | restarted | warn
  deriving DecidableEq, Repr

/-- The flag's bit in byte 31 of a tower record. -/
def ChangeFlag.bit : ChangeFlag → BitVec 5
  | .presence => 0x01
  | .fault => 0x02
  | .resetDone => 0x04
  | .restarted => 0x08
  | .warn => 0x10

/-- Whether the tower's change flag is set. -/
def Tower.hasChange (t : Tower) (f : ChangeFlag) : Bool := (t.changes &&& f.bit) != 0

end Sys2Proof.Machine
end

