-- ==== Sys2Proof/Machine/Operands.lean ====
section
/-! DEFINITION. The byte layouts of 11_frame_formats_and_connections.md: the check sequence, the fields of a frame, every
command payload decoded to its operands (`none` where R169 or R185 refuses it), and every answer's payload encoded. -/

namespace Sys2Proof.Machine

/-! ### Bytes and fields (00 "Wire order": most significant byte first) -/

/-- A field of one byte. -/
def byte (n : Nat) : Byte := BitVec.ofNat 8 n

/-- A field of two bytes. -/
def word (n : Nat) : List Byte := [byte (n / 256), byte n]

/-- A signed field of two bytes, in two's complement. -/
def signedWord (z : Int) : List Byte := word (z % 65536).toNat

/-- The unsigned value of two bytes. -/
def wordOf (h l : Byte) : Nat := h.toNat * 256 + l.toNat

/-- The signed value of two bytes. -/
def signedOf (h l : Byte) : Int :=
  let n := wordOf h l
  if n < 32768 then (n : Int) else (n : Int) - 65536

/-- A key, angle or distance, FFFF hex for none. -/
def wordOrNone : Option Nat → List Byte
  | some n => word n
  | none => [0xFF, 0xFF]

/-- A yes-or-no byte. -/
def bit01 (b : Bool) : Byte := if b then 1 else 0

/-- A byte that must be 0 or 1. -/
def boolOf : Byte → Option Bool
  | 0 => some false
  | 1 => some true
  | _ => none

/-! ### Characters of the span link (R79) -/

/-- The bits of a character in their order on the line: start bit, 8 data bits least significant first, stop bit; `true` is
the line's idle level, at which a data bit of 1 stands (log 36). -/
def characterBits (b : Byte) : List Bool := false :: ((List.range 8).map b.getLsbD ++ [true])

/-- The byte of a character that arrives; none where it is no character or its stop bit is not at the idle level, a framing
error (R92). -/
def readCharacter : List Bool → Option Byte
  | [false, b0, b1, b2, b3, b4, b5, b6, b7, true] => some (BitVec.ofBoolListLE [b0, b1, b2, b3, b4, b5, b6, b7])
  | _ => none

/-! ### The check sequence (R184) -/

/-- One data bit taken into the check register. -/
def checkBit (r : Check) (b : Bool) : Check :=
  let shifted := r <<< 1
  if (r.msb != b) = true then shifted ^^^ 0x1021 else shifted

/-- One byte taken into the check register, most significant bit first. -/
def checkByte (r : Check) (b : Byte) : Check :=
  [7, 6, 5, 4, 3, 2, 1, 0].foldl (fun r i => checkBit r (b.getLsbD i)) r

/-- The check of a frame's bytes. -/
def checkOf (bytes : List Byte) : Check := bytes.foldl checkByte 0xFFFF

/-- The check as it is sent, high byte first. -/
def checkBytes (bytes : List Byte) : List Byte := word (checkOf bytes).toNat

/-- A frame's bytes with their check after them. -/
def withCheck (bytes : List Byte) : List Byte := bytes ++ checkBytes bytes

/-- Whether a whole frame's last two bytes are the check of the bytes before them. -/
def checkHolds (frame : List Byte) : Bool :=
  frame.drop (frame.length - 2) == checkBytes (frame.take (frame.length - 2))

/-! ### Answers (R170, R172) -/

/-- The response codes. -/
inductive RespCode where
  | ok | deferred | badFrame | unknown | badValue | state | exists | notFound | stale | narrow | full | lastRecord
  | activeKind | inRetire | notReady | inProgress
  deriving DecidableEq, Repr

/-- The status byte of a response code. -/
def RespCode.byte : RespCode → Byte
  | .ok => 0x00
  | .deferred => 0x01
  | .badFrame => 0x02
  | .unknown => 0x03
  | .badValue => 0x04
  | .state => 0x05
  | .exists => 0x06
  | .notFound => 0x07
  | .stale => 0x08
  | .narrow => 0x09
  | .full => 0x0A
  | .lastRecord => 0x0B
  | .activeKind => 0x0C
  | .inRetire => 0x0D
  | .notReady => 0x0E
  | .inProgress => 0x0F

/-- The detail of NOT_READY. -/
inductive Detail where
  | loopOpen | noPlan | noAngle | tower (position : Nat) | insideBarrier | geometry (position : Nat) | roundTooShort
  deriving DecidableEq, Repr

/-- The detail byte, and the position after TOWER and GEOMETRY. -/
def Detail.bytes : Detail → List Byte
  | .loopOpen => [1]
  | .noPlan => [2]
  | .noAngle => [3]
  | .tower p => [4, byte p]
  | .insideBarrier => [5]
  | .geometry p => [6, byte p]
  | .roundTooShort => [7]

/-- The answer to a command: a response code and a payload (R170). -/
structure Answer where
  code : RespCode
  payload : List Byte
  deriving DecidableEq, Repr

/-- OK with no payload. -/
def Answer.ok : Answer := { code := .ok, payload := [] }
/-- DEFERRED, which carries no payload. -/
def Answer.deferred : Answer := { code := .deferred, payload := [] }
/-- OK with a payload. -/
def Answer.okWith (p : List Byte) : Answer := { code := .ok, payload := p }
/-- A refusal with no payload. -/
def Answer.refuse (c : RespCode) : Answer := { code := c, payload := [] }
/-- A NOT_READY refusal with its detail. -/
def Answer.notReady (d : Detail) : Answer := { code := .notReady, payload := d.bytes }

/-- The response frame of an answer to the command with code `code` (R170). -/
def Answer.frame (a : Answer) (code : Byte) : List Byte :=
  withCheck ([byte (a.payload.length + 5), a.code.byte, code] ++ a.payload)

/-! ### Enumerations -/

def SectorKind.byte : SectorKind → Byte
  | .run => 0
  | .hold => 1
  | .barrier => 2

def SectorKind.ofNat? : Nat → Option SectorKind
  | 0 => some .run
  | 1 => some .hold
  | 2 => some .barrier
  | _ => none

def Resume.byte : Resume → Byte
  | .auto => 0
  | .manual => 1

def Resume.ofNat? : Nat → Option Resume
  | 0 => some .auto
  | 1 => some .manual
  | _ => none

def BarrierAction.byte : BarrierAction → Byte
  | .reverse => 0
  | .stop => 1

def BarrierAction.ofNat? : Nat → Option BarrierAction
  | 0 => some .reverse
  | 1 => some .stop
  | _ => none

def RecordState.byte : RecordState → Byte
  | .live => 0
  | .retiring => 1

def Mount.byte : Mount → Byte
  | .normal => 0
  | .reversed => 1

def Mount.ofByte? : Byte → Option Mount
  | 0 => some .normal
  | 1 => some .reversed
  | _ => none

def TowerState.byte : TowerState → Byte
  | .vacant => 0
  | .silent => 1
  | .online => 2
  | .driving => 3
  | .following => 4
  | .resetting => 5
  | .faulted => 6

def ResetStage.byte : ResetStage → Byte
  | .none => 0
  | .requested => 1
  | .acknowledged => 2
  | .unrequested => 3

def FaultReason.byte : FaultReason → Byte
  | .none => 0
  | .drive => 1
  | .localStop => 2
  | .sensor => 3
  | .stall => 4
  | .resetTimeout => 5

def Rate.ofByte? : Byte → Option Rate
  | 0 => some .r9600
  | 1 => some .r19200
  | 2 => some .r38400
  | _ => none

def Direction.byte : Direction → Byte
  | .forward => 0
  | .reverse => 1

def Direction.ofByte? : Byte → Option Direction
  | 0 => some .forward
  | 1 => some .reverse
  | _ => none

def MachineState.byte : MachineState → Byte
  | .setup => 0
  | .standby => 1
  | .starting => 2
  | .running => 3
  | .holding => 4
  | .reversing => 5
  | .stopping => 6
  | .jogging => 7
  | .tripped => 8

/-- The number of a trip cause; 0 is none. -/
def TripCause.number : TripCause → Nat
  | .misalign => 1
  | .swing => 2
  | .stall => 3
  | .linkLoss => 4
  | .towerFault => 5
  | .angleLoss => 6
  | .overrun => 7
  | .safetyLoop => 8
  | .panelStop => 9

/-- The bit of a cause in the set of further causes: bit n − 1 for cause n. -/
def TripCause.bit : TripCause → BitVec 9
  | .misalign => 0x001
  | .swing => 0x002
  | .stall => 0x004
  | .linkLoss => 0x008
  | .towerFault => 0x010
  | .angleLoss => 0x020
  | .overrun => 0x040
  | .safetyLoop => 0x080
  | .panelStop => 0x100

def causeByte : Option TripCause → Byte
  | some c => byte c.number
  | none => 0

def JogMode.byte : JogMode → Byte
  | .fixed => 0
  | .align => 1

def JogMode.ofByte? : Byte → Option JogMode
  | 0 => some .fixed
  | 1 => some .align
  | _ => none

def Operation.byte : Operation → Byte
  | .read => 0
  | .write => 1

def Operation.ofByte? : Byte → Option Operation
  | 0 => some .read
  | 1 => some .write
  | _ => none

def SlotState.byte : SlotState → Byte
  | .queued => 1
  | .sent => 2
  | .done => 3
  | .failed => 4
  | .cancelling => 5

def ResultCode.byte : ResultCode → Byte
  | .none => 0
  | .ok => 1
  | .unitRefused => 2
  | .noReply => 3
  | .check => 4
  | .unreachable => 5
  | .abandoned => 6

/-! ### Command payloads decoded -/

/-- The payload of a command that carries none (R169). -/
def noPayload : List Byte → Bool
  | [] => true
  | _ => false

/-- A field present only if its presence bit is set; a bad enumeration value in a present field spoils the payload. -/
def presentEnum {α : Type} (present : Bool) (v : Option α) : Option (Option α) :=
  if present then v.map some else some none

/-- SECTOR_PUT: bytes 0 to 19 of the sector record (R185). The record offered is at revision 0 and LIVE (R13). -/
def decodeSector : List Byte → Option Sector
  | [s1, s0, k, pr, p1, p0, r1, r0, l1, l0, w1, w0, a1, a0, e1, e0, d1, d0, rs, ba] =>
    if pr.getLsbD 7 then none
    else
      match SectorKind.ofNat? k.toNat, presentEnum (pr.getLsbD 5) (Resume.ofNat? rs.toNat),
          presentEnum (pr.getLsbD 6) (BarrierAction.ofNat? ba.toNat) with
      | some kind, some resume, some action =>
        some
          { start := wordOf s1 s0, kind := kind, pace := wordOf p1 p0,
            reversePace := if pr.getLsbD 0 then some (wordOf r1 r0) else none,
            lead := if pr.getLsbD 1 then some (wordOf l1 l0) else none,
            warnLimit := if pr.getLsbD 2 then some (wordOf w1 w0) else none,
            swing := if pr.getLsbD 3 then some (wordOf a1 a0, wordOf e1 e0) else none,
            dwell := if pr.getLsbD 4 then some (wordOf d1 d0) else none,
            resume := resume, action := action, revision := 0, state := .live }
      | _, _, _ => none
  | _ => none

/-- One change of a SECTOR_AMEND (R14); `none` inside is a removal. -/
inductive Change where
  | kind (v : SectorKind)
  | pace (v : Nat)
  | reversePace (v : Option Nat)
  | lead (v : Option Nat)
  | warnLimit (v : Option Nat)
  | swing (v : Option (Nat × Nat))
  | dwell (v : Option Nat)
  | resume (v : Option Resume)
  | action (v : Option BarrierAction)
  deriving DecidableEq, Repr

/-- The field number a change names (11 "A SECTOR_AMEND payload"). -/
def Change.field : Change → Nat
  | .kind _ => 1
  | .pace _ => 2
  | .reversePace _ => 3
  | .lead _ => 4
  | .warnLimit _ => 5
  | .swing _ => 6
  | .dwell _ => 7
  | .resume _ => 8
  | .action _ => 9

/-- One change from its field number, its operation byte and its two values. A removal of kind or pace, an unknown field
or operation and a value outside its enumeration give none (R14, R185). -/
def decodeChange (field op : Byte) (v1 v2 : Nat) : Option Change :=
  match boolOf op with
  | none => none
  | some false =>
    match field.toNat with
    | 1 => (SectorKind.ofNat? v1).map .kind
    | 2 => some (.pace v1)
    | 3 => some (.reversePace (some v1))
    | 4 => some (.lead (some v1))
    | 5 => some (.warnLimit (some v1))
    | 6 => some (.swing (some (v1, v2)))
    | 7 => some (.dwell (some v1))
    | 8 => (Resume.ofNat? v1).map fun r => .resume (some r)
    | 9 => (BarrierAction.ofNat? v1).map fun a => .action (some a)
    | _ => none
  | some true =>
    match field.toNat with
    | 3 => some (.reversePace none)
    | 4 => some (.lead none)
    | 5 => some (.warnLimit none)
    | 6 => some (.swing none)
    | 7 => some (.dwell none)
    | 8 => some (.resume none)
    | 9 => some (.action none)
    | _ => none

/-- The changes of a SECTOR_AMEND, six bytes each. -/
def decodeChanges : List Byte → Option (List Change)
  | [] => some []
  | f :: op :: a1 :: a0 :: b1 :: b0 :: rest =>
    match decodeChange f op (wordOf a1 a0) (wordOf b1 b0), decodeChanges rest with
    | some c, some cs => some (c :: cs)
    | _, _ => none
  | _ => none

/-- What SECTOR_AMEND carries. -/
structure Amendment where
  start : Nat
  expected : Option Nat
  changes : List Change
  deriving DecidableEq, Repr

/-- SECTOR_AMEND's payload. -/
def decodeAmendment : List Byte → Option Amendment
  | s1 :: s0 :: given :: rev :: rest =>
    match boolOf given, decodeChanges rest with
    | some g, some cs => some { start := wordOf s1 s0, expected := if g then some rev.toNat else none, changes := cs }
    | _, _ => none
  | _ => none

/-- A payload of one 16-bit field: SECTOR_RETIRE, SECTOR_GET, SECTOR_FIND. -/
def decodeWord : List Byte → Option Nat
  | [h, l] => some (wordOf h l)
  | _ => none

/-- A payload of one byte: a position or a slot number. -/
def decodeByte : List Byte → Option Nat
  | [b] => some b.toNat
  | _ => none

/-- SECTOR_WALK: `none` inside is a walk from the first, whose start bytes are ignored. -/
def decodeWalk : List Byte → Option (Option Nat)
  | [f, h, l] =>
    match boolOf f with
    | some true => some none
    | some false => some (some (wordOf h l))
    | none => none
  | _ => none

/-- MOTION_SETUP. -/
def decodeMotion : List Byte → Option MotionSettings
  | [a1, a0, b1, b0, c1, c0, d1, d0] =>
    some { arrivalWindow := wordOf a1 a0, defaultLead := wordOf b1 b0, escapePace := wordOf c1 c0,
           jumpLimit := wordOf d1 d0 }
  | _ => none

/-- What TOWER_SET carries: a position, and geometry or CLEAR. -/
structure TowerSetting where
  position : Nat
  geometry : Option Geometry
  deriving DecidableEq, Repr

/-- The 8 geometry bytes in the form of their position: the main line's (one zero byte) or the corner's (two). -/
def decodeGeometry (corner : Bool) : List Byte → Option Geometry
  | [b0, b1, b2, b3, b4, b5, b6, b7] =>
    if corner then
      match Mount.ofByte? b1 with
      | some m => if b6 = 0 ∧ b7 = 0 then some (.corner b0.toNat m (wordOf b2 b3) (signedOf b4 b5)) else none
      | none => none
    else
      match Mount.ofByte? b4 with
      | some m => if b7 = 0 then some (.mainLine b0.toNat (wordOf b1 b2) b3.toNat m (signedOf b5 b6)) else none
      | none => none
  | _ => none

/-- TOWER_SET. For CLEAR the geometry bytes are ignored; for a position outside 1 to 21, which R56 refuses later, they are
read in the main-line form (log 16). -/
def decodeTowerSet : List Byte → Option TowerSetting
  | p :: g :: rest =>
    match boolOf g with
    | some true =>
      if isPositionByte p then
        (decodeGeometry (p.toNat == Config.cornerPos) rest).map fun geo => { position := p.toNat, geometry := some geo }
      else if rest.length = 8 then some { position := p.toNat, geometry := none }
      else none
    | some false => if rest.length = 8 then some { position := p.toNat, geometry := none } else none
    | none => none
  | _ => none
where
  isPositionByte (p : Byte) : Bool := 1 ≤ p.toNat && p.toNat ≤ Config.positions

/-- TOWER_TRIM: a position and a signed value. -/
def decodeTrim : List Byte → Option (Nat × Int)
  | [p, h, l] => some (p.toNat, signedOf h l)
  | _ => none

/-- TOWER_ACK: a position and a set of change flags, bits 5 to 7 zero. -/
def decodeTowerAck : List Byte → Option (Nat × BitVec 5)
  | [p, f] => if f.toNat < 32 then some (p.toNat, f.setWidth 5) else none
  | _ => none

/-- LINK_SETUP. -/
def decodeLink : List Byte → Option LinkSettings
  | [r, m1, m0, n, c, miss, reset, age] =>
    match Rate.ofByte? r, boolOf c with
    | some rate, some corner =>
      some { rate := rate, roundMs := wordOf m1 m0, towers := n.toNat, corner := corner, missLimit := miss.toNat,
             resetLimit := reset.toNat, ageLimit := age.toNat }
    | _, _ => none
  | _ => none

/-- ALIGN_TUNE. -/
def decodeTune : List Byte → Option Tune
  | [g, d, s1, s0, w1, w0, x1, x0, gc, y1, y0, f, t1, t0, n] =>
    some { gain := g.toNat, deadband := d.toNat, slew := wordOf s1 s0, warn := wordOf w1 w0, trip := wordOf x1 x0,
           cornerGain := gc.toNat, swingTrip := wordOf y1 y0, follow := f.toNat, stallThreshold := wordOf t1 t0,
           stallRounds := n.toNat }
  | _ => none

/-- START. -/
def decodeStart : List Byte → Option Direction
  | [d] => Direction.ofByte? d
  | _ => none

/-- A jog speed, which is at most 300 (R143). -/
def jogSpeed (n : Nat) : Option (Fin 301) := if h : n < 301 then some ⟨n, h⟩ else none

/-- JOG; rounds left equals the duration, and a speed above 300 is refused with the payload (R143). -/
def decodeJog : List Byte → Option Jog
  | [p, d, v1, v0, n, m] =>
    match Direction.ofByte? d, JogMode.ofByte? m, jogSpeed (wordOf v1 v0) with
    | some dir, some mode, some speed =>
      some { position := p.toNat, direction := dir, speed := speed, roundsLeft := n.toNat, mode := mode }
    | _, _, _ => none
  | _ => none

/-- TIMING_SETUP: start delay and reversal delay. -/
def decodeTiming : List Byte → Option (Nat × Nat)
  | [a, b] => some (a.toNat, b.toNat)
  | _ => none

/-- What SVC_SUBMIT carries. -/
structure Submission where
  position : Nat
  operation : Operation
  index : Nat
  value : Nat
  deriving DecidableEq, Repr

/-- SVC_SUBMIT (R154): a READ may leave its value out, and the slot holds 0 for it in any case. -/
def decodeSubmit : List Byte → Option Submission
  | [p, o, i] =>
    match Operation.ofByte? o with
    | some .read => some { position := p.toNat, operation := .read, index := i.toNat, value := 0 }
    | _ => none
  | [p, o, i, h, l] =>
    match Operation.ofByte? o with
    | some .read => some { position := p.toNat, operation := .read, index := i.toNat, value := 0 }
    | some .write => some { position := p.toNat, operation := .write, index := i.toNat, value := wordOf h l }
    | none => none
  | _ => none

/-- A set of event flags: 16 bits, of which bits 11 to 15 name no flag (R178, R181, R185). -/
def decodeFlags (h l : Byte) : Option (BitVec 11) :=
  if wordOf h l < 2048 then some (BitVec.ofNat 11 (wordOf h l)) else none

/-- EVT_ACK. -/
def decodeEvtAck : List Byte → Option (BitVec 11)
  | [h, l] => decodeFlags h l
  | _ => none

/-- EVT_ENABLE and EVT_DISABLE: a set and the master mark. -/
def decodeEvtSet : List Byte → Option (BitVec 11 × Bool)
  | [h, l, m] =>
    match decodeFlags h l, boolOf m with
    | some f, some b => some (f, b)
    | _, _ => none
  | _ => none

/-! ### Answers encoded -/

/-- The presence byte of a sector record. -/
def Sector.presence (r : Sector) : Byte :=
  (bit01 r.reversePace.isSome) ||| (bit01 r.lead.isSome <<< 1) ||| (bit01 r.warnLimit.isSome <<< 2)
    ||| (bit01 r.swing.isSome <<< 3) ||| (bit01 r.dwell.isSome <<< 4) ||| (bit01 r.resume.isSome <<< 5)
    ||| (bit01 r.action.isSome <<< 6)

/-- The 24 bytes of a sector record; an absent field's bytes are 0 (R185). -/
def Sector.encode (r : Sector) (width : Nat) : List Byte :=
  word r.start ++ [r.kind.byte, r.presence] ++ word r.pace ++ word (r.reversePace.getD 0) ++ word (r.lead.getD 0)
    ++ word (r.warnLimit.getD 0) ++ word (r.swing.getD (0, 0)).1 ++ word (r.swing.getD (0, 0)).2
    ++ word (r.dwell.getD 0) ++ [(r.resume.map Resume.byte).getD 0, (r.action.map BarrierAction.byte).getD 0]
    ++ [byte r.revision, r.state.byte] ++ word width

/-- The 8 geometry bytes of a tower record; 0 where it holds none (log 15). -/
def encodeGeometry : Option Geometry → List Byte
  | some (.mainLine a r v m t) => [byte a] ++ word r ++ [byte v, m.byte] ++ signedWord t ++ [0]
  | some (.corner a m k o) => [byte a, m.byte] ++ word k ++ signedWord o ++ [0, 0]
  | none => [0, 0, 0, 0, 0, 0, 0, 0]

/-- The three computation flags of a tower record, byte 30. -/
def Tower.flagByte (t : Tower) : Byte :=
  (bit01 t.saturated) ||| (bit01 t.alignWarn <<< 1) ||| (bit01 t.followingFlag <<< 2)

/-- The 33 bytes of a tower record (R74), its swing reading given. -/
def Tower.encode (t : Tower) (position : Nat) (configured : Bool) (swing : List Byte) : List Byte :=
  [byte position, bit01 configured, bit01 t.geometry.isSome] ++ encodeGeometry t.geometry
    ++ [t.state.byte, t.status.setWidth 8] ++ signedWord t.joint ++ swing ++ word t.track ++ word t.lastRound
    ++ [bit01 t.fresh, byte t.miss, byte t.follow, byte t.stall, t.stage.byte] ++ word t.target ++ word t.applied
    ++ [t.flagByte, t.changes.setWidth 8, t.reason.byte]

/-- The 17 bytes of the snapshot (R123). -/
def Snapshot.encode (n : Snapshot) : List Byte :=
  word n.round ++ wordOrNone n.angle ++ [bit01 n.held] ++ word n.pace ++ wordOrNone n.activeKey ++ [byte n.revision]
    ++ wordOrNone n.nextKey ++ wordOrNone n.dist ++ [n.direction.byte, n.machine.byte, causeByte n.cause]

/-- A timer's time left in four bytes. -/
def doubleWord (n : Nat) : List Byte := word (n / 65536) ++ word (n % 65536)

/-- Bytes 9 to 13 of the supervisor record. -/
def Dwell.encode : Dwell → List Byte
  | .stopped => [0] ++ doubleWord 0
  | .running n => [1] ++ doubleWord n
  | .expired => [2] ++ doubleWord 0

/-- Bytes 14 to 16 of the supervisor record. -/
def ReversalWait.encode : ReversalWait → List Byte
  | .none => [0] ++ word 0
  | .awaitingRest => [1] ++ word 0
  | .delay n => [2] ++ word n

/-- Bytes 17 to 23 of the supervisor record. -/
def encodeJog : Option Jog → List Byte
  | some j => [1, byte j.position, j.direction.byte] ++ word j.speed.val ++ [byte j.roundsLeft, j.mode.byte]
  | none => [0, 0, 0, 0, 0, 0, 0]

/-- Bytes 24 to 31 of the supervisor record. An empty trip record is zero bytes; an angle of none is FFFF hex. -/
def encodeTrip : Option Trip → List Byte
  | some t =>
    [byte t.cause.number, byte (t.position.getD 0)] ++ word t.round ++ wordOrNone t.angle ++ word t.further.toNat
  | none => [0, 0, 0, 0, 0, 0, 0, 0]

/-- The 32 bytes of the supervisor record (R151). -/
def Supervisor.encode (u : Supervisor) : List Byte :=
  [u.machine.byte, u.direction.byte, bit01 u.permit, bit01 u.loopClosed, bit01 u.startTimer.isSome]
    ++ word (u.startTimer.getD 0) ++ wordOrNone u.hold.held ++ u.hold.dwell.encode ++ u.reversal.encode
    ++ encodeJog u.jog ++ encodeTrip u.trip

/-- The 13 bytes of a slot record (R160). -/
def Request.encode (r : Request) (slot : Nat) : List Byte :=
  [byte slot, r.state.byte, byte r.position, r.operation.byte, byte r.index] ++ word r.value ++ word r.submission
    ++ [byte r.age, r.code.byte] ++ word (r.result.getD 0)

/-- The 5 bytes of the Event Unit's answer (R182). -/
def Events.encode (e : Events) : List Byte := word e.flags.toNat ++ word e.enables.toNat ++ [bit01 e.master]

end Sys2Proof.Machine
end

