-- ==== Sys2Proof/Machine/Plan.lean ====
section
/-! DEFINITION. The Field Plan Table as data (01_the_field_plan.md): covering record, neighbours and widths, insertion and
removal, and the checks of a record and of a change list. -/

namespace Sys2Proof.Machine

/-! ### Angles -/

/-- The distance from `a` up to `b`, counted round the circle. -/
def upDist (a b : Nat) : Nat := (b + Config.circle - a) % Config.circle

/-- The short-way distance between two angles (R31). -/
def shortDist (a b : Nat) : Nat := min (upDist a b) (upDist b a)

/-- The way the angle moved between two good samples (R36): from, length, and whether it went up. -/
structure Arc where
  origin : Nat
  length : Nat
  up : Bool
  deriving DecidableEq, Repr

/-- The arc from the previous good angle to the new one, the short way round (R36). -/
def arcBetween (prev new : Nat) : Arc :=
  if upDist prev new ≤ Config.circle / 2 then { origin := prev, length := upDist prev new, up := true }
  else { origin := prev, length := upDist new prev, up := false }

/-- How far along the arc an angle lies, in the arc's sense. -/
def Arc.along (a : Arc) (angle : Nat) : Nat := if a.up then upDist a.origin angle else upDist angle a.origin

/-- Whether an angle lies in the arc (R36): going up, above the previous angle and at or below the new one; going down, at
or below the previous angle and above the new one. -/
def Arc.contains (a : Arc) (angle : Nat) : Bool :=
  if a.up then 0 < a.along angle && a.along angle ≤ a.length else a.along angle < a.length

/-! ### Lookups -/

/-- The record with a start angle. -/
def findRecord (plan : List Sector) (key : Nat) : Option Sector := plan.find? (·.start == key)

/-- The covering record of an angle (R7): the greatest start not above it, or else the last record. -/
def covering (plan : List Sector) (angle : Nat) : Option Sector :=
  ((plan.filter (·.start ≤ angle)).getLast?).or plan.getLast?

/-- The record next above a start angle, or the first (R7). -/
def successor (plan : List Sector) (key : Nat) : Option Sector := (plan.find? (key < ·.start)).or plan.head?

/-- The record next below a start angle, or the last (R7). -/
def predecessor (plan : List Sector) (key : Nat) : Option Sector :=
  ((plan.filter (·.start < key)).getLast?).or plan.getLast?

/-- The distance from a start angle to its successor's start, a whole turn when they are the same (R8). -/
def widthFrom (plan : List Sector) (key : Nat) : Nat :=
  match successor plan key with
  | some n => if n.start = key then Config.circle else upDist key n.start
  | none => Config.circle

/-- The width of a record of the plan (R8). -/
def width (plan : List Sector) (r : Sector) : Nat := widthFrom plan r.start

/-- The record being retired, of which there is at most one (R21). -/
def retiringRecord (plan : List Sector) : Option Sector := plan.find? (·.state == .retiring)

/-- The record beyond the boundary ahead (R35). -/
def nextRecord (plan : List Sector) (d : Direction) (key : Nat) : Option Sector :=
  match d with
  | .forward => successor plan key
  | .reverse => predecessor plan key

/-! ### Fields as other blocks use them (R3) -/

/-- The record's pace for a direction of travel. -/
def Sector.paceFor (r : Sector) (d : Direction) : Nat :=
  match d with
  | .forward => r.pace
  | .reverse => r.reversePace.getD r.pace

/-- The distance an angle stands into a record (R38). -/
def Sector.into (r : Sector) (angle : Nat) : Nat := upDist r.start angle

/-- The distance to the boundary ahead (R38). -/
def distAhead (plan : List Sector) (r : Sector) (d : Direction) (angle : Nat) : Nat :=
  match d with
  | .forward => width plan r - r.into angle
  | .reverse => r.into angle

/-! ### Checks of a record (R4) -/

/-- An optional field lies in its range if it is present. -/
def optIn (lo hi : Nat) (v : Option Nat) : Bool := v.all fun n => lo ≤ n && n ≤ hi

/-- A start angle or angle lies on the circle. -/
def isAngle (n : Nat) : Bool := n < Config.circle

/-- A swing pair's angles lie in their range. -/
def swingIn (p : Nat × Nat) : Bool := p.1 ≤ 9000 && p.2 ≤ 9000

/-- Every field present lies in its range (R2, R4). -/
def Sector.inRange (r : Sector) : Bool :=
  isAngle r.start && r.pace ≤ 1000 && optIn 0 1000 r.reversePace && optIn 0 3000 r.lead && optIn 50 1500 r.warnLimit
    && r.swing.all swingIn && optIn 0 43200 r.dwell

/-- The fields a kind requires are present and those it does not allow are absent (R2, R4). -/
def Sector.shapeOk (r : Sector) : Bool :=
  match r.kind with
  | .run => r.dwell.isNone && r.resume.isNone && r.action.isNone
  | .hold => r.dwell.isSome && r.resume.isSome && r.action.isNone
  | .barrier => r.dwell.isNone && r.resume.isNone && r.action.isSome

/-- R4's check of a record by itself. -/
def Sector.valid (r : Sector) : Bool := r.inRange && r.shapeOk

/-! ### Changes of the table -/

/-- Insert a record at its place in ascending order (R13). -/
def insertRecord (r : Sector) : List Sector → List Sector
  | [] => [r]
  | q :: rest => if r.start < q.start then r :: q :: rest else q :: insertRecord r rest

/-- Remove the record with a start angle (R19). -/
def removeKey (key : Nat) (plan : List Sector) : List Sector := plan.filter (·.start != key)

/-- Replace the record with the same start angle, at the same place (R16). -/
def replaceRecord (r : Sector) (plan : List Sector) : List Sector :=
  plan.map fun q => if q.start = r.start then r else q

/-- R12's fifth check: the new record and the one it splits are each wide enough. -/
def wideEnough (plan : List Sector) (key : Nat) : Bool :=
  match covering plan key with
  | none => true
  | some c => Config.minWidth ≤ widthFrom plan key && Config.minWidth ≤ upDist c.start key

/-! ### Change lists (R14, R16) -/

/-- A change sets a field within its range (R14). -/
def Change.inRange : Change → Bool
  | .kind _ => true
  | .pace v => v ≤ 1000
  | .reversePace v => optIn 0 1000 v
  | .lead v => optIn 0 3000 v
  | .warnLimit v => optIn 50 1500 v
  | .swing v => v.all swingIn
  | .dwell v => optIn 0 43200 v
  | .resume _ => true
  | .action _ => true

/-- R14's check of the list's form: 1 to 9 changes, each of a different field, each in range. -/
def changesOk (cs : List Change) : Bool :=
  1 ≤ cs.length && cs.length ≤ 9 && decide (cs.map Change.field).Nodup && cs.all Change.inRange

/-- The fields that the record's kind does not allow are removed (R16). -/
def Sector.dropDisallowed (r : Sector) : Sector :=
  match r.kind with
  | .run => { r with dwell := none, resume := none, action := none }
  | .hold => { r with action := none }
  | .barrier => { r with dwell := none, resume := none }

/-- One change applied to a record. -/
def Sector.applyChange (r : Sector) : Change → Sector
  | .kind k => { r with kind := k }
  | .pace v => { r with pace := v }
  | .reversePace v => { r with reversePace := v }
  | .lead v => { r with lead := v }
  | .warnLimit v => { r with warnLimit := v }
  | .swing v => { r with swing := v }
  | .dwell v => { r with dwell := v }
  | .resume v => { r with resume := v }
  | .action v => { r with action := v }

/-- The record that results from an amendment, but for its revision (R16): every change of the list together, and, where
they change the kind, without the fields the new kind does not allow (log 32). -/
def Sector.amended (r : Sector) (cs : List Change) : Sector :=
  let changed := cs.foldl Sector.applyChange r
  if changed.kind = r.kind then changed else changed.dropDisallowed

end Sys2Proof.Machine
end

