-- ==== Sys2Proof/Machine/Ops.lean ====
section
/-! DEFINITION. The operations that blocks share: tower records, slots of the service table, the line and BREAK, removal of
a sector record, the change of machine state with everything it brings, holds, and the trip. -/

namespace Sys2Proof.Machine

/-! ### Tower records -/

/-- What a position that is not part of the machine, or no position at all, reads as. -/
def vacantTower : Tower := Tower.cleared none .vacant

/-- The tower record of a position. -/
def State.tower (s : State) (p : Nat) : Tower :=
  if h : 1 ≤ p ∧ p ≤ Config.positions then s.roster[p - 1] else vacantTower

/-- Write the tower record of a position. -/
def State.setTower (s : State) (p : Nat) (t : Tower) : State :=
  if h : 1 ≤ p ∧ p ≤ Config.positions then { s with roster := s.roster.set (p - 1) t } else s

/-- Change the tower record of a position. -/
def State.modTower (s : State) (p : Nat) (f : Tower → Tower) : State := s.setTower p (f (s.tower p))

/-- Change every tower record, by position. -/
def State.mapTowers (s : State) (f : Nat → Tower → Tower) : State :=
  { s with roster := s.roster.mapIdx fun i t => f (i + 1) t }

/-- Whether a position is configured (R55). -/
def LinkSettings.isConfigured (l : LinkSettings) (p : Nat) : Bool :=
  (1 ≤ p && p ≤ l.towers) || (p == Config.cornerPos && l.corner)

/-- The configured positions in ascending order (R84). -/
def LinkSettings.positions (l : LinkSettings) : List Nat :=
  List.range' 1 l.towers ++ if l.corner then [Config.cornerPos] else []

/-- Whether a position is configured (R55). -/
def State.isConfigured (s : State) (p : Nat) : Bool := s.link.settings.isConfigured p

/-- Whether a position is the end tower (R55). -/
def State.isEnd (s : State) (p : Nat) : Bool := p == s.link.settings.towers && p != 0

/-- The link address of a tower; 0, which no drive unit has, where it holds no geometry (log 18). -/
def Tower.address (t : Tower) : Nat :=
  match t.geometry with
  | some (.mainLine a _ _ _ _) => a
  | some (.corner a _ _ _) => a
  | none => 0

/-- Whether a tower is driven (R69). -/
def Tower.isDriven (t : Tower) : Bool := t.state == .driving || t.state == .following

/-- What leaving the driven states does to a record (R69). -/
def Tower.zeroed (t : Tower) : Tower :=
  { t with target := 0, applied := 0, saturated := false, alignWarn := false, followingFlag := false }

/-- Move a tower to a state outside the driven ones, zeroing its commands if it was driven (R69). -/
def Tower.leaveTo (t : Tower) (st : TowerState) : Tower :=
  { (if t.isDriven then t.zeroed else t) with state := st }

/-- Entry to DRIVING (R69). -/
def Tower.drive (t : Tower) : Tower := { t with state := .driving, follow := 0, stall := 0 }

/-- Set a change flag of a tower; one that goes from clear to set raises TOWER_CHANGE (R72). -/
def setChange (p : Nat) (f : ChangeFlag) (s : State) : State :=
  if (s.tower p).hasChange f then s
  else raise .towerChange (s.modTower p fun t => { t with changes := t.changes ||| f.bit })

/-! ### Slots of the Service Request Table -/

/-- The request in a slot; `none` for a FREE slot or no slot at all. -/
def Service.slot (v : Service) (n : Nat) : Option Request :=
  if h : 1 ≤ n ∧ n ≤ Config.slots then v.slots[n - 1] else none

/-- Write a slot. -/
def Service.setSlot (v : Service) (n : Nat) (r : Option Request) : Service :=
  if h : 1 ≤ n ∧ n ≤ Config.slots then { v with slots := v.slots.set (n - 1) r } else v

/-- Take a slot out of the submission order (R153). -/
def Service.leaveOrder (v : Service) (n : Nat) : Service := { v with order := v.order.filter (· != n) }

/-! ### Exchanges on the line -/

/-- The classes of outcome (R94). A GOOD outcome carries the reply. -/
inductive LineOutcome where
  | good (reply : List Byte)
  | noReply | check | late | wrongAddress | abandoned | skipped
  deriving DecidableEq, Repr

/-- The reserved occupancy of an exchange (R83). -/
def Owner.reserve : Owner → Nat
  | .poll _ => Config.pollReserve
  | .reset _ => Config.resetReserve
  | .service _ => Config.serviceReserve

/-- The characters of an exchange's request (R83). -/
def Owner.requestLength : Owner → Nat
  | .poll _ => 8
  | .reset _ => 4
  | .service _ => 7

/-- The characters of an exchange's reply (R92). -/
def Owner.replyLength : Owner → Nat
  | .poll _ => 10
  | .reset _ => 4
  | .service _ => 7

/-- Whether nothing is on the line: no exchange, and no BREAK being sent or waiting for a quiet line. -/
def Link.free (l : Link) : Bool :=
  l.exchange.isNone && (match l.brk with | .none | .pending => true | .waiting _ _ | .sending _ => false)

/-- The level of SPAN_DIR: whether the PM-420 drives the line (R79). It does while it sends a request and in the active half of
a BREAK. In the idle half, in which the controller sends nothing (R95), it has released the line: the model's choice
(DESIGN CHOICE, log 34). -/
def Link.spanDir (l : Link) : Bool :=
  (match l.exchange with | some x => x.step == .sending | none => false)
    || (match l.brk with | .sending n => n < 2 | .none | .waiting _ _ | .pending => false)

/-- The bits of an exchange's request in their order on the line, its characters back to back (R79). -/
def Exchange.requestBits (x : Exchange) : List Bool := x.request.flatMap characterBits

/-- The level of SPAN_TX in a bit time, 0 to 9, of the present character time, `true` the line's idle level (R79, R95): the
active half of a BREAK, a request's bits, and the idle level otherwise. -/
def Link.spanTx (l : Link) (bit : Nat) : Bool :=
  match l.brk, l.exchange with
  | .sending n, _ => 2 ≤ n
  | _, some x => if x.step = .sending then x.requestBits.getD (10 * x.used + bit) true else true
  | _, none => true

/-- The bits per second of a rate (R79). -/
def Rate.bits : Rate → Nat
  | .r9600 => 9600
  | .r19200 => 19200
  | .r38400 => 38400

/-- The round's budget B (R81): floor(round length in ms × rate / 10000). -/
def LinkSettings.budget (l : LinkSettings) : Nat := l.roundMs * l.rate.bits / 10000

/-! ### The end of a service request -/

/-- What the outcome of a SERVICE exchange makes of its slot (R158): state, result code, result value. -/
def serviceEnd : LineOutcome → SlotState × ResultCode × Option Nat
  | .good reply =>
    match reply with
    | _ :: _ :: code :: h :: l :: _ =>
      if code = 0 then (.done, .ok, some (wordOf h l)) else (.failed, .unitRefused, some code.toNat)
    | _ => (.failed, .check, none)
  | .noReply => (.failed, .noReply, none)
  | .abandoned => (.failed, .abandoned, none)
  | .check | .wrongAddress | .late | .skipped => (.failed, .check, none)

/-- The outcome of a SERVICE exchange reaches its slot (R158, R163). -/
def serviceOutcome (n : Nat) (o : LineOutcome) (s : State) : State :=
  match s.svc.slot n with
  | some r =>
    match r.state with
    | .sent =>
      let (st, code, value) := serviceEnd o
      raise .serviceDone { s with svc := s.svc.setSlot n (some { r with state := st, code := code, result := value }) }
    | .cancelling => { s with svc := s.svc.setSlot n none }
    | .queued | .done | .failed => s
  | none => s

/-! ### BREAK (R95 to R97) -/

/-- BREAK goes out on the line. -/
def Link.sendBreak (l : Link) : Link := { l with brk := .sending 0 }

/-- BREAK follows on the free line if the round remaining is 4 or more, and becomes PENDING otherwise (R96). Outside
rounds it is sent whatever the round remaining (R103, R104). -/
def Link.breakOnFree (l : Link) : Link :=
  if !l.running || Config.breakReserve ≤ l.remaining then l.sendBreak else { l with brk := .pending }

/-- The wait for a quiet line after the reply of an exchange has been cut short (R96): until the reservation is used up, or
until the line has been idle for 2 character times. The drive unit is taken to send the rest of its reply without a gap
unless a row says otherwise (log 9). -/
def Exchange.quietWait (x : Exchange) : BreakState :=
  .waiting (x.owner.reserve - x.used) (x.replyAt + x.owner.replyLength - x.used + Config.quietTime)

/-- The exchange on the line is cut short for a BREAK (R96): it leaves the line, and BREAK follows, after a quiet line if
its reply was arriving. -/
def Link.cutShort (l : Link) (x : Exchange) : Link :=
  match x.step with
  | .sending | .awaiting => { l with exchange := none }.breakOnFree
  | .receiving => { l with exchange := none, brk := x.quietWait }

/-- The outcome ABANDONED is delivered to an exchange's owner (R96, R68, R76, R158); one marked by OFFLINE is delivered to
none (R103). -/
def deliverAbandoned (x : Exchange) (s : State) : State :=
  if x.discard then s
  else
    match x.owner with
    | .poll _ | .reset _ => s
    | .service n => serviceOutcome n .abandoned s

/-- The supervisor asks for BREAK (R96, R97). A request taken while a BREAK waits for a quiet line, which R97 does not name, is
served by the awaited one (DESIGN CHOICE, log 38). -/
def requestBreak (s : State) : State :=
  if s.link.running then
    match s.link.brk with
    | .none =>
      match s.link.exchange with
      | none => { s with link := s.link.breakOnFree }
      | some x => deliverAbandoned x { s with link := s.link.cutShort x }
    | .waiting _ _ | .pending | .sending _ => s
  else s

/-! ### Removal of a sector record (R19, R21) -/

/-- A record leaves the table: a hold on it becomes a manual hold, and a hold-served mark on it clears. -/
def removeRecord (key : Nat) (s : State) : State :=
  { s with
    plan := removeKey key s.plan
    sup := { s.sup with hold := if s.sup.hold.held = some key then Hold.cleared else s.sup.hold }
    tracker := { s.tracker with served := if s.tracker.served.map Prod.fst = some key then none else s.tracker.served } }

/-- A deferred retirement completes (R21). -/
def completeRetirement (s : State) : State :=
  match retiringRecord s.plan with
  | some r => raise .retireDone (removeRecord r.start s)
  | none => s

/-! ### Machine states (R127, R128) -/

/-- The motion states (R127). -/
def MachineState.isMotion : MachineState → Bool
  | .starting | .running | .holding | .reversing | .stopping | .jogging => true
  | .setup | .standby | .tripped => false

/-- Whether the machine is in a motion state. -/
def State.inMotion (s : State) : Bool := s.sup.machine.isMotion

/-- What leaving a state for `new` does (R128). -/
def Supervisor.depart (u : Supervisor) (new : MachineState) : Supervisor :=
  match u.machine with
  | .starting => { u with startTimer := none }
  | .holding => { u with hold := .cleared }
  | .reversing => { u with reversal := .none }
  | .jogging => if new = .stopping then u else { u with jog := none }
  | .stopping => { u with jog := none }
  | .setup | .standby | .running | .tripped => u

/-- The run permit after a change of state (R127). -/
def permitAfter (old new : MachineState) (permit : Bool) : Bool :=
  if old.isMotion = new.isMotion then permit else new.isMotion

/-- The supervisor's own part of a change of state. -/
def Supervisor.moveTo (u : Supervisor) (new : MachineState) : Supervisor :=
  { u.depart new with machine := new, permit := permitAfter u.machine new u.permit }

/-- Every DRIVING or FOLLOWING tower becomes ONLINE with its commands zeroed (R69). -/
def releaseTowers (s : State) : State := s.mapTowers fun _ t => if t.isDriven then t.leaveTo .online else t

/-- What entry to a standing state does besides (R128): a RETIRING record is removed, escape clears; P is 0 (R54). -/
def enterStanding (s : State) : State :=
  completeRetirement { s with tracker := { s.tracker with escape := none, pace := 0 } }

/-- What entry to the new state does to the roster, the plan and the tracker (R128). No tower is driven outside the motion
states (R69), so the release changes nothing on an entry from a standing state. Entry to SETUP is OFFLINE's or RESTART's,
which clear the towers themselves (R78). -/
def entryEffects (new : MachineState) (s : State) : State :=
  match new with
  | .standby =>
    let s := enterStanding (releaseTowers s)
    { s with tracker := { s.tracker with served := none } }
  | .tripped => enterStanding (releaseTowers s)
  | .setup => enterStanding s
  | .starting | .running | .holding | .reversing | .stopping | .jogging => s

/-- A change of machine state, with everything R127 and R128 give it that does not need the cause. -/
def changeState (new : MachineState) (s : State) : State :=
  raise .machineState (entryEffects new { s with sup := s.sup.moveTo new })

/-! ### Holds (R136, R137) -/

/-- The dwell timer expires in HOLDING (R137): the held record's resume is read as it stands. -/
def dwellExpires (s : State) : State :=
  match (s.sup.hold.held.bind (findRecord s.plan)).bind Sector.resume with
  | some .auto => changeState .running s
  | _ => { s with sup := { s.sup with hold := { s.sup.hold with dwell := .expired } } }

/-- The dwell timer starts from a value in seconds; from 0 it expires at once (R129, R136). -/
def startDwell (seconds : Nat) (s : State) : State :=
  if seconds = 0 then dwellExpires s
  else { s with sup := { s.sup with hold := { s.sup.hold with dwell := .running (10 * seconds) } } }

/-- The supervisor takes an arrival at a HOLD record (R136). -/
def arriveAtHold (r : Sector) (s : State) : State :=
  let s := changeState .holding s
  startDwell (r.dwell.getD 0) { s with sup := { s.sup with hold := { held := some r.start, dwell := .stopped } } }

/-- The hold under way becomes a manual hold (R139, R19, R138). -/
def manualHold (s : State) : State := { s with sup := { s.sup with hold := .cleared } }

/-- The machine turns back (R141). -/
def beginReversal (s : State) : State :=
  let s := changeState .reversing s
  { s with sup := { s.sup with reversal := .awaitingRest } }

/-- The supervisor takes an arrival at a BARRIER record (R44, R141). -/
def arriveAtBarrier (r : Sector) (s : State) : State :=
  match r.action with
  | some .stop => changeState .stopping s
  | _ => beginReversal s

/-! ### Trips (R146 to R148) -/

/-- The trip record filled by the first request (R147). -/
def State.tripRecord (s : State) (cause : TripCause) (position : Option Nat) : Trip :=
  { cause := cause, position := position, round := s.link.round, angle := s.tracker.lastGood, further := 0 }

/-- A trip request taken in a motion state (R146). -/
def takeTrip (cause : TripCause) (position : Option Nat) (s : State) : State :=
  let record := s.tripRecord cause position
  let s := changeState .tripped s
  let s := s.mapTowers fun p t => if s.isConfigured p then { t with applied := 0 } else t
  requestBreak (raise .trip { s with sup := { s.sup with trip := some record } })

/-- A trip request taken in TRIPPED adds its cause to the further causes (R147). -/
def addCause (cause : TripCause) (s : State) : State :=
  { s with sup := { s.sup with trip := s.sup.trip.map fun t => { t with further := t.further ||| cause.bit } } }

/-- A block makes a trip request (R146 to R148). -/
def tripRequest (cause : TripCause) (position : Option Nat) (s : State) : State :=
  match s.sup.machine with
  | .starting | .running | .holding | .reversing | .stopping | .jogging => takeTrip cause position s
  | .tripped => addCause cause s
  | .setup | .standby => s

end Sys2Proof.Machine
end

