-- ==== Sys2Proof/Machine/Port.lean ====
section
/-! DEFINITION. The command and response slots of the Command Link Port (08_the_command_link.md), through which every
command is taken and answered. -/

namespace Sys2Proof.Machine

/-- What the block that owns a command does with its payload: its effect and its answer. -/
abbrev Handler := List Byte → State → State × Answer

/-- A response frame enters the response slot and RDY rises; the command slot becomes EMPTY (R166, R169, R170). -/
def State.respond (s : State) (frame : List Byte) : State :=
  { s with port := { s.port with command := none, response := some frame, rdy := true, dropped := false } }

/-- The start of a transaction takes the waiting answer out of the response slot (R165). -/
def State.fetch (s : State) : State := { s with port := { s.port with response := none, rdy := false } }

/-- The owning block takes a command with its payload, and its answer enters the response slot. -/
def finishCommand (code : Byte) (h : Handler) (payload : List Byte) (s : State) : State :=
  let (t, a) := h payload s
  t.respond (a.frame code)

/-- The owning block takes the command of a frame given by itself (log 6). The transaction that carried the frame took the
waiting answer out at its start (R165), which no block sees, so the answer enters an EMPTY slot and overwrites none. -/
def finishFrame (code : Byte) (h : Handler) (payload : List Byte) (s : State) : State :=
  let (t, a) := h payload s
  t.fetch.respond (a.frame code)

/-- Whether the port is between transactions: none is in progress, power-on reset is not in force, and SEL is not low from a
fall during it (R176). -/
def Port.isBetween (p : Port) : Bool := p.transaction.isNone && p.mask == .clear

/-- Whether the command with this code and payload can be carried out now: it is the one in the command slot, or, for a
command given by itself, the port is between transactions with its command slot EMPTY (log 6). -/
abbrev State.takes (s : State) (code : Byte) (payload : List Byte) : Prop :=
  s.port.command = some { code := code, payload := payload } ∨
    (s.port.command = none ∧ s.port.transaction = none ∧ s.port.mask = .clear)

/-- The carrying out of one command (R169). The command slot's payload is the command's; with the slot EMPTY and the port
between transactions the operand stands for the frame and the transaction that carried it (log 6). In any other state the
command is not being executed and nothing happens. -/
def carryOut (code : Byte) (h : Handler) (payload : List Byte) (s : State) : State :=
  match s.port.command with
  | some c => if c.code = code then finishCommand code h c.payload s else s
  | none => if s.port.isBetween then finishFrame code h payload s else s

/-- A command that carries no payload (R169). -/
def plainHandler (f : State → State × Answer) : Handler := fun p s =>
  if noPayload p then f s else (s, .refuse .badValue)

/-- A command whose payload decodes to its operands, or is refused BAD_VALUE (R169, R185). -/
def decodedHandler {α : Type} (decode : List Byte → Option α) (f : α → State → State × Answer) : Handler := fun p s =>
  match decode p with
  | some a => f a s
  | none => (s, .refuse .badValue)

end Sys2Proof.Machine
end

