-- ==== Sys2Proof/Machine/Tracker.lean ====
section
/-! DEFINITION. The Sector Tracker (02_following_the_field.md): the refresh of its view, the judgement of a sample, arrivals
and passages, escape, the hand-over to the Alignment Engine, MOTION_SETUP, and the rows ANGLE_SAMPLE and ANGLE_LOSS. -/

namespace Sys2Proof.Machine

/-! ### The view (R35, R38 to R40) -/

/-- Whether a HOLD record has been served: its key is the hold-served mark's (R39). -/
def Tracker.isServed (t : Tracker) (key : Nat) : Bool := t.served.map Prod.fst == some key

/-- The next pace: 0 toward a BARRIER or an unserved HOLD (R39). -/
def Tracker.paceToward (t : Tracker) (r : Sector) (d : Direction) : Nat :=
  match r.kind with
  | .run => r.paceFor d
  | .hold => if t.isServed r.start then r.paceFor d else 0
  | .barrier => 0

/-- What a refresh finds from an angle and the table as it stands. -/
def viewAt (s : State) (angle : Nat) : Option View :=
  match covering s.plan angle with
  | none => none
  | some r =>
    let next := (nextRecord s.plan s.sup.direction r.start).getD r
    some
      { activeKey := r.start, revision := r.revision, nextKey := next.start,
        dist := distAhead s.plan r s.sup.direction angle, currentPace := r.paceFor s.sup.direction,
        nextPace := s.tracker.paceToward next s.sup.direction,
        lead := min (next.lead.getD s.tracker.settings.defaultLead) (width s.plan r),
        warnLimit := r.warnLimit, swing := r.swing, into := r.into angle, width := width s.plan r }

/-- The active record key. -/
def Tracker.activeKey (t : Tracker) : Option Nat := t.view.map View.activeKey

/-- Find the next record, the distance, the paces and the lead from the last good angle (R35; none without one). -/
def updateView (s : State) : State :=
  { s with tracker := { s.tracker with view := s.tracker.lastGood.bind (viewAt s) } }

/-- Step 7 of R32: the next record, the distance, the paces and the lead are found from the table as it stands. The active
record key and its revision stay those of the record that step 1 found (R35), also where the OVERRUN trip of step 6 has
removed that record (R21); then the other fields are those of the record that now covers the angle (DESIGN CHOICE, log 33). -/
def findView (cover : Option Sector) (s : State) : State :=
  { s with tracker := { s.tracker with
    view := (s.tracker.lastGood.bind (viewAt s)).map fun v =>
      match cover with
      | some c => { v with activeKey := c.start, revision := c.revision }
      | none => v } }

/-- A crossing: SECTOR_CROSSED is raised and the held swing's capture becomes pending (R36, R51). -/
def noteCrossing (s : State) : State :=
  raise .sectorCrossed { s with tracker := { s.tracker with capturePending := true } }

/-- R36's first case: the tracker held an active record key and the covering record found now is a different record. -/
def changedRecord (before : Option Nat) (now : Option Sector) : Bool :=
  match before, now with
  | some k, some r => r.start != k
  | _, _ => false

/-- The record that covers the last good angle, looked up in the table as it stands (R9). -/
def State.coveringRecord (s : State) : Option Sector := s.tracker.lastGood.bind (covering s.plan)

/-- A refresh of the tracker's view without a new angle (R35): the crossing test is for a change of record only (R36). -/
def refresh (s : State) : State :=
  let crossed := changedRecord s.tracker.activeKey s.coveringRecord
  updateView (if crossed then noteCrossing s else s)

/-! ### Arrival (R42 to R44) -/

/-- The hold-served mark is set to a record's key with the key of the active record (R43, R46, R49). -/
def markServed (key active : Nat) (s : State) : State :=
  { s with tracker := { s.tracker with served := some (key, active) } }

/-- An arrival at a HOLD record (R43): the mark, the ARRIVAL flag, and the signal to the supervisor. -/
def arriveHold (r : Sector) (active : Nat) (s : State) : State :=
  arriveAtHold r (raise .arrival (markServed r.start active s))

/-- The arrival check (R42), made from the view just refreshed. The record ahead is looked up by the view's key. -/
def arrivalCheck (s : State) : State :=
  match s.tracker.view with
  | none => s
  | some v =>
    if v.dist ≤ s.tracker.settings.arrivalWindow then
      match findRecord s.plan v.nextKey with
      | none => s
      | some r =>
        match r.kind with
        | .run => s
        | .hold => if s.tracker.isServed r.start then s else arriveHold r v.activeKey s
        | .barrier => arriveAtBarrier r (raise .arrival s)
    else s

/-! ### Samples (R30 to R34) -/

/-- Whether a sample is good (R31). -/
def goodSample? (t : Tracker) (angle : Nat) (valid : Bool) : Bool :=
  valid && isAngle angle && (match t.lastGood with
    | some a => shortDist a angle ≤ t.settings.jumpLimit
    | none => true)

/-- The tracker gives the angle up (R34). The capture-pending mark of the held swing stays as it was: R34 names the held swing
alone (DESIGN CHOICE, log 37). -/
def giveUpAngle (s : State) : State :=
  { s with tracker := { s.tracker with lastGood := none, angleUsed := none, held := false, view := none,
                                       heldSwing := none } }

/-- The arrival check of a sample, for a machine that was RUNNING when the sample was taken (R32, R33). -/
def arrivalCheckIf (ok : Bool) (s : State) : State :=
  if ok && s.tracker.escape.isNone then arrivalCheck s else s

/-- What a second bad sample in a row does (R34), by the machine state at the sample. -/
def angleLost (moving : Bool) (s : State) : State :=
  if 2 ≤ s.tracker.badCount then (if moving then tripRequest .angleLoss none s else giveUpAngle s) else s

/-- A bad sample (R33, R34). -/
def badSample (s : State) : State :=
  let moving := s.inMotion
  let running := s.sup.machine == .running
  let s := raise .angle { s with tracker := { s.tracker with
    badCount := min Config.badCountTop (s.tracker.badCount + 1) } }
  match s.tracker.lastGood with
  | none => s
  | some a =>
    let s := refresh { s with tracker := { s.tracker with angleUsed := some a, held := true } }
    angleLost moving (arrivalCheckIf running s)

/-- Where the arc comes into a record (R46): its own start going up, its successor's start going down. -/
def entryBoundary (plan : List Sector) (arc : Arc) (r : Sector) : Nat :=
  if arc.up then r.start else ((successor plan r.start).getD r).start

/-- Whether a record is entered in the arc (R46). -/
def enteredIn (plan : List Sector) (arc : Arc) (r : Sector) : Bool := arc.contains (entryBoundary plan arc r)

/-- Of the records, the one whose boundary the arc meets first. -/
def firstMet (plan : List Sector) (arc : Arc) (rs : List Sector) : Option Sector :=
  rs.foldl (fun best r =>
    match best with
    | none => some r
    | some b => if arc.along (entryBoundary plan arc r) < arc.along (entryBoundary plan arc b) then some r else best)
    none

/-- Whether any BARRIER record is entered in the arc (R46, check 1). -/
def barrierPassed (plan : List Sector) (arc : Arc) : Bool :=
  plan.any fun r => r.kind == .barrier && enteredIn plan arc r

/-- The unserved HOLD record, other than the covering one, that the arc meets first (R46, check 2). -/
def holdPassed (s : State) (arc : Arc) (cover : Sector) : Option Sector :=
  firstMet s.plan arc
    (s.plan.filter fun r =>
      r.kind == .hold && r.start != cover.start && !s.tracker.isServed r.start && enteredIn s.plan arc r)

/-- The HOLD record that checks 2 and 3 of R46 act on, if any: one passed through, or else the covering record where the
sample found a crossing by a change of record into it. -/
def holdMet (arc : Arc) (cover : Sector) (changed : Bool) (s : State) : Option Sector :=
  (holdPassed s arc cover).or
    (if changed = true ∧ cover.kind = .hold ∧ s.tracker.isServed cover.start = false then some cover else none)

/-- The checks for records passed over (R46) and for a sample inside a BARRIER (R47), with whether they made a trip
request or an arrival. `changed` says that the sample found a crossing by a change of record. -/
def passedOver (arc : Arc) (cover : Sector) (changed : Bool) (s : State) : State × Bool :=
  if barrierPassed s.plan arc then (tripRequest .overrun none s, true)
  else
    let met := holdMet arc cover changed s
    let s := match met with
      | some h => arriveHold h cover.start s
      | none => s
    if cover.kind = .barrier then (tripRequest .overrun none s, true) else (s, met.isSome)

/-- Step 2 of R32: a RETIRING record other than the covering one is removed (R21). -/
def leaveRetiring (cover : Option Sector) (s : State) : State :=
  match retiringRecord s.plan, cover with
  | some r, some c => if r.start = c.start then s else completeRetirement s
  | _, _ => s

/-- R36's test at a good sample: a change of record, or the start of the same record in the arc traversed. -/
def crossedAt (before : Option Nat) (cover : Option Sector) (arc : Option Arc) : Bool :=
  match before, cover with
  | some k, some r =>
    r.start != k || (match arc with
      | some a => a.contains r.start
      | none => false)
  | _, _ => false

/-- Step 4 of R32: the first good sample outside the escaped BARRIER clears escape, and a HOLD found there counts as
served (R49). -/
def leaveEscape (cover : Option Sector) (s : State) : State :=
  match s.tracker.escape, cover with
  | some b, some c =>
    if c.start = b then s
    else
      let s := { s with tracker := { s.tracker with escape := none } }
      if c.kind = .hold then markServed c.start c.start s else s
  | _, _ => s

/-- Step 5 of R32: the hold-served mark clears at a covering record that is neither of its two (R45). -/
def clearServed (cover : Option Sector) (s : State) : State :=
  match s.tracker.served, cover with
  | some (h, a), some c =>
    if c.start = h ∨ c.start = a then s else { s with tracker := { s.tracker with served := none } }
  | _, _ => s

/-- Step 6 of R32, for a machine RUNNING with escape clear: what it leaves, and whether it made a request or an arrival. -/
def passageChecks (running : Bool) (arc : Option Arc) (cover : Option Sector) (changed : Bool) (s : State) : State × Bool :=
  match arc, cover with
  | some a, some c => if running && s.tracker.escape.isNone then passedOver a c changed s else (s, false)
  | _, _ => (s, false)

/-- A good sample (R32), its eight steps in order. -/
def goodSample (angle : Nat) (s : State) : State :=
  let running := s.sup.machine == .running
  let before := s.tracker.activeKey
  let arc := s.tracker.lastGood.map fun a => arcBetween a angle
  let s := { s with tracker := { s.tracker with
    lastGood := some angle, angleUsed := some angle, held := false, badCount := 0,
    capturePending := s.tracker.capturePending || s.tracker.lastGood.isNone } }
  let cover := covering s.plan angle
  let s := leaveRetiring cover s
  let s := if crossedAt before cover arc then noteCrossing s else s
  let s := clearServed cover (leaveEscape cover s)
  let (s, acted) := passageChecks running arc cover (changedRecord before cover) s
  arrivalCheckIf (running && !acted) (findView cover s)

/-- An answer of the angle port (R30): the first of the round is its sample, any other is discarded. -/
def takeAnswer (angle : Nat) (valid : Bool) (s : State) : State :=
  if s.tracker.awaiting then
    let s := { s with tracker := { s.tracker with awaiting := false } }
    if goodSample? s.tracker angle valid then goodSample angle s else badSample s
  else s

/-- No answer by the poll-phase completion: the round's sample is bad (R30). -/
def missingSample (s : State) : State :=
  if s.tracker.awaiting then badSample { s with tracker := { s.tracker with awaiting := false } } else s

/-! ### Poll-phase completion (R41, R50 to R52) -/

/-- A rate of change over a ramp, truncated toward zero: `trunc(a × b / c)`. -/
def truncRatio (a b c : Int) : Int := (a * b).tdiv c

/-- The effective pace of a view (R41, escape clear in RUNNING). -/
def View.rampPace (v : View) : Nat :=
  if v.lead = 0 ∨ v.lead ≤ v.dist then v.currentPace
  else
    ((v.currentPace : Int)
      + truncRatio ((v.nextPace : Int) - v.currentPace) ((v.lead : Int) - v.dist) v.lead).toNat

/-- The effective pace P (R41). -/
def effectivePace (s : State) : Nat :=
  if s.sup.machine = .running then
    if s.tracker.escape.isSome then s.tracker.settings.escapePace
    else
      match s.tracker.view with
      | some v => v.rampPace
      | none => 0
  else 0

/-- The swing offset in force at a tower record; 0 where it holds no corner geometry (log 18). -/
def Tower.swingOffset (t : Tower) : Int :=
  match t.geometry with
  | some (.corner _ _ _ o) => o
  | some (.mainLine _ _ _ _ _) => 0
  | none => 0

/-- The measured swing: the reported swing less the swing offset in force (R59, R114). -/
def Tower.measuredSwing (t : Tower) : Int := t.joint - t.swingOffset

/-- A value clamped to a range. -/
def clampInt (lo hi x : Int) : Int := max lo (min hi x)

/-- The capture of the held swing at a poll-phase completion (R51): the corner tower has a clean reading. -/
def captureSwing (s : State) : State :=
  let t := s.tower Config.cornerPos
  if s.tracker.capturePending && s.link.settings.corner && t.fresh then
    { s with tracker := { s.tracker with heldSwing := some (clampInt 0 9000 t.measuredSwing).toNat,
                                         capturePending := false } }
  else s

/-- The swing target between the angles of a pair (R50). -/
def swingBetween (first last into width : Nat) : Nat :=
  ((first : Int) + truncRatio ((last : Int) - first) into width).toNat

/-- The swing target, or none (R50, R51). -/
def swingTarget (s : State) : Option Nat :=
  if s.link.settings.corner then
    match s.tracker.view with
    | some v =>
      match v.swing with
      | some (a, b) => some (swingBetween a b v.into v.width)
      | none => s.tracker.heldSwing
    | none => s.tracker.heldSwing
  else none

/-- The tracker's part of a poll-phase completion, before the roster's (R30, R88). -/
def trackerCompletes (s : State) : State := missingSample s

/-- The hand-over of the effective pace (R41, R52), after the capture of the held swing (R51). -/
def handOver (s : State) : State :=
  let s := captureSwing s
  { s with tracker := { s.tracker with pace := effectivePace s } }

/-! ### Direction and escape at START (R37, R48) -/

/-- The direction of travel changes and the tracker refreshes its view to face it (R37). -/
def changeDirection (d : Direction) (s : State) : State := refresh { s with sup := { s.sup with direction := d } }

/-- The opposite direction. -/
def Direction.flip : Direction → Direction
  | .forward => .reverse
  | .reverse => .forward

/-- Whether START may leave a BARRIER record in a direction (R48, R132): its boundary strictly nearer than the other, and
the record beyond it no BARRIER. -/
def escapeAllowed (plan : List Sector) (r : Sector) (angle : Nat) (d : Direction) : Bool :=
  distAhead plan r d angle < distAhead plan r d.flip angle
    && (match nextRecord plan d r.start with
        | some n => n.kind != .barrier
        | none => false)

/-! ### MOTION_SETUP (R53) -/

/-- Every setting lies in its range (R53). -/
def MotionSettings.inRange (m : MotionSettings) : Bool :=
  m.arrivalWindow ≤ 200 && m.defaultLead ≤ 3000 && 10 ≤ m.escapePace && m.escapePace ≤ 300 && 5 ≤ m.jumpLimit
    && m.jumpLimit ≤ 1000

/-- MOTION_SETUP: all four settings or none. -/
def motionSetup (m : MotionSettings) (s : State) : State × Answer :=
  if m.inRange then ({ s with tracker := { s.tracker with settings := m } }, .ok) else (s, .refuse .badValue)

def motionSetupHandler : Handler := decodedHandler decodeMotion motionSetup

/-- MOTION_SETUP (R53). -/
def execMotionSetup (payload : List Byte) (s : State) : Host.Outcome State Fault Refusal :=
  .next (carryOut 0x20 motionSetupHandler payload s)

/-! ### Rows of the tracker -/

/-- ANGLE_SAMPLE (R30 to R33). -/
def execAngleSample (angle : BitVec 16) (valid : Bool) (s : State) : Host.Outcome State Fault Refusal :=
  .next (takeAnswer angle.toNat valid s)

/-- ANGLE_LOSS (R34): the round's sample is bad and brings the bad count to 2 or more (log 8). -/
def execAngleLoss (s : State) : Host.Outcome State Fault Refusal :=
  .next (if 1 ≤ s.tracker.badCount then missingSample s else s)

end Sys2Proof.Machine
end

