-- ==== Sys2Proof/Machine/Roster.lean ====
section
/-! DEFINITION. The Tower Roster (03_the_tower_roster.md): the judgement of poll and RESET outcomes, faults, resets and
limits, and the commands TOWER_SET, TOWER_TRIM, TOWER_GET, TOWER_ACK and TOWER_RESET. -/

namespace Sys2Proof.Machine

/-! ### Faults, resets and loss of contact -/

/-- The trip cause of an entry to FAULTED (R70). -/
def FaultReason.cause : FaultReason → TripCause
  | .stall => .stall
  | .none | .drive | .localStop | .sensor | .resetTimeout => .towerFault

/-- The record of a tower that enters FAULTED (R63). -/
def Tower.faulted (t : Tower) (reason : FaultReason) : Tower :=
  { t.leaveTo .faulted with
    reason := reason, miss := 0, follow := 0, stall := 0, stage := .none, resetPending := false, resetTimer := none }

/-- A trip request that only a moving machine gets (R70). -/
def tripIfMoving (cause : TripCause) (p : Nat) (s : State) : State :=
  if s.inMotion then tripRequest cause (some p) s else s

/-- A tower enters FAULTED (R63, R70, R72). -/
def enterFaulted (p : Nat) (reason : FaultReason) (s : State) : State :=
  tripIfMoving reason.cause p (setChange p .fault (s.modTower p fun t => t.faulted reason))

/-- The steps of 100 ms of the reset limit (R77). -/
def State.resetSteps (s : State) : Nat := 10 * s.link.settings.resetLimit

/-- A tower's drive unit restarts unasked (R64, R65, R70). -/
def enterUnrequested (p : Nat) (s : State) : State :=
  tripIfMoving .towerFault p
    (setChange p .restarted
      (s.modTower p fun t =>
        { t.leaveTo .resetting with stage := .unrequested, resetTimer := some s.resetSteps }))

/-- A tower's miss count reaches M in ONLINE, DRIVING or FOLLOWING (R67, R69, R70). -/
def missLimit (p : Nat) (s : State) : State :=
  tripIfMoving .linkLoss p
    (setChange p .presence
      (s.modTower p fun t => { t.leaveTo .silent with miss := s.link.settings.missLimit }))

/-- A tower's follow count reaches F (R65): the count takes its last step and the tower goes to FAULTED/SENSOR. -/
def followLimit (p : Nat) (s : State) : State := enterFaulted p .sensor s

/-- A tower's stall count reaches the stall-rounds setting (R71). -/
def stallLimit (p : Nat) (s : State) : State := enterFaulted p .stall s

/-! ### Misses (R67) -/

/-- Whether a miss brings the tower's miss count to M in a state that falls SILENT on it. -/
def missReaches (s : State) (p : Nat) : Bool :=
  let t := s.tower p
  (t.state == .online || t.isDriven) && s.link.settings.missLimit ≤ t.miss + 1

/-- A miss of a poll (R67). -/
def pollMissed (p : Nat) (s : State) : State :=
  if missReaches s p then missLimit p s
  else
    match (s.tower p).state with
    | .silent | .online | .driving | .following =>
      s.modTower p fun t =>
        { t with miss := min s.link.settings.missLimit (t.miss + 1),
                 state := if t.state = .driving then .following else t.state }
    | .vacant | .resetting | .faulted => s

/-! ### Good replies (R61, R63 to R66, R71) -/

/-- What a good POLL reply hands to the roster (R94). -/
structure Reading where
  status : BitVec 5
  joint : Int
  track : Nat
  deriving DecidableEq, Repr

/-- Whether the joint or swing field lies in its range (R61). -/
def Reading.jointInRange (r : Reading) (p : Nat) : Bool :=
  if p = Config.cornerPos then 0 ≤ r.joint && r.joint ≤ 9000 else -1000 ≤ r.joint && r.joint ≤ 1000

/-- The status as it is stored: a joint out of range shows sensor invalid (R61). -/
def Reading.storedStatus (r : Reading) (p : Nat) : BitVec 5 :=
  if r.jointInRange p then r.status else r.status ||| statusSensorInvalid

/-- The record with a good reply stored (R61), its miss count 0 unless FAULTED (R63). -/
def Tower.store (t : Tower) (p : Nat) (isEnd : Bool) (round : Nat) (r : Reading) : Tower :=
  { t with
    status := r.storedStatus p, joint := r.joint, track := r.track, lastRound := round
    fresh := t.fresh || isEnd || !shows (r.storedStatus p) statusSensorInvalid
    miss := if t.state = .faulted then t.miss else 0 }

/-- R64: a good reply to an ONLINE tower, or to a SILENT one whose PRESENCE has been set. -/
def judgeUndriven (p : Nat) (status : BitVec 5) (s : State) : State :=
  if shows status statusDriveFault then enterFaulted p .drive s
  else if shows status statusLocalStop then enterFaulted p .localStop s
  else if shows status statusInitialising then enterUnrequested p s
  else s.modTower p fun t => { t with state := .online }

/-- The stall count after a clean reply (R71): `before` is the record before the reply was stored. -/
def stallCount (before : Tower) (track threshold : Nat) : Nat :=
  if threshold ≤ before.applied ∧ track = before.track then before.stall + 1 else 0

/-- R65: a good reply to a DRIVING or FOLLOWING tower. -/
def judgeDriven (p : Nat) (before : Tower) (status : BitVec 5) (track : Nat) (s : State) : State :=
  if shows status statusDriveFault then enterFaulted p .drive s
  else if shows status statusLocalStop then enterFaulted p .localStop s
  else if shows status statusInitialising then enterUnrequested p s
  else if shows status statusSensorInvalid && !s.isEnd p then
    if s.tune.follow ≤ before.follow + 1 then followLimit p s
    else s.modTower p fun t => { t with state := .following, follow := before.follow + 1 }
  else
    let n := stallCount before track s.tune.stallThreshold
    if s.tune.stallRounds ≤ n then stallLimit p s
    else s.modTower p fun t => { t with state := .driving, follow := 0, stall := n }

/-- R66: a good reply to a RESETTING tower. -/
def judgeResetting (p : Nat) (stage : ResetStage) (status : BitVec 5) (s : State) : State :=
  match stage with
  | .requested | .none => s
  | .acknowledged | .unrequested =>
    if shows status statusInitialising then s
    else if shows status statusDriveFault then enterFaulted p .drive s
    else if shows status statusLocalStop then enterFaulted p .localStop s
    else
      setChange p .resetDone
        (s.modTower p fun t => { t with state := .online, stage := .none, resetTimer := none })

/-- A good reply to a poll, stored and judged (R61, R62). -/
def pollGood (p : Nat) (r : Reading) (s : State) : State :=
  let before := s.tower p
  let status := r.storedStatus p
  let s := s.modTower p fun t => t.store p (s.isEnd p) s.link.round r
  match before.state with
  | .silent => judgeUndriven p status (setChange p .presence s)
  | .online => judgeUndriven p status s
  | .driving | .following => judgeDriven p before status r.track s
  | .resetting => judgeResetting p before.stage status s
  | .faulted | .vacant => s

/-- What the roster reads from a POLL reply's bytes; it ignores bits 5 to 7 of the status byte (R185). -/
def readingOf : List Byte → Option Reading
  | _ :: _ :: st :: j1 :: j0 :: t1 :: t0 :: _ =>
    some { status := st.setWidth 5, joint := signedOf j1 j0, track := wordOf t1 t0 }
  | _ => none

/-- The outcome of a POLL reaches the roster (R62). -/
def pollOutcome (p : Nat) (o : LineOutcome) (s : State) : State :=
  match o with
  | .good reply =>
    match readingOf reply with
    | some r => pollGood p r s
    | none => s
  | .noReply | .check | .late | .wrongAddress => pollMissed p s
  | .skipped | .abandoned => s

/-- The outcome of a RESET exchange reaches the roster (R76). -/
def resetOutcome (p : Nat) (o : LineOutcome) (s : State) : State :=
  match o with
  | .good _ =>
    if (s.tower p).state = .resetting ∧ (s.tower p).stage = .requested then
      s.modTower p fun t => { t with stage := .acknowledged, resetPending := false }
    else s
  | .noReply | .check | .late | .wrongAddress | .abandoned | .skipped => s

/-- Whether a tower is answering (R156). -/
def Tower.isAnswering (t : Tower) : Bool := t.state == .online || t.isDriven || t.state == .faulted

/-- Every DRIVING tower whose reading is STALE becomes FOLLOWING at a poll-phase completion (R68). -/
def rosterCompletes (s : State) : State :=
  s.mapTowers fun _ t => if t.state = .driving ∧ t.fresh = false then { t with state := .following } else t

/-- A tower's reset timer expires (R77). -/
def resetTimeout (p : Nat) (s : State) : State := enterFaulted p .resetTimeout s

/-! ### Geometry (R56 to R58) -/

/-- The form belongs to the position and every field lies in its range (R56). -/
def Geometry.valid (g : Geometry) (p : Nat) : Bool :=
  match g with
  | .mainLine a r v _ t =>
    p != Config.cornerPos && 1 ≤ a && a ≤ 62 && 30 ≤ r && r ≤ 8000 && 5 ≤ v && v ≤ 250 && -300 ≤ t && t ≤ 300
  | .corner a _ k o => p == Config.cornerPos && 1 ≤ a && a ≤ 62 && k ≤ 2000 && -300 ≤ o && o ≤ 300

/-- The link address of a geometry. -/
def Geometry.address : Geometry → Nat
  | .mainLine a _ _ _ _ => a
  | .corner a _ _ _ => a

/-- Whether another position that holds geometry has this link address (R56). -/
def addressTaken (s : State) (p address : Nat) : Bool :=
  (List.range' 1 Config.positions).any fun q =>
    q != p && ((s.tower q).geometry.map Geometry.address == some address)

/-- The radius of a position's geometry, if it holds the main-line form. -/
def Tower.radius? (t : Tower) : Option Nat :=
  match t.geometry with
  | some (.mainLine _ r _ _ _) => some r
  | some (.corner _ _ _ _) => none
  | none => none

/-- Whether a position of the main line fails the geometry check (R58): it holds no geometry, or its radius is not above
the radius of the position before it. -/
def geometryFails (s : State) (p : Nat) : Bool :=
  if p = Config.cornerPos then (s.tower p).geometry.isNone
  else
    match (s.tower p).radius? with
    | none => true
    | some r =>
      if p = 1 then false
      else
        match (s.tower (p - 1)).radius? with
        | some q => r ≤ q
        | none => false

/-- The first position that fails the geometry check, walking the configured positions in order (R58). -/
def firstGeometryFailure (s : State) : Option Nat := s.link.settings.positions.find? (geometryFails s)

/-- TOWER_SET (R56, R57): machine state, position, form and ranges, address. -/
def towerSet (c : TowerSetting) (s : State) : State × Answer :=
  if s.sup.machine ≠ .setup then (s, .refuse .state)
  else if c.position < 1 ∨ Config.positions < c.position then (s, .refuse .badValue)
  else
    match c.geometry with
    | none => (s.modTower c.position fun t => { t with geometry := none }, .ok)
    | some g =>
      if g.valid c.position then
        if addressTaken s c.position g.address then (s, .refuse .exists)
        else (s.modTower c.position fun t => { t with geometry := some g }, .ok)
      else (s, .refuse .badValue)

def towerSetHandler : Handler := decodedHandler decodeTowerSet towerSet

/-- TOWER_SET (R56). -/
def execTowerSet (payload : List Byte) (s : State) : Host.Outcome State Fault Refusal :=
  .next (carryOut 0x30 towerSetHandler payload s)

/-! ### TOWER_TRIM (R59) -/

/-- A geometry with its trim or swing offset replaced. -/
def Geometry.withTrim (v : Int) : Geometry → Geometry
  | .mainLine a r f m _ => .mainLine a r f m v
  | .corner a m k _ => .corner a m k v

def towerTrim (c : Nat × Int) (s : State) : State × Answer :=
  if c.1 < 1 ∨ Config.positions < c.1 ∨ c.2 < -300 ∨ 300 < c.2 then (s, .refuse .badValue)
  else
    match (s.tower c.1).geometry with
    | none => (s, .refuse .notFound)
    | some g => (s.modTower c.1 fun t => { t with geometry := some (g.withTrim c.2) }, .ok)

def towerTrimHandler : Handler := decodedHandler decodeTrim towerTrim

/-- TOWER_TRIM (R59). -/
def execTowerTrim (payload : List Byte) (s : State) : Host.Outcome State Fault Refusal :=
  .next (carryOut 0x31 towerTrimHandler payload s)

/-! ### TOWER_GET (R74) -/

/-- Bytes 15 and 16 of a tower record: the corner tower's swing reading, 0 for a main-line tower; a free value for a
corner position without geometry (log 15). -/
def swingBytes (s : State) (p : Nat) : List Byte :=
  if p = Config.cornerPos then
    match (s.tower p).geometry with
    | some _ => signedWord (s.tower p).measuredSwing
    | none => word (Config.swingWithoutGeometry s.free).toNat
  else word 0

/-- The free-value counter after TOWER_GET: it advances where a free value was read (log 15). -/
def freeAfterGet (s : State) (p : Nat) : Nat :=
  if p = Config.cornerPos ∧ (s.tower p).geometry = none then s.free + 1 else s.free

def towerGet (p : Nat) (s : State) : State × Answer :=
  if p < 1 ∨ Config.positions < p then (s, .refuse .badValue)
  else ({ s with free := freeAfterGet s p }, .okWith ((s.tower p).encode p (s.isConfigured p) (swingBytes s p)))

def towerGetHandler : Handler := decodedHandler decodeByte towerGet

/-- TOWER_GET (R74). -/
def execTowerGet (payload : List Byte) (s : State) : Host.Outcome State Fault Refusal :=
  .next (carryOut 0x32 towerGetHandler payload s)

/-! ### TOWER_ACK (R73) -/

def towerAck (c : Nat × BitVec 5) (s : State) : State × Answer :=
  if c.1 < 1 ∨ Config.positions < c.1 ∨ c.2 = 0 then (s, .refuse .badValue)
  else (s.modTower c.1 fun t => { t with changes := t.changes &&& ~~~c.2 }, .ok)

def towerAckHandler : Handler := decodedHandler decodeTowerAck towerAck

/-- TOWER_ACK (R73). -/
def execTowerAck (payload : List Byte) (s : State) : Host.Outcome State Fault Refusal :=
  .next (carryOut 0x33 towerAckHandler payload s)

/-! ### TOWER_RESET (R75) -/

/-- The record of a tower whose reset is requested (R75). -/
def Tower.resetRequested (t : Tower) (steps : Nat) : Tower :=
  { t with state := .resetting, stage := .requested, miss := 0, reason := .none, resetPending := true,
           resetTimer := some steps }

def towerReset (p : Nat) (s : State) : State × Answer :=
  if s.isConfigured p = false then (s, .refuse .badValue)
  else if s.sup.machine ≠ .standby ∧ s.sup.machine ≠ .tripped then (s, .refuse .state)
  else if (s.tower p).state = .resetting then (s, .refuse .inProgress)
  else (s.modTower p fun t => t.resetRequested s.resetSteps, .ok)

def towerResetHandler : Handler := decodedHandler decodeByte towerReset

/-- TOWER_RESET (R75). -/
def execTowerReset (payload : List Byte) (s : State) : Host.Outcome State Fault Refusal :=
  .next (carryOut 0x34 towerResetHandler payload s)

/-! ### Rows of the roster -/

/-- MISS_LIMIT_REACHED (R67): a miss brings the count to M (log 8). -/
def execMissLimitReached (position : Nat) (s : State) : Host.Outcome State Fault Refusal :=
  .next (if missReaches s position then missLimit position s else s)

/-- FOLLOW_LIMIT_REACHED (R65): a sensor-invalid reply brings the follow count to F (log 8). -/
def execFollowLimitReached (position : Nat) (s : State) : Host.Outcome State Fault Refusal :=
  .next
    (if (s.tower position).isDriven ∧ s.isEnd position = false ∧ s.tune.follow ≤ (s.tower position).follow + 1 then
      followLimit position s
    else s)

/-- STALL (R71): an unchanged count at a command at or above the threshold brings the stall count to its setting (log 8). -/
def execStall (position : Nat) (s : State) : Host.Outcome State Fault Refusal :=
  .next
    (if (s.tower position).isDriven ∧ s.tune.stallThreshold ≤ (s.tower position).applied ∧
        s.tune.stallRounds ≤ (s.tower position).stall + 1 then
      stallLimit position s
    else s)

/-- RESET_TIMER_EXPIRY (R77). -/
def execResetTimerExpiry (position : Nat) (s : State) : Host.Outcome State Fault Refusal :=
  .next (if (s.tower position).resetTimer.isSome then resetTimeout position s else s)

/-! ### The roster as a whole (R55, R78) -/

/-- The record a position has when its live fields are cleared, SILENT if it is configured and VACANT if not (R78). -/
def clearedTower (l : LinkSettings) (p : Nat) (t : Tower) : Tower :=
  Tower.cleared t.geometry (if l.isConfigured p then .silent else .vacant)

/-- RESTART and OFFLINE clear every live field (R78). -/
def clearRoster (s : State) : State := s.mapTowers (clearedTower s.link.settings)

/-- LINK_SETUP reconfigures the positions (R55): a position that becomes configured or ceases to be is cleared. -/
def reconfigure (old new : LinkSettings) (s : State) : State :=
  s.mapTowers fun p t => if old.isConfigured p = new.isConfigured p then t else clearedTower new p t

/-- Every configured tower's reading becomes STALE at a round start (R61). -/
def staleReadings (s : State) : State :=
  s.mapTowers fun p t => if s.isConfigured p then { t with fresh := false } else t

end Sys2Proof.Machine
end

