-- ==== Sys2Proof/Machine/Align.lean ====
section
/-! DEFINITION. The Alignment Engine (05_keeping_the_line_straight.md): feedforward, correction, target and slew, the checks,
the requests and reports, the snapshot, the completion of the poll phase, and ALIGN_TUNE. -/

namespace Sys2Proof.Machine

/-! ### Feedforward, error and correction (R108 to R110, R114) -/

/-- The feedforward of a main-line tower (R108). -/
def feedforward (pace radius fullSpeed endRadius endSpeed : Nat) : Nat :=
  let n := pace * radius * endSpeed
  let d := endRadius * fullSpeed
  (2 * n + d) / (2 * d)

/-- The feedforward of the corner tower (R114). -/
def cornerFeedforward (pace ratio : Nat) : Nat := (2 * pace * ratio + 1000) / 2000

/-- The trim of a tower record; 0 where it holds no main-line geometry (log 18). -/
def Tower.trim (t : Tower) : Int :=
  match t.geometry with
  | some (.mainLine _ _ _ _ trim) => trim
  | some (.corner _ _ _ _) => 0
  | none => 0

/-- The error of a main-line tower: its stored joint reading less its trim (R109). -/
def Tower.error (t : Tower) : Int := t.joint - t.trim

/-- The error beyond the deadband (R109). -/
def beyondDeadband (deadband : Nat) (e : Int) : Int :=
  if e.natAbs ≤ deadband then 0 else if 0 < e then e - deadband else e + deadband

/-- A gain in sixteenths applied, truncated toward zero (R110, R114). -/
def gained (e : Int) (gain : Nat) : Int := truncRatio e gain 16

/-- Radius and full speed of the end tower; 0 where it holds no main-line geometry (log 18). -/
def State.endTower (s : State) : Nat × Nat :=
  match (s.tower s.link.settings.towers).geometry with
  | some (.mainLine _ r v _ _) => (r, v)
  | some (.corner _ _ _ _) => (0, 0)
  | none => (0, 0)

/-- A main-line tower's feedforward at a computation: the end tower's is P itself (R108). -/
def mainFeedforward (s : State) (p radius fullSpeed : Nat) : Nat :=
  if s.isEnd p then s.tracker.pace
  else feedforward s.tracker.pace radius fullSpeed s.endTower.1 s.endTower.2

/-- A main-line tower's correction: none for the end tower and for a FOLLOWING one (R109, R110, R112). -/
def mainCorrection (s : State) (p : Nat) (t : Tower) : Int :=
  if t.state = .driving ∧ s.isEnd p = false then gained (beyondDeadband s.tune.deadband t.error) s.tune.gain else 0

/-- The corner tower's correction: none without a swing target and for a FOLLOWING one (R114). -/
def cornerCorrection (s : State) (swing : Option Nat) (t : Tower) : Int :=
  match swing with
  | some target => if t.state = .driving then gained (t.measuredSwing - target) s.tune.cornerGain else 0
  | none => 0

/-- Feedforward plus correction of a driven tower in RUNNING, before the clamp (R111, R112, R114). -/
def wanted (s : State) (swing : Option Nat) (p : Nat) (t : Tower) : Int :=
  match t.geometry with
  | some (.mainLine _ r v _ _) => (mainFeedforward s p r v : Int) + mainCorrection s p t
  | some (.corner _ _ k _) => (cornerFeedforward s.tracker.pace k : Int) + cornerCorrection s swing t
  | none => 0

/-! ### Target and slew (R107, R111 to R113, R120) -/

/-- The jog speed of the jogged tower (R120). -/
def jogTarget (s : State) (p : Nat) : Nat :=
  match s.sup.jog with
  | some j => if j.position = p then j.speed.val else 0
  | none => 0

/-- A driven tower's target, and whether the clamp acted, by machine state (R107). -/
def targetOf (s : State) (swing : Option Nat) (p : Nat) (t : Tower) : Nat × Bool :=
  match s.sup.machine with
  | .running =>
    let w := wanted s swing p t
    ((clampInt 0 1000 w).toNat, decide (w < 0 ∨ 1000 < w))
  | .jogging => (jogTarget s p, false)
  | .setup | .standby | .starting | .holding | .reversing | .stopping | .tripped => (0, false)

/-- The new applied command: the previous one moved toward the target by at most the slew limit (R113). -/
def slewed (applied target limit : Nat) : Nat :=
  ((applied : Int) + clampInt (-(limit : Int)) limit ((target : Int) - applied)).toNat

/-- The FOLLOWING flag (R111): the tower is FOLLOWING, or, in RUNNING, the corner tower drives without a swing target. -/
def followingAt (s : State) (swing : Option Nat) (p : Nat) (t : Tower) : Bool :=
  t.state == .following
    || (s.sup.machine == .running && p == Config.cornerPos && t.state == .driving && swing.isNone)

/-- What the computation writes into a configured driven tower's record; no other is computed (R106). -/
def computedTower (s : State) (swing : Option Nat) (p : Nat) (t : Tower) : Tower :=
  if s.isConfigured p && t.isDriven then
    { t with
      target := (targetOf s swing p t).1, saturated := (targetOf s swing p t).2
      applied := slewed t.applied (targetOf s swing p t).1 s.tune.slew
      followingFlag := followingAt s swing p t }
  else t

/-! ### Checks (R115 to R118, R121) -/

/-- The warn limit in use (R115). -/
def warnLimitInUse (s : State) : Nat :=
  match s.tracker.view.bind View.warnLimit with
  | some w => min w (s.tune.trip - 1)
  | none => s.tune.warn

/-- The positions with a joint: 1 to N − 1. -/
def jointPositions (s : State) : List Nat := List.range' 1 (s.link.settings.towers - 1)

/-- The machine states in which a line at rest or in motion is watched as a whole (R107). -/
def MachineState.watches : MachineState → Bool
  | .running | .starting | .holding => true
  | .setup | .standby | .reversing | .stopping | .jogging | .tripped => false

/-- The towers of the warn check (R116). -/
def warnChecked (s : State) : List Nat :=
  if s.sup.machine.watches then (jointPositions s).filter fun p => (s.tower p).state == .driving else []

/-- The warn check of one tower (R116). -/
def warnCheck (limit p : Nat) (s : State) : State :=
  if limit < (s.tower p).error.natAbs then
    if (s.tower p).alignWarn then s
    else raise .alignWarn (setChange p .warn (s.modTower p fun t => { t with alignWarn := true }))
  else s.modTower p fun t => { t with alignWarn := false }

/-- The warn check of every checked tower. -/
def warnChecks (s : State) : State := (warnChecked s).foldl (fun s' p => warnCheck (warnLimitInUse s) p s') s

/-- Whether a joint is next to the jogged tower (R121). -/
def nextToJog (j p : Nat) : Bool := j != Config.cornerPos && (p + 1 == j || p == j || p == j + 1)

/-- The towers of the MISALIGN check (R117, R121). -/
def misalignChecked (s : State) : List Nat :=
  match s.sup.machine, s.sup.jog with
  | .jogging, some j => (jointPositions s).filter fun p => (s.tower p).fresh && !nextToJog j.position p
  | _, _ => warnChecked s

/-- The lowest position bent beyond X, if any (R117). -/
def misaligned (s : State) : Option Nat :=
  (misalignChecked s).find? fun p => s.tune.trip < (s.tower p).error.natAbs

/-- The distance of the corner arm from a swing target. -/
def swingError (s : State) (target : Nat) : Nat :=
  ((s.tower Config.cornerPos).measuredSwing - (target : Int)).natAbs

/-- Whether the SWING check is made, given a swing target (R118, R121). -/
def swingChecked (s : State) : Bool :=
  match s.sup.machine, s.sup.jog with
  | .jogging, some j =>
    (s.tower Config.cornerPos).fresh && j.position != s.link.settings.towers && j.position != Config.cornerPos
  | m, _ => m.watches && (s.tower Config.cornerPos).state == .driving

/-- Whether the arm stands beyond Y from its target (R118). -/
def swungOut (s : State) (swing : Option Nat) : Bool :=
  match swing with
  | some target => swingChecked s && decide (s.tune.swingTrip < swingError s target)
  | none => false

/-! ### Requests and reports (R119, R122, R135, R142, R144) -/

/-- Whether a joint is straight and its reading FRESH (R122). -/
def jointStraight (s : State) (p : Nat) : Bool :=
  (s.tower p).fresh && decide ((s.tower p).error.natAbs ≤ s.tune.deadband)

/-- Whether the jog has met its ALIGN condition (R122). -/
def jogMet (s : State) (swing : Option Nat) : Bool :=
  match s.sup.machine, s.sup.jog with
  | .jogging, some j =>
    j.mode == .align &&
      (if j.position = Config.cornerPos then
        match swing with
        | some target => (s.tower Config.cornerPos).fresh && decide (swingError s target ≤ s.tune.deadband)
        | none => false
      else if j.position < s.link.settings.towers then jointStraight s j.position
      else 2 ≤ s.link.settings.towers && jointStraight s (s.link.settings.towers - 1))
  | _, _ => false

/-- Whether the applied command of every configured tower is 0 (R119). -/
def atRest (s : State) : Bool := s.link.settings.positions.all fun p => (s.tower p).applied == 0

/-- The supervisor takes the report that the jog has met its ALIGN condition (R144). -/
def takeJogMet (s : State) : State := if s.sup.machine = .jogging then changeState .stopping s else s

/-- The supervisor takes one from the rounds of a jog (R144). -/
def countJogRound (j : Jog) (s : State) : State :=
  let s := { s with sup := { s.sup with jog := some { j with roundsLeft := j.roundsLeft - 1 } } }
  if j.roundsLeft ≤ 1 then changeState .stopping s else s

/-- The supervisor takes a rest report (R119, R135, R142, R144). -/
def takeRest (rest : Bool) (s : State) : State :=
  match s.sup.machine with
  | .stopping => if rest then changeState .standby s else s
  | .reversing =>
    if rest = true ∧ s.sup.reversal = .awaitingRest then
      { s with sup := { s.sup with reversal := .delay (10 * s.sup.reversalDelay) } }
    else s
  | .jogging =>
    match s.sup.jog with
    | some j => countJogRound j s
    | none => s
  | .setup | .standby | .starting | .running | .holding | .tripped => s

/-- What the snapshot becomes (R123); `pace` is the pace handed to the computation. -/
def snapshotOf (pace : Nat) (s : State) : Snapshot :=
  { round := s.link.round, angle := s.tracker.angleUsed, held := s.tracker.held, pace := pace,
    activeKey := s.tracker.activeKey, revision := (s.tracker.view.map View.revision).getD 0,
    nextKey := s.tracker.view.map View.nextKey, dist := s.tracker.view.map View.dist,
    direction := s.sup.direction, machine := s.sup.machine, cause := s.sup.trip.map Trip.cause }

/-- The engine refreshes the snapshot (R123). -/
def refreshSnapshot (pace : Nat) (s : State) : State :=
  { s with port := { s.port with snapshot := snapshotOf pace s } }

/-- The requests and reports of a computation in their order (R119): MISALIGN, SWING, the jog report, the rest report. -/
def makeReports (misaligned : Option Nat) (swung met rest : Bool) (s : State) : State :=
  let s := match misaligned with
    | some p => tripRequest .misalign (some p) s
    | none => s
  let s := if swung then tripRequest .swing (some Config.cornerPos) s else s
  takeRest rest (if met then takeJogMet s else s)

/-- The targets, commands and flags of every tower (R106). -/
def writeTowers (swing : Option Nat) (s : State) : State := s.mapTowers (computedTower s swing)

/-- The computation (R106): towers, checks, requests and reports, snapshot. -/
def computation (s : State) : State :=
  let swing := swingTarget s
  let w := warnChecks (writeTowers swing s)
  refreshSnapshot s.tracker.pace (makeReports (misaligned w) (swungOut w swing) (jogMet w swing) (atRest w) w)

/-! ### Poll-phase completion (R88) -/

/-- The poll phase completes: the tracker and the roster finish their round, the engine computes, and the phase is
SERVICE. -/
def pollComplete (s : State) : State :=
  computation (handOver (rosterCompletes (trackerCompletes { s with link := { s.link with phase := .service } })))

/-- The poll phase completes if it is over: every poll has begun and the line is free (R88, R98, log 11). -/
def settlePoll (s : State) : State :=
  if s.link.running = true ∧ s.link.phase = .poll ∧ s.link.nextPos = none ∧ s.link.free = true then pollComplete s else s

/-! ### ALIGN_TUNE (R125, R126) -/

/-- Every setting lies in its range and W is below X. -/
def Tune.inRange (t : Tune) : Bool :=
  t.gain ≤ 255 && t.deadband ≤ 100 && 1 ≤ t.slew && t.slew ≤ 1000 && 50 ≤ t.warn && t.warn ≤ 1499 && 100 ≤ t.trip
    && t.trip ≤ 1500 && t.cornerGain ≤ 255 && 200 ≤ t.swingTrip && t.swingTrip ≤ 3000 && 1 ≤ t.follow && t.follow ≤ 20
    && 50 ≤ t.stallThreshold && t.stallThreshold ≤ 1000 && 4 ≤ t.stallRounds && t.stallRounds ≤ 120
    && t.warn < t.trip

/-- ALIGN_TUNE: all ten settings or none. -/
def alignTune (t : Tune) (s : State) : State × Answer :=
  if t.inRange then ({ s with tune := t }, .ok) else (s, .refuse .badValue)

def alignTuneHandler : Handler := decodedHandler decodeTune alignTune

/-- ALIGN_TUNE (R126). -/
def execAlignTune (payload : List Byte) (s : State) : Host.Outcome State Fault Refusal :=
  .next (carryOut 0x48 alignTuneHandler payload s)

end Sys2Proof.Machine
end

