-- ==== Sys2Proof/Machine/Service.lean ====
section
/-! DEFINITION. The Service Request Table (07_service_requests_to_tower_drive_units.md): ageing, the candidate of a service
phase, SVC_SUBMIT, SVC_RESULT, SVC_CANCEL and the row UNREACHABLE. -/

namespace Sys2Proof.Machine

/-! ### Ageing (R159) -/

/-- Whether one more round makes a QUEUED request too old. -/
def Request.outlives (r : Request) (limit : Nat) : Bool := r.state == .queued && limit < r.age + 1

/-- A request at a round start: one round older if QUEUED, and FAILED/UNREACHABLE if that exceeds the limit. -/
def Request.aged (limit : Nat) (r : Request) : Request :=
  match r.state with
  | .queued =>
    if limit < r.age + 1 then { r with age := r.age + 1, state := .failed, code := .unreachable, result := none }
    else { r with age := r.age + 1 }
  | .sent | .done | .failed | .cancelling => r

/-- Whether the request in a slot fails UNREACHABLE when it is aged. -/
def slotOutlives (s : State) (n : Nat) : Bool :=
  match s.svc.slot n with
  | some r => r.outlives s.link.settings.ageLimit
  | none => false

/-- Every QUEUED request ages by one round (R159, step 6 of R81). -/
def ageRequests (s : State) : State :=
  let aged := { s with svc := { s.svc with
    slots := s.svc.slots.mapIdx fun _ r => r.map (Request.aged s.link.settings.ageLimit)
    order := s.svc.order.filter fun n => !slotOutlives s n } }
  if (List.range' 1 Config.slots).any (slotOutlives s) then raise .serviceDone aged else aged

/-- One request takes the step of age that makes it UNREACHABLE. -/
def unreachableSlot (n : Nat) (s : State) : State :=
  raise .serviceDone
    { s with svc := (s.svc.setSlot n ((s.svc.slot n).map (Request.aged s.link.settings.ageLimit))).leaveOrder n }

/-- UNREACHABLE (R159, log 8). -/
def execUnreachable (slot : Nat) (s : State) : Host.Outcome State Fault Refusal :=
  .next (if slotOutlives s slot then unreachableSlot slot s else s)

/-! ### The candidate (R156) -/

/-- Whether the tower of the request in a slot is answering. -/
def slotAnswering (s : State) (n : Nat) : Bool :=
  match s.svc.slot n with
  | some r => (s.tower r.position).isAnswering
  | none => false

/-- The oldest QUEUED request whose tower is answering. -/
def serviceCandidate (s : State) : Option Nat := s.svc.order.find? (slotAnswering s)

/-! ### SVC_SUBMIT (R154, R155) -/

/-- The lowest-numbered FREE slot. -/
def freeSlot (v : Service) : Option Nat := (List.range' 1 Config.slots).find? fun n => (v.slot n).isNone

/-- A slot as SVC_SUBMIT fills it. -/
def Submission.request (c : Submission) (number : Nat) : Request :=
  { state := .queued, position := c.position, operation := c.operation, index := c.index, value := c.value,
    submission := number, age := 0, code := .none, result := none }

/-- The table with a request submitted into a slot. -/
def Service.submit (v : Service) (n : Nat) (c : Submission) : Service :=
  let number := (v.counter + 1) % 65536
  { v.setSlot n (some (c.request number)) with order := v.order ++ [n], counter := number }

def svcSubmit (c : Submission) (s : State) : State × Answer :=
  if c.position < 1 ∨ Config.positions < c.position then (s, .refuse .badValue)
  else if s.sup.machine = .setup then (s, .refuse .state)
  else if s.isConfigured c.position = false then (s, .refuse .badValue)
  else
    match freeSlot s.svc with
    | none => (s, .refuse .full)
    | some n => ({ s with svc := s.svc.submit n c }, .okWith ([byte n] ++ word ((s.svc.counter + 1) % 65536)))

def svcSubmitHandler : Handler := decodedHandler decodeSubmit svcSubmit

/-- SVC_SUBMIT (R154, R155). -/
def execSvcSubmit (payload : List Byte) (s : State) : Host.Outcome State Fault Refusal :=
  .next (carryOut 0x60 svcSubmitHandler payload s)

/-! ### SVC_RESULT (R160) -/

/-- Whether a request has ended and waits to be collected. -/
def Request.hasEnded (r : Request) : Bool := r.state == .done || r.state == .failed

def svcResult (n : Nat) (s : State) : State × Answer :=
  if n < 1 ∨ Config.slots < n then (s, .refuse .badValue)
  else
    match s.svc.slot n with
    | none => (s, .refuse .notFound)
    | some r => (if r.hasEnded then { s with svc := s.svc.setSlot n none } else s, .okWith (r.encode n))

def svcResultHandler : Handler := decodedHandler decodeByte svcResult

/-- SVC_RESULT (R160). -/
def execSvcResult (payload : List Byte) (s : State) : Host.Outcome State Fault Refusal :=
  .next (carryOut 0x61 svcResultHandler payload s)

/-! ### SVC_CANCEL (R161) -/

def svcCancel (n : Nat) (s : State) : State × Answer :=
  if n < 1 ∨ Config.slots < n then (s, .refuse .badValue)
  else
    match s.svc.slot n with
    | none => (s, .refuse .notFound)
    | some r =>
      match r.state with
      | .queued => ({ s with svc := (s.svc.setSlot n none).leaveOrder n }, .ok)
      | .sent =>
        ({ s with svc := s.svc.setSlot n (some { r with state := .cancelling }) }, .deferred)
      | .cancelling => (s, .deferred)
      | .done | .failed => (s, .refuse .state)

def svcCancelHandler : Handler := decodedHandler decodeByte svcCancel

/-- SVC_CANCEL (R161 to R163). -/
def execSvcCancel (payload : List Byte) (s : State) : Host.Outcome State Fault Refusal :=
  .next (carryOut 0x62 svcCancelHandler payload s)

end Sys2Proof.Machine
end

