-- ==== Sys2Proof/Machine/Timers.lean ====
section
/-! DEFINITION. The passing of time: the supervisor's timers and the reset timers in steps of 100 ms, and the counts of the
line in character times. -/

namespace Sys2Proof.Machine

/-! ### Timers in steps of 100 ms (R129, R77) -/

/-- The start timer expires in STARTING (R133). -/
def startExpires (s : State) : State := changeState .running s

/-- The reversal timer expires in REVERSING (R142): the direction flips and the tracker turns before the machine enters
RUNNING. -/
def reversalExpires (s : State) : State := changeState .running (changeDirection s.sup.direction.flip s)

/-- The character times of 100 ms at a rate (R79, log 4). -/
def Rate.perStep (r : Rate) : Nat := r.bits / 100

/-- A step of the start timer. -/
def stepStart (s : State) : State :=
  match s.sup.startTimer with
  | none => s
  | some n => if n ≤ 1 then startExpires s else { s with sup := { s.sup with startTimer := some (n - 1) } }

/-- A step of the dwell timer. -/
def stepDwell (s : State) : State :=
  match s.sup.hold.dwell with
  | .stopped | .expired => s
  | .running n =>
    if n ≤ 1 then dwellExpires s
    else { s with sup := { s.sup with hold := { s.sup.hold with dwell := .running (n - 1) } } }

/-- A step of the reversal timer. -/
def stepReversal (s : State) : State :=
  match s.sup.reversal with
  | .none | .awaitingRest => s
  | .delay n => if n ≤ 1 then reversalExpires s else { s with sup := { s.sup with reversal := .delay (n - 1) } }

/-- A step of a tower's reset timer (R77). -/
def stepReset (p : Nat) (s : State) : State :=
  match (s.tower p).resetTimer with
  | none => s
  | some n => if n ≤ 1 then resetTimeout p s else s.modTower p fun t => { t with resetTimer := some (n - 1) }

/-- A step of every timer, in the order of log 23. -/
def stepTimers (s : State) : State :=
  (List.range' 1 Config.positions).foldl (fun s p => stepReset p s) (stepReversal (stepDwell (stepStart s)))

/-! ### Character times (R82, R91, R95, R129) -/

/-- A pulse, its gap and an owed pulse are over within a character time (R180, log 28). -/
def settleLine (e : Events) : Events := e.highEnd.gapEnd.highEnd.gapEnd

/-- A BREAK some character times on. -/
def BreakState.pass (n : Nat) : BreakState → BreakState
  | .none => .none
  | .waiting left quiet => .waiting (left - n) (quiet - n)
  | .pending => .pending
  | .sending used => .sending (used + n)

/-- An exchange some character times on. -/
def Exchange.pass (n : Nat) (x : Exchange) : Exchange := { x with used := x.used + n }

/-- The line some character times on: the round remaining counts down (R82), and what is on the line and the present step of
100 ms count up (R91, R95, log 4). -/
def Link.pass (n : Nat) (l : Link) : Link :=
  { l with remaining := l.remaining - n, exchange := l.exchange.map (Exchange.pass n), brk := l.brk.pass n,
           clock := (l.clock + n) % l.settings.rate.perStep }

/-- The character times to the end of the present step of 100 ms. -/
def Link.toStep (l : Link) : Nat := l.settings.rate.perStep - l.clock % l.settings.rate.perStep

/-- Some character times pass with no timer's step: the line's counts go on, and a pulse under way is over (R82, R180). -/
def lineRuns (n : Nat) (s : State) : State :=
  if n = 0 then s else { s with link := s.link.pass n, ev := settleLine s.ev }

/-- Character times pass from one step of 100 ms to the next, with the timers' steps between them (R129), and no more of them
once `going` has ceased to hold after such a step. The first argument bounds the steps. -/
def runSteps (going : State → Bool) : Nat → Nat → State → State
  | 0, n, s => lineRuns n s
  | k + 1, n, s =>
    if n < s.link.toStep then lineRuns n s
    else
      let t := stepTimers (lineRuns s.link.toStep s)
      if going t then runSteps going k (n - s.link.toStep) t else t

/-- A number of character times passes, in whichever way that time is passed: the line's counts go on, and every timer takes
each step of 100 ms at its moment (R82, R129). What an expiry does then stands before the rest of the time passes. -/
def timePasses (n : Nat) (s : State) : State := runSteps (fun _ => true) n n s

/-- A number of character times passes, or only those before a timer's step after which something no longer holds. -/
def timePassesWhile (going : State → Bool) (n : Nat) (s : State) : State := runSteps going n n s

end Sys2Proof.Machine
end

