-- ==== Sys2Proof/Machine/SpanLink.lean ====
section
/-! DEFINITION. The Span Link Controller (04_rounds_and_the_span_link.md): the round start, what each exchange carries, how
an exchange begins and ends, BREAK, LINK_SETUP, and the rows of the line. -/

namespace Sys2Proof.Machine

/-! ### Rounds (R81, R84) -/

/-- The configured position after another in polling order (R84). -/
def LinkSettings.nextAfter (l : LinkSettings) (p : Nat) : Option Nat := l.positions.find? (p < ·)

/-- The controller's own part of a round start (R81, steps 1 to 3 and 7), with a PENDING BREAK sent next (R96). -/
def Link.startRound (l : Link) : Link :=
  { l with
    round := (l.round + 1) % 65536, remaining := l.settings.budget, offered := [], phase := .poll
    nextPos := l.settings.positions.head?
    brk := match l.brk with
      | .pending => .sending 0
      | .none => .none
      | .waiting n q => .waiting n q
      | .sending n => .sending n }

/-- A round starts (R81): the angle is requested, readings become STALE, and queued requests age. -/
def startRound (s : State) : State :=
  ageRequests
    (staleReadings
      { s with link := s.link.startRound, tracker := { s.tracker with awaiting := true } })

/-! ### What a request carries (R86, R157, 11 "Span link frames") -/

/-- The mount sense of a tower record. -/
def Tower.isReversed (t : Tower) : Bool :=
  match t.geometry with
  | some (.mainLine _ _ _ m _) => m == .reversed
  | some (.corner _ m _ _) => m == .reversed
  | none => false

/-- The direction of the drive words: the jog's while a jog context is set, the direction of travel otherwise (R143). -/
def State.driveDirection (s : State) : Direction :=
  match s.sup.jog with
  | some j => j.direction
  | none => s.sup.direction

/-- The drive word of a tower: enable in bit 0, direction in bit 1 (R86). -/
def driveWord (s : State) (t : Tower) : Byte :=
  bit01 t.isDriven ||| (bit01 ((s.driveDirection == .reverse) != t.isReversed) <<< 1)

/-- The command a poll carries (R86). -/
def pollCommand (t : Tower) : Nat := if t.isDriven then t.applied else 0

/-- The POLL request for a position. -/
def pollRequest (s : State) (p : Nat) : List Byte :=
  let t := s.tower p
  withCheck ([byte t.address, 0x31, driveWord s t] ++ word (pollCommand t) ++ [byte s.link.round])

/-- The RESET request for a position. -/
def resetRequest (s : State) (p : Nat) : List Byte := withCheck [byte (s.tower p).address, 0x34]

/-- The request kind of an operation. -/
def Operation.requestKind : Operation → Byte
  | .read => 0x32
  | .write => 0x33

/-- The SERVICE request of a slot's request. -/
def serviceRequest (s : State) (r : Request) : List Byte :=
  withCheck ([byte (s.tower r.position).address, r.operation.requestKind, byte r.index] ++ word r.value)

/-! ### An exchange begins (R83 to R85, R89, R91) -/

/-- An exchange begins with the first character of its request. -/
def Link.begin (l : Link) (owner : Owner) (address : Nat) (request : List Byte) : Link :=
  { l with exchange := some { owner := owner, address := address, request := request, step := .sending, used := 0,
                              replyAt := 0, discard := false } }

/-- Whether an exchange's reserved occupancy fits in the round remaining (R83). -/
def Link.fits (l : Link) (o : Owner) : Bool := o.reserve ≤ l.remaining

/-- The POLL of a position begins. -/
def beginPoll (p : Nat) (s : State) : State :=
  { s with link := { s.link.begin (.poll p) (s.tower p).address (pollRequest s p) with
                     nextPos := s.link.settings.nextAfter p } }

/-- The polls of this position and every later one are skipped, and the poll phase completes (R85, R88). -/
def skipPolls (p : Nat) (s : State) : State :=
  let skipped := (s.link.settings.positions.filter (p ≤ ·)).foldl (fun s q => pollOutcome q .skipped s) s
  let s := raise .roundShort skipped
  pollComplete { s with link := { s.link with nextPos := none } }

/-- Whether the controller may begin something in a phase: rounds run and the line is free. -/
def Link.mayBegin (l : Link) (ph : Phase) : Bool := l.running && l.phase == ph && l.free

/-- POLL_BEGIN (R84 to R86). -/
def pollBegins (s : State) : State :=
  match s.link.nextPos with
  | none => s
  | some p =>
    if s.link.mayBegin .poll then if s.link.fits (.poll p) then beginPoll p s else skipPolls p s else s

/-- POLL_BEGIN (R86). -/
def execPollBegin (s : State) : Host.Outcome State Fault Refusal := .next (pollBegins s)

/-- The lowest position with a pending RESET exchange that has not been offered in this round (R89). -/
def resetCandidate (s : State) : Option Nat :=
  s.link.settings.positions.find? fun p =>
    (s.tower p).resetPending && (s.tower p).stage == .requested && !s.link.offered.contains p

/-- The service phase ends for the round (R89). -/
def closePhase (s : State) : State := { s with link := { s.link with phase := .closed } }

/-- The RESET exchange of a position begins (R89). -/
def beginReset (p : Nat) (s : State) : State :=
  { s with link := { s.link.begin (.reset p) (s.tower p).address (resetRequest s p) with
                     offered := s.link.offered ++ [p] } }

/-- The choice of a RESET exchange in the service phase (R89). -/
def resetBegins (s : State) : State :=
  match resetCandidate s with
  | none => s
  | some p =>
    if s.link.mayBegin .service then if s.link.fits (.reset p) then beginReset p s else closePhase s else s

/-- RESET_EXCHANGE_BEGIN (R89). -/
def execResetExchangeBegin (s : State) : Host.Outcome State Fault Refusal := .next (resetBegins s)

/-- The SERVICE exchange of a slot begins, and the slot is SENT (R89, R156). -/
def beginService (n : Nat) (r : Request) (s : State) : State :=
  { s with
    link := s.link.begin (.service n) (s.tower r.position).address (serviceRequest s r)
    svc := (s.svc.setSlot n (some { r with state := .sent })).leaveOrder n }

/-- The choice of a service request in the service phase: only without a RESET candidate (R89). -/
def serviceBegins (s : State) : State :=
  match resetCandidate s, serviceCandidate s with
  | none, some n =>
    match s.svc.slot n with
    | some r =>
      if s.link.mayBegin .service then if s.link.fits (.service n) then beginService n r s else closePhase s else s
    | none => s
  | _, _ => s

/-- SERVICE_EXCHANGE_BEGIN (R89, R156). -/
def execServiceExchangeBegin (s : State) : Host.Outcome State Fault Refusal := .next (serviceBegins s)

/-! ### An exchange passes through its steps and ends (R91 to R94) -/

/-- The exchange on the line if it is at a step. -/
def Link.exchangeAt (l : Link) (st : ExStep) : Option Exchange := l.exchange.filter fun x => x.step == st

/-- The outcome of an exchange reaches its owner (R94); the outcome of one marked by OFFLINE reaches none (R103). -/
def deliver (x : Exchange) (o : LineOutcome) (s : State) : State :=
  if x.discard then s
  else
    match x.owner with
    | .poll p => pollOutcome p o s
    | .reset p => resetOutcome p o s
    | .service n => serviceOutcome n o s

/-- Whether the last poll of the round has begun and the poll phase has not completed. -/
def Link.pollsBegun (l : Link) : Bool := l.running && l.phase == .poll && l.nextPos.isNone

/-- An exchange leaves the line with an outcome; with the last poll the poll phase completes (R88, R94). -/
def endExchange (x : Exchange) (o : LineOutcome) (s : State) : State :=
  let s := deliver x o { s with link := { s.link with exchange := none } }
  if s.link.pollsBegun then pollComplete s else s

/-- A BREAK that was waiting for the line, or PENDING, begins if it may (R95, R96). -/
def breakBegins (s : State) : State :=
  match s.link.brk with
  | .waiting _ _ => settlePoll { s with link := s.link.breakOnFree }
  | .pending =>
    if s.link.exchange.isNone && (!s.link.running || Config.breakReserve ≤ s.link.remaining) then
      { s with link := s.link.sendBreak }
    else s
  | .none | .sending _ => s

/-- The BREAK has been sent (R95), and the round goes on where it stood (R98). -/
def breakEnds (s : State) : State := settlePoll { s with link := { s.link with brk := .none } }

/-- What falls due for a BREAK (R95, R96, R103). -/
def breakDue (s : State) : State :=
  match s.link.brk with
  | .none => s
  | .pending => if s.link.running then s else breakBegins s
  | .waiting left quiet => if left = 0 ∨ quiet = 0 then breakBegins s else s
  | .sending n => if Config.breakReserve ≤ n then breakEnds s else s

/-- The line comes to a moment of the exchange on it, counted in character times from the exchange's start, and what happens
at that moment is done. Where a timer that expires on the way cuts the exchange short, no more time passes, and only its BREAK
may fall due (log 3). -/
def atMoment (step : ExStep) (moment : Exchange → Nat) (act : Exchange → State → State) (s : State) : State :=
  match s.link.exchangeAt step with
  | some x =>
    let t := timePassesWhile (fun u => (u.link.exchangeAt step).isSome) (moment x - x.used) s
    match t.link.exchangeAt step with
    | some y => act y t
    | none => breakDue t
  | none => s

/-- The request has gone out and the reply window opens (R91). -/
def requestEnds (x : Exchange) (s : State) : State :=
  { s with link := { s.link with exchange := some { x with step := .awaiting } } }

/-- The moment a request ends. -/
def Exchange.requestEnd (x : Exchange) : Nat := x.owner.requestLength

/-- REQUEST_SENT (R91). -/
def execRequestSent (s : State) : Host.Outcome State Fault Refusal :=
  .next (atMoment .sending Exchange.requestEnd requestEnds s)

/-- REPLY_BEGUN (R91). -/
def execReplyBegun (s : State) : Host.Outcome State Fault Refusal :=
  .next
    (match s.link.exchangeAt .awaiting with
    | some x => { s with link := { s.link with exchange := some { x with step := .receiving, replyAt := x.used } } }
    | none => s)

/-- The moment the reply window closes. -/
def Exchange.windowEnd (x : Exchange) : Nat := x.owner.requestLength + Config.replyWindow

/-- The reply window closes with no reply begun (R91). -/
def windowCloses (x : Exchange) (s : State) : State := endExchange x .noReply s

/-- NO_REPLY (R91). -/
def execNoReply (s : State) : Host.Outcome State Fault Refusal :=
  .next (atMoment .awaiting Exchange.windowEnd windowCloses s)

/-- The outcome CHECK of a reply that goes wrong as it arrives (R92). -/
def replyBreaksOff (s : State) : State :=
  match s.link.exchangeAt .receiving with
  | some x => endExchange x .check s
  | none => s

/-- REPLY_FRAMING_ERROR (R92). -/
def execReplyFramingError (s : State) : Host.Outcome State Fault Refusal := .next (replyBreaksOff s)

/-- The kind byte of the reply that answers an exchange's request. -/
def Owner.replyKind : Owner → Byte
  | .poll _ => 0xB1
  | .service _ => 0xB2
  | .reset _ => 0xB4

/-- Whether a reply echoes the round, for the exchange that asks it to (R93, fourth test). -/
def echoHolds (x : Exchange) (round : Nat) (reply : List Byte) : Bool :=
  match x.owner with
  | .poll _ => reply[7]? == some (byte round)
  | .service _ | .reset _ => true

/-- The judgement of a complete reply (R93). -/
def judgeReply (x : Exchange) (round : Nat) (reply : List Byte) : LineOutcome :=
  if checkHolds reply = false then .check
  else if reply[0]? ≠ some (byte x.address) then .wrongAddress
  else if reply[1]? ≠ some x.owner.replyKind then .check
  else if echoHolds x round reply = false then .late
  else .good reply

/-- The moment a reply without gaps is complete (R92). -/
def Exchange.replyEnd (x : Exchange) : Nat := x.replyAt + x.owner.replyLength

/-- A reply has arrived whole (R92, R93). -/
def replyArrives (reply : List Byte) (x : Exchange) (s : State) : State :=
  endExchange x (judgeReply x s.link.round reply) s

/-- The reservation of the exchange is used up before its reply is complete (R92). -/
def reservationEnds (x : Exchange) (s : State) : State := endExchange x .check s

/-- The moment the reservation of an exchange is used up. -/
def Exchange.reserveEnd (x : Exchange) : Nat := x.owner.reserve

/-! ### The rows of a BREAK (R95, R96) -/

/-- BREAK_BEGIN (R95, R96, log 9): a BREAK that waits for a quiet line begins when the line has been idle for 2 character
times or the reservation of the cut exchange is used up, whichever comes first. -/
def execBreakBegin (s : State) : Host.Outcome State Fault Refusal :=
  .next
    (match s.link.brk with
    | .waiting left quiet => breakBegins (timePasses (min left quiet) s)
    | .none | .pending | .sending _ => breakBegins s)

/-- The last character of a reply that is no longer taken has arrived: the line is idle from here on (R96). -/
def lineFallsIdle (s : State) : State :=
  match s.link.brk with
  | .waiting left _ => { s with link := { s.link with brk := .waiting left Config.quietTime } }
  | .none | .pending | .sending _ => s

/-- REPLY_COMPLETE (R93); it happens to an exchange that is RECEIVING a reply of that many characters (log 29). Of a reply that
a BREAK has cut short it says that the line falls idle, unless the reservation is used up before (R96). -/
def execReplyComplete (reply : List Byte) (s : State) : Host.Outcome State Fault Refusal :=
  .next
    (match s.link.exchangeAt .receiving, s.link.brk with
    | some x, _ =>
      if reply.length = x.owner.replyLength then atMoment .receiving Exchange.replyEnd (replyArrives reply) s else s
    | none, .waiting left quiet => breakDue (lineFallsIdle (timePasses (min left (quiet - Config.quietTime)) s))
    | none, _ => s)

/-- REPLY_GAP_TIMEOUT (R92): the line has been idle for 2 character times, for which a BREAK may have been waiting (R96). -/
def execReplyGapTimeout (s : State) : Host.Outcome State Fault Refusal :=
  .next
    (match s.link.exchangeAt .receiving, s.link.brk with
    | some _, _ => replyBreaksOff s
    | none, .waiting _ _ => breakBegins s
    | none, _ => s)

/-- RESERVATION_USED_UP (R92), for which a BREAK may have been waiting (R96). -/
def execReservationUsedUp (s : State) : Host.Outcome State Fault Refusal :=
  .next
    (match s.link.exchangeAt .receiving, s.link.brk with
    | some _, _ => atMoment .receiving Exchange.reserveEnd reservationEnds s
    | none, .waiting left _ => breakBegins (timePasses left s)
    | none, _ => s)

/-- A BREAK that is being sent is sent to its end (R95). -/
def breakSent (s : State) : State :=
  match s.link.brk with
  | .sending n => breakEnds (timePasses (Config.breakReserve - n) s)
  | .none | .waiting _ _ | .pending => s

/-- BREAK_END (R95). -/
def execBreakEnd (s : State) : Host.Outcome State Fault Refusal := .next (breakSent s)

/-! ### The end of a round (R82, R85) -/

/-- What the end of a round finds undone: polls that have not begun no longer fit and are skipped (R83, R85). -/
def endRound (s : State) : State :=
  match s.link.nextPos with
  | some p => if s.link.phase = .poll then skipPolls p s else s
  | none => s

/-- The rest of the round passes on a free line. A BREAK that a timer's expiry asks for meanwhile begins at once, if 4 character
times are left, and is sent to its end before the rest of the round passes (R95, R96). -/
def roundPasses (s : State) : State :=
  let t := timePassesWhile (fun u => u.link.free) s.link.remaining s
  if t.link.free then t
  else
    let u := breakSent t
    timePasses u.link.remaining u

/-- ROUND_START (R81, R82): the rest of the round passes on the free line, and the next round starts (log 19). -/
def execRoundStart (s : State) : Host.Outcome State Fault Refusal :=
  .next
    (if s.link.running = true ∧ s.link.free = true then startRound (endRound (roundPasses s)) else s)

/-! ### LINK_SETUP (R101, R102) -/

/-- Every setting lies in its range (R101). -/
def LinkSettings.inRange (l : LinkSettings) : Bool :=
  250 ≤ l.roundMs && l.roundMs ≤ 2000 && l.roundMs % 10 == 0 && 1 ≤ l.towers && l.towers ≤ Config.mainPositions
    && 2 ≤ l.missLimit && l.missLimit ≤ 10 && 2 ≤ l.resetLimit && l.resetLimit ≤ 30 && 10 ≤ l.ageLimit
    && l.ageLimit ≤ 250

/-- The settings replaced. The present step of 100 ms goes on where it stood, counted in character times of the new rate
(log 4). -/
def Link.withSettings (l : Link) (new : LinkSettings) : Link :=
  { l with settings := new, clock := l.clock * new.rate.perStep / l.settings.rate.perStep }

def linkSetup (l : LinkSettings) (s : State) : State × Answer :=
  if s.sup.machine ≠ .setup then (s, .refuse .state)
  else if l.inRange then
    (reconfigure s.link.settings l { s with link := s.link.withSettings l }, .ok)
  else (s, .refuse .badValue)

def linkSetupHandler : Handler := decodedHandler decodeLink linkSetup

/-- LINK_SETUP (R101). -/
def execLinkSetup (payload : List Byte) (s : State) : Host.Outcome State Fault Refusal :=
  .next (carryOut 0x40 linkSetupHandler payload s)

/-! ### The round check (R99) -/

/-- The configured positions and one service request fit in the round's budget. -/
def LinkSettings.roundCheck (l : LinkSettings) : Bool :=
  l.positions.length * Config.pollReserve + Config.serviceReserve ≤ l.budget

end Sys2Proof.Machine
end

