-- ==== Sys2Proof/Machine/Supervisor.lean ====
section
/-! DEFINITION. The Motion Supervisor's commands and rows (06_machine_states_run_permit_and_trips.md). -/

namespace Sys2Proof.Machine

/-! ### ONLINE (R130) -/

/-- The machine leaves SETUP and the first round starts at once (R80). -/
def goOnline (s : State) : State :=
  let s := changeState .standby s
  startRound { s with link := { s.link with running := true } }

def online (s : State) : State × Answer :=
  if s.sup.machine ≠ .setup then (s, .refuse .state)
  else if s.link.settings.towers = 0 then (s, .notReady (.geometry 0))
  else
    match firstGeometryFailure s with
    | some p => (s, .notReady (.geometry p))
    | none => if s.link.settings.roundCheck then (goOnline s, .ok) else (s, .notReady .roundTooShort)

def onlineHandler : Handler := plainHandler online

/-- ONLINE (R130). -/
def execOnline (payload : List Byte) (s : State) : Host.Outcome State Fault Refusal :=
  .next (carryOut 0x50 onlineHandler payload s)

/-! ### OFFLINE (R103, R131) -/

/-- The rounds end (R103): the exchange on the line is carried to its end and its outcome discarded, and a PENDING BREAK
goes out once the line is free. A BREAK that waits for a quiet line, which R103 does not name, keeps its wait and is sent
(DESIGN CHOICE, log 35). -/
def Link.endRounds (l : Link) : Link :=
  let l := { l with running := false, exchange := l.exchange.map fun x => { x with discard := true } }
  if l.brk = .pending ∧ l.exchange.isNone = true then l.sendBreak else l

/-- The part goes to SETUP, keeping the direction and every setting (R54, R78, R103, R124, R131, R164). -/
def goOffline (s : State) : State :=
  let s := changeState .setup s
  clearRoster
    { s with
      sup := { s.sup with trip := none }, link := s.link.endRounds, tracker := .cleared s.tracker.settings
      svc := .empty, port := { s.port with snapshot := .reset s.port.snapshot.round } }

def offline (s : State) : State × Answer :=
  if s.sup.machine = .standby ∨ s.sup.machine = .tripped then (goOffline s, .ok) else (s, .refuse .state)

def offlineHandler : Handler := plainHandler offline

/-- OFFLINE (R131). -/
def execOffline (payload : List Byte) (s : State) : Host.Outcome State Fault Refusal :=
  .next (carryOut 0x51 offlineHandler payload s)

/-! ### START (R132, R133) -/

/-- Every ONLINE tower becomes DRIVING (R69). -/
def driveOnline (s : State) : State := s.mapTowers fun _ t => if t.state = .online then t.drive else t

/-- The start timer starts from the start delay; from 0 it expires at once (R129, R133). -/
def startTimerStarts (s : State) : State :=
  if s.sup.startDelay = 0 then changeState .running s
  else { s with sup := { s.sup with startTimer := some (10 * s.sup.startDelay) } }

/-- What START does to the direction and escape before the machine moves (R133). -/
def faceStart (d : Direction) (escape : Option Nat) (s : State) : State :=
  let s := if d = s.sup.direction then s else changeDirection d s
  match escape with
  | some b => { s with tracker := { s.tracker with escape := some b } }
  | none => s

/-- START is accepted, with escape from a BARRIER or without. -/
def acceptStart (d : Direction) (escape : Option Nat) (s : State) : State :=
  startTimerStarts (driveOnline (changeState .starting (faceStart d escape s)))

/-- The first configured position that is not ONLINE (R132, check 5). -/
def firstNotOnline (s : State) : Option Nat := s.link.settings.positions.find? fun p => (s.tower p).state != .online

/-- The last check of START (R132, check 6), at a last good angle. -/
def startAt (d : Direction) (angle : Nat) (s : State) : State × Answer :=
  match covering s.plan angle with
  | some r =>
    if r.kind = .barrier then
      if escapeAllowed s.plan r angle d then (acceptStart d (some r.start) s, .ok) else (s, .notReady .insideBarrier)
    else (acceptStart d none s, .ok)
  | none => (acceptStart d none s, .ok)

def start (d : Direction) (s : State) : State × Answer :=
  if s.sup.machine ≠ .standby then (s, .refuse .state)
  else if s.sup.loopClosed = false then (s, .notReady .loopOpen)
  else if s.plan = [] then (s, .notReady .noPlan)
  else
    match s.tracker.lastGood with
    | none => (s, .notReady .noAngle)
    | some angle =>
      match firstNotOnline s with
      | some p => (s, .notReady (.tower p))
      | none => startAt d angle s

def startHandler : Handler := decodedHandler decodeStart start

/-- START (R132, R133). -/
def execStart (payload : List Byte) (s : State) : Host.Outcome State Fault Refusal :=
  .next (carryOut 0x52 startHandler payload s)

/-! ### STOP, PAUSE, CONTINUE, REVERSE -/

/-- STOP by machine state (R134). -/
def stop (s : State) : State × Answer :=
  match s.sup.machine with
  | .setup | .tripped => (s, .refuse .state)
  | .standby | .stopping => (s, .ok)
  | .starting => (changeState .standby s, .ok)
  | .running | .holding | .reversing | .jogging => (changeState .stopping s, .ok)

def stopHandler : Handler := plainHandler stop

/-- STOP (R134). -/
def execStop (payload : List Byte) (s : State) : Host.Outcome State Fault Refusal :=
  .next (carryOut 0x53 stopHandler payload s)

def pause (s : State) : State × Answer :=
  match s.sup.machine with
  | .running => (manualHold (changeState .holding s), .ok)
  | .holding => (manualHold s, .ok)
  | .setup | .standby | .starting | .reversing | .stopping | .jogging | .tripped => (s, .refuse .state)

def pauseHandler : Handler := plainHandler pause

/-- PAUSE (R139). -/
def execPause (payload : List Byte) (s : State) : Host.Outcome State Fault Refusal :=
  .next (carryOut 0x54 pauseHandler payload s)

def continueRun (s : State) : State × Answer :=
  if s.sup.machine = .holding then (changeState .running s, .ok) else (s, .refuse .state)

def continueHandler : Handler := plainHandler continueRun

/-- CONTINUE (R140). -/
def execContinueRun (payload : List Byte) (s : State) : Host.Outcome State Fault Refusal :=
  .next (carryOut 0x55 continueHandler payload s)

def reverse (s : State) : State × Answer :=
  if (s.sup.machine = .running ∨ s.sup.machine = .holding) ∧ s.tracker.escape = none then (beginReversal s, .ok)
  else (s, .refuse .state)

def reverseHandler : Handler := plainHandler reverse

/-- REVERSE (R141). -/
def execReverse (payload : List Byte) (s : State) : Host.Outcome State Fault Refusal :=
  .next (carryOut 0x56 reverseHandler payload s)

/-! ### JOG (R143, R144) -/

/-- The fields of a jog lie in their ranges (R143). -/
def Jog.inRange (j : Jog) : Bool := 1 ≤ j.speed.val && 1 ≤ j.roundsLeft && j.roundsLeft ≤ 120

/-- JOG is accepted. -/
def acceptJog (j : Jog) (s : State) : State :=
  let s := changeState .jogging s
  { s with sup := { s.sup with jog := some j } }.modTower j.position Tower.drive

def jog (j : Jog) (s : State) : State × Answer :=
  if s.isConfigured j.position = false ∨ j.inRange = false then (s, .refuse .badValue)
  else if s.sup.machine = .jogging then (s, .refuse .inProgress)
  else if s.sup.machine ≠ .standby then (s, .refuse .state)
  else if s.sup.loopClosed = false then (s, .notReady .loopOpen)
  else if (s.tower j.position).state ≠ .online then (s, .notReady (.tower j.position))
  else (acceptJog j s, .ok)

def jogHandler : Handler := decodedHandler decodeJog jog

/-- JOG (R143). -/
def execJog (payload : List Byte) (s : State) : Host.Outcome State Fault Refusal :=
  .next (carryOut 0x57 jogHandler payload s)

/-- JOG_ROUNDS_EXPIRED (R144): the rest report that takes the last of the rounds (log 8). -/
def execJogRoundsExpired (s : State) : Host.Outcome State Fault Refusal :=
  .next
    (match s.sup.machine, s.sup.jog with
    | .jogging, some j => if j.roundsLeft ≤ 1 then countJogRound j s else s
    | _, _ => s)

/-! ### ESTOP and CLEAR_TRIP -/

/-- ESTOP by machine state (R148). -/
def estop (s : State) : State × Answer :=
  match s.sup.machine with
  | .setup => (s, .ok)
  | .standby => (requestBreak s, .ok)
  | .starting | .running | .holding | .reversing | .stopping | .jogging | .tripped =>
    (tripRequest .panelStop none s, .ok)

def estopHandler : Handler := plainHandler estop

/-- ESTOP (R148). -/
def execEstop (payload : List Byte) (s : State) : Host.Outcome State Fault Refusal :=
  .next (carryOut 0x58 estopHandler payload s)

def clearTrip (s : State) : State × Answer :=
  if s.sup.machine = .tripped then (changeState .standby { s with sup := { s.sup with trip := none } }, .ok)
  else (s, .refuse .state)

def clearTripHandler : Handler := plainHandler clearTrip

/-- CLEAR_TRIP (R149). -/
def execClearTrip (payload : List Byte) (s : State) : Host.Outcome State Fault Refusal :=
  .next (carryOut 0x59 clearTripHandler payload s)

/-! ### TIMING_SETUP and MACHINE_GET -/

def timingSetup (c : Nat × Nat) (s : State) : State × Answer :=
  if c.1 ≤ 60 ∧ 2 ≤ c.2 ∧ c.2 ≤ 120 then
    ({ s with sup := { s.sup with startDelay := c.1, reversalDelay := c.2 } }, .ok)
  else (s, .refuse .badValue)

def timingSetupHandler : Handler := decodedHandler decodeTiming timingSetup

/-- TIMING_SETUP (R150). -/
def execTimingSetup (payload : List Byte) (s : State) : Host.Outcome State Fault Refusal :=
  .next (carryOut 0x5A timingSetupHandler payload s)

def machineGet (s : State) : State × Answer := (s, .okWith s.sup.encode)

def machineGetHandler : Handler := plainHandler machineGet

/-- MACHINE_GET (R151). -/
def execMachineGet (payload : List Byte) (s : State) : Host.Outcome State Fault Refusal :=
  .next (carryOut 0x5B machineGetHandler payload s)

/-! ### Timers (R129, R133, R137, R142) -/

/-- START_TIMER_EXPIRY (R133). -/
def execStartTimerExpiry (s : State) : Host.Outcome State Fault Refusal :=
  .next (if s.sup.machine = .starting ∧ s.sup.startTimer.isSome = true then startExpires s else s)

/-- Whether the dwell timer runs. -/
def Dwell.isRunning : Dwell → Bool
  | .running _ => true
  | .stopped | .expired => false

/-- DWELL_TIMER_EXPIRY (R137). -/
def execDwellTimerExpiry (s : State) : Host.Outcome State Fault Refusal :=
  .next (if s.sup.machine = .holding ∧ s.sup.hold.dwell.isRunning = true then dwellExpires s else s)

/-- Whether the reversal timer runs. -/
def ReversalWait.isDelay : ReversalWait → Bool
  | .delay _ => true
  | .none | .awaitingRest => false

/-- REVERSAL_TIMER_EXPIRY (R142). -/
def execReversalTimerExpiry (s : State) : Host.Outcome State Fault Refusal :=
  .next (if s.sup.machine = .reversing ∧ s.sup.reversal.isDelay = true then reversalExpires s else s)

/-! ### The safety loop (R145) -/

/-- The loop opens or closes (R145). -/
def loopChanges (closed : Bool) (s : State) : State :=
  let t := { s with sup := { s.sup with loopClosed := closed } }
  if !closed && s.inMotion then tripRequest .safetyLoop none t else t

/-- SAFETY_LOOP_CHANGE (R145, log 22). -/
def execSafetyLoopChange (closed : Bool) (s : State) : Host.Outcome State Fault Refusal :=
  .next (if closed = s.sup.loopClosed then s else loopChanges closed s)

end Sys2Proof.Machine
end

