-- ==== Sys2Proof/Machine/FieldPlan.lean ====
section
/-! DEFINITION. The seven commands of the Field Plan Table (01_the_field_plan.md). -/

namespace Sys2Proof.Machine

/-! ### SECTOR_PUT (R12, R13) -/

/-- The record count an answer carries. -/
def countByte (plan : List Sector) : List Byte := [byte plan.length]

/-- Whether a record is RETIRING. -/
def Sector.isRetiring (r : Sector) : Bool := r.state == .retiring

/-- Whether a start angle lies in the span of a RETIRING record (R12, check 4). -/
def insideRetiring (plan : List Sector) (key : Nat) : Bool :=
  match covering plan key with
  | some c => c.isRetiring
  | none => false

/-- Whether a record would be the active one with this plan: it covers the last good angle (R9). -/
def coversAngle (plan : List Sector) (angle : Option Nat) (key : Nat) : Bool :=
  (angle.bind (covering plan)).map Sector.start == some key

/-- Whether a record put now would govern a moving machine without being RUN (R12, check 6). -/
def putUnderway (r : Sector) (s : State) : Bool :=
  s.inMotion && coversAngle (insertRecord r s.plan) s.tracker.lastGood r.start && r.kind != .run

def sectorPut (r : Sector) (s : State) : State × Answer :=
  if r.valid = false then (s, .refuse .badValue)
  else if (findRecord s.plan r.start).isSome then (s, .refuse .exists)
  else if Config.planSize ≤ s.plan.length then (s, .refuse .full)
  else if insideRetiring s.plan r.start then (s, .refuse .inRetire)
  else if wideEnough s.plan r.start = false then (s, .refuse .narrow)
  else if putUnderway r s then (s, .refuse .activeKind)
  else ({ s with plan := insertRecord r s.plan }, .okWith (countByte (insertRecord r s.plan)))

def sectorPutHandler : Handler := decodedHandler decodeSector sectorPut

/-- SECTOR_PUT (R12, R13). -/
def execSectorPut (payload : List Byte) (s : State) : Host.Outcome State Fault Refusal :=
  .next (carryOut 0x10 sectorPutHandler payload s)

/-! ### SECTOR_AMEND (R14 to R17, R138) -/

/-- The active record as the table takes it (R9): the covering record of the last good angle, now. -/
def State.isActive (s : State) (key : Nat) : Bool := s.coveringRecord.map Sector.start == some key

/-- The dwell a change list sets, if it sets one. -/
def newDwell (cs : List Change) : Option Nat :=
  cs.findSome? fun c => match c with
    | .dwell v => v
    | _ => none

/-- Whether a change list sets resume AUTO. -/
def setsAuto (cs : List Change) : Bool := cs.contains (.resume (some .auto))

/-- What an accepted amendment of the held record does to the hold (R138). -/
def heldAmended (r : Sector) (cs : List Change) (s : State) : State :=
  if r.kind ≠ .hold then manualHold s
  else
    match newDwell cs with
    | some v => startDwell v s
    | none => if setsAuto cs = true ∧ s.sup.hold.dwell = .expired then changeState .running s else s

/-- The amended record takes the place of the present one, one revision on (R5, R16, R17). -/
def acceptAmendment (r : Sector) (cs : List Change) (s : State) : State × Answer :=
  let revision := (r.revision + 1) % 256
  let new := { r.amended cs with revision := revision }
  let t := { s with plan := replaceRecord new s.plan }
  (if s.sup.hold.held = some r.start then heldAmended new cs t else t, .okWith [byte revision])

/-- The checks of a SECTOR_AMEND on the record found (R15, checks 2 to 5). -/
def amendRecord (r : Sector) (a : Amendment) (s : State) : State × Answer :=
  if r.isRetiring then (s, .refuse .inRetire)
  else if a.expected.any (· != r.revision) then (s, .refuse .stale)
  else if (r.amended a.changes).valid = false then (s, .refuse .badValue)
  else if s.inMotion && s.isActive r.start && (r.amended a.changes).kind != r.kind then (s, .refuse .activeKind)
  else acceptAmendment r a.changes s

/-- SECTOR_AMEND: the form first (R14; log 14 for a start outside the circle), then the record. -/
def sectorAmend (a : Amendment) (s : State) : State × Answer :=
  if isAngle a.start = false ∨ changesOk a.changes = false then (s, .refuse .badValue)
  else
    match findRecord s.plan a.start with
    | none => (s, .refuse .notFound)
    | some r => amendRecord r a s

def sectorAmendHandler : Handler := decodedHandler decodeAmendment sectorAmend

/-- SECTOR_AMEND (R14 to R17). -/
def execSectorAmend (payload : List Byte) (s : State) : Host.Outcome State Fault Refusal :=
  .next (carryOut 0x11 sectorAmendHandler payload s)

/-! ### SECTOR_RETIRE (R18 to R20) -/

/-- Whether a LIVE record other than this one is in the table (R18, check 3). -/
def otherLive (plan : List Sector) (key : Nat) : Bool := plan.any fun q => q.start != key && !q.isRetiring

/-- The retirement is deferred (R20). -/
def markRetiring (r : Sector) (s : State) : State :=
  { s with plan := replaceRecord { r with state := .retiring } s.plan }

def retireRecord (r : Sector) (s : State) : State × Answer :=
  if r.isRetiring then (s, .refuse .inRetire)
  else if otherLive s.plan r.start = false then (s, .refuse .lastRecord)
  else if s.inMotion && s.isActive r.start then (markRetiring r s, .deferred)
  else (removeRecord r.start s, .okWith (countByte (removeKey r.start s.plan)))

def sectorRetire (key : Nat) (s : State) : State × Answer :=
  if isAngle key = false then (s, .refuse .badValue)
  else
    match findRecord s.plan key with
    | none => (s, .refuse .notFound)
    | some r => retireRecord r s

def sectorRetireHandler : Handler := decodedHandler decodeWord sectorRetire

/-- SECTOR_RETIRE (R18 to R20). -/
def execSectorRetire (payload : List Byte) (s : State) : Host.Outcome State Fault Refusal :=
  .next (carryOut 0x12 sectorRetireHandler payload s)

/-! ### SECTOR_GET, SECTOR_FIND and SECTOR_WALK (R23 to R25) -/

/-- The 24 bytes of a record as the table stands. -/
def recordBytes (plan : List Sector) (r : Sector) : List Byte := r.encode (width plan r)

/-- The answer that returns a record, or NOT_FOUND. -/
def recordAnswer (plan : List Sector) : Option Sector → Answer
  | some r => .okWith (recordBytes plan r)
  | none => .refuse .notFound

def sectorGet (key : Nat) (s : State) : State × Answer :=
  (s, if isAngle key then recordAnswer s.plan (findRecord s.plan key) else .refuse .badValue)

def sectorGetHandler : Handler := decodedHandler decodeWord sectorGet

/-- SECTOR_GET (R23). -/
def execSectorGet (payload : List Byte) (s : State) : Host.Outcome State Fault Refusal :=
  .next (carryOut 0x13 sectorGetHandler payload s)

def sectorFind (angle : Nat) (s : State) : State × Answer :=
  (s, if isAngle angle then recordAnswer s.plan (covering s.plan angle) else .refuse .badValue)

def sectorFindHandler : Handler := decodedHandler decodeWord sectorFind

/-- SECTOR_FIND (R24). -/
def execSectorFind (payload : List Byte) (s : State) : Host.Outcome State Fault Refusal :=
  .next (carryOut 0x14 sectorFindHandler payload s)

/-- The answer of a walk: the record with the count, or NOT_FOUND with the count (R25, R170). -/
def walkAnswer (plan : List Sector) : Option Sector → Answer
  | some r => .okWith (recordBytes plan r ++ countByte plan)
  | none => { code := .notFound, payload := countByte plan }

def sectorWalk (w : Option Nat) (s : State) : State × Answer :=
  (s,
    match w with
    | none => walkAnswer s.plan s.plan.head?
    | some key =>
      if isAngle key then walkAnswer s.plan (s.plan.find? (key < ·.start)) else .refuse .badValue)

def sectorWalkHandler : Handler := decodedHandler decodeWalk sectorWalk

/-- SECTOR_WALK (R25). -/
def execSectorWalk (payload : List Byte) (s : State) : Host.Outcome State Fault Refusal :=
  .next (carryOut 0x15 sectorWalkHandler payload s)

/-! ### SECTOR_CLEAR (R26, R27) -/

def sectorClear (s : State) : State × Answer :=
  if s.inMotion then (s, .refuse .state) else ({ s with plan := [] }, .ok)

def sectorClearHandler : Handler := plainHandler sectorClear

/-- SECTOR_CLEAR (R26). -/
def execSectorClear (payload : List Byte) (s : State) : Host.Outcome State Fault Refusal :=
  .next (carryOut 0x16 sectorClearHandler payload s)

end Sys2Proof.Machine
end

