-- ==== Sys2Proof/Machine/EventUnit.lean ====
section
/-! DEFINITION. The commands of the Event Unit and the rows of the ATTN line (09_events_and_the_attention_line.md). -/

namespace Sys2Proof.Machine

/-- The answer of all four commands: the unit's state after the command (R182). -/
def eventAnswer (e : Events) : Answer := .okWith e.encode

/-- The unit changes and its state is answered. -/
def changeEvents (f : Events → Events) (s : State) : State × Answer := ({ s with ev := f s.ev }, eventAnswer (f s.ev))

def evtReadHandler : Handler := plainHandler (changeEvents id)

/-- EVT_READ (R182). -/
def execEvtRead (payload : List Byte) (s : State) : Host.Outcome State Fault Refusal :=
  .next (carryOut 0x70 evtReadHandler payload s)

def evtAckHandler : Handler := decodedHandler decodeEvtAck fun set => changeEvents (Events.acknowledge set)

/-- EVT_ACK (R181). -/
def execEvtAck (payload : List Byte) (s : State) : Host.Outcome State Fault Refusal :=
  .next (carryOut 0x71 evtAckHandler payload s)

def evtEnableHandler : Handler := decodedHandler decodeEvtSet fun c => changeEvents (Events.enable c.1 c.2)

/-- EVT_ENABLE (R178). -/
def execEvtEnable (payload : List Byte) (s : State) : Host.Outcome State Fault Refusal :=
  .next (carryOut 0x72 evtEnableHandler payload s)

def evtDisableHandler : Handler := decodedHandler decodeEvtSet fun c => changeEvents (Events.disable c.1 c.2)

/-- EVT_DISABLE (R178). -/
def execEvtDisable (payload : List Byte) (s : State) : Host.Outcome State Fault Refusal :=
  .next (carryOut 0x73 evtDisableHandler payload s)

/-- ATTN_HIGH_END (R180). -/
def execAttnHighEnd (s : State) : Host.Outcome State Fault Refusal := .next { s with ev := s.ev.highEnd }

/-- ATTN_GAP_END (R180). -/
def execAttnGapEnd (s : State) : Host.Outcome State Fault Refusal := .next { s with ev := s.ev.gapEnd }

end Sys2Proof.Machine
end

