-- ==== Sys2Proof/Machine/CommandLink.lean ====
section
/-! DEFINITION. The Command Link Port (08_the_command_link.md): its own commands, the table of command codes, the start and
the end of a transaction, and power-on reset. -/

namespace Sys2Proof.Machine

/-! ### NOP and STATUS (R173, R174) -/

def nopHandler : Handler := plainHandler fun s => (s, .ok)

/-- NOP (R173). -/
def execNop (payload : List Byte) (s : State) : Host.Outcome State Fault Refusal :=
  .next (carryOut 0x01 nopHandler payload s)

/-- The snapshot whole, and the machine state now (R174). -/
def statusAnswer (s : State) : Answer := .okWith (s.port.snapshot.encode ++ [s.sup.machine.byte])

def statusHandler : Handler := plainHandler fun s => (s, statusAnswer s)

/-- STATUS (R174). -/
def execStatus (payload : List Byte) (s : State) : Host.Outcome State Fault Refusal :=
  .next (carryOut 0x02 statusHandler payload s)

/-! ### RESTART (R29, R54, R78, R104, R124, R152, R164, R175, R176, R183) -/

/-- The BREAK of RESTART (R104): one already being sent or waiting for the line serves, and otherwise one follows the cut
exchange, after a quiet line if a reply was arriving. -/
def Link.restartBreak (l : Link) : BreakState :=
  match l.brk with
  | .sending n => .sending n
  | .waiting n q => .waiting n q
  | .none | .pending =>
    match l.exchangeAt .receiving with
    | some x => x.quietWait
    | none => .sending 0

/-- The controller after RESTART (R104); its 100 ms clock runs on (log 4). -/
def Link.restarted (l : Link) : Link :=
  { Link.powerOn with settings := l.settings, brk := l.restartBreak, clock := l.clock }

/-- The supervisor after RESTART (R152): its settings and the loop state are kept. -/
def Supervisor.restarted (u : Supervisor) : Supervisor :=
  { Supervisor.powerOn u.loopClosed with startDelay := u.startDelay, reversalDelay := u.reversalDelay }

/-- The plan after RESTART (R29). -/
def livePlan (plan : List Sector) : List Sector := plan.filter fun r => !r.isRetiring

/-- The Event Unit after RESTART (R183): cleared, but a frame that was dropped because the restart was executing leaves its
CMD_DROPPED standing (R175). -/
def Port.restartEvents (p : Port) : Events :=
  if p.command.isSome && p.dropped then Events.reset.raise .cmdDropped else Events.reset

/-- Every block takes RESTART in one event (R175). -/
def restartBlocks (s : State) : State :=
  clearRoster
    { s with
      plan := livePlan s.plan, tracker := .cleared s.tracker.settings, link := s.link.restarted
      sup := s.sup.restarted, svc := .empty
      port := { Port.powerOn with transaction := s.port.transaction, mask := s.port.mask }
      ev := s.port.restartEvents }

def restartHandler : Handler := plainHandler fun s => (restartBlocks s, .ok)

/-- RESTART (R175). -/
def execRestart (payload : List Byte) (s : State) : Host.Outcome State Fault Refusal :=
  .next (carryOut 0x03 restartHandler payload s)

/-! ### The command codes (11 "Command codes") -/

/-- What carries out the command with a code; `none` for a code that names no command. -/
def handlerOf (code : Byte) : Option Handler :=
  match code.toNat with
  | 0x01 => some nopHandler
  | 0x02 => some statusHandler
  | 0x03 => some restartHandler
  | 0x10 => some sectorPutHandler
  | 0x11 => some sectorAmendHandler
  | 0x12 => some sectorRetireHandler
  | 0x13 => some sectorGetHandler
  | 0x14 => some sectorFindHandler
  | 0x15 => some sectorWalkHandler
  | 0x16 => some sectorClearHandler
  | 0x20 => some motionSetupHandler
  | 0x30 => some towerSetHandler
  | 0x31 => some towerTrimHandler
  | 0x32 => some towerGetHandler
  | 0x33 => some towerAckHandler
  | 0x34 => some towerResetHandler
  | 0x40 => some linkSetupHandler
  | 0x48 => some alignTuneHandler
  | 0x50 => some onlineHandler
  | 0x51 => some offlineHandler
  | 0x52 => some startHandler
  | 0x53 => some stopHandler
  | 0x54 => some pauseHandler
  | 0x55 => some continueHandler
  | 0x56 => some reverseHandler
  | 0x57 => some jogHandler
  | 0x58 => some estopHandler
  | 0x59 => some clearTripHandler
  | 0x5A => some timingSetupHandler
  | 0x5B => some machineGetHandler
  | 0x60 => some svcSubmitHandler
  | 0x61 => some svcResultHandler
  | 0x62 => some svcCancelHandler
  | 0x70 => some evtReadHandler
  | 0x71 => some evtAckHandler
  | 0x72 => some evtEnableHandler
  | 0x73 => some evtDisableHandler
  | _ => none

/-- The answer to a code that names no command (R169). -/
def answerUnknown (code : Byte) (s : State) : State := s.respond ((Answer.refuse .unknown).frame code)

/-- The command in the command slot is carried out (log 7). -/
def completeCommand (c : Command) (s : State) : State :=
  match handlerOf c.code with
  | some h => finishCommand c.code h c.payload s
  | none => answerUnknown c.code s

/-! ### Transactions (R165 to R169) -/

/-- The marker bytes of MISO. -/
def emptyMarker : Byte := 0xE5
def busyMarker : Byte := 0xB5
/-- The filler byte of MISO. -/
def fillerByte : Byte := 0xFF

/-- What MISO carries from a transaction's start (R165). -/
def Port.startBytes (p : Port) : List Byte :=
  if p.command.isSome then [busyMarker] else p.response.getD [emptyMarker]

/-- The byte MISO carries at each place of the transaction in progress (R165). -/
def Transaction.misoByte (t : Transaction) (k : Nat) : Byte := t.miso.getD k fillerByte

/-- A transaction starts (R165): the response slot is emptied and RDY falls. -/
def Port.startTransaction (p : Port) : Port :=
  { p with response := none, rdy := false,
           transaction := some { busy := p.command.isSome, miso := p.startBytes } }

/-- SEL falls while power-on reset is in force: no transaction starts (R176). -/
def SelectMask.selected : SelectMask → SelectMask
  | .inReset | .inResetSelected => .inResetSelected
  | .clear | .ignored => .ignored

/-- SEL rises where its fall started no transaction (R176). -/
def SelectMask.deselected : SelectMask → SelectMask
  | .inReset | .inResetSelected => .inReset
  | .clear | .ignored => .clear

/-- TRANSACTION_START (R165, R176). -/
def execTransactionStart (s : State) : Host.Outcome State Fault Refusal :=
  .next
    (if s.port.transaction.isSome then s
    else if s.port.mask = .clear then { s with port := s.port.startTransaction }
    else { s with port := { s.port with mask := s.port.mask.selected } })

/-- The byte at each place of MISO while SEL is low: the transaction's, and filler where the fall of SEL started none (R176);
none while SEL is high. -/
def Port.misoByte (p : Port) (k : Nat) : Option Byte :=
  match p.transaction, p.mask with
  | some t, _ => some (t.misoByte k)
  | none, .inResetSelected | none, .ignored => some fillerByte
  | none, .clear | none, .inReset => none

/-- The tests of R168 on the bytes received: the length byte, the byte count, the check. -/
def frameGood (received : List Byte) : Bool :=
  match received with
  | [] => false
  | b :: _ =>
    4 ≤ b.toNat && b.toNat ≤ 64 && b.toNat ≤ received.length && checkHolds (received.take b.toNat)

/-- A frame that fails a test (R168): BAD_FRAME echoing its second byte, and CMD_DROPPED. -/
def answerBadFrame (received : List Byte) (s : State) : State :=
  raise .cmdDropped (s.respond ((Answer.refuse .badFrame).frame ((received[1]?).getD 0)))

/-- The command of a good frame: its code and the payload between code and check. -/
def frameCommand (received : List Byte) : Command :=
  { code := (received[1]?).getD 0
    payload := (received.take ((received[0]?).getD 0).toNat).drop 2 |>.dropLast.dropLast }

/-- A command is taken (R169): a known code makes the command slot EXECUTING, and an unknown one is answered at once
(log 6). -/
def takeCommand (c : Command) (s : State) : State :=
  if (handlerOf c.code).isSome then { s with port := { s.port with command := some c, dropped := false } }
  else answerUnknown c.code s

/-- Whether a transaction carried no frame: no byte, or a first byte of 0 (R167, case 1). -/
def isFetch (received : List Byte) : Bool := received.head?.all (· == 0)

/-- A frame is dropped, and a command that is still executing is noted to be the reason (R167, R175). -/
def State.dropFrame (s : State) : State := { s with port := { s.port with dropped := s.port.command.isSome } }

/-- The bytes received are judged (R167), in a transaction that began with BUSY or not. -/
def judgeReceived (busy : Bool) (received : List Byte) (s : State) : State :=
  if isFetch received then s
  else if busy then raise .cmdDropped s.dropFrame
  else if frameGood received then takeCommand (frameCommand received) s
  else answerBadFrame received s

/-- TRANSACTION_END (R167 to R169); bytes shifted where SEL's fall started no transaction are not taken (R176). -/
def execTransactionEnd (received : List Byte) (s : State) : Host.Outcome State Fault Refusal :=
  .next
    (match s.port.transaction with
    | some t => judgeReceived t.busy received { s with port := { s.port with transaction := none } }
    | none => { s with port := { s.port with mask := s.port.mask.deselected } })

/-! ### Power-on reset (R28, R54, R78, R105, R124, R125, R145, R150, R152, R164, R176, R183) -/

/-- What a step of power-on reset makes of the select input (R176): while the reset is in force, a fall of SEL is remembered,
and when it has ended, SEL that is still low from such a fall stays ignored. -/
def SelectMask.afterReset (inForce : Bool) (m : SelectMask) : SelectMask :=
  match inForce, m with
  | true, .clear | true, .inReset => .inReset
  | true, .inResetSelected | true, .ignored => .inResetSelected
  | false, .clear | false, .inReset => .clear
  | false, .inResetSelected | false, .ignored => .ignored

/-- POWER_ON_RESET: every block stands at its power-on state. With an operand the reset has ended, and the safety loop has the
level its input holds then (R145); without one the reset comes into force, and stays so until it ends (log 21). -/
def execPowerOnReset (ended : Option Bool) (s : State) : Host.Outcome State Fault Refusal :=
  .next { State.powerOn (ended.getD s.sup.loopClosed) with
    port := { Port.powerOn with mask := s.port.mask.afterReset ended.isNone }, free := s.free, pending := s.pending }

end Sys2Proof.Machine
end

