-- ==== Sys2Proof/Machine/Clock.lean ====
section
/-! DEFINITION. What the part does of itself on an empty queue (log 3): it completes the command it is executing, begins the
next exchange, starts the next round, or lets one character time of the span link pass with everything that falls due in it. -/

namespace Sys2Proof.Machine

/-! ### One character time -/

/-- What falls due for the exchange on the line (R91, R92). -/
def exchangeDue (s : State) : State :=
  match s.link.exchange with
  | none => s
  | some x =>
    match x.step with
    | .sending => if x.requestEnd ≤ x.used then requestEnds x s else s
    | .awaiting => if x.windowEnd ≤ x.used then windowCloses x s else s
    | .receiving => if x.reserveEnd ≤ x.used then reservationEnds x s else s

/-- One character time passes, with what falls due at its end in the order of log 23. -/
def characterTime (s : State) : State := breakDue (exchangeDue (timePasses 1 s))

/-! ### An idle step -/

/-- Whether the service phase has a candidate (R89). -/
def hasCandidate (s : State) : Bool := (resetCandidate s).isSome || (serviceCandidate s).isSome

/-- Whether the round has ended on a free line (R82). -/
def Link.roundIsOver (l : Link) : Bool := l.running && l.remaining == 0 && l.free

/-- What the part does of itself when no command of the queue is taken. Polls that have not begun when the round ends are
skipped before the next round starts (R85), and that starts with no time lost (R82). -/
def idle (s : State) : State :=
  match s.port.command with
  | some c => completeCommand c s
  | none =>
    if s.link.mayBegin .poll && s.link.nextPos.isSome then pollBegins s
    else if s.link.roundIsOver then startRound s
    else if s.link.mayBegin .service && hasCandidate s then
      if (resetCandidate s).isSome then resetBegins s else serviceBegins s
    else characterTime s

end Sys2Proof.Machine
end

