-- ==== Sys2Proof/Machine/Dispatch.lean ====
section
/-! DEFINITION. exec: one arm per constructor of Instr, each a direct call of its meaning. -/

namespace Sys2Proof.Machine

open Host

/-- The effect of a command or event on everything but the queue of pending commands. -/
def exec (i : Instr) (s : State) : Host.Outcome State Fault Refusal :=
  match i with
  | .powerOnReset ended => Sys2Proof.Machine.execPowerOnReset ended s
  | .transactionStart => Sys2Proof.Machine.execTransactionStart s
  | .transactionEnd received => Sys2Proof.Machine.execTransactionEnd received s
  | .nop payload => Sys2Proof.Machine.execNop payload s
  | .status payload => Sys2Proof.Machine.execStatus payload s
  | .restart payload => Sys2Proof.Machine.execRestart payload s
  | .sectorPut payload => Sys2Proof.Machine.execSectorPut payload s
  | .sectorAmend payload => Sys2Proof.Machine.execSectorAmend payload s
  | .sectorRetire payload => Sys2Proof.Machine.execSectorRetire payload s
  | .sectorGet payload => Sys2Proof.Machine.execSectorGet payload s
  | .sectorFind payload => Sys2Proof.Machine.execSectorFind payload s
  | .sectorWalk payload => Sys2Proof.Machine.execSectorWalk payload s
  | .sectorClear payload => Sys2Proof.Machine.execSectorClear payload s
  | .motionSetup payload => Sys2Proof.Machine.execMotionSetup payload s
  | .towerSet payload => Sys2Proof.Machine.execTowerSet payload s
  | .towerTrim payload => Sys2Proof.Machine.execTowerTrim payload s
  | .towerGet payload => Sys2Proof.Machine.execTowerGet payload s
  | .towerAck payload => Sys2Proof.Machine.execTowerAck payload s
  | .towerReset payload => Sys2Proof.Machine.execTowerReset payload s
  | .linkSetup payload => Sys2Proof.Machine.execLinkSetup payload s
  | .alignTune payload => Sys2Proof.Machine.execAlignTune payload s
  | .online payload => Sys2Proof.Machine.execOnline payload s
  | .offline payload => Sys2Proof.Machine.execOffline payload s
  | .start payload => Sys2Proof.Machine.execStart payload s
  | .stop payload => Sys2Proof.Machine.execStop payload s
  | .pause payload => Sys2Proof.Machine.execPause payload s
  | .continueRun payload => Sys2Proof.Machine.execContinueRun payload s
  | .reverse payload => Sys2Proof.Machine.execReverse payload s
  | .jog payload => Sys2Proof.Machine.execJog payload s
  | .estop payload => Sys2Proof.Machine.execEstop payload s
  | .clearTrip payload => Sys2Proof.Machine.execClearTrip payload s
  | .timingSetup payload => Sys2Proof.Machine.execTimingSetup payload s
  | .machineGet payload => Sys2Proof.Machine.execMachineGet payload s
  | .svcSubmit payload => Sys2Proof.Machine.execSvcSubmit payload s
  | .svcResult payload => Sys2Proof.Machine.execSvcResult payload s
  | .svcCancel payload => Sys2Proof.Machine.execSvcCancel payload s
  | .evtRead payload => Sys2Proof.Machine.execEvtRead payload s
  | .evtAck payload => Sys2Proof.Machine.execEvtAck payload s
  | .evtEnable payload => Sys2Proof.Machine.execEvtEnable payload s
  | .evtDisable payload => Sys2Proof.Machine.execEvtDisable payload s
  | .attnHighEnd => Sys2Proof.Machine.execAttnHighEnd s
  | .attnGapEnd => Sys2Proof.Machine.execAttnGapEnd s
  | .roundStart => Sys2Proof.Machine.execRoundStart s
  | .unreachable slot => Sys2Proof.Machine.execUnreachable slot s
  | .angleSample angle valid => Sys2Proof.Machine.execAngleSample angle valid s
  | .angleLoss => Sys2Proof.Machine.execAngleLoss s
  | .pollBegin => Sys2Proof.Machine.execPollBegin s
  | .resetExchangeBegin => Sys2Proof.Machine.execResetExchangeBegin s
  | .serviceExchangeBegin => Sys2Proof.Machine.execServiceExchangeBegin s
  | .requestSent => Sys2Proof.Machine.execRequestSent s
  | .noReply => Sys2Proof.Machine.execNoReply s
  | .replyGapTimeout => Sys2Proof.Machine.execReplyGapTimeout s
  | .reservationUsedUp => Sys2Proof.Machine.execReservationUsedUp s
  | .replyFramingError => Sys2Proof.Machine.execReplyFramingError s
  | .replyComplete reply => Sys2Proof.Machine.execReplyComplete reply s
  | .missLimitReached position => Sys2Proof.Machine.execMissLimitReached position s
  | .followLimitReached position => Sys2Proof.Machine.execFollowLimitReached position s
  | .stall position => Sys2Proof.Machine.execStall position s
  | .jogRoundsExpired => Sys2Proof.Machine.execJogRoundsExpired s
  | .startTimerExpiry => Sys2Proof.Machine.execStartTimerExpiry s
  | .dwellTimerExpiry => Sys2Proof.Machine.execDwellTimerExpiry s
  | .reversalTimerExpiry => Sys2Proof.Machine.execReversalTimerExpiry s
  | .resetTimerExpiry position => Sys2Proof.Machine.execResetTimerExpiry position s
  | .safetyLoopChange closed => Sys2Proof.Machine.execSafetyLoopChange closed s
  | .breakBegin => Sys2Proof.Machine.execBreakBegin s
  | .breakEnd => Sys2Proof.Machine.execBreakEnd s
  | .replyBegun => Sys2Proof.Machine.execReplyBegun s

end Sys2Proof.Machine
end

