-- ==== Sys2Proof/Safety.lean ====
section
/-! DEFINITION. The laws the manual names, as predicates of a state: the run permit and the trip record (R127, R147) with
the timers and contexts that belong to their states (R128), the two slots and RDY (R165, R166), the driven towers and their
commands (R69, R111, R113), and the field plan (R6, R21). -/

namespace Sys2Proof.Machine

/-- The run permit is high exactly in a motion state (R127), the trip record is filled exactly in TRIPPED (R147), and each
timer and context exists only in the states it serves (R128). -/
abbrev Supervisor.Lawful (u : Supervisor) : Prop :=
  u.permit = u.machine.isMotion ∧ u.trip.isSome = decide (u.machine = .tripped)
    ∧ (u.startTimer ≠ none → u.machine = .starting) ∧ (u.hold ≠ Hold.cleared → u.machine = .holding)
    ∧ (u.reversal ≠ .none → u.machine = .reversing) ∧ (u.jog ≠ none → u.machine = .jogging ∨ u.machine = .stopping)

/-- A transaction that did not begin with BUSY found both slots empty, and they stay so while it lasts (R165, R167). -/
abbrev Transaction.Lawful (p : Port) (t : Transaction) : Prop :=
  t.busy = true ∨ (p.command = none ∧ p.response = none)

/-- RDY is high exactly while the response slot is FULL (R166), and the two slots are never both occupied (R165). -/
abbrev Port.Lawful (p : Port) : Prop :=
  p.rdy = p.response.isSome ∧ (p.command = none ∨ p.response = none)
    ∧ ∀ t ∈ p.transaction, t.Lawful p

/-- A tower is driven only in a motion state (R69); one that is not driven has target and applied command 0, and both lie
within 0 to 1000 in every tower (R111, R113). -/
abbrev Tower.Lawful (inMotion : Bool) (t : Tower) : Prop :=
  (t.isDriven = true → inMotion = true) ∧ (t.isDriven = false → t.target = 0 ∧ t.applied = 0)
    ∧ t.target ≤ 1000 ∧ t.applied ≤ 1000

/-- Every tower of the roster is lawful. -/
abbrev State.TowersLawful (s : State) : Prop := ∀ p ≤ Config.positions, (s.tower p).Lawful s.inMotion

/-- Two records of the plan, the first with the lesser start angle, are a record's least width apart both ways round the
circle (R6). -/
abbrev Sector.apart (a b : Sector) : Prop :=
  a.start + Config.minWidth ≤ b.start ∧ b.start + Config.minWidth ≤ a.start + Config.circle

/-- The first law of the plan (R6), with every record one that R4 accepts. -/
abbrev PlanLawful (plan : List Sector) : Prop :=
  plan.length ≤ Config.planSize ∧ plan.Pairwise Sector.apart ∧ ∀ r ∈ plan, r.valid = true

/-- The third law of the plan (R21): a RETIRING record stands in the table only while the machine is in a motion state, and it
is the covering record of the last good angle, so there is at most one. -/
abbrev State.RetiringLawful (s : State) : Prop :=
  ∀ r ∈ s.plan, r.state = .retiring → s.inMotion = true ∧ s.coveringRecord = some r

/-- What power-on reset leaves, whatever came before (R28, R53, R54, R56, R78, R101, R105, R124, R125, R127, R150, R152,
R164, R176, R183). -/
abbrev State.AtPowerOn (s : State) : Prop :=
  s.plan = []
    ∧ s.tracker.settings = { arrivalWindow := 20, defaultLead := 300, escapePace := 150, jumpLimit := 200 }
    ∧ s.tracker.lastGood = none ∧ s.tracker.badCount = 0 ∧ s.tracker.angleUsed = none ∧ s.tracker.held = false
    ∧ s.tracker.view = none ∧ s.tracker.pace = 0 ∧ s.tracker.served = none ∧ s.tracker.escape = none
    ∧ s.tracker.heldSwing = none ∧ s.tracker.capturePending = false
    ∧ (∀ p ≤ 21, (s.tower p).geometry = none ∧ s.tower p = Tower.cleared none .vacant)
    ∧ s.link.settings = { rate := .r19200, roundMs := 500, towers := 0, corner := false, missLimit := 3,
                          resetLimit := 10, ageLimit := 40 }
    ∧ s.link.running = false ∧ s.link.round = 0 ∧ s.link.exchange = none ∧ s.link.offered = [] ∧ s.link.brk = .none
    ∧ s.tune = { gain := 24, deadband := 15, slew := 80, warn := 300, trip := 700, cornerGain := 16, swingTrip := 1500,
                 follow := 4, stallThreshold := 200, stallRounds := 12 }
    ∧ s.sup.machine = .setup ∧ s.sup.direction = .forward ∧ s.sup.permit = false ∧ s.sup.startTimer = none
    ∧ s.sup.hold = .cleared ∧ s.sup.reversal = .none ∧ s.sup.jog = none ∧ s.sup.trip = none
    ∧ s.sup.startDelay = 10 ∧ s.sup.reversalDelay = 8
    ∧ (∀ n ≤ 8, s.svc.slot n = none) ∧ s.svc.order = [] ∧ s.svc.counter = 0
    ∧ s.port.command = none ∧ s.port.response = none ∧ s.port.rdy = false ∧ s.port.snapshot = .reset 0
    ∧ s.ev = { flags := 0, enables := 0, master := false, phase := .low, owed := false }

/-- The view of the tracker, facing the direction of travel, from an angle in the covering record `r`, with `n` the record beyond
the boundary ahead (R35, R38 to R40). The next pace is 0 toward a BARRIER, and toward a HOLD whose key is not the hold-served
mark's. -/
abbrev State.viewToward (s : State) (served : Option (Nat × Nat)) (angle : Nat) (r n : Sector) : View :=
  let x := (angle + 36000 - r.start) % 36000
  { activeKey := r.start, revision := r.revision, nextKey := n.start
    dist := (match s.sup.direction with | .forward => width s.plan r - x | .reverse => x)
    currentPace := r.paceFor s.sup.direction
    nextPace := (match n.kind with
      | .run => n.paceFor s.sup.direction
      | .hold => if served.map Prod.fst = some n.start then n.paceFor s.sup.direction else 0
      | .barrier => 0)
    lead := min (n.lead.getD s.tracker.settings.defaultLead) (width s.plan r)
    warnLimit := r.warnLimit, swing := r.swing, into := x, width := width s.plan r }

/-- What a refresh without a new angle makes of `s` (R35): the view toward `n`, and a crossing where the active record key held
was another record's (R36), with the capture of the held swing pending (R51). -/
abbrev State.refreshedTo (s : State) (angle : Nat) (r n : Sector) : State :=
  let seen (pending : Bool) : State := { s with tracker := { s.tracker with
    capturePending := pending, view := some (s.viewToward s.tracker.served angle r n) } }
  if s.tracker.view.any fun v => v.activeKey ≠ r.start then raise .sectorCrossed (seen true)
  else seen s.tracker.capturePending

/-- `s` with another direction of travel. -/
abbrev State.facing (s : State) (d : Direction) : State := { s with sup := { s.sup with direction := d } }

/-- What a hold at the HOLD record `h` makes of a RUNNING machine (R43, R46, R136, R137): the hold-served mark with the key of
the active record, the ARRIVAL flag, and the dwell from the record's value, a dwell of 0 expiring at once. -/
abbrev State.HeldAt (t s : State) (h : Sector) (active : Nat) : Prop :=
  t.tracker.served = some (h.start, active) ∧ t.ev.isSet .arrival = true ∧ t.ev.isSet .machineState = true
    ∧ (∀ v, h.dwell = some v → 0 < v → t.sup = { s.sup with
        machine := .holding, hold := { held := some h.start, dwell := .running (10 * v) } })
    ∧ (h.dwell = some 0 → h.resume = some .auto → t.sup = { s.sup with hold := { held := none, dwell := .stopped } })
    ∧ (h.dwell = some 0 → h.resume = some .manual → t.sup = { s.sup with
        machine := .holding, hold := { held := some h.start, dwell := .expired } })

/-- The record of a tower with a good poll reply stored (R61, R63): a joint out of its range shows sensor invalid, and the miss
count is cleared in every state but FAULTED. -/
abbrev State.stored (s : State) (p : Nat) (r : Reading) : Tower :=
  { s.tower p with
    status := r.storedStatus p, joint := r.joint, track := r.track, lastRound := s.link.round
    fresh := (s.tower p).fresh || s.isEnd p || !shows (r.storedStatus p) statusSensorInvalid
    miss := if (s.tower p).state = .faulted then (s.tower p).miss else 0 }

/-- `t` is `s` with the record of one tower replaced, the event flags aside. -/
abbrev State.TowerBecomes (t s : State) (p : Nat) (u : Tower) : Prop :=
  t.tower p = u ∧ (∀ q, q ≠ p → t.tower q = s.tower q) ∧ t.sup = s.sup ∧ t.link = s.link ∧ t.tracker = s.tracker
    ∧ t.plan = s.plan ∧ t.tune = s.tune ∧ t.svc = s.svc ∧ t.port = s.port ∧ t.free = s.free

/-- The code and the payload of a command row (R169's table); an event row carries none. -/
def commandOf : Instr → Option (Byte × List Byte)
  | .nop p => some (0x01, p)
  | .status p => some (0x02, p)
  | .restart p => some (0x03, p)
  | .sectorPut p => some (0x10, p)
  | .sectorAmend p => some (0x11, p)
  | .sectorRetire p => some (0x12, p)
  | .sectorGet p => some (0x13, p)
  | .sectorFind p => some (0x14, p)
  | .sectorWalk p => some (0x15, p)
  | .sectorClear p => some (0x16, p)
  | .motionSetup p => some (0x20, p)
  | .towerSet p => some (0x30, p)
  | .towerTrim p => some (0x31, p)
  | .towerGet p => some (0x32, p)
  | .towerAck p => some (0x33, p)
  | .towerReset p => some (0x34, p)
  | .linkSetup p => some (0x40, p)
  | .alignTune p => some (0x48, p)
  | .online p => some (0x50, p)
  | .offline p => some (0x51, p)
  | .start p => some (0x52, p)
  | .stop p => some (0x53, p)
  | .pause p => some (0x54, p)
  | .continueRun p => some (0x55, p)
  | .reverse p => some (0x56, p)
  | .jog p => some (0x57, p)
  | .estop p => some (0x58, p)
  | .clearTrip p => some (0x59, p)
  | .timingSetup p => some (0x5A, p)
  | .machineGet p => some (0x5B, p)
  | .svcSubmit p => some (0x60, p)
  | .svcResult p => some (0x61, p)
  | .svcCancel p => some (0x62, p)
  | .evtRead p => some (0x70, p)
  | .evtAck p => some (0x71, p)
  | .evtEnable p => some (0x72, p)
  | .evtDisable p => some (0x73, p)
  | .powerOnReset _ | .transactionStart | .transactionEnd _ | .attnHighEnd | .attnGapEnd | .roundStart
  | .unreachable _ | .angleSample _ _ | .angleLoss | .pollBegin | .resetExchangeBegin | .serviceExchangeBegin
  | .requestSent | .noReply | .replyGapTimeout | .reservationUsedUp | .replyFramingError | .replyComplete _
  | .missLimitReached _ | .followLimitReached _ | .stall _ | .jogRoundsExpired | .startTimerExpiry
  | .dwellTimerExpiry | .reversalTimerExpiry | .resetTimerExpiry _ | .safetyLoopChange _ | .breakBegin | .breakEnd
  | .replyBegun => none

/-- The command in the command slot, which the part is carrying out (R169). -/
abbrev State.executes (s : State) (code : Byte) (payload : List Byte) : Prop :=
  s.port.command = some { code := code, payload := payload }

/-- The state in which the answer to a command with this code has entered the response slot (R169, R170). -/
abbrev State.answer (s : State) (code : Byte) (a : Answer) : State := s.respond (a.frame code)

/-- What a trip leaves (R69, R127, R128, R146, R147): TRIPPED, the permit low, timers and contexts cleared, the record
filled with the cause, the position, the round and the last good angle of the state it was taken in, every driven tower
ONLINE with its commands 0 and every other as it was (the tower of the request itself aside), escape clear, BREAK asked for,
and every setting kept. -/
abbrev State.TrippedBy (t s : State) (cause : TripCause) (position : Option Nat) : Prop :=
  t.sup.machine = .tripped ∧ t.sup.permit = false ∧ t.sup.startTimer = none ∧ t.sup.hold = .cleared
    ∧ t.sup.reversal = .none ∧ t.sup.jog = none ∧ t.sup.direction = s.sup.direction
    ∧ t.sup.trip = some { cause := cause, position := position, round := s.link.round, angle := s.tracker.lastGood,
                          further := 0 }
    ∧ t.sup.startDelay = s.sup.startDelay ∧ t.sup.reversalDelay = s.sup.reversalDelay
    ∧ (∀ p ≤ 21, (t.tower p).isDriven = false ∧ (t.tower p).applied = 0)
    ∧ (∀ p ≤ 21, position ≠ some p →
        t.tower p = if (s.tower p).isDriven then (s.tower p).leaveTo .online else s.tower p)
    ∧ t.tracker.escape = none ∧ t.tracker.pace = 0 ∧ t.tracker.lastGood = s.tracker.lastGood
    ∧ t.tracker.settings = s.tracker.settings ∧ (s.link.running = true → t.link.brk ≠ .none)
    ∧ t.link.settings = s.link.settings ∧ t.link.round = s.link.round ∧ t.link.running = s.link.running
    ∧ t.plan.Sublist s.plan ∧ t.tune = s.tune ∧ t.free = s.free
    ∧ t.ev.isSet .trip = true ∧ t.ev.isSet .machineState = true

end Sys2Proof.Machine
end

