-- ==== Sys2Proof/Certificates/Slice0/Obligations.lean ====
section
/-! DEFINITION. The statements for the provers, from the manual's numbered rules. -/

open Sys2Proof Sys2Proof.Machine

/-! ### The step and the queue -/

/-- A step takes the front command and runs exec on it with the queue's rest. -/
def Obligations.StepRunsFrontCommand : Prop :=
  ∀ (c : Instr) (rest : List Instr) (s : State), s.pending = c :: rest → step s = exec c { s with pending := rest }

/-- On an empty queue the part acts by itself (the model's choice, log 3 and log 7): it answers a command it is executing. -/
def Obligations.EmptyQueueCompletesExecutingCommand : Prop :=
  ∀ s : State, s.pending = [] →
    step s = .next (idle s) ∧
      ∀ (c : Command) (h : Handler), s.port.command = some c → handlerOf c.code = some h →
        step s = .next (((h c.payload s).1).answer c.code (h c.payload s).2)

/-- Every command and event of the table answers a next state, in every state, and leaves the queue as it is. -/
def Obligations.EveryCommandAnswersNextAndKeepsTheQueue : Prop :=
  ∀ (i : Instr) (s : State), ∃ t, exec i s = .next t ∧ t.pending = s.pending

/-! ### Reset -/

/-- Right after reset every block stands at the manual's power-on values with nothing pending, and POWER_ON_RESET leaves them
whatever came before. At its end it takes the level of the safety loop input; while it is in force, a fall of SEL starts no
transaction, and SEL that fell then stays ignored until it rises (R145, R152, R176). -/
def Obligations.ResetLeavesPowerOnValues : Prop :=
  (State.reset.AtPowerOn ∧ State.reset.pending = [])
  ∧ (∀ (ended : Option Bool) (s : State), ∃ t, exec (.powerOnReset ended) s = .next t ∧ t.AtPowerOn
    ∧ (∀ closed, ended = some closed → t.sup.loopClosed = closed) ∧ t.port.transaction = none ∧ t.pending = s.pending
    ∧ (ended = none → s.port.mask = .clear → t.port.mask = .inReset)
    ∧ (ended ≠ none → s.port.mask = .clear ∨ s.port.mask = .inReset → t.port.mask = .clear)
    ∧ (ended ≠ none → s.port.mask = .inResetSelected → t.port.mask = .ignored))
  ∧ (∀ (received : List Byte) (s : State), s.port.transaction = none → s.port.mask ≠ .clear →
    (∃ t, exec .transactionStart s = .next t ∧ t.port.transaction = none ∧ t.port.mask ≠ .clear
      ∧ t = { s with port := { s.port with mask := t.port.mask } } ∧ ∀ k, t.port.misoByte k = some 0xFF)
    ∧ exec (.transactionEnd received) s = .next { s with port := { s.port with
        mask := if s.port.mask = .ignored then .clear else .inReset } })

/-- The state after reset meets the laws of supervisor, slots, towers and plan, the third law of the plan among them. -/
def Obligations.ResetMeetsTheLaws : Prop :=
  State.reset.sup.Lawful ∧ State.reset.port.Lawful ∧ State.reset.TowersLawful ∧ PlanLawful State.reset.plan
    ∧ State.reset.RetiringLawful

/-- RESTART keeps the live records, the geometry and every setting, clears the rest and sends BREAK, after a quiet line if a
reply was arriving (R96, R104); the event flags are cleared, but the CMD_DROPPED of a frame dropped while the restart was
executing stands (R175, R183). -/
def Obligations.RestartKeepsPlanGeometryAndSettings : Prop :=
  ∀ s : State, s.takes 0x03 [] → ∃ t, exec (.restart []) s = .next t
    ∧ t.plan = s.plan.filter (fun r => r.state != .retiring) ∧ t.tracker = Tracker.cleared s.tracker.settings
    ∧ (∀ p, 1 ≤ p → p ≤ 21 → t.tower p =
        Tower.cleared (s.tower p).geometry (if s.isConfigured p then .silent else .vacant))
    ∧ t.link.settings = s.link.settings ∧ t.link.running = false ∧ t.link.round = 0 ∧ t.link.exchange = none
    ∧ t.link.offered = [] ∧ (s.link.brk = .none → s.link.exchange = none → t.link.brk = .sending 0)
    ∧ (∀ x, s.link.brk = .none → s.link.exchange = some x → x.step ≠ .receiving → t.link.brk = .sending 0)
    ∧ (∀ x, s.link.brk = .none → s.link.exchange = some x → x.step = .receiving →
        t.link.brk = .waiting (x.owner.reserve - x.used) (x.replyAt + x.owner.replyLength - x.used + 2))
    ∧ t.tune = s.tune
    ∧ t.sup = { Supervisor.powerOn s.sup.loopClosed with startDelay := s.sup.startDelay
                                                         reversalDelay := s.sup.reversalDelay }
    ∧ t.svc = Service.empty ∧ t.port.snapshot = Snapshot.reset 0 ∧ t.port.transaction = s.port.transaction
    ∧ t.port.command = none ∧ t.port.rdy = true ∧ t.port.response = some (Answer.ok.frame 0x03)
    ∧ t.ev = { flags := if s.port.command ≠ none ∧ s.port.dropped = true then 0x200 else 0
               enables := 0, master := false, phase := .low, owed := false }
    ∧ t.free = s.free

/-! ### Invariants -/

/-- Every step keeps the laws of the supervisor: run permit, trip record, timers and contexts (R127, R128, R147). -/
def Obligations.StepKeepsSupervisorLaws : Prop :=
  ∀ s t : State, s.sup.Lawful → step s = .next t → t.sup.Lawful

/-- Every step keeps the laws of the two slots and RDY (R165, R166). -/
def Obligations.StepKeepsSlotLaws : Prop :=
  ∀ s t : State, s.port.Lawful → step s = .next t → t.port.Lawful

/-- Every step keeps the law of driven towers and of the applied command: a tower is driven only in a motion state, an undriven
one has target and applied command 0, and every target and applied command lies within 0 to 1000 (R69, R111, R113). -/
def Obligations.StepKeepsTowerLaws : Prop :=
  ∀ s t : State, s.TowersLawful → step s = .next t → t.TowersLawful

/-- Every step keeps the first law of the plan: at most 96 records, each valid by R4 and any two at least 10 cd apart. -/
def Obligations.StepKeepsPlanLaw : Prop :=
  ∀ s t : State, PlanLawful s.plan → step s = .next t → PlanLawful t.plan

/-- Every step keeps the third law of the plan: at most one record is RETIRING, only in a motion state, and it is the covering
record of the last good angle (R21). -/
def Obligations.StepKeepsThirdPlanLaw : Prop :=
  ∀ s t : State, PlanLawful s.plan → s.RetiringLawful → step s = .next t →
    t.RetiringLawful ∧ (t.plan.filter fun r => r.state == .retiring).length ≤ 1

/-- In a lawful plan that is not empty every angle has a covering record, into which it stands by less than its width, and
every width is 10 to 36000 cd (R6 to R8). -/
def Obligations.EveryAngleHasACoveringRecord : Prop :=
  ∀ (plan : List Sector) (angle : Nat), PlanLawful plan → plan ≠ [] → angle < 36000 →
    ∃ r, covering plan angle = some r ∧ r ∈ plan ∧ r.into angle < width plan r ∧ 10 ≤ width plan r
      ∧ width plan r ≤ 36000

/-! ### The command link -/

/-- The answer to every command enters the response slot with its code echoed, RDY rises, the command slot empties, the
transaction is kept, and a refused command has changed nothing else; a command that carries no payload refuses one BAD_VALUE
(R169, R170). -/
def Obligations.RefusedCommandChangesOnlyTheSlots : Prop :=
  ∀ (i : Instr) (code : Byte) (payload : List Byte) (s : State),
    commandOf i = some (code, payload) → s.takes code payload →
      (∃ (t : State) (a : Answer), exec i s = .next t
        ∧ t.port.response = some (withCheck ([byte (a.payload.length + 5), a.code.byte, code] ++ a.payload))
        ∧ t.port.rdy = true ∧ t.port.command = none ∧ t.port.transaction = s.port.transaction
        ∧ (a.code ≠ .ok → a.code ≠ .deferred → t = s.answer code a))
      ∧ (code ∈ ([0x01, 0x02, 0x03, 0x16, 0x50, 0x51, 0x53, 0x54, 0x55, 0x56, 0x58, 0x59, 0x5B, 0x70] : List Byte) →
          payload ≠ [] → exec i s = .next (s.answer code (.refuse .badValue)))

/-- A transaction starts: MISO carries BUSY, the response frame or EMPTY, the response slot is emptied and RDY falls (R165). At
its end a fetch takes nothing, a frame under BUSY is dropped with CMD_DROPPED, and a bad frame is answered BAD_FRAME (R167,
R168). That a drop notes whether a command was still executing is the model's mark for R175. -/
def Obligations.TransactionStartsAndEnds : Prop :=
  (∀ s : State, s.port.transaction = none → s.port.mask = .clear →
    exec .transactionStart s = .next { s with port := { s.port with
      response := none, rdy := false
      transaction := some { busy := s.port.command.isSome
                            miso := if s.port.command.isSome then [0xB5] else s.port.response.getD [0xE5] } } })
  ∧ ∀ (received : List Byte) (t : Transaction) (s : State), s.port.transaction = some t →
    let ended : State := { s with port := { s.port with transaction := none } }
    ((received = [] ∨ received.head? = some 0) → exec (.transactionEnd received) s = .next ended)
    ∧ (received ≠ [] → received.head? ≠ some 0 → t.busy = true →
        exec (.transactionEnd received) s = .next (raise .cmdDropped
          { ended with port := { ended.port with dropped := s.port.command.isSome } }))
    ∧ (received ≠ [] → received.head? ≠ some 0 → t.busy = false → frameGood received = false →
        exec (.transactionEnd received) s
          = .next (raise .cmdDropped (ended.answer ((received[1]?).getD 0) (.refuse .badFrame))))

/-- A whole frame whose code names a command, in a transaction that did not begin with BUSY, is taken with exactly its code
and payload, whatever bytes follow it; an unknown code is answered UNKNOWN (R168, R169). -/
def Obligations.FramedCommandIsTakenWhole : Prop :=
  ∀ (code : Byte) (payload beyond : List Byte) (t : Transaction) (s : State),
    s.port.transaction = some t → t.busy = false → payload.length ≤ 60 →
    let sent := withCheck ([byte (payload.length + 4), code] ++ payload) ++ beyond
    let ended : State := { s with port := { s.port with transaction := none } }
    ((handlerOf code).isSome = true → exec (.transactionEnd sent) s =
        .next { s with port := { s.port with transaction := none, dropped := false
                                             command := some { code := code, payload := payload } } })
    ∧ (handlerOf code = none → exec (.transactionEnd sent) s = .next (ended.answer code (.refuse .unknown)))

/-- NOP answers OK with no payload, STATUS the snapshot whole and the machine state as it is now, MACHINE_GET the supervisor
as it stands, and EVT_READ the flags, the enables and the master enable; none changes anything but the slots and RDY (R173,
R174, R151, R182). TOWER_GET of a position returns its record whole and changes no register of the part; for a corner position
without geometry the swing reading is the free value of log 15, whatever it is (R74). -/
def Obligations.ReadingCommandsChangeNothing : Prop :=
  (∀ s : State,
    (∀ p, p ≠ [] → s.executes 0x01 p → exec (.nop p) s = .next (s.answer 0x01 (.refuse .badValue)))
    ∧ (s.executes 0x01 [] → exec (.nop []) s = .next (s.answer 0x01 .ok))
    ∧ (s.executes 0x02 [] → exec (.status []) s =
        .next (s.answer 0x02 (.okWith (s.port.snapshot.encode ++ [s.sup.machine.byte]))))
    ∧ (s.executes 0x5B [] → exec (.machineGet []) s = .next (s.answer 0x5B (.okWith s.sup.encode)))
    ∧ (s.executes 0x70 [] → exec (.evtRead []) s = .next
        (s.answer 0x70 (.okWith (word s.ev.flags.toNat ++ word s.ev.enables.toNat ++ [bit01 s.ev.master])))))
  ∧ (∀ (b : Byte) (s : State), s.takes 0x32 [b] →
    ((b.toNat = 0 ∨ 21 < b.toNat) → exec (.towerGet [b]) s = .next (s.answer 0x32 (.refuse .badValue)))
    ∧ (1 ≤ b.toNat → b.toNat ≤ 20 → exec (.towerGet [b]) s =
        .next (s.answer 0x32 (.okWith ((s.tower b.toNat).encode b.toNat (s.isConfigured b.toNat) [0, 0]))))
    ∧ (∀ g, b.toNat = 21 → (s.tower 21).geometry = some g → exec (.towerGet [b]) s =
        .next (s.answer 0x32 (.okWith ((s.tower 21).encode 21 (s.isConfigured 21)
          (signedWord ((s.tower 21).joint - (s.tower 21).swingOffset))))))
    ∧ (b.toNat = 21 → (s.tower 21).geometry = none → ∃ swing : BitVec 16, exec (.towerGet [b]) s =
        .next (State.answer { s with free := s.free + 1 } 0x32 (.okWith
          ((s.tower 21).encode 21 (s.isConfigured 21) (word swing.toNat))))))

/-! ### The field plan -/

/-- SECTOR_PUT answers the first check of R12 that fails, and inserts a record that passes all six, answering the new count
(R13). -/
def Obligations.SectorPutChecksAndInserts : Prop :=
  ∀ (payload : List Byte) (r : Sector) (s : State), s.takes 0x10 payload → decodeSector payload = some r →
    exec (.sectorPut payload) s = .next
      (if r.valid = false then s.answer 0x10 (.refuse .badValue)
       else if (findRecord s.plan r.start).isSome then s.answer 0x10 (.refuse .exists)
       else if 96 ≤ s.plan.length then s.answer 0x10 (.refuse .full)
       else if insideRetiring s.plan r.start then s.answer 0x10 (.refuse .inRetire)
       else if wideEnough s.plan r.start = false then s.answer 0x10 (.refuse .narrow)
       else if putUnderway r s then s.answer 0x10 (.refuse .activeKind)
       else State.answer { s with plan := insertRecord r s.plan } 0x10 (.okWith [byte (s.plan.length + 1)]))

/-- SECTOR_AMEND that passes the checks of R15, of a record that is not held, replaces that record one revision on and
changes nothing else (R16, R17). -/
def Obligations.SectorAmendReplacesTheRecord : Prop :=
  ∀ (payload : List Byte) (a : Amendment) (r : Sector) (s : State), s.takes 0x11 payload →
    decodeAmendment payload = some a → a.start < 36000 → changesOk a.changes = true →
    findRecord s.plan a.start = some r → r.state = .live → (∀ v, a.expected = some v → v = r.revision) →
    (r.amended a.changes).valid = true →
    ¬(s.inMotion = true ∧ s.isActive r.start = true ∧ (r.amended a.changes).kind ≠ r.kind) →
    s.sup.hold.held ≠ some r.start →
      exec (.sectorAmend payload) s = .next
        (State.answer { s with plan := replaceRecord { r.amended a.changes with revision := (r.revision + 1) % 256 } s.plan }
          0x11 (.okWith [byte ((r.revision + 1) % 256)]))

/-- An accepted amendment of the held record acts on the hold: a kind other than HOLD makes it a manual hold, a new dwell of
one second or more restarts the timer and one of 0 expires at once by the record's resume, AUTO on an expired dwell returns the
machine to RUNNING, and any other change leaves the hold alone (R138). What the record becomes rests on the model's reading of
R16 (log 32). -/
def Obligations.AmendmentOfHeldRecordActsOnTheHold : Prop :=
  ∀ (payload : List Byte) (a : Amendment) (r : Sector) (s : State), s.takes 0x11 payload →
    decodeAmendment payload = some a → a.start < 36000 → changesOk a.changes = true →
    findRecord s.plan a.start = some r → r.state = .live → (∀ v, a.expected = some v → v = r.revision) →
    (r.amended a.changes).valid = true →
    ¬(s.inMotion = true ∧ s.isActive r.start = true ∧ (r.amended a.changes).kind ≠ r.kind) →
    s.sup.machine = .holding → s.sup.hold.held = some r.start →
      let new : Sector := { r.amended a.changes with revision := (r.revision + 1) % 256 }
      let done : State := { s with plan := replaceRecord new s.plan }
      let ok : Answer := .okWith [byte ((r.revision + 1) % 256)]
      (new.kind ≠ .hold → exec (.sectorAmend payload) s = .next
        (State.answer { done with sup := { s.sup with hold := { held := none, dwell := .stopped } } } 0x11 ok))
      ∧ (∀ v, new.kind = .hold → newDwell a.changes = some v → 0 < v → exec (.sectorAmend payload) s = .next
        (State.answer { done with sup := { s.sup with hold := { held := some r.start, dwell := .running (10 * v) } } } 0x11 ok))
      ∧ (new.kind = .hold → newDwell a.changes = none → setsAuto a.changes = true → s.sup.hold.dwell = .expired →
        exec (.sectorAmend payload) s = .next
          ((raise .machineState { done with sup := { s.sup with
            machine := .running, hold := { held := none, dwell := .stopped } } }).answer 0x11 ok))
      ∧ (new.kind = .hold → newDwell a.changes = some 0 → new.resume = some .auto → exec (.sectorAmend payload) s = .next
          ((raise .machineState { done with sup := { s.sup with
            machine := .running, hold := { held := none, dwell := .stopped } } }).answer 0x11 ok))
      ∧ (new.kind = .hold → newDwell a.changes = some 0 → new.resume = some .manual → exec (.sectorAmend payload) s = .next
        (State.answer { done with sup := { s.sup with hold := { held := some r.start, dwell := .expired } } } 0x11 ok))
      ∧ (new.kind = .hold → newDwell a.changes = none → ¬(setsAuto a.changes = true ∧ s.sup.hold.dwell = .expired) →
        exec (.sectorAmend payload) s = .next (done.answer 0x11 ok))

/-- SECTOR_RETIRE of a LIVE record that is not the only live one: of the active record under way it is deferred, and
otherwise the record leaves at once, a hold on it becoming a manual hold and a mark on it clearing (R18 to R20). -/
def Obligations.SectorRetireRemovesOrDefers : Prop :=
  ∀ (payload : List Byte) (key : Nat) (r : Sector) (s : State), s.takes 0x12 payload → decodeWord payload = some key →
    key < 36000 → findRecord s.plan key = some r → r.state = .live → otherLive s.plan r.start = true →
      ((s.inMotion = true ∧ s.isActive r.start = true) →
        exec (.sectorRetire payload) s = .next
          (State.answer { s with plan := replaceRecord { r with state := .retiring } s.plan } 0x12 .deferred))
      ∧ (¬(s.inMotion = true ∧ s.isActive r.start = true) →
        exec (.sectorRetire payload) s = .next
          (State.answer { s with
             plan := s.plan.filter (fun q => q.start != r.start)
             sup := { s.sup with hold := if s.sup.hold.held = some r.start then { held := none, dwell := .stopped }
                                         else s.sup.hold }
             tracker := { s.tracker with served := if s.tracker.served.map Prod.fst = some r.start then none
                                                   else s.tracker.served } }
            0x12 (.okWith [byte (s.plan.filter (fun q => q.start != r.start)).length])))

/-- A deferred retirement completes at the first good sample whose covering record is another one, and on entry to STANDBY,
TRIPPED or SETUP: the RETIRING record leaves the table with RETIRE_DONE, a hold on it becomes a manual hold and a hold-served mark
on it clears; a sample inside the RETIRING record removes nothing (R21). -/
def Obligations.DeferredRetirementCompletes : Prop :=
  (∀ (angle : BitVec 16) (valid : Bool) (r c : Sector) (s : State), s.tracker.awaiting = true →
    goodSample? s.tracker angle.toNat valid = true → s.RetiringLawful → retiringRecord s.plan = some r →
    covering s.plan angle.toNat = some c →
    (c.start ≠ r.start → ∃ t, exec (.angleSample angle valid) s = .next t
      ∧ t.plan = s.plan.filter (fun q => q.start != r.start) ∧ t.ev.isSet .retireDone = true
      ∧ t.sup.hold.held ≠ some r.start ∧ t.tracker.served.map Prod.fst ≠ some r.start)
    ∧ (c.start = r.start → s.sup.machine ≠ .running → ∃ t, exec (.angleSample angle valid) s = .next t
      ∧ t.plan = s.plan))
  ∧ (∀ (m : MachineState) (r : Sector) (s : State), m.isMotion = false → retiringRecord s.plan = some r →
    let t := changeState m s
    t.plan = s.plan.filter (fun q => q.start != r.start) ∧ t.ev.isSet .retireDone = true
      ∧ t.sup.machine = m ∧ t.sup.hold.held ≠ some r.start ∧ t.tracker.served.map Prod.fst ≠ some r.start)
  ∧ (∀ (r : Sector) (s : State), s.takes 0x53 [] → s.sup.machine = .starting → retiringRecord s.plan = some r →
    ∃ t, exec (.stop []) s = .next t ∧ t.plan = s.plan.filter (fun q => q.start != r.start)
      ∧ t.ev.isSet .retireDone = true)
  ∧ (∀ (r : Sector) (s : State), s.takes 0x58 [] → s.inMotion = true → retiringRecord s.plan = some r →
    ∃ t, exec (.estop []) s = .next t ∧ t.plan = s.plan.filter (fun q => q.start != r.start)
      ∧ t.ev.isSet .retireDone = true)

/-- SECTOR_GET returns the record with the given start angle, SECTOR_FIND the covering record, and SECTOR_WALK the record
next above with the count; all three change nothing (R23 to R25). -/
def Obligations.SectorReadsChangeNothing : Prop :=
  ∀ (payload : List Byte) (s : State),
    (∀ key, s.executes 0x13 payload → decodeWord payload = some key →
      (36000 ≤ key → exec (.sectorGet payload) s = .next (s.answer 0x13 (.refuse .badValue)))
      ∧ (key < 36000 → (∀ r ∈ s.plan, r.start ≠ key) →
          exec (.sectorGet payload) s = .next (s.answer 0x13 (.refuse .notFound)))
      ∧ (key < 36000 → ∀ r ∈ s.plan, r.start = key → (∀ q ∈ s.plan, q.start = key → q = r) →
          exec (.sectorGet payload) s = .next (s.answer 0x13 (.okWith (r.encode (width s.plan r))))))
    ∧ (∀ angle, s.executes 0x14 payload → decodeWord payload = some angle →
      exec (.sectorFind payload) s = .next (s.answer 0x14
        (if 36000 ≤ angle then .refuse .badValue
         else match covering s.plan angle with
          | some r => .okWith (r.encode (width s.plan r))
          | none => .refuse .notFound)))
    ∧ (∀ key, s.executes 0x15 payload → decodeWalk payload = some (some key) →
      exec (.sectorWalk payload) s = .next (s.answer 0x15
        (if 36000 ≤ key then .refuse .badValue
         else match s.plan.find? (fun q => key < q.start) with
          | some r => .okWith (r.encode (width s.plan r) ++ [byte s.plan.length])
          | none => { code := .notFound, payload := [byte s.plan.length] })))
    ∧ (s.executes 0x15 payload → decodeWalk payload = some none →
      exec (.sectorWalk payload) s = .next (s.answer 0x15
        (match s.plan.head? with
          | some r => .okWith (r.encode (width s.plan r) ++ [byte s.plan.length])
          | none => { code := .notFound, payload := [byte s.plan.length] })))

/-- SECTOR_CLEAR empties the table in SETUP, STANDBY and TRIPPED, and is refused STATE in any motion state (R26). -/
def Obligations.SectorClearEmptiesTheTable : Prop :=
  ∀ s : State, s.takes 0x16 [] →
    (s.inMotion = false → exec (.sectorClear []) s = .next (State.answer { s with plan := [] } 0x16 .ok))
    ∧ (s.inMotion = true → exec (.sectorClear []) s = .next (s.answer 0x16 (.refuse .state)))

/-! ### The tracker -/

/-- MOTION_SETUP, ALIGN_TUNE and TIMING_SETUP replace all their settings when every value is in range, and none otherwise
(R53, R126, R150). -/
def Obligations.SettingsReplacedTogetherOrNotAtAll : Prop :=
  (∀ (payload : List Byte) (m : MotionSettings) (s : State), s.takes 0x20 payload → decodeMotion payload = some m →
    exec (.motionSetup payload) s = .next
      (if m.arrivalWindow ≤ 200 ∧ m.defaultLead ≤ 3000 ∧ (10 ≤ m.escapePace ∧ m.escapePace ≤ 300)
          ∧ (5 ≤ m.jumpLimit ∧ m.jumpLimit ≤ 1000) then
        State.answer { s with tracker := { s.tracker with settings := m } } 0x20 .ok
      else s.answer 0x20 (.refuse .badValue)))
  ∧ (∀ (payload : List Byte) (u : Tune) (s : State), s.takes 0x48 payload → decodeTune payload = some u →
    exec (.alignTune payload) s = .next
      (if u.inRange then State.answer { s with tune := u } 0x48 .ok else s.answer 0x48 (.refuse .badValue)))
  ∧ (∀ (start reversal : Byte) (s : State), s.takes 0x5A [start, reversal] →
    exec (.timingSetup [start, reversal]) s = .next
      (if start.toNat ≤ 60 ∧ 2 ≤ reversal.toNat ∧ reversal.toNat ≤ 120 then
        State.answer { s with sup := { s.sup with startDelay := start.toNat, reversalDelay := reversal.toNat } } 0x5A .ok
      else s.answer 0x5A (.refuse .badValue)))

/-- A good sample becomes the last good angle and the angle used, clears the held mark and the bad count; a first bad sample
sets ANGLE and holds the last good angle, or changes nothing else without one; either uses up the round's request, and a
further answer is discarded (R30, R32, R33). From a held angle the view is refreshed, with the crossing test for a change of record
alone (R33, R35, R36). In RUNNING with escape clear the arrival check follows: an unserved HOLD or a BARRIER within the arrival
window is arrived at, a RUN record, a served HOLD and a record farther off never (R33, R42 to R44); otherwise nothing follows. The
table, escape and the trip record stay. -/
def Obligations.SampleIsStoredOrHeld : Prop :=
  ∀ (angle : BitVec 16) (valid : Bool) (s : State),
    (s.tracker.awaiting = false → exec (.angleSample angle valid) s = .next s)
    ∧ (s.tracker.awaiting = true → goodSample? s.tracker angle.toNat valid = true →
      ∃ t, exec (.angleSample angle valid) s = .next t ∧ t.tracker.lastGood = some angle.toNat
        ∧ t.tracker.angleUsed = some angle.toNat ∧ t.tracker.held = false ∧ t.tracker.badCount = 0
        ∧ t.tracker.awaiting = false ∧ t.tracker.settings = s.tracker.settings
        ∧ t.link.settings = s.link.settings ∧ t.tune = s.tune ∧ t.free = s.free ∧ t.port = s.port)
    ∧ (s.tracker.awaiting = true → s.tracker.badCount = 0 → goodSample? s.tracker angle.toNat valid = false →
      s.tracker.lastGood = none → exec (.angleSample angle valid) s = .next
        (raise .angle { s with tracker := { s.tracker with awaiting := false, badCount := 1 } }))
    ∧ (∀ a, s.tracker.awaiting = true → s.tracker.badCount = 0 → goodSample? s.tracker angle.toNat valid = false →
      s.tracker.lastGood = some a → ∃ t, exec (.angleSample angle valid) s = .next t
        ∧ t.tracker.lastGood = some a ∧ t.tracker.angleUsed = some a ∧ t.tracker.held = true
        ∧ t.tracker.badCount = 1 ∧ t.tracker.awaiting = false ∧ t.ev.isSet .angle = true ∧ t.sup.trip = s.sup.trip
        ∧ t.tracker.escape = s.tracker.escape ∧ t.plan = s.plan
        ∧ t.tune = s.tune ∧ t.free = s.free ∧ t.port = s.port)
    ∧ (∀ a, s.tracker.awaiting = true → s.tracker.badCount = 0 → goodSample? s.tracker angle.toNat valid = false →
      s.tracker.lastGood = some a →
      let held : State := raise .angle { s with tracker := { s.tracker with
        awaiting := false, badCount := 1, angleUsed := some a, held := true } }
      (s.plan = [] → exec (.angleSample angle valid) s = .next
        { held with tracker := { held.tracker with view := none } })
      ∧ (∀ r n, covering s.plan a = some r → nextRecord s.plan s.sup.direction r.start = some n →
        let seen := held.refreshedTo a r n
        let near := distAhead s.plan r s.sup.direction a ≤ s.tracker.settings.arrivalWindow
        let served := s.tracker.served.map Prod.fst = some n.start
        (s.sup.machine ≠ .running ∨ s.tracker.escape ≠ none ∨ ¬near ∨
            PlanLawful s.plan ∧ (n.kind = .run ∨ n.kind = .hold ∧ served) →
          exec (.angleSample angle valid) s = .next seen)
        ∧ (s.sup.machine = .running → s.tracker.escape = none → near → s.sup.Lawful → PlanLawful s.plan →
          (n.kind = .hold → ¬served → ∃ t, exec (.angleSample angle valid) s = .next t ∧ t.HeldAt s n r.start
            ∧ t.tracker = { seen.tracker with served := some (n.start, r.start) })
          ∧ (n.kind = .barrier → n.action = some .stop → exec (.angleSample angle valid) s = .next (raise .machineState
            (raise .arrival { seen with sup := { s.sup with machine := .stopping } })))
          ∧ (n.kind = .barrier → n.action = some .reverse → exec (.angleSample angle valid) s = .next (raise .machineState
            (raise .arrival { seen with sup := { s.sup with machine := .reversing, reversal := .awaitingRest } }))))))

/-- A good sample of a machine that is not RUNNING and not escaping, with no record RETIRING. The view is found from the covering
record of the new angle, the next record and the table (R35, R38 to R40); a crossing, by a change of record or by the record's own
start angle in the arc traversed, raises SECTOR_CROSSED and sets the capture-pending mark (R36, R51); the hold-served mark clears
outside its two records (R45); with an empty table nothing is found. No other part of the state changes (R32). -/
def Obligations.StandingSampleFindsTheView : Prop :=
  ∀ (angle : BitVec 16) (valid : Bool) (s : State), s.tracker.awaiting = true →
    goodSample? s.tracker angle.toNat valid = true → s.sup.machine ≠ .running → s.tracker.escape = none →
    (∀ q ∈ s.plan, q.state = .live) →
    (s.plan = [] → exec (.angleSample angle valid) s = .next { s with tracker := { s.tracker with
      lastGood := some angle.toNat, angleUsed := some angle.toNat, held := false, badCount := 0, awaiting := false
      view := none, capturePending := s.tracker.capturePending || s.tracker.lastGood.isNone } })
    ∧ (∀ r n, covering s.plan angle.toNat = some r → nextRecord s.plan s.sup.direction r.start = some n →
      let served := s.tracker.served.filter fun m => r.start = m.1 ∨ r.start = m.2
      let found (pending : Bool) : Tracker := { s.tracker with
        lastGood := some angle.toNat, angleUsed := some angle.toNat, held := false, badCount := 0, awaiting := false
        served := served, capturePending := pending, view := some (s.viewToward served angle.toNat r n) }
      (∀ v, s.tracker.view = some v →
        (r.start ≠ v.activeKey ∨ ∃ a, s.tracker.lastGood = some a ∧ (arcBetween a angle.toNat).contains r.start = true) →
          exec (.angleSample angle valid) s = .next (raise .sectorCrossed { s with tracker := found true }))
      ∧ (∀ v, s.tracker.view = some v → r.start = v.activeKey →
        (∀ a, s.tracker.lastGood = some a → (arcBetween a angle.toNat).contains r.start = false) →
          exec (.angleSample angle valid) s = .next
            { s with tracker := found (s.tracker.capturePending || s.tracker.lastGood.isNone) })
      ∧ (s.tracker.view = none → exec (.angleSample angle valid) s = .next
            { s with tracker := found (s.tracker.capturePending || s.tracker.lastGood.isNone) }))

/-- A good sample in RUNNING with a last good angle and no record RETIRING. With escape clear: a BARRIER entered in the arc, or the
machine inside one, trips it with OVERRUN (R46, R47); a HOLD passed through or entered unserved is taken as an arrival there (R46);
otherwise the next record within the arrival window is arrived at, a HOLD with its dwell and the hold-served mark, a BARRIER with
its action, and a RUN record or a served HOLD never (R42 to R45). While escaping, the sample inside the BARRIER does nothing, and
the first one outside clears escape (R49). In every case the view takes the covering record's key (R35). -/
def Obligations.RunningSampleArrivesPassesOrTrips : Prop :=
  ∀ (angle : BitVec 16) (valid : Bool) (a : Nat) (c n : Sector) (s : State), s.tracker.awaiting = true →
    goodSample? s.tracker angle.toNat valid = true → s.sup.machine = .running → s.sup.Lawful → s.TowersLawful →
    PlanLawful s.plan → (∀ q ∈ s.plan, q.state = .live) → s.tracker.lastGood = some a →
    covering s.plan angle.toNat = some c → nextRecord s.plan s.sup.direction c.start = some n →
    let arc := arcBetween a angle.toNat
    let u := clearServed (some c) s
    let met := holdMet arc c (changedRecord s.tracker.activeKey (some c)) u
    let now : State := { s with tracker := { s.tracker with lastGood := some angle.toNat } }
    ∃ t, exec (.angleSample angle valid) s = .next t ∧ t.tracker.activeKey = some c.start
      ∧ (s.tracker.escape = none →
        (barrierPassed s.plan arc = true ∨ c.kind = .barrier → t.TrippedBy now .overrun none)
        ∧ (∀ h, barrierPassed s.plan arc = false → c.kind ≠ .barrier → met = some h → t.HeldAt s h c.start)
        ∧ (barrierPassed s.plan arc = false → c.kind ≠ .barrier → met = none →
          (s.tracker.settings.arrivalWindow < distAhead s.plan c s.sup.direction angle.toNat ∨ n.kind = .run
              ∨ n.kind = .hold ∧ u.tracker.isServed n.start = true →
            t.sup = s.sup ∧ t.tracker.served = u.tracker.served)
          ∧ (distAhead s.plan c s.sup.direction angle.toNat ≤ s.tracker.settings.arrivalWindow →
            (n.kind = .hold → u.tracker.isServed n.start = false → t.HeldAt s n c.start)
            ∧ (n.kind = .barrier → n.action = some .stop → t.sup = { s.sup with machine := .stopping }
                ∧ t.ev.isSet .arrival = true ∧ t.tracker.served = u.tracker.served)
            ∧ (n.kind = .barrier → n.action = some .reverse →
                t.sup = { s.sup with machine := .reversing, reversal := .awaitingRest }
                ∧ t.ev.isSet .arrival = true ∧ t.tracker.served = u.tracker.served))))
      ∧ (∀ b, s.tracker.escape = some b → c.start = b → t.sup = s.sup ∧ t.tracker.escape = some b)
      ∧ (∀ b, s.tracker.escape = some b → c.start ≠ b → t.tracker.escape = none
        ∧ (c.kind = .barrier → t.TrippedBy now .overrun none)
        ∧ (c.kind = .hold → barrierPassed s.plan arc = false →
            holdPassed { s with tracker := { s.tracker with served := some (c.start, c.start) } } arc c = none →
            s.tracker.settings.arrivalWindow < distAhead s.plan c s.sup.direction angle.toNat →
            t.sup = s.sup ∧ t.tracker.served = some (c.start, c.start)))

/-- A second bad sample in a row trips a moving machine with ANGLE_LOSS, and makes a standing one give the angle up (R34). -/
def Obligations.SecondBadSampleTripsOrGivesUp : Prop :=
  ∀ (a : Nat) (s : State), s.TowersLawful → s.sup.Lawful → s.tracker.awaiting = true → 1 ≤ s.tracker.badCount →
    s.tracker.lastGood = some a →
    (s.inMotion = true → ∃ t, exec .angleLoss s = .next t ∧ t.TrippedBy s .angleLoss none
      ∧ t.tracker.lastGood = some a)
    ∧ (s.inMotion = false → ∃ t, exec .angleLoss s = .next t ∧ t.tracker.lastGood = none ∧ t.tracker.angleUsed = none
      ∧ t.tracker.held = false ∧ t.tracker.view = none ∧ t.tracker.heldSwing = none ∧ t.sup = s.sup
      ∧ t.plan = s.plan ∧ t.roster = s.roster ∧ t.link = s.link ∧ t.tune = s.tune ∧ t.svc = s.svc ∧ t.port = s.port
      ∧ t.free = s.free)

/-- The effective pace is the current pace outside the lead or with lead 0, and lies between the current and the next pace
inside it; the swing target of a swing pair lies between the pair's two angles. At a poll-phase completion the pace handed over
is 0 outside RUNNING, the escape pace while escaping, and the ramp of the last refresh otherwise (R41, R50). Before that, with the
capture-pending mark set, a corner tower configured and its reading clean, the measured swing is captured as the held swing, clamped
to 0 to 9000, and the mark cleared; otherwise both stay (R51), and nothing else changes. The swing target is none without a corner
tower configured, that of the active record's swing pair, and the held swing, or none, without a pair (R50, R51). -/
def Obligations.PaceAndSwingTargetLieBetween : Prop :=
  ((∀ v : View, ((v.lead = 0 ∨ v.lead ≤ v.dist) → v.rampPace = v.currentPace)
    ∧ min v.currentPace v.nextPace ≤ v.rampPace ∧ v.rampPace ≤ max v.currentPace v.nextPace)
  ∧ ∀ first last into width : Nat, into < width →
    min first last ≤ swingBetween first last into width ∧ swingBetween first last into width ≤ max first last
      ∧ swingBetween first last into width = ((first : Int) + (((last : Int) - first) * into).tdiv width).toNat)
  ∧ (∀ s : State,
    (s.sup.machine ≠ .running → (handOver s).tracker.pace = 0)
    ∧ (∀ b, s.sup.machine = .running → s.tracker.escape = some b →
        (handOver s).tracker.pace = s.tracker.settings.escapePace)
    ∧ (∀ v, s.sup.machine = .running → s.tracker.escape = none → s.tracker.view = some v →
        (handOver s).tracker.pace = v.rampPace)
    ∧ (s.sup.machine = .running → s.tracker.escape = none → s.tracker.view = none → (handOver s).tracker.pace = 0)
    ∧ (let after (held : Option Nat) (pending : Bool) : State := { s with tracker := { s.tracker with
          pace := (handOver s).tracker.pace, heldSwing := held, capturePending := pending } }
        let captures := s.tracker.capturePending = true ∧ s.link.settings.corner = true ∧ (s.tower 21).fresh = true
        (∀ a m k o, captures → (s.tower 21).geometry = some (.corner a m k o) →
          handOver s = after (some (max 0 (min 9000 ((s.tower 21).joint - o))).toNat) false)
        ∧ (∀ a b c d e, captures → (s.tower 21).geometry = none ∨ (s.tower 21).geometry = some (.mainLine a b c d e) →
          handOver s = after (some (max 0 (min 9000 (s.tower 21).joint)).toNat) false)
        ∧ (¬captures → handOver s = after s.tracker.heldSwing s.tracker.capturePending))
    ∧ (s.link.settings.corner = false → swingTarget s = none)
    ∧ (∀ v first last, s.link.settings.corner = true → s.tracker.view = some v → v.swing = some (first, last) →
        swingTarget s = some (swingBetween first last v.into v.width))
    ∧ (∀ v, s.link.settings.corner = true → s.tracker.view = some v → v.swing = none → swingTarget s = s.tracker.heldSwing)
    ∧ (s.link.settings.corner = true → s.tracker.view = none → swingTarget s = s.tracker.heldSwing))

/-! ### The roster and the engine -/

/-- TOWER_SET in SETUP writes the geometry of one position, or clears it, by the checks of R56. TOWER_TRIM replaces the trim or
swing offset of a position that holds geometry, TOWER_ACK clears the named change flags of one tower, and TOWER_RESET,
answering the first check of R75 that fails, starts a requested reset in one tower; none changes any other part of the state
(R59, R73, R75, R77). -/
def Obligations.TowerCommandsChangeOneTower : Prop :=
  (∀ (payload : List Byte) (c : TowerSetting) (s : State), s.takes 0x30 payload → decodeTowerSet payload = some c →
    (s.sup.machine ≠ .setup → exec (.towerSet payload) s = .next (s.answer 0x30 (.refuse .state)))
    ∧ (s.sup.machine = .setup → 1 ≤ c.position → c.position ≤ 21 → c.geometry = none →
        exec (.towerSet payload) s = .next
          ((s.modTower c.position fun t => { t with geometry := none }).answer 0x30 .ok))
    ∧ (∀ g, s.sup.machine = .setup → 1 ≤ c.position → c.position ≤ 21 → c.geometry = some g →
        g.valid c.position = true →
        exec (.towerSet payload) s = .next
          (if addressTaken s c.position g.address then s.answer 0x30 (.refuse .exists)
           else (s.modTower c.position fun t => { t with geometry := some g }).answer 0x30 .ok)))
  ∧ (∀ (payload : List Byte) (p : Nat) (v : Int) (g : Geometry) (s : State), s.takes 0x31 payload →
    decodeTrim payload = some (p, v) → 1 ≤ p → p ≤ 21 → -300 ≤ v → v ≤ 300 → (s.tower p).geometry = some g →
      exec (.towerTrim payload) s = .next
        ((s.modTower p fun t => { t with geometry := some (g.withTrim v) }).answer 0x31 .ok))
  ∧ (∀ (payload : List Byte) (p : Nat) (set : BitVec 5) (s : State), s.takes 0x33 payload →
    decodeTowerAck payload = some (p, set) → 1 ≤ p → p ≤ 21 → set ≠ 0 →
      exec (.towerAck payload) s = .next
        ((s.modTower p fun t => { t with changes := t.changes &&& ~~~set }).answer 0x33 .ok))
  ∧ (∀ (b : Byte) (s : State), s.takes 0x34 [b] →
    exec (.towerReset [b]) s = .next
      (if s.isConfigured b.toNat = false then s.answer 0x34 (.refuse .badValue)
       else if s.sup.machine ≠ .standby ∧ s.sup.machine ≠ .tripped then s.answer 0x34 (.refuse .state)
       else if (s.tower b.toNat).state = .resetting then s.answer 0x34 (.refuse .inProgress)
       else (s.modTower b.toNat fun t =>
          { t with state := .resetting, stage := .requested, miss := 0, reason := .none, resetPending := true
                   resetTimer := some (10 * s.link.settings.resetLimit) }).answer 0x34 .ok))

/-- A good poll reply is stored (R61) and judged by the tower's state. SILENT and ONLINE: drive fault, local stop and initialising
lead to FAULTED and RESETTING, and none of them to ONLINE, PRESENCE being set for a SILENT tower (R63, R64). DRIVING and FOLLOWING:
those three trip the machine, a sensor-invalid reply leaves the tower FOLLOWING with one follow more or FAULTED/SENSOR at F, and a
clean one DRIVING with the stall check (R65, R71). RESETTING: stage REQUESTED takes no notice, and otherwise a reply not showing
initialising ends the reset in ONLINE or FAULTED (R66). A FAULTED tower stays as it is. In a motion state a fault or an unrequested
restart trips the machine with the tower's position (R70). -/
def Obligations.GoodPollReplyIsJudgedByTowerState : Prop :=
  ∀ (p : Nat) (reply : List Byte) (r : Reading) (s : State), 1 ≤ p → p ≤ 21 → readingOf reply = some r →
    let t := pollOutcome p (.good reply) s
    let w := s.stored p r
    let sees (bit : BitVec 5) : Prop := shows (r.storedStatus p) bit = true
    let clean : Prop := ¬sees statusDriveFault ∧ ¬sees statusLocalStop ∧ ¬sees statusInitialising
    let invalid : Prop := sees statusSensorInvalid ∧ s.isEnd p = false
    let stalls : Nat := if s.tune.stallThreshold ≤ (s.tower p).applied ∧ r.track = (s.tower p).track
      then (s.tower p).stall + 1 else 0
    let fault (reason : FaultReason) (flags : BitVec 5) : Tower := { w with
      state := .faulted, reason := reason, miss := 0, follow := 0, stall := 0, stage := .none, resetPending := false
      resetTimer := none, changes := w.changes ||| flags }
    let reset (flags : BitVec 5) : Tower := { w with
      state := .resetting, stage := .unrequested, resetTimer := some (10 * s.link.settings.resetLimit)
      changes := w.changes ||| flags }
    ((s.tower p).state = .silent → clean →
      t.TowerBecomes s p { w with state := .online, changes := w.changes ||| 0x01 })
    ∧ ((s.tower p).state = .online → clean → t = s.modTower p fun _ => w)
    ∧ (∀ flags : BitVec 5, s.inMotion = false →
        ((s.tower p).state = .silent ∧ flags = 0x01 ∨ (s.tower p).state = .online ∧ flags = 0) →
        (sees statusDriveFault → t.TowerBecomes s p (fault .drive (flags ||| 0x02)))
        ∧ (¬sees statusDriveFault → sees statusLocalStop → t.TowerBecomes s p (fault .localStop (flags ||| 0x02)))
        ∧ (¬sees statusDriveFault → ¬sees statusLocalStop → sees statusInitialising →
            t.TowerBecomes s p (reset (flags ||| 0x08))))
    ∧ (s.inMotion = true → s.TowersLawful → s.sup.Lawful →
        ((s.tower p).state = .silent ∨ (s.tower p).state = .online ∨ (s.tower p).isDriven = true
          ∨ (s.tower p).state = .resetting ∧ ((s.tower p).stage = .acknowledged ∨ (s.tower p).stage = .unrequested)
            ∧ ¬sees statusInitialising) →
        (sees statusDriveFault → t.TrippedBy s .towerFault (some p)
          ∧ (t.tower p).state = .faulted ∧ (t.tower p).reason = .drive)
        ∧ (¬sees statusDriveFault → sees statusLocalStop → t.TrippedBy s .towerFault (some p)
          ∧ (t.tower p).state = .faulted ∧ (t.tower p).reason = .localStop)
        ∧ (¬sees statusDriveFault → ¬sees statusLocalStop → sees statusInitialising → t.TrippedBy s .towerFault (some p)
          ∧ (t.tower p).state = .resetting ∧ (t.tower p).stage = .unrequested))
    ∧ ((s.tower p).isDriven = true → clean →
        (invalid → (s.tower p).follow + 1 < s.tune.follow →
          t = s.modTower p fun _ => { w with state := .following, follow := (s.tower p).follow + 1 })
        ∧ (invalid → s.tune.follow ≤ (s.tower p).follow + 1 → s.TowersLawful → s.sup.Lawful →
          t.TrippedBy s .towerFault (some p) ∧ (t.tower p).state = .faulted ∧ (t.tower p).reason = .sensor)
        ∧ (¬invalid → stalls < s.tune.stallRounds →
          t = s.modTower p fun _ => { w with state := .driving, follow := 0, stall := stalls })
        ∧ (¬invalid → s.tune.stallRounds ≤ stalls → s.TowersLawful → s.sup.Lawful →
          t.TrippedBy s .stall (some p) ∧ (t.tower p).state = .faulted ∧ (t.tower p).reason = .stall))
    ∧ ((s.tower p).state = .resetting →
        ((s.tower p).stage = .requested ∨ sees statusInitialising → t = s.modTower p fun _ => w)
        ∧ ((s.tower p).stage = .acknowledged ∨ (s.tower p).stage = .unrequested → clean →
          t.TowerBecomes s p { w with state := .online, stage := .none, resetTimer := none
                                      changes := w.changes ||| 0x04 })
        ∧ ((s.tower p).stage = .acknowledged ∨ (s.tower p).stage = .unrequested → ¬sees statusInitialising →
          s.inMotion = false →
          (sees statusDriveFault → t.TowerBecomes s p (fault .drive 0x02))
          ∧ (¬sees statusDriveFault → sees statusLocalStop → t.TowerBecomes s p (fault .localStop 0x02))))
    ∧ ((s.tower p).state = .faulted → t = s.modTower p fun _ => w)

/-- A driven tower that reaches its miss limit, its follow limit or its stall limit leaves the driven states with commands 0
and trips the machine with the limit's cause and its position (R65, R67, R69 to R72). Of a standing machine, a tower whose reset
timer expires goes to FAULTED/RESET_TIMEOUT and an ONLINE tower that reaches the miss limit falls SILENT; nothing trips and
every other tower stays as it is (R63, R67, R77). -/
def Obligations.TowerAtALimitFallsOut : Prop :=
  (∀ (p : Nat) (s : State), s.TowersLawful → s.sup.Lawful → (s.tower p).isDriven = true →
    (s.link.settings.missLimit ≤ (s.tower p).miss + 1 → ∃ t, exec (.missLimitReached p) s = .next t
      ∧ (t.tower p).state = .silent ∧ (t.tower p).miss = s.link.settings.missLimit ∧ (t.tower p).target = 0
      ∧ (t.tower p).hasChange .presence = true ∧ t.TrippedBy s .linkLoss (some p))
    ∧ (s.isEnd p = false → s.tune.follow ≤ (s.tower p).follow + 1 → ∃ t, exec (.followLimitReached p) s = .next t
      ∧ (t.tower p).state = .faulted ∧ (t.tower p).reason = .sensor ∧ (t.tower p).target = 0
      ∧ (t.tower p).hasChange .fault = true ∧ t.TrippedBy s .towerFault (some p))
    ∧ (s.tune.stallThreshold ≤ (s.tower p).applied → s.tune.stallRounds ≤ (s.tower p).stall + 1 →
      ∃ t, exec (.stall p) s = .next t
      ∧ (t.tower p).state = .faulted ∧ (t.tower p).reason = .stall ∧ (t.tower p).target = 0
      ∧ (t.tower p).hasChange .fault = true ∧ t.TrippedBy s .stall (some p)))
  ∧ (∀ (p : Nat) (s : State), 1 ≤ p → p ≤ 21 → s.inMotion = false →
    (∀ n, (s.tower p).resetTimer = some n → (s.tower p).isDriven = false → ∃ t, exec (.resetTimerExpiry p) s = .next t
      ∧ t.tower p = { s.tower p with
          state := .faulted, reason := .resetTimeout, miss := 0, follow := 0, stall := 0, stage := .none
          resetPending := false, resetTimer := none, changes := (s.tower p).changes ||| 0x02 }
      ∧ (∀ q, q ≠ p → t.tower q = s.tower q) ∧ t.sup = s.sup ∧ t.link = s.link ∧ t.tracker = s.tracker
      ∧ t.plan = s.plan ∧ t.tune = s.tune ∧ t.svc = s.svc ∧ t.port = s.port ∧ t.free = s.free)
    ∧ ((s.tower p).state = .online → s.link.settings.missLimit ≤ (s.tower p).miss + 1 →
      ∃ t, exec (.missLimitReached p) s = .next t
      ∧ t.tower p = { s.tower p with state := .silent, miss := s.link.settings.missLimit
                                     changes := (s.tower p).changes ||| 0x01 }
      ∧ (∀ q, q ≠ p → t.tower q = s.tower q) ∧ t.sup = s.sup ∧ t.link = s.link ∧ t.tracker = s.tracker
      ∧ t.plan = s.plan ∧ t.tune = s.tune ∧ t.svc = s.svc ∧ t.port = s.port ∧ t.free = s.free))

/-- The computation writes target and applied command of every configured driven tower and leaves every other record as it
is; the applied command moves toward its target by at most the slew limit and never past it (R106, R107, R113). -/
def Obligations.AppliedCommandMovesAtMostTheSlewLimit : Prop :=
  (∀ (s : State) (swing : Option Nat) (p : Nat), 1 ≤ p → p ≤ 21 →
    ((s.isConfigured p = true ∧ (s.tower p).isDriven = true) →
      ((writeTowers swing s).tower p).target = (targetOf s swing p (s.tower p)).1
      ∧ ((writeTowers swing s).tower p).applied
          = slewed (s.tower p).applied (targetOf s swing p (s.tower p)).1 s.tune.slew)
    ∧ (¬(s.isConfigured p = true ∧ (s.tower p).isDriven = true) → (writeTowers swing s).tower p = s.tower p)
    ∧ (s.sup.machine = .running → (targetOf s swing p (s.tower p)).1 ≤ 1000)
    ∧ (s.sup.machine ≠ .running → s.sup.machine ≠ .jogging → (targetOf s swing p (s.tower p)).1 = 0))
  ∧ ∀ applied target limit : Nat,
    slewed applied target limit ≤ applied + limit ∧ applied ≤ slewed applied target limit + limit
      ∧ min applied target ≤ slewed applied target limit ∧ slewed applied target limit ≤ max applied target
      ∧ ((target ≤ applied + limit ∧ applied ≤ target + limit) → slewed applied target limit = target)

/-- The target of a driven tower. In RUNNING the end tower's is P; another main-line tower's is its feedforward, and, DRIVING, plus
the gained error beyond the deadband; the corner tower's is its feedforward, and, DRIVING with a swing target, plus the gained
swing error; each is clamped to 0 to 1000 with SATURATED set exactly if the clamp acted (R108 to R112, R114). In JOGGING the jogged
tower's is the jog speed, and in every other state it is 0, with SATURATED clear (R107, R120). The FOLLOWING flag follows the
tower's state, or in RUNNING a corner tower without a swing target (R111, R114). -/
def Obligations.RunningTargetIsFeedforwardPlusCorrection : Prop :=
  ∀ (s : State) (swing : Option Nat) (p : Nat), 1 ≤ p → p ≤ 21 → s.isConfigured p = true → (s.tower p).isDriven = true →
    let t := (writeTowers swing s).tower p
    let gives (w : Int) : Prop := t.target = (max 0 (min 1000 w)).toNat ∧ (t.saturated = true ↔ w < 0 ∨ 1000 < w)
    (s.sup.machine = .running →
      (∀ a r v m trim, (s.tower p).geometry = some (.mainLine a r v m trim) →
        (s.isEnd p = true → gives s.tracker.pace)
        ∧ (∀ aN rN vN mN trimN, s.isEnd p = false →
          (s.tower s.link.settings.towers).geometry = some (.mainLine aN rN vN mN trimN) →
          let ff : Int := ((2 * (s.tracker.pace * r * vN) + rN * v) / (2 * (rN * v)) : Nat)
          let e := (s.tower p).joint - trim
          ((s.tower p).state = .following → gives ff)
          ∧ ((s.tower p).state = .driving → e.natAbs ≤ s.tune.deadband → gives ff)
          ∧ ((s.tower p).state = .driving → s.tune.deadband < e →
              gives (ff + ((e - s.tune.deadband) * s.tune.gain).tdiv 16))
          ∧ ((s.tower p).state = .driving → e < -s.tune.deadband →
              gives (ff + ((e + s.tune.deadband) * s.tune.gain).tdiv 16))))
      ∧ (∀ a m k o, (s.tower p).geometry = some (.corner a m k o) →
        let ff : Int := ((2 * s.tracker.pace * k + 1000) / 2000 : Nat)
        (∀ target, swing = some target → (s.tower p).state = .driving →
          gives (ff + (((s.tower p).joint - o - target) * s.tune.cornerGain).tdiv 16))
        ∧ (swing = none ∨ (s.tower p).state = .following → gives ff)))
    ∧ (∀ j, s.sup.machine = .jogging → s.sup.jog = some j →
        t.target = (if j.position = p then j.speed.val else 0) ∧ t.saturated = false)
    ∧ (s.sup.machine ≠ .running → s.sup.machine ≠ .jogging → t.target = 0 ∧ t.saturated = false)
    ∧ ((s.tower p).state = .following → t.followingFlag = true)
    ∧ ((s.tower p).state = .driving → (t.followingFlag = true ↔ s.sup.machine = .running ∧ p = 21 ∧ swing = none))

/-- The checks of a computation. In RUNNING, STARTING and HOLDING the warn check of a DRIVING main-line tower below N sets its
ALIGN_WARN beyond the limit in use, with WARN and the ALIGN_WARN event on its rise, and clears it at or below (R115, R116); the
lowest such tower beyond X trips the machine with MISALIGN, and the arm of a DRIVING corner tower beyond Y from its target with
SWING, or adds SWING to a MISALIGN (R117, R118). In JOGGING the joints with a FRESH reading that do not touch the jogged tower are
checked, and the arm where neither the end tower nor the corner tower is jogged (R121). Otherwise nothing trips. -/
def Obligations.ComputationChecksTheLine : Prop :=
  ∀ s : State,
    let watching : Prop := s.sup.machine = .running ∨ s.sup.machine = .starting ∨ s.sup.machine = .holding
    let joint (p : Nat) : Prop := 1 ≤ p ∧ p < s.link.settings.towers
    let beyond (limit : Nat) (p : Nat) : Prop := limit < (s.tower p).error.natAbs
    let checked (p : Nat) : Prop := joint p ∧
      (watching ∧ (s.tower p).state = .driving
        ∨ ∃ j, s.sup.machine = .jogging ∧ s.sup.jog = some j ∧ (s.tower p).fresh = true
          ∧ (j.position = 21 ∨ (p + 1 ≠ j.position ∧ p ≠ j.position ∧ p ≠ j.position + 1)))
    let swung : Prop := ∃ target, swingTarget s = some target
      ∧ (s.tune.swingTrip : Int) < ((s.tower 21).measuredSwing - target).natAbs
      ∧ (watching ∧ (s.tower 21).state = .driving
        ∨ ∃ j, s.sup.machine = .jogging ∧ s.sup.jog = some j ∧ (s.tower 21).fresh = true
          ∧ j.position ≠ s.link.settings.towers ∧ j.position ≠ 21)
    (∀ limit p, p ≤ 21 → watching → joint p → (s.tower p).state = .driving →
      (∀ v w, s.tracker.view = some v → v.warnLimit = some w → limit = min w (s.tune.trip - 1)) →
      ((∀ v, s.tracker.view = some v → v.warnLimit = none) → limit = s.tune.warn) →
      (beyond limit p → (s.tower p).alignWarn = false →
        (warnChecks s).tower p = { s.tower p with alignWarn := true, changes := (s.tower p).changes ||| 0x10 }
        ∧ (warnChecks s).ev.isSet .alignWarn = true)
      ∧ (beyond limit p → (s.tower p).alignWarn = true → (warnChecks s).tower p = s.tower p)
      ∧ (¬beyond limit p → (warnChecks s).tower p = { s.tower p with alignWarn := false }))
    ∧ (∀ p, ¬(watching ∧ joint p ∧ (s.tower p).state = .driving) → (warnChecks s).tower p = s.tower p)
    ∧ (∀ p, s.sup.Lawful → checked p → beyond s.tune.trip p → (∀ q, q < p → checked q → ¬beyond s.tune.trip q) →
        (computation s).sup.machine = .tripped ∧ (computation s).sup.permit = false
        ∧ (swung → (computation s).sup.trip = some { cause := .misalign, position := some p, round := s.link.round
                                                     angle := s.tracker.lastGood, further := 0x002 })
        ∧ (¬swung → (computation s).sup.trip = some { cause := .misalign, position := some p, round := s.link.round
                                                      angle := s.tracker.lastGood, further := 0 }))
    ∧ (s.sup.Lawful → (∀ p, checked p → ¬beyond s.tune.trip p) → swung →
        (computation s).sup.machine = .tripped ∧ (computation s).sup.permit = false
        ∧ (computation s).sup.trip = some { cause := .swing, position := some 21, round := s.link.round
                                            angle := s.tracker.lastGood, further := 0 })
    ∧ ((∀ p, checked p → ¬beyond s.tune.trip p) → ¬swung → (computation s).sup.trip = s.sup.trip)

/-- The reports of a computation that makes no trip request. At rest STOPPING ends in STANDBY and a reversal starts its delay, and
short of rest both go on (R119, R135, R142); in JOGGING a met ALIGN condition moves the machine to STOPPING, and otherwise one round
is taken from the jog, the last of which does so (R122, R144); in every other state the rest report changes nothing. The snapshot
then takes the round, the angle used, the pace handed over, the tracker's keys and distance, and the direction, machine state and
first cause as the supervisor holds them after the reports (R123). -/
def Obligations.ComputationReportsAndRefreshesTheSnapshot : Prop :=
  ∀ s : State,
    let swing := swingTarget s
    let rest : Prop := ∀ p ∈ s.link.settings.positions, ((writeTowers swing s).tower p).applied = 0
    let t := computation s
    (s.sup.machine = .stopping → rest → t.sup.machine = .standby ∧ t.sup.permit = false ∧ t.sup.jog = none
      ∧ t.sup.direction = s.sup.direction ∧ t.ev.isSet .machineState = true)
    ∧ (s.sup.machine = .stopping ∨ s.sup.machine = .reversing → ¬rest → t.sup = s.sup)
    ∧ (s.sup.machine = .reversing → s.sup.reversal = .awaitingRest → rest →
        t.sup = { s.sup with reversal := .delay (10 * s.sup.reversalDelay) })
    ∧ (s.sup.machine = .reversing → s.sup.reversal ≠ .awaitingRest → t.sup = s.sup)
    ∧ (∀ j, s.sup.machine = .jogging → s.sup.jog = some j → misaligned s = none → swungOut s swing = false →
        (jogMet s swing = true → (s.link.settings.positions.all fun p => ((writeTowers swing s).tower p).applied == 0) = false →
          t.sup = { s.sup with machine := .stopping })
        ∧ (jogMet s swing = false → 2 ≤ j.roundsLeft →
          t.sup = { s.sup with jog := some { j with roundsLeft := j.roundsLeft - 1 } })
        ∧ (jogMet s swing = false → j.roundsLeft ≤ 1 →
          t.sup = { s.sup with machine := .stopping, jog := some { j with roundsLeft := j.roundsLeft - 1 } }))
    ∧ (s.sup.machine = .standby ∨ s.sup.machine = .tripped → t.sup = s.sup)
    ∧ (s.sup.machine = .running ∨ s.sup.machine = .starting ∨ s.sup.machine = .holding → misaligned s = none →
        swungOut s swing = false → t.sup = s.sup)
    ∧ t.port.snapshot =
        { round := s.link.round, angle := s.tracker.angleUsed, held := s.tracker.held, pace := s.tracker.pace
          activeKey := s.tracker.view.map View.activeKey, revision := (s.tracker.view.map View.revision).getD 0
          nextKey := s.tracker.view.map View.nextKey, dist := s.tracker.view.map View.dist
          direction := t.sup.direction, machine := t.sup.machine, cause := t.sup.trip.map Trip.cause }

/-! ### The span link -/

/-- LINK_SETUP in SETUP replaces the settings; a position that becomes configured or ceases to be is cleared, and every other
keeps its record (R55, R101). The present step of 100 ms goes on where it stood, counted at the new rate (the model's choice,
log 4). -/
def Obligations.LinkSetupReconfigures : Prop :=
  ∀ (payload : List Byte) (l : LinkSettings) (s : State), s.takes 0x40 payload → decodeLink payload = some l →
    (s.sup.machine ≠ .setup → exec (.linkSetup payload) s = .next (s.answer 0x40 (.refuse .state)))
    ∧ (s.sup.machine = .setup → l.inRange = false →
        exec (.linkSetup payload) s = .next (s.answer 0x40 (.refuse .badValue)))
    ∧ (s.sup.machine = .setup → l.inRange = true → ∃ t, exec (.linkSetup payload) s = .next t
        ∧ t.link = { s.link with settings := l
                                 clock := s.link.clock * l.rate.perStep / s.link.settings.rate.perStep }
        ∧ (∀ p, 1 ≤ p → p ≤ 21 → s.isConfigured p = l.isConfigured p → t.tower p = s.tower p)
        ∧ (∀ p, 1 ≤ p → p ≤ 21 → s.isConfigured p ≠ l.isConfigured p →
            t.tower p = Tower.cleared (s.tower p).geometry (if l.isConfigured p then .silent else .vacant))
        ∧ t.plan = s.plan ∧ t.tracker = s.tracker ∧ t.tune = s.tune ∧ t.sup = s.sup ∧ t.svc = s.svc ∧ t.ev = s.ev
        ∧ t.free = s.free ∧ t.port.response = some (Answer.ok.frame 0x40))

/-- A round start takes the rest of the round as passed, with the polls that have not begun skipped (the model's way, log 19),
and then loads the budget, empties the offered set, requests an angle, makes every configured reading STALE, ages the queued
requests and goes to the first configured position (R81, R85, R159). A BREAK that a timer's expiry asks for meanwhile begins at
that moment and is sent to its end before the rest of the round passes (R95, R96). -/
def Obligations.RoundStartPreparesTheRound : Prop :=
  ∀ s : State, s.link.running = true → s.link.free = true →
    let v := roundPasses s
    ∃ u t : State, exec .roundStart s = .next t
    ∧ (v.link.phase ≠ .poll ∨ v.link.nextPos = none → u = v)
    ∧ (∀ p, v.link.phase = .poll → v.link.nextPos = some p →
        u = pollComplete { raise .roundShort v with link := { v.link with nextPos := none } })
    ∧ (s.link.clock + s.link.remaining < s.link.settings.rate.perStep → v = { s with
        link := s.link.pass s.link.remaining, ev := if s.link.remaining = 0 then s.ev else settleLine s.ev })
    ∧ (∀ k, k ≤ s.link.remaining → (∀ j < k, (timePasses j s).link.free = true) → (timePasses k s).link.brk = .sending 0 →
        let w := timePasses 4 (timePasses k s)
        (w.link.phase ≠ .poll ∨ w.link.nextPos ≠ none) →
          v = timePasses w.link.remaining { w with link := { w.link with brk := .none } })
    ∧ t.link.round = (u.link.round + 1) % 65536
    ∧ t.link.remaining = u.link.settings.roundMs * u.link.settings.rate.bits / 10000
    ∧ t.link.offered = [] ∧ t.link.phase = .poll ∧ t.link.nextPos = u.link.settings.positions.head?
    ∧ t.link.exchange = u.link.exchange ∧ (u.link.brk = .pending → t.link.brk = .sending 0)
    ∧ (u.link.brk ≠ .pending → t.link.brk = u.link.brk)
    ∧ t.tracker = { u.tracker with awaiting := true }
    ∧ (∀ p, u.isConfigured p = true → p ≤ 21 → t.tower p = { u.tower p with fresh := false })
    ∧ (∀ p, u.isConfigured p = false → t.tower p = u.tower p)
    ∧ (∀ n r, u.svc.slot n = some r → r.state = .queued → r.age + 1 ≤ u.link.settings.ageLimit →
        t.svc.slot n = some { r with age := r.age + 1 })
    ∧ (∀ n r, u.svc.slot n = some r → r.state = .queued → u.link.settings.ageLimit < r.age + 1 →
        t.svc.slot n = some { r with age := r.age + 1, state := .failed, code := .unreachable, result := none })
    ∧ (∀ n, (∀ r, u.svc.slot n = some r → r.state ≠ .queued) → t.svc.slot n = u.svc.slot n)
    ∧ ((∀ n r, u.svc.slot n = some r → r.state = .queued → r.age + 1 ≤ u.link.settings.ageLimit) →
        t.svc.order = u.svc.order ∧ t.ev = u.ev)
    ∧ (∀ n r, u.svc.slot n = some r → r.state = .queued → u.link.settings.ageLimit < r.age + 1 →
        n ∉ t.svc.order ∧ t.ev = u.ev.raise .serviceDone)
    ∧ t.svc.counter = u.svc.counter ∧ t.link.settings = s.link.settings ∧ t.link.running = u.link.running
    ∧ t.plan = u.plan ∧ t.sup = u.sup ∧ t.tune = s.tune ∧ t.port = u.port ∧ t.free = s.free

/-- Character times pass in parts as they pass in one. They count the round remaining down and what is on the line up (R82, R91,
R95), and every 96, 192 or 384 of them, by the rate, are a step of 100 ms of every timer, taken at its moment, whichever row or
idle step they pass in (R129, log 4). A step takes the start, dwell and reversal timers and the towers' reset timers down by one,
and a timer's last step is its expiry (R77, R133, R137, R142). That a pulse of ATTN is over within a character time is the model's
(log 28). -/
def Obligations.TimePassesOnTheLineAndTheTimers : Prop :=
  (Rate.perStep .r9600 = 96 ∧ Rate.perStep .r19200 = 192 ∧ Rate.perStep .r38400 = 384)
  ∧ (∀ (n : Nat) (s : State),
    let u : State := { s with
      link := { s.link with
        remaining := s.link.remaining - n, exchange := s.link.exchange.map fun x => { x with used := x.used + n }
        brk := (match s.link.brk with
          | .none => .none
          | .waiting left quiet => .waiting (left - n) (quiet - n)
          | .pending => .pending
          | .sending k => .sending (k + n))
        clock := (s.link.clock + n) % s.link.settings.rate.perStep }
      ev := if n = 0 then s.ev else settleLine s.ev }
    (s.link.clock + n < s.link.settings.rate.perStep → timePasses n s = u)
    ∧ (1 ≤ n → s.link.clock + n = s.link.settings.rate.perStep → timePasses n s = stepTimers u)
    ∧ (∀ m, timePasses (m + n) s = timePasses n (timePasses m s)))
  ∧ (∀ s : State, stepTimers s =
      (List.range' 1 21).foldl (fun s p => stepReset p s) (stepReversal (stepDwell (stepStart s)))
    ∧ (s.sup.startTimer = none → stepStart s = s)
    ∧ (∀ n, s.sup.startTimer = some n → 2 ≤ n →
        stepStart s = { s with sup := { s.sup with startTimer := some (n - 1) } })
    ∧ (∀ n, s.sup.startTimer = some n → n ≤ 1 → s.sup.machine = .starting → stepStart s =
        raise .machineState { s with sup := { s.sup with machine := .running, startTimer := none } })
    ∧ (∀ n, s.sup.hold.dwell = .running n → 2 ≤ n →
        stepDwell s = { s with sup := { s.sup with hold := { s.sup.hold with dwell := .running (n - 1) } } })
    ∧ (∀ n, s.sup.hold.dwell = .running n → n ≤ 1 → stepDwell s = dwellExpires s)
    ∧ (∀ n, s.sup.reversal = .delay n → 2 ≤ n →
        stepReversal s = { s with sup := { s.sup with reversal := .delay (n - 1) } })
    ∧ (∀ n, s.sup.reversal = .delay n → n ≤ 1 →
        exec .reversalTimerExpiry s = .next (stepReversal s) ∨ s.sup.machine ≠ .reversing)
    ∧ (∀ p n, (s.tower p).resetTimer = some n → 2 ≤ n →
        stepReset p s = s.modTower p fun w => { w with resetTimer := some (n - 1) })
    ∧ (∀ p n, (s.tower p).resetTimer = some n → n ≤ 1 → exec (.resetTimerExpiry p) s = .next (stepReset p s)))

/-- With no row queued and no command executing: on a free line polls that no longer fit are skipped and the poll phase completes
(R83, R85), a round whose budget is used up ends and the next one starts with no time lost (R82), and otherwise, with nothing to
begin, one character time passes. The idle step is the model's (log 3); the order of what falls due in it is log 23's. -/
def Obligations.IdleRoundEndsAtItsBudget : Prop :=
  ∀ s : State, s.pending = [] → s.port.command = none →
    (s.link.running = true → s.link.free = true → s.link.remaining = 0 →
      (s.link.phase ≠ .poll ∨ s.link.nextPos = none) → step s = .next (startRound s))
    ∧ (∀ p, s.link.running = true → s.link.free = true → s.link.phase = .poll → s.link.nextPos = some p →
        s.link.remaining < 26 →
        step s = .next (pollComplete { raise .roundShort s with link := { s.link with nextPos := none } }))
    ∧ ((s.link.running = false ∨ s.link.free = false) → step s = .next (characterTime s))
    ∧ (s.link.phase = .closed → s.link.remaining ≠ 0 → step s = .next (characterTime s))
    ∧ characterTime s = breakDue (exchangeDue (timePasses 1 s))

/-- POLL_BEGIN on a free line: with 26 character times left the POLL of the next position goes out, carrying its address,
drive word, command and round byte; with fewer, this and every later poll is skipped and the phase completes (R83 to R86). -/
def Obligations.PollBeginSendsOrSkips : Prop :=
  ∀ (p : Nat) (s : State), s.link.running = true → s.link.free = true → s.link.phase = .poll →
    s.link.nextPos = some p →
    (26 ≤ s.link.remaining → exec .pollBegin s = .next
      { s with link := { s.link with
        nextPos := s.link.settings.positions.find? (p < ·)
        exchange := some
          { owner := .poll p, address := (s.tower p).address, step := .sending, used := 0, replyAt := 0, discard := false
            request := withCheck ([byte (s.tower p).address, 0x31, driveWord s (s.tower p)]
              ++ word (if (s.tower p).isDriven then (s.tower p).applied else 0) ++ [byte s.link.round]) } } })
    ∧ (s.link.remaining < 26 → exec .pollBegin s = .next
      (pollComplete { raise .roundShort s with link := { s.link with nextPos := none } }))

/-- In the service phase the lowest pending RESET goes first, and otherwise the oldest queued request whose tower answers;
either begins if it fits, and the phase is CLOSED if it does not (R83, R89, R157). -/
def Obligations.ServicePhaseChoosesResetThenRequest : Prop :=
  ∀ s : State, s.link.running = true → s.link.free = true → s.link.phase = .service →
    (∀ p, resetCandidate s = some p → 16 ≤ s.link.remaining → exec .resetExchangeBegin s = .next
      { s with link := { s.link with
        offered := s.link.offered ++ [p]
        exchange := some
          { owner := .reset p, address := (s.tower p).address
            request := withCheck [byte (s.tower p).address, 0x34]
            step := .sending, used := 0, replyAt := 0, discard := false } } })
    ∧ (∀ p, resetCandidate s = some p → s.link.remaining < 16 →
        exec .resetExchangeBegin s = .next { s with link := { s.link with phase := .closed } })
    ∧ (∀ p, resetCandidate s = some p → exec .serviceExchangeBegin s = .next s)
    ∧ (∀ n r, resetCandidate s = none → serviceCandidate s = some n → s.svc.slot n = some r →
        22 ≤ s.link.remaining → ∃ t, exec .serviceExchangeBegin s = .next t
        ∧ t.link = { s.link with
          exchange := some
            { owner := .service n, address := (s.tower r.position).address, step := .sending, used := 0, replyAt := 0
              discard := false
              request := withCheck ([byte (s.tower r.position).address, r.operation.requestKind, byte r.index]
                ++ word r.value) } }
        ∧ t.svc.slot n = some { r with state := .sent } ∧ t.svc.order = s.svc.order.filter (· != n)
        ∧ (∀ m, m ≠ n → t.svc.slot m = s.svc.slot m) ∧ t.svc.counter = s.svc.counter
        ∧ t.plan = s.plan ∧ t.roster = s.roster ∧ t.sup = s.sup ∧ t.tracker = s.tracker ∧ t.ev = s.ev ∧ t.port = s.port
        ∧ t.tune = s.tune ∧ t.free = s.free)
    ∧ (∀ n r, resetCandidate s = none → serviceCandidate s = some n → s.svc.slot n = some r →
        s.link.remaining < 22 →
        exec .serviceExchangeBegin s = .next { s with link := { s.link with phase := .closed } })

/-- An exchange passes from SENDING to AWAITING when its request has gone out, 8, 4 or 7 character times after it began, and
from AWAITING to RECEIVING when a reply begins (R83, R91). Where a timer's expiry cuts it short on the way, no more time passes, and
only its BREAK may fall due (log 3). While it is SENDING, SPAN_TX carries its characters back to back, each
a start bit, 8 data bits least significant first and a stop bit, and a character with its stop bit is read back as it was sent
(R79); which level a data bit of 1 has is the model's (log 36). -/
def Obligations.ExchangePassesThroughItsSteps : Prop :=
  (∀ (x : Exchange) (s : State), s.link.exchange = some x →
    (x.step = .sending →
      let t := timePasses (x.owner.requestLength - x.used) s
      (∀ y, t.link.exchange = some y → y.step = .sending → exec .requestSent s = .next
        { t with link := { t.link with exchange := some { y with step := .awaiting } } })
      ∧ (∀ k, k ≤ x.owner.requestLength - x.used →
          (∀ y, (timePasses k s).link.exchange = some y → y.step ≠ .sending) →
          (∀ j < k, ∃ y, (timePasses j s).link.exchange = some y ∧ y.step = .sending) →
          exec .requestSent s = .next (breakDue (timePasses k s))))
    ∧ (x.step = .awaiting → exec .replyBegun s = .next
      { s with link := { s.link with exchange := some { x with step := .receiving, replyAt := x.used } } })
    ∧ (∀ bit b, s.link.brk = .none → x.step = .sending → bit < 10 → x.request[x.used]? = some b →
        s.link.spanTx bit = (characterBits b)[bit]!))
  ∧ (Owner.poll 1).requestLength = 8 ∧ (Owner.reset 1).requestLength = 4 ∧ (Owner.service 1).requestLength = 7
  ∧ (∀ b : Byte, characterBits b = [false, b.getLsbD 0, b.getLsbD 1, b.getLsbD 2, b.getLsbD 3, b.getLsbD 4, b.getLsbD 5,
      b.getLsbD 6, b.getLsbD 7, true] ∧ readCharacter (characterBits b) = some b)

/-- A SERVICE exchange that ends without a good reply leaves the line, and its SENT slot is FAILED: NO_REPLY when the reply
window closes 15 character times after it began, CHECK on a gap, a framing error, a reservation used up, a bad check or a reply
from another address; a CANCELLING slot becomes FREE whatever the outcome, without SERVICE_DONE (R91, R92, R158, R163). A failed
RESET exchange leaves the RESET pending at stage REQUESTED (R76). A poll that gets no reply in 16, or whose reply breaks off or is
CHECK, LATE or WRONG_ADDRESS, is a miss (R91 to R93): below the limit an ONLINE or FOLLOWING tower counts it and keeps its state and
a DRIVING one counts it and becomes FOLLOWING, one that reaches it there is the event MISS_LIMIT_REACHED, the count of a SILENT one
climbs to the limit and rests there, a RESETTING or FAULTED one is left as it is, and no reading is stored (R67). With the last
poll the poll phase completes (R88). -/
def Obligations.FailedExchangeReachesItsOwner : Prop :=
  (∀ (x y : Exchange) (n : Nat) (r : Request) (s : State), s.link.exchange = some x → y.owner = .service n →
    y.discard = false →
    let failed (t : State) (code : ResultCode) : State := raise .serviceDone
      { t with link := { t.link with exchange := none }
               svc := t.svc.setSlot n (some { r with state := .failed, code := code, result := none }) }
    let freed (t : State) : State :=
      { t with link := { t.link with exchange := none }, svc := t.svc.setSlot n none }
    let sent (t : State) : Prop :=
      t.link.exchange = some y ∧ y.step = x.step ∧ t.link.phase = .service ∧ t.svc.slot n = some r ∧ r.state = .sent
    let cancelled (t : State) : Prop :=
      t.link.exchange = some y ∧ y.step = x.step ∧ t.link.phase = .service ∧ t.svc.slot n = some r ∧ r.state = .cancelling
    (x.step = .awaiting → x.owner = .service n → sent (timePasses (15 - x.used) s) →
        exec .noReply s = .next (failed (timePasses (15 - x.used) s) .noReply))
    ∧ (x.step = .awaiting → x.owner = .service n → cancelled (timePasses (15 - x.used) s) →
        exec .noReply s = .next (freed (timePasses (15 - x.used) s)))
    ∧ (x.step = .receiving → sent s → exec .replyGapTimeout s = .next (failed s .check))
    ∧ (x.step = .receiving → cancelled s → exec .replyGapTimeout s = .next (freed s))
    ∧ (x.step = .receiving → sent s → exec .replyFramingError s = .next (failed s .check))
    ∧ (x.step = .receiving → cancelled s → exec .replyFramingError s = .next (freed s))
    ∧ (x.step = .receiving → x.owner = .service n → sent (timePasses (22 - x.used) s) →
        exec .reservationUsedUp s = .next (failed (timePasses (22 - x.used) s) .check))
    ∧ (x.step = .receiving → x.owner = .service n → cancelled (timePasses (22 - x.used) s) →
        exec .reservationUsedUp s = .next (freed (timePasses (22 - x.used) s)))
    ∧ (∀ reply, x.step = .receiving → x.owner = .service n → reply.length = 7 →
        let t := timePasses (x.replyAt + 7 - x.used) s
        (sent t → judgeReply y t.link.round reply = .check ∨ judgeReply y t.link.round reply = .wrongAddress →
            exec (.replyComplete reply) s = .next (failed t .check))
        ∧ (cancelled t → exec (.replyComplete reply) s = .next (freed t))))
  ∧ (∀ (x y : Exchange) (p : Nat) (s : State), s.link.exchange = some x → x.owner = .reset p → y.owner = .reset p →
    let ended (t : State) : State := { t with link := { t.link with exchange := none } }
    let held (t : State) : Prop :=
      t.link.exchange = some y ∧ y.step = x.step ∧ (t.link.phase ≠ .poll ∨ t.link.nextPos ≠ none)
    (x.step = .awaiting → held (timePasses (12 - x.used) s) →
        exec .noReply s = .next (ended (timePasses (12 - x.used) s)))
    ∧ (x.step = .receiving → held s →
        exec .replyGapTimeout s = .next (ended s) ∧ exec .replyFramingError s = .next (ended s))
    ∧ (x.step = .receiving → held (timePasses (16 - x.used) s) →
        exec .reservationUsedUp s = .next (ended (timePasses (16 - x.used) s)))
    ∧ (∀ reply, x.step = .receiving → reply.length = 4 →
        let t := timePasses (x.replyAt + 4 - x.used) s
        held t → (∀ b, judgeReply y t.link.round reply ≠ .good b) →
          exec (.replyComplete reply) s = .next (ended t)))
  ∧ (∀ (x y : Exchange) (p : Nat) (s : State), s.link.exchange = some x → x.owner = .poll p → y.owner = .poll p →
    y.discard = false →
    let ended (t : State) : State := { t with link := { t.link with exchange := none } }
    let settled (u : State) : Host.Outcome State Fault Refusal := .next
      (if u.link.running = true ∧ u.link.phase = .poll ∧ u.link.nextPos = none then pollComplete u else u)
    let missed (t : State) (out : Host.Outcome State Fault Refusal) : Prop :=
      t.link.exchange = some y → y.step = x.step →
      let counted (st : TowerState) (miss : Nat) := (ended t).modTower p fun w => { w with state := st, miss := miss }
      ((t.tower p).miss + 1 < t.link.settings.missLimit →
        ((t.tower p).state = .online → out = settled (counted .online ((t.tower p).miss + 1)))
        ∧ ((t.tower p).state = .driving → out = settled (counted .following ((t.tower p).miss + 1)))
        ∧ ((t.tower p).state = .following → out = settled (counted .following ((t.tower p).miss + 1))))
      ∧ (t.link.settings.missLimit ≤ (t.tower p).miss + 1 → (t.tower p).state ∈ [TowerState.online, .driving, .following] →
          ∃ u, exec (.missLimitReached p) (ended t) = .next u ∧ out = settled u)
      ∧ ((t.tower p).state = .silent → out = settled (counted .silent (min t.link.settings.missLimit ((t.tower p).miss + 1))))
      ∧ ((t.tower p).state ∈ [TowerState.resetting, .faulted, .vacant] → out = settled (ended t))
    (x.step = .awaiting → missed (timePasses (16 - x.used) s) (exec .noReply s))
    ∧ (x.step = .receiving → missed s (exec .replyGapTimeout s) ∧ missed s (exec .replyFramingError s)
        ∧ missed (timePasses (26 - x.used) s) (exec .reservationUsedUp s))
    ∧ (∀ reply, x.step = .receiving → reply.length = 10 →
        let t := timePasses (x.replyAt + 10 - x.used) s
        judgeReply y t.link.round reply ∈ [LineOutcome.check, .late, .wrongAddress] →
          missed t (exec (.replyComplete reply) s)))

/-- A whole reply is judged by check, address, kind and round echo in that order, and only one that passes every test is
GOOD (R93). -/
def Obligations.ReplyTestsAreTakenInOrder : Prop :=
  ∀ (x : Exchange) (round : Nat) (reply : List Byte),
    (checkHolds reply = false → judgeReply x round reply = .check)
    ∧ (checkHolds reply = true → reply[0]? ≠ some (byte x.address) → judgeReply x round reply = .wrongAddress)
    ∧ (checkHolds reply = true → reply[0]? = some (byte x.address) → reply[1]? ≠ some x.owner.replyKind →
        judgeReply x round reply = .check)
    ∧ (∀ p, checkHolds reply = true → reply[0]? = some (byte x.address) → reply[1]? = some 0xB1 → x.owner = .poll p →
        reply[7]? ≠ some (byte round) → judgeReply x round reply = .late)
    ∧ (∀ p, checkHolds reply = true → reply[0]? = some (byte x.address) → reply[1]? = some 0xB1 → x.owner = .poll p →
        reply[7]? = some (byte round) → judgeReply x round reply = .good reply)
    ∧ (∀ p, checkHolds reply = true → reply[0]? = some (byte x.address) → reply[1]? = some 0xB4 → x.owner = .reset p →
        judgeReply x round reply = .good reply)
    ∧ (∀ n, checkHolds reply = true → reply[0]? = some (byte x.address) → reply[1]? = some 0xB2 →
        x.owner = .service n → judgeReply x round reply = .good reply)

/-- A GOOD reply reaches its owner when it is complete, and leaves the line free: a poll's reaches the roster, a RESET is
acknowledged, and a SENT service request is DONE with the reply's value, or FAILED/UNIT_REFUSED with the drive unit's code (R76,
R94, R158). With the end of the last poll the poll phase completes (R88): the tracker takes a missing sample to be bad, the roster
sends every DRIVING tower with a STALE reading to FOLLOWING, the engine computes, and the phase is SERVICE. -/
def Obligations.GoodReplyReachesItsOwner : Prop :=
  (∀ (x y : Exchange) (reply : List Byte) (s : State), s.link.exchange = some x → x.step = .receiving →
    reply.length = x.owner.replyLength →
    let t := timePasses (x.replyAt + x.owner.replyLength - x.used) s
    t.link.exchange = some y → y.step = .receiving → y.discard = false →
    let freed : State := { t with link := { t.link with exchange := none } }
    (∀ p, y.owner = .poll p → t.link.running = true → t.link.phase = .poll → t.link.nextPos = none →
      exec (.replyComplete reply) s = .next (
        let u := pollOutcome p (judgeReply y t.link.round reply) freed
        if u.link.running = true ∧ u.link.phase = .poll ∧ u.link.nextPos = none then pollComplete u else u))
    ∧ ((t.link.phase ≠ .poll ∨ t.link.nextPos ≠ none) → judgeReply y t.link.round reply = .good reply →
      (∀ p, y.owner = .poll p → exec (.replyComplete reply) s = .next (pollOutcome p (.good reply) freed))
      ∧ (∀ p, y.owner = .reset p → (t.tower p).state = .resetting → (t.tower p).stage = .requested →
        exec (.replyComplete reply) s = .next (freed.modTower p fun w =>
          { w with stage := .acknowledged, resetPending := false }))
      ∧ (∀ n r h l, y.owner = .service n → t.svc.slot n = some r → r.state = .sent → reply[2]? = some 0 →
        reply[3]? = some h → reply[4]? = some l →
        exec (.replyComplete reply) s = .next (raise .serviceDone { freed with
          svc := t.svc.setSlot n (some { r with state := .done, code := .ok, result := some (wordOf h l) }) }))
      ∧ (∀ n r c h l, y.owner = .service n → t.svc.slot n = some r → r.state = .sent → reply[2]? = some c → c ≠ 0 →
        reply[3]? = some h → reply[4]? = some l →
        exec (.replyComplete reply) s = .next (raise .serviceDone { freed with
          svc := t.svc.setSlot n (some { r with state := .failed, code := .unitRefused, result := some c.toNat }) }))))
  ∧ (∀ s : State, (pollComplete s).link.phase = .service
      ∧ pollComplete s = computation (handOver (rosterCompletes (missingSample
          { s with link := { s.link with phase := .service } })))
      ∧ (s.tracker.awaiting = false → missingSample s = s)
      ∧ (s.tracker.awaiting = true →
          missingSample s = badSample { s with tracker := { s.tracker with awaiting := false } })
      ∧ (∀ p, 1 ≤ p → p ≤ 21 → (rosterCompletes s).tower p =
          if (s.tower p).state = .driving ∧ (s.tower p).fresh = false then { s.tower p with state := .following }
          else s.tower p))

/-- BREAK while rounds run: requested on a free line it is begun at once with 4 character times left and becomes PENDING
otherwise, an exchange on the line is cut short for it, and one sent or pending serves, as, by the model's choice, does one that
waits (log 38); without rounds it is not begun. A cut poll changes no tower (R68), a cut RESET stays pending at its stage (R76), and
of a cut SERVICE exchange a SENT slot is FAILED/ABANDONED without a result value, setting SERVICE_DONE, and a CANCELLING one becomes
FREE (R158, R163). After a cut reply it waits until the line has been idle for 2 character times or the reservation is used up,
whichever comes first; a PENDING one begins on a free line with 4 character times left, and one that is SENDING ends with the round
where it stood (R95 to R98). -/
def Obligations.BreakIsRequestedBegunAndEnded : Prop :=
  ∀ s : State,
    (s.link.running = true → s.link.brk = .none → s.link.exchange = none → requestBreak s =
      { s with link := { s.link with brk := if 4 ≤ s.link.remaining then .sending 0 else .pending } })
    ∧ (∀ x, s.link.running = true → s.link.brk = .none → s.link.exchange = some x →
        let cut (reserve reply : Nat) : Link := { s.link with
          exchange := none
          brk := if x.step = .receiving then .waiting (reserve - x.used) (x.replyAt + reply - x.used + 2)
            else if 4 ≤ s.link.remaining then .sending 0 else .pending }
        (∀ p, x.owner = .poll p → requestBreak s = { s with link := cut 26 10 })
        ∧ (∀ p, x.owner = .reset p → requestBreak s = { s with link := cut 16 4 })
        ∧ (∀ n r, x.owner = .service n → x.discard = false → s.svc.slot n = some r →
          (r.state = .sent → requestBreak s = raise .serviceDone { s with
            link := cut 22 7
            svc := s.svc.setSlot n (some { r with state := .failed, code := .abandoned, result := none }) })
          ∧ (r.state = .cancelling → requestBreak s = { s with link := cut 22 7, svc := s.svc.setSlot n none })))
    ∧ (s.link.running = false → requestBreak s = s)
    ∧ (s.link.brk ≠ .none → requestBreak s = s)
    ∧ (s.link.brk = .pending → s.link.exchange = none → 4 ≤ s.link.remaining →
      exec .breakBegin s = .next { s with link := { s.link with brk := .sending 0 } })
    ∧ (∀ left quiet, s.link.brk = .waiting left quiet →
        let t := timePasses (min left quiet) s
        ((t.link.phase ≠ .poll ∨ t.link.nextPos ≠ none) → t.link.running = true →
          (∀ l q, t.link.brk = .waiting l q → exec .breakBegin s = .next
            { t with link := { t.link with brk := if 4 ≤ t.link.remaining then .sending 0 else .pending } })))
    ∧ (∀ left quiet, s.link.brk = .waiting left quiet → s.link.exchange = none → s.link.running = true →
        (s.link.phase ≠ .poll ∨ s.link.nextPos ≠ none) → exec .replyGapTimeout s = .next
          { s with link := { s.link with brk := if 4 ≤ s.link.remaining then .sending 0 else .pending } })
    ∧ (∀ n, s.link.brk = .sending n →
        let t := timePasses (4 - n) s
        ((t.link.phase ≠ .poll ∨ t.link.nextPos ≠ none) →
          exec .breakEnd s = .next { t with link := { t.link with brk := .none } }))

/-! ### The supervisor -/

/-- ONLINE answers the first check of R130 that fails, and otherwise moves the machine to STANDBY and starts the first round
at once (R80). -/
def Obligations.OnlineChecksAndStartsTheRounds : Prop :=
  ∀ s : State, s.takes 0x50 [] →
    (s.sup.machine ≠ .setup → exec (.online []) s = .next (s.answer 0x50 (.refuse .state)))
    ∧ (s.sup.machine = .setup → s.link.settings.towers = 0 →
        exec (.online []) s = .next (s.answer 0x50 (.notReady (.geometry 0))))
    ∧ (∀ p, s.sup.machine = .setup → s.link.settings.towers ≠ 0 → firstGeometryFailure s = some p →
        exec (.online []) s = .next (s.answer 0x50 (.notReady (.geometry p))))
    ∧ (s.sup.machine = .setup → s.link.settings.towers ≠ 0 → firstGeometryFailure s = none →
        s.link.settings.roundCheck = false →
        exec (.online []) s = .next (s.answer 0x50 (.notReady .roundTooShort)))
    ∧ (s.sup.machine = .setup → s.link.settings.towers ≠ 0 → firstGeometryFailure s = none →
        s.link.settings.roundCheck = true →
      ∃ t, exec (.online []) s = .next t ∧ t.sup.machine = .standby ∧ t.sup.permit = s.sup.permit
        ∧ t.sup.direction = s.sup.direction ∧ t.sup.trip = s.sup.trip
        ∧ t.link.running = true ∧ t.link.round = (s.link.round + 1) % 65536 ∧ t.link.phase = .poll
        ∧ t.link.remaining = s.link.settings.roundMs * s.link.settings.rate.bits / 10000
        ∧ t.link.nextPos = s.link.settings.positions.head?
        ∧ t.link.settings = s.link.settings ∧ t.tracker.awaiting = true ∧ t.tracker.settings = s.tracker.settings
        ∧ t.tracker.lastGood = s.tracker.lastGood ∧ t.tune = s.tune ∧ t.free = s.free
        ∧ (retiringRecord s.plan = none → t.plan = s.plan)
        ∧ (∀ p, (s.tower p).isDriven = false → t.tower p = { s.tower p with
            fresh := if s.isConfigured p then false else (s.tower p).fresh })
        ∧ t.ev.isSet .machineState = true ∧ t.port.response = some (Answer.ok.frame 0x50) ∧ t.port.rdy = true)

/-- OFFLINE from STANDBY or TRIPPED ends the rounds and clears the tracker, the towers, the service table, the trip record
and the snapshot, keeping plan, direction, geometry, round number and settings; elsewhere it is refused STATE (R103, R131). -/
def Obligations.OfflineReturnsToSetup : Prop :=
  ∀ s : State, s.takes 0x51 [] →
    ((s.sup.machine = .standby ∨ s.sup.machine = .tripped) → retiringRecord s.plan = none → ∃ t,
      exec (.offline []) s = .next t ∧ t.sup.machine = .setup ∧ t.sup.direction = s.sup.direction ∧ t.sup.trip = none
        ∧ t.sup.startDelay = s.sup.startDelay ∧ t.sup.reversalDelay = s.sup.reversalDelay
        ∧ t.sup.loopClosed = s.sup.loopClosed
        ∧ t.link.running = false ∧ t.link.round = s.link.round ∧ t.link.settings = s.link.settings
        ∧ t.link.exchange = s.link.exchange.map (fun x => { x with discard := true })
        ∧ t.tracker = Tracker.cleared s.tracker.settings
        ∧ (∀ p, 1 ≤ p → p ≤ 21 → t.tower p =
            Tower.cleared (s.tower p).geometry (if s.isConfigured p then .silent else .vacant))
        ∧ t.svc = Service.empty ∧ t.port.snapshot = Snapshot.reset s.port.snapshot.round ∧ t.plan = s.plan
        ∧ t.tune = s.tune ∧ t.free = s.free ∧ t.ev.isSet .machineState = true
        ∧ t.port.response = some (Answer.ok.frame 0x51))
    ∧ (s.sup.machine ≠ .standby → s.sup.machine ≠ .tripped →
        exec (.offline []) s = .next (s.answer 0x51 (.refuse .state)))

/-- START accepted outside a BARRIER: the machine enters STARTING with the permit high, faces the direction given, starts its
timer and drives every ONLINE tower; with a start delay of 0 it is RUNNING at once (R132, R133). A direction other than the one
held refreshes the view to face the new way, and with the one held the tracker's view stays (R37). START answers the first check
of R132 that fails, and inside a BARRIER leaves it only toward its strictly nearer boundary with no BARRIER beyond, setting
escape (R48). -/
def Obligations.StartChecksAndDrivesTheTowers : Prop :=
  (∀ (payload : List Byte) (d : Direction) (angle : Nat) (r : Sector) (s : State), s.takes 0x52 payload →
    decodeStart payload = some d → s.sup.machine = .standby → s.sup.loopClosed = true → s.tracker.lastGood = some angle →
    (∀ p ∈ s.link.settings.positions, (s.tower p).state = .online) → covering s.plan angle = some r →
    r.kind ≠ .barrier →
      ∃ t, exec (.start payload) s = .next t ∧ t.sup.permit = true ∧ t.sup.direction = d
        ∧ t.sup.machine = (if s.sup.startDelay = 0 then .running else .starting)
        ∧ (s.sup.startDelay ≠ 0 → t.sup.startTimer = some (10 * s.sup.startDelay))
        ∧ (∀ p, (s.tower p).state = .online → t.tower p = { s.tower p with state := .driving, follow := 0, stall := 0 })
        ∧ (∀ p, (s.tower p).state ≠ .online → t.tower p = s.tower p)
        ∧ t.tracker.escape = s.tracker.escape ∧ t.tracker.lastGood = s.tracker.lastGood
        ∧ t.tracker.settings = s.tracker.settings ∧ t.plan = s.plan ∧ t.link = s.link ∧ t.tune = s.tune ∧ t.svc = s.svc
        ∧ t.free = s.free ∧ t.port.response = some (Answer.ok.frame 0x52) ∧ t.ev.isSet .machineState = true
        ∧ (d = s.sup.direction → t.tracker = s.tracker ∧ t.ev = s.ev.raise .machineState)
        ∧ (∀ n, d ≠ s.sup.direction → nextRecord s.plan d r.start = some n →
            let turned := (s.facing d).refreshedTo angle r n
            t.tracker = turned.tracker ∧ t.ev = turned.ev.raise .machineState))
  ∧ (∀ (payload : List Byte) (d : Direction) (s : State), s.takes 0x52 payload → decodeStart payload = some d →
    (s.sup.machine ≠ .standby → exec (.start payload) s = .next (s.answer 0x52 (.refuse .state)))
    ∧ (s.sup.machine = .standby → s.sup.loopClosed = false →
        exec (.start payload) s = .next (s.answer 0x52 (.notReady .loopOpen)))
    ∧ (s.sup.machine = .standby → s.sup.loopClosed = true → s.plan = [] →
        exec (.start payload) s = .next (s.answer 0x52 (.notReady .noPlan)))
    ∧ (s.sup.machine = .standby → s.sup.loopClosed = true → s.plan ≠ [] → s.tracker.lastGood = none →
        exec (.start payload) s = .next (s.answer 0x52 (.notReady .noAngle)))
    ∧ (∀ a p, s.sup.machine = .standby → s.sup.loopClosed = true → s.plan ≠ [] → s.tracker.lastGood = some a →
        firstNotOnline s = some p → exec (.start payload) s = .next (s.answer 0x52 (.notReady (.tower p))))
    ∧ (∀ a r, s.sup.machine = .standby → s.sup.loopClosed = true → s.tracker.lastGood = some a →
        firstNotOnline s = none → covering s.plan a = some r → r.kind = .barrier →
        escapeAllowed s.plan r a d = false →
        exec (.start payload) s = .next (s.answer 0x52 (.notReady .insideBarrier)))
    ∧ (∀ a r, s.sup.machine = .standby → s.sup.loopClosed = true → s.tracker.lastGood = some a →
        firstNotOnline s = none → covering s.plan a = some r → r.kind = .barrier →
        escapeAllowed s.plan r a d = true → ∃ t, exec (.start payload) s = .next t
          ∧ t.tracker.escape = some r.start ∧ t.sup.permit = true ∧ t.sup.direction = d
          ∧ t.sup.machine = (if s.sup.startDelay = 0 then .running else .starting)
          ∧ (∀ p, (s.tower p).state = .online → t.tower p = { s.tower p with state := .driving, follow := 0, stall := 0 })
          ∧ t.plan = s.plan ∧ t.link = s.link ∧ t.tune = s.tune ∧ t.svc = s.svc ∧ t.free = s.free
          ∧ t.port.response = some (Answer.ok.frame 0x52)
          ∧ (d = s.sup.direction → t.tracker = { s.tracker with escape := some r.start }
              ∧ t.ev = s.ev.raise .machineState)
          ∧ (∀ n, d ≠ s.sup.direction → nextRecord s.plan d r.start = some n →
              let turned := (s.facing d).refreshedTo a r n
              t.tracker = { turned.tracker with escape := some r.start } ∧ t.ev = turned.ev.raise .machineState)))

/-- STOP acts by machine state as R134's table says: refused in SETUP and TRIPPED, no change in STANDBY and STOPPING, to
STANDBY from STARTING, to STOPPING from RUNNING, HOLDING, REVERSING and JOGGING. -/
def Obligations.StopActsByMachineState : Prop :=
  ∀ s : State,
    (∀ p, p ≠ [] → s.executes 0x53 p → exec (.stop p) s = .next (s.answer 0x53 (.refuse .badValue)))
    ∧ (s.executes 0x53 [] →
    ((s.sup.machine = .setup ∨ s.sup.machine = .tripped) →
      exec (.stop []) s = .next (s.answer 0x53 (.refuse .state)))
    ∧ ((s.sup.machine = .standby ∨ s.sup.machine = .stopping) → exec (.stop []) s = .next (s.answer 0x53 .ok))
    ∧ (s.sup.machine = .starting → ∃ t, exec (.stop []) s = .next t ∧ t.sup.machine = .standby ∧ t.sup.permit = false
        ∧ t.sup.startTimer = none ∧ t.sup.direction = s.sup.direction
        ∧ (∀ p, t.tower p = if (s.tower p).isDriven then (s.tower p).leaveTo .online else s.tower p)
        ∧ (retiringRecord s.plan = none → t.plan = s.plan) ∧ t.tracker.lastGood = s.tracker.lastGood
        ∧ t.tracker.settings = s.tracker.settings ∧ t.tracker.escape = none ∧ t.tracker.served = none
        ∧ t.link = s.link ∧ t.tune = s.tune ∧ t.svc = s.svc ∧ t.free = s.free
        ∧ t.port.response = some (Answer.ok.frame 0x53))
    ∧ ((s.sup.machine = .running ∨ s.sup.machine = .holding ∨ s.sup.machine = .reversing ∨ s.sup.machine = .jogging) →
        ∃ t, exec (.stop []) s = .next t ∧ t.sup.machine = .stopping ∧ t.sup.permit = s.sup.permit
        ∧ (s.sup.machine = .holding → t.sup.hold = .cleared) ∧ (s.sup.machine = .reversing → t.sup.reversal = .none)
        ∧ t.sup.jog = s.sup.jog ∧ t.sup.direction = s.sup.direction ∧ t.roster = s.roster ∧ t.plan = s.plan
        ∧ t.tracker = s.tracker ∧ t.link = s.link ∧ t.tune = s.tune ∧ t.svc = s.svc ∧ t.free = s.free
        ∧ t.ev = s.ev.raise .machineState ∧ t.port.response = some (Answer.ok.frame 0x53)))

/-- PAUSE in RUNNING moves the machine to a manual hold, in HOLDING makes the hold under way manual, and is refused STATE in
every other machine state; CONTINUE in HOLDING returns the machine to RUNNING with the dwell timer stopped and the held
record none, and is refused STATE elsewhere; neither touches the tracker (R139, R140). REVERSE in RUNNING or HOLDING with escape
clear enters REVERSING awaiting rest, ending a hold and keeping the direction; elsewhere, or while escaping, it is refused
STATE (R141). -/
def Obligations.PauseContinueAndReverse : Prop :=
  (∀ s : State,
    (s.executes 0x54 [] → s.sup.machine = .running → exec (.pause []) s = .next
      ((raise .machineState { s with sup := { s.sup with
        machine := .holding, hold := { held := none, dwell := .stopped } } }).answer 0x54 .ok))
    ∧ (s.executes 0x54 [] → s.sup.machine = .holding → exec (.pause []) s = .next
      (State.answer { s with sup := { s.sup with hold := { held := none, dwell := .stopped } } } 0x54 .ok))
    ∧ (s.executes 0x54 [] → s.sup.machine ≠ .running → s.sup.machine ≠ .holding →
        exec (.pause []) s = .next (s.answer 0x54 (.refuse .state)))
    ∧ (s.executes 0x55 [] → s.sup.machine = .holding → exec (.continueRun []) s = .next
      ((raise .machineState { s with sup := { s.sup with
        machine := .running, hold := { held := none, dwell := .stopped } } }).answer 0x55 .ok))
    ∧ (s.executes 0x55 [] → s.sup.machine ≠ .holding →
        exec (.continueRun []) s = .next (s.answer 0x55 (.refuse .state))))
  ∧ (∀ s : State, s.takes 0x56 [] →
    ((s.sup.machine = .running ∨ s.sup.machine = .holding) → s.tracker.escape = none →
      exec (.reverse []) s = .next
        ((raise .machineState { s with sup := { s.sup with
          machine := .reversing, reversal := .awaitingRest
          hold := if s.sup.machine = .holding then { held := none, dwell := .stopped } else s.sup.hold } }).answer
          0x56 .ok))
    ∧ (¬((s.sup.machine = .running ∨ s.sup.machine = .holding) ∧ s.tracker.escape = none) →
        exec (.reverse []) s = .next (s.answer 0x56 (.refuse .state))))

/-- JOG with a speed above 300 is refused BAD_VALUE. JOG accepted sets the jog context, raises the permit and drives one tower;
the round that takes its last round left moves the machine to STOPPING with the context kept (R143, R144). -/
def Obligations.JogDrivesOneTowerForItsRounds : Prop :=
  (∀ (payload : List Byte) (j : Jog) (s : State), s.takes 0x57 payload → decodeJog payload = some j →
    s.isConfigured j.position = true → 1 ≤ j.position → j.position ≤ 21 →
    1 ≤ j.speed.val → 1 ≤ j.roundsLeft → j.roundsLeft ≤ 120 →
    s.sup.machine = .standby → s.sup.loopClosed = true → (s.tower j.position).state = .online →
      ∃ t, exec (.jog payload) s = .next t ∧ t.sup = { s.sup with machine := .jogging, permit := true, jog := some j }
        ∧ t.tower j.position = { s.tower j.position with state := .driving, follow := 0, stall := 0 }
        ∧ (∀ q, q ≠ j.position → t.tower q = s.tower q) ∧ t.tracker = s.tracker ∧ t.plan = s.plan ∧ t.link = s.link
        ∧ t.tune = s.tune ∧ t.svc = s.svc ∧ t.free = s.free ∧ t.ev = s.ev.raise .machineState
        ∧ t.port.response = some (Answer.ok.frame 0x57))
  ∧ (∀ (j : Jog) (s : State), s.sup.machine = .jogging → s.sup.jog = some j → j.roundsLeft ≤ 1 →
      exec .jogRoundsExpired s = .next (raise .machineState
        { s with sup := { s.sup with machine := .stopping, jog := some { j with roundsLeft := j.roundsLeft - 1 } } }))
  ∧ (∀ (p d v1 v0 n m : Byte) (s : State), s.takes 0x57 [p, d, v1, v0, n, m] → 300 < wordOf v1 v0 →
      exec (.jog [p, d, v1, v0, n, m]) s = .next (s.answer 0x57 (.refuse .badValue)))

/-- ESTOP is answered OK in every machine state: a moving machine trips with PANEL_STOP, a tripped one adds the cause, in
STANDBY the supervisor asks for BREAK, and in SETUP nothing happens (R148). CLEAR_TRIP in TRIPPED empties the trip record and
moves the machine to STANDBY, clearing the hold-served mark and touching no FAULTED tower; elsewhere it is refused STATE
(R149). -/
def Obligations.EstopAndClearTrip : Prop :=
  (∀ s : State, s.takes 0x58 [] →
    (s.sup.machine = .setup → exec (.estop []) s = .next (s.answer 0x58 .ok))
    ∧ (s.sup.machine = .standby → exec (.estop []) s = .next ((requestBreak s).answer 0x58 .ok))
    ∧ (s.sup.machine = .tripped → exec (.estop []) s = .next
        (State.answer { s with sup := { s.sup with trip := s.sup.trip.map fun r => { r with further := r.further ||| 0x100 } } }
          0x58 .ok))
    ∧ (s.inMotion = true → s.TowersLawful → s.sup.Lawful → ∃ t, exec (.estop []) s = .next t
        ∧ t.TrippedBy s .panelStop none ∧ t.port.response = some (Answer.ok.frame 0x58)))
  ∧ (∀ s : State, s.takes 0x59 [] →
    (s.sup.machine = .tripped → ∃ t, exec (.clearTrip []) s = .next t ∧ t.sup.machine = .standby ∧ t.sup.trip = none
      ∧ t.sup.permit = s.sup.permit ∧ t.tracker.served = none
      ∧ (∀ p, p ≤ 21 → (s.tower p).isDriven = false → t.tower p = s.tower p)
      ∧ (retiringRecord s.plan = none → t.plan = s.plan) ∧ t.tracker.lastGood = s.tracker.lastGood
      ∧ t.tracker.settings = s.tracker.settings ∧ t.sup.direction = s.sup.direction ∧ t.tune = s.tune ∧ t.svc = s.svc
      ∧ t.free = s.free ∧ t.link = s.link ∧ t.ev.isSet .machineState = true ∧ t.port.response = some (Answer.ok.frame 0x59))
    ∧ (s.sup.machine ≠ .tripped → exec (.clearTrip []) s = .next (s.answer 0x59 (.refuse .state))))

/-- The safety loop: a closing changes the loop state alone, an opening does so in a standing machine and trips a moving one
with SAFETY_LOOP (R145). -/
def Obligations.OpeningLoopTripsAMovingMachine : Prop :=
  ∀ s : State,
    (s.sup.loopClosed = false → exec (.safetyLoopChange true) s =
      .next { s with sup := { s.sup with loopClosed := true } })
    ∧ (s.sup.loopClosed = true → s.inMotion = false → exec (.safetyLoopChange false) s =
      .next { s with sup := { s.sup with loopClosed := false } })
    ∧ (s.sup.loopClosed = true → s.inMotion = true → s.TowersLawful → s.sup.Lawful →
      ∃ t, exec (.safetyLoopChange false) s = .next t ∧ t.TrippedBy s .safetyLoop none ∧ t.sup.loopClosed = false)

/-- The start timer's expiry takes STARTING to RUNNING, the dwell timer's takes an AUTO hold to RUNNING and leaves a MANUAL
one expired, and the reversal timer's flips the direction and takes REVERSING to RUNNING (R133, R137, R142). With the direction the
view is refreshed from the last good angle, so that the next record, the distance and the paces face the new way; no arrival check
is made, and the hold-served mark and escape stay (R37). -/
def Obligations.TimerExpiriesMoveTheMachine : Prop :=
  ∀ s : State,
    (∀ n, s.sup.machine = .starting → s.sup.startTimer = some n → exec .startTimerExpiry s = .next
      (raise .machineState { s with sup := { s.sup with machine := .running, startTimer := none } }))
    ∧ (∀ n key r, s.sup.machine = .holding → s.sup.hold = { held := some key, dwell := .running n } →
        findRecord s.plan key = some r → r.resume = some .auto → exec .dwellTimerExpiry s = .next
        (raise .machineState { s with sup := { s.sup with
          machine := .running, hold := { held := none, dwell := .stopped } } }))
    ∧ (∀ n key r, s.sup.machine = .holding → s.sup.hold = { held := some key, dwell := .running n } →
        findRecord s.plan key = some r → r.resume = some .manual → exec .dwellTimerExpiry s = .next
        { s with sup := { s.sup with hold := { held := some key, dwell := .expired } } })
    ∧ (∀ n, s.sup.machine = .reversing → s.sup.reversal = .delay n → ∃ t, exec .reversalTimerExpiry s = .next t
        ∧ t.sup = { s.sup with machine := .running, reversal := .none, direction := s.sup.direction.flip }
        ∧ t.roster = s.roster ∧ t.plan = s.plan ∧ t.link = s.link ∧ t.tracker.lastGood = s.tracker.lastGood
        ∧ t.tracker.settings = s.tracker.settings ∧ t.tune = s.tune ∧ t.svc = s.svc ∧ t.port = s.port ∧ t.free = s.free)
    ∧ (∀ n, s.sup.machine = .reversing → s.sup.reversal = .delay n →
        let d := s.sup.direction.flip
        let running (u : State) : State := raise .machineState { u with sup := { s.sup with
          machine := .running, reversal := .none, direction := d } }
        (∀ a r m, s.tracker.lastGood = some a → covering s.plan a = some r → nextRecord s.plan d r.start = some m →
          exec .reversalTimerExpiry s = .next (running ((s.facing d).refreshedTo a r m)))
        ∧ (s.tracker.lastGood = none ∨ s.plan = [] → exec .reversalTimerExpiry s = .next
          (running { s with tracker := { s.tracker with view := none } })))

/-! ### The service table -/

/-- SVC_SUBMIT outside SETUP for a configured position fills the lowest-numbered FREE slot with the submitted fields and the
next submission number, and is refused FULL without one (R154, R155). SVC_RESULT reports a slot and frees it if it is DONE or
FAILED; SVC_CANCEL frees a QUEUED slot, marks a SENT one CANCELLING, and is refused STATE for one that has ended (R160,
R161). -/
def Obligations.SlotsAreFilledCollectedAndCancelled : Prop :=
  (∀ (payload : List Byte) (c : Submission) (s : State), s.takes 0x60 payload → decodeSubmit payload = some c →
    1 ≤ c.position → c.position ≤ 21 → s.sup.machine ≠ .setup → s.isConfigured c.position = true →
    (∀ n, 1 ≤ n → n ≤ 8 → s.svc.slot n = none → (∀ m, 1 ≤ m → m < n → s.svc.slot m ≠ none) →
      ∃ t, exec (.svcSubmit payload) s = .next t
        ∧ t.svc.slot n = some
            { state := .queued, position := c.position, operation := c.operation, index := c.index, value := c.value
              submission := (s.svc.counter + 1) % 65536, age := 0, code := .none, result := none }
        ∧ (∀ m, m ≠ n → t.svc.slot m = s.svc.slot m) ∧ t.svc.order = s.svc.order ++ [n]
        ∧ t.svc.counter = (s.svc.counter + 1) % 65536
        ∧ t.port.response = some ((Answer.okWith ([byte n] ++ word ((s.svc.counter + 1) % 65536))).frame 0x60)
        ∧ t.plan = s.plan ∧ t.tracker = s.tracker ∧ t.roster = s.roster ∧ t.link = s.link ∧ t.sup = s.sup ∧ t.ev = s.ev)
    ∧ ((∀ m, 1 ≤ m → m ≤ 8 → s.svc.slot m ≠ none) →
      exec (.svcSubmit payload) s = .next (s.answer 0x60 (.refuse .full))))
  ∧ (∀ (b : Byte) (s : State),
    (s.takes 0x61 [b] → (b.toNat < 1 ∨ 8 < b.toNat) →
        exec (.svcResult [b]) s = .next (s.answer 0x61 (.refuse .badValue)))
    ∧ (s.takes 0x61 [b] → 1 ≤ b.toNat → b.toNat ≤ 8 → s.svc.slot b.toNat = none →
        exec (.svcResult [b]) s = .next (s.answer 0x61 (.refuse .notFound)))
    ∧ (∀ r, s.takes 0x61 [b] → s.svc.slot b.toNat = some r → exec (.svcResult [b]) s = .next
        ((if r.state = .done ∨ r.state = .failed then { s with svc := s.svc.setSlot b.toNat none } else s).answer 0x61
          (.okWith (r.encode b.toNat))))
    ∧ (∀ r, s.takes 0x62 [b] → s.svc.slot b.toNat = some r → r.state = .queued → exec (.svcCancel [b]) s = .next
        (State.answer { s with svc := { s.svc.setSlot b.toNat none with order := s.svc.order.filter (· != b.toNat) } } 0x62 .ok))
    ∧ (∀ r, s.takes 0x62 [b] → s.svc.slot b.toNat = some r → r.state = .sent → exec (.svcCancel [b]) s = .next
        (State.answer { s with svc := s.svc.setSlot b.toNat (some { r with state := .cancelling }) } 0x62 .deferred))
    ∧ (∀ r, s.takes 0x62 [b] → s.svc.slot b.toNat = some r → r.state = .cancelling →
        exec (.svcCancel [b]) s = .next (s.answer 0x62 .deferred))
    ∧ (∀ r, s.takes 0x62 [b] → s.svc.slot b.toNat = some r → r.state = .done ∨ r.state = .failed →
        exec (.svcCancel [b]) s = .next (s.answer 0x62 (.refuse .state))))

/-- The ageing that makes a QUEUED request too old fails it UNREACHABLE, takes it out of the submission order and sets
SERVICE_DONE; every other slot stays (R159). -/
def Obligations.TooOldRequestFailsUnreachable : Prop :=
  ∀ (n : Nat) (r : Request) (s : State), s.svc.slot n = some r → r.state = .queued →
    s.link.settings.ageLimit < r.age + 1 → ∃ t, exec (.unreachable n) s = .next t
      ∧ t.svc.slot n = some { r with age := r.age + 1, state := .failed, code := .unreachable, result := none }
      ∧ (∀ m, m ≠ n → t.svc.slot m = s.svc.slot m) ∧ t.svc.order = s.svc.order.filter (· != n)
      ∧ t.svc.counter = s.svc.counter ∧ t.ev = s.ev.raise .serviceDone ∧ t.plan = s.plan ∧ t.roster = s.roster
      ∧ t.sup = s.sup ∧ t.link = s.link ∧ t.tracker = s.tracker ∧ t.port = s.port ∧ t.tune = s.tune ∧ t.free = s.free

/-! ### Events -/

/-- EVT_ENABLE and EVT_DISABLE change only the enables they name and touch no flag; an enabling that brings the pending count
up from zero gives a pulse, and a disabling gives none (R178, R179). -/
def Obligations.EnablesChangeOnlyWhatIsNamed : Prop :=
  ∀ (payload : List Byte) (set : BitVec 11) (master : Bool) (s : State), decodeEvtSet payload = some (set, master) →
    (s.takes 0x72 payload → ∃ t, exec (.evtEnable payload) s = .next t ∧ t.ev.flags = s.ev.flags
      ∧ t.ev.enables = s.ev.enables ||| set ∧ t.ev.master = (s.ev.master || master)
      ∧ ((s.ev.anyPending = true ∨ t.ev.anyPending = false) → t.ev.phase = s.ev.phase ∧ t.ev.owed = s.ev.owed)
      ∧ ((s.ev.anyPending = false ∧ t.ev.anyPending = true) → t.ev.phase = s.ev.pulse.phase ∧ t.ev.owed = s.ev.pulse.owed)
      ∧ t = State.answer { s with ev := t.ev } 0x72 (.okWith t.ev.encode))
    ∧ (s.takes 0x73 payload →
        let off : Events := { s.ev with enables := s.ev.enables &&& ~~~set, master := s.ev.master && !master }
        exec (.evtDisable payload) s = .next (State.answer { s with ev := off } 0x73 (.okWith off.encode)))

/-- EVT_ACK clears the flags it names and no other, and gives a pulse whenever anything is still pending (R181). The ATTN
pulse: its high time ends in the gap, and the gap ends with the owed pulse if something is pending and with the line LOW
otherwise (R180). A raise sets its flag and no other, whatever the enables, and touches no enable (R177); where it brings the pending
count, of the flags set, enabled and with the master enable on, up from zero it gives a pulse, which begins at once in phase LOW and
is owed in HIGH and GAP, and otherwise it gives none (R179, R180). -/
def Obligations.AcknowledgeAndPulses : Prop :=
  (∀ (payload : List Byte) (set : BitVec 11) (s : State), s.takes 0x71 payload → decodeEvtAck payload = some set →
    let cleared : Events := { s.ev with flags := s.ev.flags &&& ~~~set }
    (cleared.anyPending = false → exec (.evtAck payload) s = .next
      (State.answer { s with ev := cleared } 0x71 (.okWith cleared.encode)))
    ∧ (cleared.anyPending = true → s.ev.phase = .low → exec (.evtAck payload) s = .next
      (State.answer { s with ev := { cleared with phase := .high } } 0x71 (.okWith cleared.encode)))
    ∧ (cleared.anyPending = true → s.ev.phase ≠ .low → exec (.evtAck payload) s = .next
      (State.answer { s with ev := { cleared with owed := true } } 0x71 (.okWith cleared.encode))))
  ∧ (∀ s : State,
    (s.ev.phase = .high → exec .attnHighEnd s = .next { s with ev := { s.ev with phase := .gap } })
    ∧ (s.ev.phase = .gap → s.ev.owed = true → s.ev.anyPending = true →
        exec .attnGapEnd s = .next { s with ev := { s.ev with phase := .high, owed := false } })
    ∧ (s.ev.phase = .gap → s.ev.owed = false ∨ s.ev.anyPending = false →
        exec .attnGapEnd s = .next { s with ev := { s.ev with phase := .low, owed := false } }))
  ∧ (∀ (f : EventFlag) (s : State),
    let e := s.ev
    let set : Events := { e with flags := e.flags ||| f.bit }
    raise f s = { s with ev := e.raise f }
    ∧ (∀ g, (e.raise f).isSet g = (e.isSet g || f == g))
    ∧ (e.pendingCount = 0 → 1 ≤ set.pendingCount → e.phase = .low → e.raise f = { set with phase := .high })
    ∧ (e.pendingCount = 0 → 1 ≤ set.pendingCount → e.phase ≠ .low → e.raise f = { set with owed := true })
    ∧ (1 ≤ e.pendingCount ∨ set.pendingCount = 0 → e.raise f = set)
    ∧ (e.anyPending = true ↔ 1 ≤ e.pendingCount)
    ∧ e.pendingCount = ((List.range 11).filter fun i => e.master && (e.flags.getLsbD i && e.enables.getLsbD i)).length)
end

