-- ==== Sys2Proof/Laws/State.lean ====
section
/-! SUPPORT. One lemma per field per update of the basic operations, each by rfl or by the operation's one case split, and
the laws of reading a tower record, a slot and an event flag after a write. -/

namespace Sys2Proof.Machine

/-! ### Fields -/

@[simp] theorem raise_plan (e : EventFlag) (s : State) : (raise e s).plan = s.plan := rfl
@[simp] theorem raise_tracker (e : EventFlag) (s : State) : (raise e s).tracker = s.tracker := rfl
@[simp] theorem raise_roster (e : EventFlag) (s : State) : (raise e s).roster = s.roster := rfl
@[simp] theorem raise_link (e : EventFlag) (s : State) : (raise e s).link = s.link := rfl
@[simp] theorem raise_tune (e : EventFlag) (s : State) : (raise e s).tune = s.tune := rfl
@[simp] theorem raise_sup (e : EventFlag) (s : State) : (raise e s).sup = s.sup := rfl
@[simp] theorem raise_svc (e : EventFlag) (s : State) : (raise e s).svc = s.svc := rfl
@[simp] theorem raise_port (e : EventFlag) (s : State) : (raise e s).port = s.port := rfl
@[simp] theorem raise_free (e : EventFlag) (s : State) : (raise e s).free = s.free := rfl
@[simp] theorem raise_pending (e : EventFlag) (s : State) : (raise e s).pending = s.pending := rfl

@[simp] theorem raise_ev (e : EventFlag) (s : State) : (raise e s).ev = s.ev.raise e := rfl

@[simp] theorem respond_plan (b : List Byte) (s : State) : (s.respond b).plan = s.plan := rfl
@[simp] theorem respond_tracker (b : List Byte) (s : State) : (s.respond b).tracker = s.tracker := rfl
@[simp] theorem respond_roster (b : List Byte) (s : State) : (s.respond b).roster = s.roster := rfl
@[simp] theorem respond_link (b : List Byte) (s : State) : (s.respond b).link = s.link := rfl
@[simp] theorem respond_tune (b : List Byte) (s : State) : (s.respond b).tune = s.tune := rfl
@[simp] theorem respond_sup (b : List Byte) (s : State) : (s.respond b).sup = s.sup := rfl
@[simp] theorem respond_svc (b : List Byte) (s : State) : (s.respond b).svc = s.svc := rfl
@[simp] theorem respond_ev (b : List Byte) (s : State) : (s.respond b).ev = s.ev := rfl
@[simp] theorem respond_free (b : List Byte) (s : State) : (s.respond b).free = s.free := rfl
@[simp] theorem respond_pending (b : List Byte) (s : State) : (s.respond b).pending = s.pending := rfl

@[simp] theorem respond_command (b : List Byte) (s : State) : (s.respond b).port.command = none := rfl
@[simp] theorem respond_response (b : List Byte) (s : State) : (s.respond b).port.response = some b := rfl
@[simp] theorem respond_rdy (b : List Byte) (s : State) : (s.respond b).port.rdy = true := rfl
@[simp] theorem respond_transaction (b : List Byte) (s : State) :
    (s.respond b).port.transaction = s.port.transaction := rfl
@[simp] theorem respond_snapshot (b : List Byte) (s : State) : (s.respond b).port.snapshot = s.port.snapshot := rfl
@[simp] theorem respond_dropped (b : List Byte) (s : State) : (s.respond b).port.dropped = false := rfl
@[simp] theorem respond_mask (b : List Byte) (s : State) : (s.respond b).port.mask = s.port.mask := rfl

/-- What the taking out of an answer does not touch is unchanged, and an answer that follows it replaces it whole. -/
@[simp] theorem fetch_respond (b : List Byte) (s : State) : s.fetch.respond b = s.respond b := rfl

@[simp] theorem mapTowers_plan (g : Nat → Tower → Tower) (s : State) : (s.mapTowers g).plan = s.plan := rfl
@[simp] theorem mapTowers_tracker (g : Nat → Tower → Tower) (s : State) : (s.mapTowers g).tracker = s.tracker := rfl
@[simp] theorem mapTowers_link (g : Nat → Tower → Tower) (s : State) : (s.mapTowers g).link = s.link := rfl
@[simp] theorem mapTowers_tune (g : Nat → Tower → Tower) (s : State) : (s.mapTowers g).tune = s.tune := rfl
@[simp] theorem mapTowers_sup (g : Nat → Tower → Tower) (s : State) : (s.mapTowers g).sup = s.sup := rfl
@[simp] theorem mapTowers_svc (g : Nat → Tower → Tower) (s : State) : (s.mapTowers g).svc = s.svc := rfl
@[simp] theorem mapTowers_port (g : Nat → Tower → Tower) (s : State) : (s.mapTowers g).port = s.port := rfl
@[simp] theorem mapTowers_ev (g : Nat → Tower → Tower) (s : State) : (s.mapTowers g).ev = s.ev := rfl
@[simp] theorem mapTowers_free (g : Nat → Tower → Tower) (s : State) : (s.mapTowers g).free = s.free := rfl
@[simp] theorem mapTowers_pending (g : Nat → Tower → Tower) (s : State) : (s.mapTowers g).pending = s.pending := rfl

@[simp] theorem setTower_plan (p : Nat) (t : Tower) (s : State) : (s.setTower p t).plan = s.plan := by
  unfold State.setTower; split <;> rfl
@[simp] theorem setTower_tracker (p : Nat) (t : Tower) (s : State) : (s.setTower p t).tracker = s.tracker := by
  unfold State.setTower; split <;> rfl
@[simp] theorem setTower_link (p : Nat) (t : Tower) (s : State) : (s.setTower p t).link = s.link := by
  unfold State.setTower; split <;> rfl
@[simp] theorem setTower_tune (p : Nat) (t : Tower) (s : State) : (s.setTower p t).tune = s.tune := by
  unfold State.setTower; split <;> rfl
@[simp] theorem setTower_sup (p : Nat) (t : Tower) (s : State) : (s.setTower p t).sup = s.sup := by
  unfold State.setTower; split <;> rfl
@[simp] theorem setTower_svc (p : Nat) (t : Tower) (s : State) : (s.setTower p t).svc = s.svc := by
  unfold State.setTower; split <;> rfl
@[simp] theorem setTower_port (p : Nat) (t : Tower) (s : State) : (s.setTower p t).port = s.port := by
  unfold State.setTower; split <;> rfl
@[simp] theorem setTower_ev (p : Nat) (t : Tower) (s : State) : (s.setTower p t).ev = s.ev := by
  unfold State.setTower; split <;> rfl
@[simp] theorem setTower_free (p : Nat) (t : Tower) (s : State) : (s.setTower p t).free = s.free := by
  unfold State.setTower; split <;> rfl
@[simp] theorem setTower_pending (p : Nat) (t : Tower) (s : State) : (s.setTower p t).pending = s.pending := by
  unfold State.setTower; split <;> rfl

@[simp] theorem modTower_plan (p : Nat) (g : Tower → Tower) (s : State) : (s.modTower p g).plan = s.plan := by
  simp [State.modTower]
@[simp] theorem modTower_tracker (p : Nat) (g : Tower → Tower) (s : State) : (s.modTower p g).tracker = s.tracker := by
  simp [State.modTower]
@[simp] theorem modTower_link (p : Nat) (g : Tower → Tower) (s : State) : (s.modTower p g).link = s.link := by
  simp [State.modTower]
@[simp] theorem modTower_tune (p : Nat) (g : Tower → Tower) (s : State) : (s.modTower p g).tune = s.tune := by
  simp [State.modTower]
@[simp] theorem modTower_sup (p : Nat) (g : Tower → Tower) (s : State) : (s.modTower p g).sup = s.sup := by
  simp [State.modTower]
@[simp] theorem modTower_svc (p : Nat) (g : Tower → Tower) (s : State) : (s.modTower p g).svc = s.svc := by
  simp [State.modTower]
@[simp] theorem modTower_port (p : Nat) (g : Tower → Tower) (s : State) : (s.modTower p g).port = s.port := by
  simp [State.modTower]
@[simp] theorem modTower_ev (p : Nat) (g : Tower → Tower) (s : State) : (s.modTower p g).ev = s.ev := by
  simp [State.modTower]
@[simp] theorem modTower_free (p : Nat) (g : Tower → Tower) (s : State) : (s.modTower p g).free = s.free := by
  simp [State.modTower]
@[simp] theorem modTower_pending (p : Nat) (g : Tower → Tower) (s : State) : (s.modTower p g).pending = s.pending := by
  simp [State.modTower]

@[simp] theorem setChange_plan (p : Nat) (c : ChangeFlag) (s : State) : (setChange p c s).plan = s.plan := by
  unfold setChange; split <;> simp
@[simp] theorem setChange_tracker (p : Nat) (c : ChangeFlag) (s : State) : (setChange p c s).tracker = s.tracker := by
  unfold setChange; split <;> simp
@[simp] theorem setChange_link (p : Nat) (c : ChangeFlag) (s : State) : (setChange p c s).link = s.link := by
  unfold setChange; split <;> simp
@[simp] theorem setChange_tune (p : Nat) (c : ChangeFlag) (s : State) : (setChange p c s).tune = s.tune := by
  unfold setChange; split <;> simp
@[simp] theorem setChange_sup (p : Nat) (c : ChangeFlag) (s : State) : (setChange p c s).sup = s.sup := by
  unfold setChange; split <;> simp
@[simp] theorem setChange_svc (p : Nat) (c : ChangeFlag) (s : State) : (setChange p c s).svc = s.svc := by
  unfold setChange; split <;> simp
@[simp] theorem setChange_port (p : Nat) (c : ChangeFlag) (s : State) : (setChange p c s).port = s.port := by
  unfold setChange; split <;> simp
@[simp] theorem setChange_free (p : Nat) (c : ChangeFlag) (s : State) : (setChange p c s).free = s.free := by
  unfold setChange; split <;> simp
@[simp] theorem setChange_pending (p : Nat) (c : ChangeFlag) (s : State) : (setChange p c s).pending = s.pending := by
  unfold setChange; split <;> simp

@[simp] theorem removeRecord_roster (k : Nat) (s : State) : (removeRecord k s).roster = s.roster := rfl
@[simp] theorem removeRecord_link (k : Nat) (s : State) : (removeRecord k s).link = s.link := rfl
@[simp] theorem removeRecord_tune (k : Nat) (s : State) : (removeRecord k s).tune = s.tune := rfl
@[simp] theorem removeRecord_svc (k : Nat) (s : State) : (removeRecord k s).svc = s.svc := rfl
@[simp] theorem removeRecord_port (k : Nat) (s : State) : (removeRecord k s).port = s.port := rfl
@[simp] theorem removeRecord_ev (k : Nat) (s : State) : (removeRecord k s).ev = s.ev := rfl
@[simp] theorem removeRecord_free (k : Nat) (s : State) : (removeRecord k s).free = s.free := rfl
@[simp] theorem removeRecord_pending (k : Nat) (s : State) : (removeRecord k s).pending = s.pending := rfl

@[simp] theorem addCause_plan (c : TripCause) (s : State) : (addCause c s).plan = s.plan := rfl
@[simp] theorem addCause_tracker (c : TripCause) (s : State) : (addCause c s).tracker = s.tracker := rfl
@[simp] theorem addCause_roster (c : TripCause) (s : State) : (addCause c s).roster = s.roster := rfl
@[simp] theorem addCause_link (c : TripCause) (s : State) : (addCause c s).link = s.link := rfl
@[simp] theorem addCause_tune (c : TripCause) (s : State) : (addCause c s).tune = s.tune := rfl
@[simp] theorem addCause_svc (c : TripCause) (s : State) : (addCause c s).svc = s.svc := rfl
@[simp] theorem addCause_port (c : TripCause) (s : State) : (addCause c s).port = s.port := rfl
@[simp] theorem addCause_ev (c : TripCause) (s : State) : (addCause c s).ev = s.ev := rfl
@[simp] theorem addCause_free (c : TripCause) (s : State) : (addCause c s).free = s.free := rfl
@[simp] theorem addCause_pending (c : TripCause) (s : State) : (addCause c s).pending = s.pending := rfl

@[simp] theorem manualHold_plan (s : State) : (manualHold s).plan = s.plan := rfl
@[simp] theorem manualHold_tracker (s : State) : (manualHold s).tracker = s.tracker := rfl
@[simp] theorem manualHold_roster (s : State) : (manualHold s).roster = s.roster := rfl
@[simp] theorem manualHold_link (s : State) : (manualHold s).link = s.link := rfl
@[simp] theorem manualHold_tune (s : State) : (manualHold s).tune = s.tune := rfl
@[simp] theorem manualHold_svc (s : State) : (manualHold s).svc = s.svc := rfl
@[simp] theorem manualHold_port (s : State) : (manualHold s).port = s.port := rfl
@[simp] theorem manualHold_ev (s : State) : (manualHold s).ev = s.ev := rfl
@[simp] theorem manualHold_free (s : State) : (manualHold s).free = s.free := rfl
@[simp] theorem manualHold_pending (s : State) : (manualHold s).pending = s.pending := rfl

@[simp] theorem updateView_plan (s : State) : (updateView s).plan = s.plan := rfl
@[simp] theorem updateView_roster (s : State) : (updateView s).roster = s.roster := rfl
@[simp] theorem updateView_link (s : State) : (updateView s).link = s.link := rfl
@[simp] theorem updateView_tune (s : State) : (updateView s).tune = s.tune := rfl
@[simp] theorem updateView_sup (s : State) : (updateView s).sup = s.sup := rfl
@[simp] theorem updateView_svc (s : State) : (updateView s).svc = s.svc := rfl
@[simp] theorem updateView_port (s : State) : (updateView s).port = s.port := rfl
@[simp] theorem updateView_ev (s : State) : (updateView s).ev = s.ev := rfl
@[simp] theorem updateView_free (s : State) : (updateView s).free = s.free := rfl
@[simp] theorem updateView_pending (s : State) : (updateView s).pending = s.pending := rfl

@[simp] theorem findView_plan (c : Option Sector) (s : State) : (findView c s).plan = s.plan := rfl
@[simp] theorem findView_roster (c : Option Sector) (s : State) : (findView c s).roster = s.roster := rfl
@[simp] theorem findView_link (c : Option Sector) (s : State) : (findView c s).link = s.link := rfl
@[simp] theorem findView_tune (c : Option Sector) (s : State) : (findView c s).tune = s.tune := rfl
@[simp] theorem findView_sup (c : Option Sector) (s : State) : (findView c s).sup = s.sup := rfl
@[simp] theorem findView_svc (c : Option Sector) (s : State) : (findView c s).svc = s.svc := rfl
@[simp] theorem findView_port (c : Option Sector) (s : State) : (findView c s).port = s.port := rfl
@[simp] theorem findView_ev (c : Option Sector) (s : State) : (findView c s).ev = s.ev := rfl
@[simp] theorem findView_free (c : Option Sector) (s : State) : (findView c s).free = s.free := rfl
@[simp] theorem findView_pending (c : Option Sector) (s : State) : (findView c s).pending = s.pending := rfl

@[simp] theorem markServed_plan (k a : Nat) (s : State) : (markServed k a s).plan = s.plan := rfl
@[simp] theorem markServed_roster (k a : Nat) (s : State) : (markServed k a s).roster = s.roster := rfl
@[simp] theorem markServed_link (k a : Nat) (s : State) : (markServed k a s).link = s.link := rfl
@[simp] theorem markServed_tune (k a : Nat) (s : State) : (markServed k a s).tune = s.tune := rfl
@[simp] theorem markServed_sup (k a : Nat) (s : State) : (markServed k a s).sup = s.sup := rfl
@[simp] theorem markServed_svc (k a : Nat) (s : State) : (markServed k a s).svc = s.svc := rfl
@[simp] theorem markServed_port (k a : Nat) (s : State) : (markServed k a s).port = s.port := rfl
@[simp] theorem markServed_ev (k a : Nat) (s : State) : (markServed k a s).ev = s.ev := rfl
@[simp] theorem markServed_free (k a : Nat) (s : State) : (markServed k a s).free = s.free := rfl
@[simp] theorem markServed_pending (k a : Nat) (s : State) : (markServed k a s).pending = s.pending := rfl

@[simp] theorem refreshSnapshot_plan (n : Nat) (s : State) : (refreshSnapshot n s).plan = s.plan := rfl
@[simp] theorem refreshSnapshot_tracker (n : Nat) (s : State) : (refreshSnapshot n s).tracker = s.tracker := rfl
@[simp] theorem refreshSnapshot_roster (n : Nat) (s : State) : (refreshSnapshot n s).roster = s.roster := rfl
@[simp] theorem refreshSnapshot_link (n : Nat) (s : State) : (refreshSnapshot n s).link = s.link := rfl
@[simp] theorem refreshSnapshot_tune (n : Nat) (s : State) : (refreshSnapshot n s).tune = s.tune := rfl
@[simp] theorem refreshSnapshot_sup (n : Nat) (s : State) : (refreshSnapshot n s).sup = s.sup := rfl
@[simp] theorem refreshSnapshot_svc (n : Nat) (s : State) : (refreshSnapshot n s).svc = s.svc := rfl
@[simp] theorem refreshSnapshot_ev (n : Nat) (s : State) : (refreshSnapshot n s).ev = s.ev := rfl
@[simp] theorem refreshSnapshot_free (n : Nat) (s : State) : (refreshSnapshot n s).free = s.free := rfl
@[simp] theorem refreshSnapshot_pending (n : Nat) (s : State) : (refreshSnapshot n s).pending = s.pending := rfl

/-! ### Tower records -/

/-- Two states with the same roster read the same towers. -/
theorem tower_congr {s t : State} (h : t.roster = s.roster) (p : Nat) : t.tower p = s.tower p := by
  unfold State.tower; rw [h]

@[simp] theorem raise_tower (e : EventFlag) (s : State) (p : Nat) : (raise e s).tower p = s.tower p := rfl
@[simp] theorem respond_tower (b : List Byte) (s : State) (p : Nat) : (s.respond b).tower p = s.tower p := rfl

/-- A position outside 1 to 21 reads as VACANT. -/
theorem tower_outside {p : Nat} (h : ¬(1 ≤ p ∧ p ≤ Config.positions)) (s : State) : s.tower p = vacantTower := by
  unfold State.tower; rw [dif_neg h]

/-- A tower record just written reads back; every other reads as before. -/
theorem tower_setTower (s : State) (p q : Nat) (t : Tower) :
    (s.setTower p t).tower q = if q = p ∧ (1 ≤ p ∧ p ≤ Config.positions) then t else s.tower q := by
  unfold State.setTower
  by_cases hp : 1 ≤ p ∧ p ≤ Config.positions
  · rw [dif_pos hp]
    by_cases hq : 1 ≤ q ∧ q ≤ Config.positions
    · unfold State.tower
      simp only [hq, and_self, ↓reduceDIte, hp, and_true]
      by_cases e : q = p
      · subst e; simp
      · rw [if_neg e]
        rw [Vector.getElem_set_ne]
        omega
    · rw [tower_outside hq, tower_outside hq]
      rw [if_neg]; rintro ⟨e, -⟩; exact hq (e ▸ hp)
  · rw [dif_neg hp, if_neg]; exact fun h => hp h.2

/-- A tower record after a change of one. -/
theorem tower_modTower (s : State) (p q : Nat) (g : Tower → Tower) :
    (s.modTower p g).tower q = if q = p ∧ (1 ≤ p ∧ p ≤ Config.positions) then g (s.tower p) else s.tower q :=
  tower_setTower s p q _

/-- A tower record after a change of all. -/
theorem tower_mapTowers (s : State) (g : Nat → Tower → Tower) (p : Nat) :
    (s.mapTowers g).tower p = if 1 ≤ p ∧ p ≤ Config.positions then g p (s.tower p) else vacantTower := by
  by_cases h : 1 ≤ p ∧ p ≤ Config.positions
  · rw [if_pos h]
    unfold State.tower State.mapTowers
    rw [dif_pos h, dif_pos h]
    simp only [Vector.getElem_mapIdx]
    congr 1
    omega
  · rw [if_neg h, tower_outside h]

/-- What setting a change flag does to a tower: that flag in that tower, and nothing else. -/
theorem tower_setChange (s : State) (p q : Nat) (c : ChangeFlag) :
    (setChange p c s).tower q =
      if q = p ∧ (1 ≤ p ∧ p ≤ Config.positions) ∧ (s.tower p).hasChange c = false then
        { s.tower p with changes := (s.tower p).changes ||| c.bit }
      else s.tower q := by
  unfold setChange
  by_cases h : (s.tower p).hasChange c = true
  · simp [h]
  · simp only [h, Bool.false_eq_true, ↓reduceIte, raise_tower, tower_modTower]
    simp

end Sys2Proof.Machine
end

