-- ==== Sys2Proof/Laws/Events.lean ====
section
/-! SUPPORT. What a raise of an event flag does to the flags, the enables and the master enable. -/

namespace Sys2Proof.Machine

@[simp] theorem settle_flags (e f : Events) : (Events.settle e f).flags = f.flags := by
  unfold Events.settle Events.pulse; (repeat' split) <;> rfl
@[simp] theorem settle_enables (e f : Events) : (Events.settle e f).enables = f.enables := by
  unfold Events.settle Events.pulse; (repeat' split) <;> rfl
@[simp] theorem settle_master (e f : Events) : (Events.settle e f).master = f.master := by
  unfold Events.settle Events.pulse; (repeat' split) <;> rfl
@[simp] theorem raise_flags (f : EventFlag) (e : Events) : (e.raise f).flags = e.flags ||| f.bit := by simp [Events.raise]

/-- A raised flag is set. -/
theorem isSet_raise_self (f : EventFlag) (e : Events) : (e.raise f).isSet f = true := by
  unfold Events.isSet; rw [raise_flags]
  cases f <;> (simp only [EventFlag.bit]; generalize e.flags = w; revert w; decide +kernel)

/-- A raise clears no flag. -/
theorem isSet_raise_mono (f g : EventFlag) (e : Events) (h : e.isSet g = true) : (e.raise f).isSet g = true := by
  unfold Events.isSet at *; rw [raise_flags]
  have : ∀ w b c : BitVec 11, ((w &&& c) != 0) = true → (((w ||| b) &&& c) != 0) = true := by
    intro w b c h
    by_contra k
    have k : (w ||| b) &&& c = 0 := by simpa using k
    have : w &&& c = 0 := by
      ext i hi
      have := congrArg (fun v => v.getLsbD i) k
      simp only [BitVec.getLsbD_and, BitVec.getLsbD_or] at this
      simp
      intro hw
      by_contra hc
      simp at this
      simp_all
    rw [this] at h; simp at h
  exact this _ _ _ h

/-- A raise sets its flag and no other (R177). -/
theorem isSet_raise (f g : EventFlag) (e : Events) : (e.raise f).isSet g = (e.isSet g || f == g) := by
  by_cases h : f = g
  · subst h; rw [isSet_raise_self]; simp
  · have k : f.bit &&& g.bit = 0 := by revert h; cases f <;> cases g <;> decide
    have d : (e.flags ||| f.bit) &&& g.bit = (e.flags &&& g.bit) ||| (f.bit &&& g.bit) := by
      ext i; simp only [BitVec.getElem_and, BitVec.getElem_or, Bool.and_or_distrib_right]
    unfold Events.isSet
    rw [raise_flags, d, k, show (f == g) = false by simpa using h]
    simp

/-! ### The pulse (R179, R180) -/

/-- Something is pending when the pending count is one or more (R179). -/
theorem anyPending_iff {e : Events} : e.anyPending = true ↔ 1 ≤ e.pendingCount := by
  unfold Events.anyPending Events.pendingCount
  generalize e.pendingFlags = w
  revert w; decide +kernel

/-- A change of the unit that does not bring the pending count up from zero gives no pulse (R179). -/
theorem settle_of_pending {old new : Events} (h : old.anyPending = true ∨ new.anyPending = false) : old.settle new = new := by
  unfold Events.settle
  rw [if_neg]
  rcases h with h | h <;> simp [h]

/-- A flag that is set already is raised without effect. -/
theorem raise_raise (f : EventFlag) (e : Events) : (e.raise f).raise f = e.raise f := by
  have hf : (e.raise f).flags ||| f.bit = (e.raise f).flags := by rw [raise_flags, BitVec.or_assoc, BitVec.or_self]
  have he : { e.raise f with flags := (e.raise f).flags ||| f.bit } = e.raise f := by rw [hf]
  unfold Events.raise at he ⊢
  show Events.settle _ _ = _
  rw [he]
  cases h : (e.settle { e with flags := e.flags ||| f.bit }).anyPending
  · exact settle_of_pending (.inr h)
  · exact settle_of_pending (.inl h)

end Sys2Proof.Machine
end

