-- ==== Sys2Proof/Laws/Kept.lean ====
section
/-! SUPPORT. What the operations shared by the blocks leave alone: the tuning, the command link's slots, the free-value
counter, the queue and the link settings. One lemma per operation, and its five fields for simp. -/

namespace Sys2Proof.Machine

/-- `t` has the tuning, the port, the free-value counter, the queue and the link settings of `s`. -/
structure Kept (s t : State) : Prop where
  tune : t.tune = s.tune
  port : t.port = s.port
  free : t.free = s.free
  pending : t.pending = s.pending
  settings : t.link.settings = s.link.settings

theorem Kept.trans {s t u : State} (h : Kept s t) (k : Kept t u) : Kept s u :=
  ⟨k.tune.trans h.tune, k.port.trans h.port, k.free.trans h.free, k.pending.trans h.pending,
    k.settings.trans h.settings⟩

/-- `t` has the tuning, the port but for its snapshot, the free-value counter, the queue and the link settings of `s`. -/
structure KeptSlots (s t : State) : Prop where
  tune : t.tune = s.tune
  command : t.port.command = s.port.command
  response : t.port.response = s.port.response
  rdy : t.port.rdy = s.port.rdy
  transaction : t.port.transaction = s.port.transaction
  dropped : t.port.dropped = s.port.dropped
  mask : t.port.mask = s.port.mask
  free : t.free = s.free
  pending : t.pending = s.pending
  settings : t.link.settings = s.link.settings

theorem KeptSlots.trans {s t u : State} (h : KeptSlots s t) (k : KeptSlots t u) : KeptSlots s u :=
  ⟨k.tune.trans h.tune, k.command.trans h.command, k.response.trans h.response, k.rdy.trans h.rdy,
    k.transaction.trans h.transaction, k.dropped.trans h.dropped, k.mask.trans h.mask, k.free.trans h.free,
    k.pending.trans h.pending, k.settings.trans h.settings⟩

theorem Kept.slots {s t : State} (h : Kept s t) : KeptSlots s t :=
  ⟨h.tune, by rw [h.port], by rw [h.port], by rw [h.port], by rw [h.port], by rw [h.port], by rw [h.port], h.free, h.pending, h.settings⟩

theorem releaseTowers_kept (s : State) : Kept s (releaseTowers s) := ⟨rfl, rfl, rfl, rfl, rfl⟩

@[simp] theorem releaseTowers_tune (s : State) : (releaseTowers s).tune = s.tune := (releaseTowers_kept s).tune
@[simp] theorem releaseTowers_port (s : State) : (releaseTowers s).port = s.port := (releaseTowers_kept s).port
@[simp] theorem releaseTowers_free (s : State) : (releaseTowers s).free = s.free := (releaseTowers_kept s).free
@[simp] theorem releaseTowers_pending (s : State) : (releaseTowers s).pending = s.pending := (releaseTowers_kept s).pending
@[simp] theorem releaseTowers_settings (s : State) : (releaseTowers s).link.settings = s.link.settings := (releaseTowers_kept s).settings

theorem completeRetirement_kept (s : State) : Kept s (completeRetirement s) := by
  unfold completeRetirement
  constructor <;> (repeat' split) <;> simp

@[simp] theorem completeRetirement_tune (s : State) : (completeRetirement s).tune = s.tune := (completeRetirement_kept s).tune
@[simp] theorem completeRetirement_port (s : State) : (completeRetirement s).port = s.port := (completeRetirement_kept s).port
@[simp] theorem completeRetirement_free (s : State) : (completeRetirement s).free = s.free := (completeRetirement_kept s).free
@[simp] theorem completeRetirement_pending (s : State) : (completeRetirement s).pending = s.pending := (completeRetirement_kept s).pending
@[simp] theorem completeRetirement_settings (s : State) : (completeRetirement s).link.settings = s.link.settings := (completeRetirement_kept s).settings

theorem enterStanding_kept (s : State) : Kept s (enterStanding s) := by
  unfold enterStanding
  constructor <;> simp

@[simp] theorem enterStanding_tune (s : State) : (enterStanding s).tune = s.tune := (enterStanding_kept s).tune
@[simp] theorem enterStanding_port (s : State) : (enterStanding s).port = s.port := (enterStanding_kept s).port
@[simp] theorem enterStanding_free (s : State) : (enterStanding s).free = s.free := (enterStanding_kept s).free
@[simp] theorem enterStanding_pending (s : State) : (enterStanding s).pending = s.pending := (enterStanding_kept s).pending
@[simp] theorem enterStanding_settings (s : State) : (enterStanding s).link.settings = s.link.settings := (enterStanding_kept s).settings

theorem entryEffects_kept (m : MachineState) (s : State) : Kept s (entryEffects m s) := by
  unfold entryEffects
  constructor <;> (repeat' split) <;> simp

@[simp] theorem entryEffects_tune (m : MachineState) (s : State) : (entryEffects m s).tune = s.tune := (entryEffects_kept m s).tune
@[simp] theorem entryEffects_port (m : MachineState) (s : State) : (entryEffects m s).port = s.port := (entryEffects_kept m s).port
@[simp] theorem entryEffects_free (m : MachineState) (s : State) : (entryEffects m s).free = s.free := (entryEffects_kept m s).free
@[simp] theorem entryEffects_pending (m : MachineState) (s : State) : (entryEffects m s).pending = s.pending := (entryEffects_kept m s).pending
@[simp] theorem entryEffects_settings (m : MachineState) (s : State) : (entryEffects m s).link.settings = s.link.settings := (entryEffects_kept m s).settings

theorem changeState_kept (m : MachineState) (s : State) : Kept s (changeState m s) := by
  unfold changeState
  constructor <;> simp

@[simp] theorem changeState_tune (m : MachineState) (s : State) : (changeState m s).tune = s.tune := (changeState_kept m s).tune
@[simp] theorem changeState_port (m : MachineState) (s : State) : (changeState m s).port = s.port := (changeState_kept m s).port
@[simp] theorem changeState_free (m : MachineState) (s : State) : (changeState m s).free = s.free := (changeState_kept m s).free
@[simp] theorem changeState_pending (m : MachineState) (s : State) : (changeState m s).pending = s.pending := (changeState_kept m s).pending
@[simp] theorem changeState_settings (m : MachineState) (s : State) : (changeState m s).link.settings = s.link.settings := (changeState_kept m s).settings

theorem dwellExpires_kept (s : State) : Kept s (dwellExpires s) := by
  unfold dwellExpires
  constructor <;> (repeat' split) <;> simp

@[simp] theorem dwellExpires_tune (s : State) : (dwellExpires s).tune = s.tune := (dwellExpires_kept s).tune
@[simp] theorem dwellExpires_port (s : State) : (dwellExpires s).port = s.port := (dwellExpires_kept s).port
@[simp] theorem dwellExpires_free (s : State) : (dwellExpires s).free = s.free := (dwellExpires_kept s).free
@[simp] theorem dwellExpires_pending (s : State) : (dwellExpires s).pending = s.pending := (dwellExpires_kept s).pending
@[simp] theorem dwellExpires_settings (s : State) : (dwellExpires s).link.settings = s.link.settings := (dwellExpires_kept s).settings

theorem startDwell_kept (n : Nat) (s : State) : Kept s (startDwell n s) := by
  unfold startDwell
  constructor <;> (repeat' split) <;> simp

@[simp] theorem startDwell_tune (n : Nat) (s : State) : (startDwell n s).tune = s.tune := (startDwell_kept n s).tune
@[simp] theorem startDwell_port (n : Nat) (s : State) : (startDwell n s).port = s.port := (startDwell_kept n s).port
@[simp] theorem startDwell_free (n : Nat) (s : State) : (startDwell n s).free = s.free := (startDwell_kept n s).free
@[simp] theorem startDwell_pending (n : Nat) (s : State) : (startDwell n s).pending = s.pending := (startDwell_kept n s).pending
@[simp] theorem startDwell_settings (n : Nat) (s : State) : (startDwell n s).link.settings = s.link.settings := (startDwell_kept n s).settings

theorem arriveAtHold_kept (r : Sector) (s : State) : Kept s (arriveAtHold r s) := by
  unfold arriveAtHold
  constructor <;> simp

@[simp] theorem arriveAtHold_tune (r : Sector) (s : State) : (arriveAtHold r s).tune = s.tune := (arriveAtHold_kept r s).tune
@[simp] theorem arriveAtHold_port (r : Sector) (s : State) : (arriveAtHold r s).port = s.port := (arriveAtHold_kept r s).port
@[simp] theorem arriveAtHold_free (r : Sector) (s : State) : (arriveAtHold r s).free = s.free := (arriveAtHold_kept r s).free
@[simp] theorem arriveAtHold_pending (r : Sector) (s : State) : (arriveAtHold r s).pending = s.pending := (arriveAtHold_kept r s).pending
@[simp] theorem arriveAtHold_settings (r : Sector) (s : State) : (arriveAtHold r s).link.settings = s.link.settings := (arriveAtHold_kept r s).settings

theorem beginReversal_kept (s : State) : Kept s (beginReversal s) := by
  unfold beginReversal
  constructor <;> simp

@[simp] theorem beginReversal_tune (s : State) : (beginReversal s).tune = s.tune := (beginReversal_kept s).tune
@[simp] theorem beginReversal_port (s : State) : (beginReversal s).port = s.port := (beginReversal_kept s).port
@[simp] theorem beginReversal_free (s : State) : (beginReversal s).free = s.free := (beginReversal_kept s).free
@[simp] theorem beginReversal_pending (s : State) : (beginReversal s).pending = s.pending := (beginReversal_kept s).pending
@[simp] theorem beginReversal_settings (s : State) : (beginReversal s).link.settings = s.link.settings := (beginReversal_kept s).settings

theorem arriveAtBarrier_kept (r : Sector) (s : State) : Kept s (arriveAtBarrier r s) := by
  unfold arriveAtBarrier
  constructor <;> (repeat' split) <;> simp

@[simp] theorem arriveAtBarrier_tune (r : Sector) (s : State) : (arriveAtBarrier r s).tune = s.tune := (arriveAtBarrier_kept r s).tune
@[simp] theorem arriveAtBarrier_port (r : Sector) (s : State) : (arriveAtBarrier r s).port = s.port := (arriveAtBarrier_kept r s).port
@[simp] theorem arriveAtBarrier_free (r : Sector) (s : State) : (arriveAtBarrier r s).free = s.free := (arriveAtBarrier_kept r s).free
@[simp] theorem arriveAtBarrier_pending (r : Sector) (s : State) : (arriveAtBarrier r s).pending = s.pending := (arriveAtBarrier_kept r s).pending
@[simp] theorem arriveAtBarrier_settings (r : Sector) (s : State) : (arriveAtBarrier r s).link.settings = s.link.settings := (arriveAtBarrier_kept r s).settings

theorem serviceOutcome_kept (n : Nat) (o : LineOutcome) (s : State) : Kept s (serviceOutcome n o s) := by
  unfold serviceOutcome
  constructor <;> (repeat' split) <;> simp

@[simp] theorem serviceOutcome_tune (n : Nat) (o : LineOutcome) (s : State) : (serviceOutcome n o s).tune = s.tune := (serviceOutcome_kept n o s).tune
@[simp] theorem serviceOutcome_port (n : Nat) (o : LineOutcome) (s : State) : (serviceOutcome n o s).port = s.port := (serviceOutcome_kept n o s).port
@[simp] theorem serviceOutcome_free (n : Nat) (o : LineOutcome) (s : State) : (serviceOutcome n o s).free = s.free := (serviceOutcome_kept n o s).free
@[simp] theorem serviceOutcome_pending (n : Nat) (o : LineOutcome) (s : State) : (serviceOutcome n o s).pending = s.pending := (serviceOutcome_kept n o s).pending
@[simp] theorem serviceOutcome_settings (n : Nat) (o : LineOutcome) (s : State) : (serviceOutcome n o s).link.settings = s.link.settings := (serviceOutcome_kept n o s).settings

theorem deliverAbandoned_kept (x : Exchange) (s : State) : Kept s (deliverAbandoned x s) := by
  unfold deliverAbandoned
  constructor <;> (repeat' split) <;> simp

@[simp] theorem deliverAbandoned_tune (x : Exchange) (s : State) : (deliverAbandoned x s).tune = s.tune := (deliverAbandoned_kept x s).tune
@[simp] theorem deliverAbandoned_port (x : Exchange) (s : State) : (deliverAbandoned x s).port = s.port := (deliverAbandoned_kept x s).port
@[simp] theorem deliverAbandoned_free (x : Exchange) (s : State) : (deliverAbandoned x s).free = s.free := (deliverAbandoned_kept x s).free
@[simp] theorem deliverAbandoned_pending (x : Exchange) (s : State) : (deliverAbandoned x s).pending = s.pending := (deliverAbandoned_kept x s).pending
@[simp] theorem deliverAbandoned_settings (x : Exchange) (s : State) : (deliverAbandoned x s).link.settings = s.link.settings := (deliverAbandoned_kept x s).settings

theorem breakOnFree_settings (l : Link) : l.breakOnFree.settings = l.settings := by
  unfold Link.breakOnFree; split <;> rfl

theorem cutShort_settings (l : Link) (x : Exchange) : (l.cutShort x).settings = l.settings := by
  unfold Link.cutShort; split <;> simp [breakOnFree_settings]

theorem requestBreak_kept (s : State) : Kept s (requestBreak s) := by
  unfold requestBreak
  constructor <;> (repeat' split) <;> simp [breakOnFree_settings, cutShort_settings]

@[simp] theorem requestBreak_tune (s : State) : (requestBreak s).tune = s.tune := (requestBreak_kept s).tune
@[simp] theorem requestBreak_port (s : State) : (requestBreak s).port = s.port := (requestBreak_kept s).port
@[simp] theorem requestBreak_free (s : State) : (requestBreak s).free = s.free := (requestBreak_kept s).free
@[simp] theorem requestBreak_pending (s : State) : (requestBreak s).pending = s.pending := (requestBreak_kept s).pending
@[simp] theorem requestBreak_settings (s : State) : (requestBreak s).link.settings = s.link.settings := (requestBreak_kept s).settings

theorem takeTrip_kept (c : TripCause) (p : Option Nat) (s : State) : Kept s (takeTrip c p s) := by
  unfold takeTrip
  constructor <;> simp

@[simp] theorem takeTrip_tune (c : TripCause) (p : Option Nat) (s : State) : (takeTrip c p s).tune = s.tune := (takeTrip_kept c p s).tune
@[simp] theorem takeTrip_port (c : TripCause) (p : Option Nat) (s : State) : (takeTrip c p s).port = s.port := (takeTrip_kept c p s).port
@[simp] theorem takeTrip_free (c : TripCause) (p : Option Nat) (s : State) : (takeTrip c p s).free = s.free := (takeTrip_kept c p s).free
@[simp] theorem takeTrip_pending (c : TripCause) (p : Option Nat) (s : State) : (takeTrip c p s).pending = s.pending := (takeTrip_kept c p s).pending
@[simp] theorem takeTrip_settings (c : TripCause) (p : Option Nat) (s : State) : (takeTrip c p s).link.settings = s.link.settings := (takeTrip_kept c p s).settings

theorem tripRequest_kept (c : TripCause) (p : Option Nat) (s : State) : Kept s (tripRequest c p s) := by
  unfold tripRequest
  constructor <;> (repeat' split) <;> simp

@[simp] theorem tripRequest_tune (c : TripCause) (p : Option Nat) (s : State) : (tripRequest c p s).tune = s.tune := (tripRequest_kept c p s).tune
@[simp] theorem tripRequest_port (c : TripCause) (p : Option Nat) (s : State) : (tripRequest c p s).port = s.port := (tripRequest_kept c p s).port
@[simp] theorem tripRequest_free (c : TripCause) (p : Option Nat) (s : State) : (tripRequest c p s).free = s.free := (tripRequest_kept c p s).free
@[simp] theorem tripRequest_pending (c : TripCause) (p : Option Nat) (s : State) : (tripRequest c p s).pending = s.pending := (tripRequest_kept c p s).pending
@[simp] theorem tripRequest_settings (c : TripCause) (p : Option Nat) (s : State) : (tripRequest c p s).link.settings = s.link.settings := (tripRequest_kept c p s).settings

theorem noteCrossing_kept (s : State) : Kept s (noteCrossing s) := by
  unfold noteCrossing
  constructor <;> simp

@[simp] theorem noteCrossing_tune (s : State) : (noteCrossing s).tune = s.tune := (noteCrossing_kept s).tune
@[simp] theorem noteCrossing_port (s : State) : (noteCrossing s).port = s.port := (noteCrossing_kept s).port
@[simp] theorem noteCrossing_free (s : State) : (noteCrossing s).free = s.free := (noteCrossing_kept s).free
@[simp] theorem noteCrossing_pending (s : State) : (noteCrossing s).pending = s.pending := (noteCrossing_kept s).pending
@[simp] theorem noteCrossing_settings (s : State) : (noteCrossing s).link.settings = s.link.settings := (noteCrossing_kept s).settings

theorem refresh_kept (s : State) : Kept s (refresh s) := by
  unfold refresh
  constructor <;> simp <;> (repeat' split) <;> simp

@[simp] theorem refresh_tune (s : State) : (refresh s).tune = s.tune := (refresh_kept s).tune
@[simp] theorem refresh_port (s : State) : (refresh s).port = s.port := (refresh_kept s).port
@[simp] theorem refresh_free (s : State) : (refresh s).free = s.free := (refresh_kept s).free
@[simp] theorem refresh_pending (s : State) : (refresh s).pending = s.pending := (refresh_kept s).pending
@[simp] theorem refresh_settings (s : State) : (refresh s).link.settings = s.link.settings := (refresh_kept s).settings

theorem arriveHold_kept (r : Sector) (a : Nat) (s : State) : Kept s (arriveHold r a s) := by
  unfold arriveHold
  constructor <;> simp

@[simp] theorem arriveHold_tune (r : Sector) (a : Nat) (s : State) : (arriveHold r a s).tune = s.tune := (arriveHold_kept r a s).tune
@[simp] theorem arriveHold_port (r : Sector) (a : Nat) (s : State) : (arriveHold r a s).port = s.port := (arriveHold_kept r a s).port
@[simp] theorem arriveHold_free (r : Sector) (a : Nat) (s : State) : (arriveHold r a s).free = s.free := (arriveHold_kept r a s).free
@[simp] theorem arriveHold_pending (r : Sector) (a : Nat) (s : State) : (arriveHold r a s).pending = s.pending := (arriveHold_kept r a s).pending
@[simp] theorem arriveHold_settings (r : Sector) (a : Nat) (s : State) : (arriveHold r a s).link.settings = s.link.settings := (arriveHold_kept r a s).settings

theorem arrivalCheck_kept (s : State) : Kept s (arrivalCheck s) := by
  unfold arrivalCheck
  constructor <;> (repeat' split) <;> simp

@[simp] theorem arrivalCheck_tune (s : State) : (arrivalCheck s).tune = s.tune := (arrivalCheck_kept s).tune
@[simp] theorem arrivalCheck_port (s : State) : (arrivalCheck s).port = s.port := (arrivalCheck_kept s).port
@[simp] theorem arrivalCheck_free (s : State) : (arrivalCheck s).free = s.free := (arrivalCheck_kept s).free
@[simp] theorem arrivalCheck_pending (s : State) : (arrivalCheck s).pending = s.pending := (arrivalCheck_kept s).pending
@[simp] theorem arrivalCheck_settings (s : State) : (arrivalCheck s).link.settings = s.link.settings := (arrivalCheck_kept s).settings

theorem arrivalCheckIf_kept (b : Bool) (s : State) : Kept s (arrivalCheckIf b s) := by
  unfold arrivalCheckIf
  constructor <;> (repeat' split) <;> simp

@[simp] theorem arrivalCheckIf_tune (b : Bool) (s : State) : (arrivalCheckIf b s).tune = s.tune := (arrivalCheckIf_kept b s).tune
@[simp] theorem arrivalCheckIf_port (b : Bool) (s : State) : (arrivalCheckIf b s).port = s.port := (arrivalCheckIf_kept b s).port
@[simp] theorem arrivalCheckIf_free (b : Bool) (s : State) : (arrivalCheckIf b s).free = s.free := (arrivalCheckIf_kept b s).free
@[simp] theorem arrivalCheckIf_pending (b : Bool) (s : State) : (arrivalCheckIf b s).pending = s.pending := (arrivalCheckIf_kept b s).pending
@[simp] theorem arrivalCheckIf_settings (b : Bool) (s : State) : (arrivalCheckIf b s).link.settings = s.link.settings := (arrivalCheckIf_kept b s).settings

theorem giveUpAngle_kept (s : State) : Kept s (giveUpAngle s) := by
  unfold giveUpAngle
  constructor <;> simp

@[simp] theorem giveUpAngle_tune (s : State) : (giveUpAngle s).tune = s.tune := (giveUpAngle_kept s).tune
@[simp] theorem giveUpAngle_port (s : State) : (giveUpAngle s).port = s.port := (giveUpAngle_kept s).port
@[simp] theorem giveUpAngle_free (s : State) : (giveUpAngle s).free = s.free := (giveUpAngle_kept s).free
@[simp] theorem giveUpAngle_pending (s : State) : (giveUpAngle s).pending = s.pending := (giveUpAngle_kept s).pending
@[simp] theorem giveUpAngle_settings (s : State) : (giveUpAngle s).link.settings = s.link.settings := (giveUpAngle_kept s).settings

theorem angleLost_kept (b : Bool) (s : State) : Kept s (angleLost b s) := by
  unfold angleLost
  constructor <;> (repeat' split) <;> simp

@[simp] theorem angleLost_tune (b : Bool) (s : State) : (angleLost b s).tune = s.tune := (angleLost_kept b s).tune
@[simp] theorem angleLost_port (b : Bool) (s : State) : (angleLost b s).port = s.port := (angleLost_kept b s).port
@[simp] theorem angleLost_free (b : Bool) (s : State) : (angleLost b s).free = s.free := (angleLost_kept b s).free
@[simp] theorem angleLost_pending (b : Bool) (s : State) : (angleLost b s).pending = s.pending := (angleLost_kept b s).pending
@[simp] theorem angleLost_settings (b : Bool) (s : State) : (angleLost b s).link.settings = s.link.settings := (angleLost_kept b s).settings

theorem badSample_kept (s : State) : Kept s (badSample s) := by
  unfold badSample
  constructor <;> simp <;> (repeat' split) <;> simp

@[simp] theorem badSample_tune (s : State) : (badSample s).tune = s.tune := (badSample_kept s).tune
@[simp] theorem badSample_port (s : State) : (badSample s).port = s.port := (badSample_kept s).port
@[simp] theorem badSample_free (s : State) : (badSample s).free = s.free := (badSample_kept s).free
@[simp] theorem badSample_pending (s : State) : (badSample s).pending = s.pending := (badSample_kept s).pending
@[simp] theorem badSample_settings (s : State) : (badSample s).link.settings = s.link.settings := (badSample_kept s).settings

theorem passedOver_kept (a : Arc) (r : Sector) (b : Bool) (s : State) : Kept s (passedOver a r b s).1 := by
  unfold passedOver
  constructor <;> (repeat' split) <;> simp <;> (repeat' split) <;> simp

theorem passageChecks_kept (b : Bool) (a : Option Arc) (r : Option Sector) (c : Bool) (s : State) :
    Kept s (passageChecks b a r c s).1 := by
  unfold passageChecks
  repeat' split
  all_goals first | exact passedOver_kept _ _ _ _ | exact ⟨rfl, rfl, rfl, rfl, rfl⟩

theorem leaveRetiring_kept (r : Option Sector) (s : State) : Kept s (leaveRetiring r s) := by
  unfold leaveRetiring
  constructor <;> (repeat' split) <;> simp

@[simp] theorem leaveRetiring_tune (r : Option Sector) (s : State) : (leaveRetiring r s).tune = s.tune := (leaveRetiring_kept r s).tune
@[simp] theorem leaveRetiring_port (r : Option Sector) (s : State) : (leaveRetiring r s).port = s.port := (leaveRetiring_kept r s).port
@[simp] theorem leaveRetiring_free (r : Option Sector) (s : State) : (leaveRetiring r s).free = s.free := (leaveRetiring_kept r s).free
@[simp] theorem leaveRetiring_pending (r : Option Sector) (s : State) : (leaveRetiring r s).pending = s.pending := (leaveRetiring_kept r s).pending
@[simp] theorem leaveRetiring_settings (r : Option Sector) (s : State) : (leaveRetiring r s).link.settings = s.link.settings := (leaveRetiring_kept r s).settings

theorem leaveEscape_kept (r : Option Sector) (s : State) : Kept s (leaveEscape r s) := by
  unfold leaveEscape
  constructor <;> (repeat' split) <;> simp

@[simp] theorem leaveEscape_tune (r : Option Sector) (s : State) : (leaveEscape r s).tune = s.tune := (leaveEscape_kept r s).tune
@[simp] theorem leaveEscape_port (r : Option Sector) (s : State) : (leaveEscape r s).port = s.port := (leaveEscape_kept r s).port
@[simp] theorem leaveEscape_free (r : Option Sector) (s : State) : (leaveEscape r s).free = s.free := (leaveEscape_kept r s).free
@[simp] theorem leaveEscape_pending (r : Option Sector) (s : State) : (leaveEscape r s).pending = s.pending := (leaveEscape_kept r s).pending
@[simp] theorem leaveEscape_settings (r : Option Sector) (s : State) : (leaveEscape r s).link.settings = s.link.settings := (leaveEscape_kept r s).settings

theorem clearServed_kept (r : Option Sector) (s : State) : Kept s (clearServed r s) := by
  unfold clearServed
  constructor <;> (repeat' split) <;> simp

@[simp] theorem clearServed_tune (r : Option Sector) (s : State) : (clearServed r s).tune = s.tune := (clearServed_kept r s).tune
@[simp] theorem clearServed_port (r : Option Sector) (s : State) : (clearServed r s).port = s.port := (clearServed_kept r s).port
@[simp] theorem clearServed_free (r : Option Sector) (s : State) : (clearServed r s).free = s.free := (clearServed_kept r s).free
@[simp] theorem clearServed_pending (r : Option Sector) (s : State) : (clearServed r s).pending = s.pending := (clearServed_kept r s).pending
@[simp] theorem clearServed_settings (r : Option Sector) (s : State) : (clearServed r s).link.settings = s.link.settings := (clearServed_kept r s).settings

theorem goodSample_kept (a : Nat) (s : State) : Kept s (goodSample a s) := by
  unfold goodSample
  constructor <;> simp [(passageChecks_kept _ _ _ _ _).tune, (passageChecks_kept _ _ _ _ _).port,
    (passageChecks_kept _ _ _ _ _).free, (passageChecks_kept _ _ _ _ _).pending,
    (passageChecks_kept _ _ _ _ _).settings] <;> split <;> simp

@[simp] theorem goodSample_tune (a : Nat) (s : State) : (goodSample a s).tune = s.tune := (goodSample_kept a s).tune
@[simp] theorem goodSample_port (a : Nat) (s : State) : (goodSample a s).port = s.port := (goodSample_kept a s).port
@[simp] theorem goodSample_free (a : Nat) (s : State) : (goodSample a s).free = s.free := (goodSample_kept a s).free
@[simp] theorem goodSample_pending (a : Nat) (s : State) : (goodSample a s).pending = s.pending := (goodSample_kept a s).pending
@[simp] theorem goodSample_settings (a : Nat) (s : State) : (goodSample a s).link.settings = s.link.settings := (goodSample_kept a s).settings

theorem takeAnswer_kept (a : Nat) (v : Bool) (s : State) : Kept s (takeAnswer a v s) := by
  unfold takeAnswer
  constructor <;> (repeat' split) <;> simp <;> (repeat' split) <;> simp

@[simp] theorem takeAnswer_tune (a : Nat) (v : Bool) (s : State) : (takeAnswer a v s).tune = s.tune := (takeAnswer_kept a v s).tune
@[simp] theorem takeAnswer_port (a : Nat) (v : Bool) (s : State) : (takeAnswer a v s).port = s.port := (takeAnswer_kept a v s).port
@[simp] theorem takeAnswer_free (a : Nat) (v : Bool) (s : State) : (takeAnswer a v s).free = s.free := (takeAnswer_kept a v s).free
@[simp] theorem takeAnswer_pending (a : Nat) (v : Bool) (s : State) : (takeAnswer a v s).pending = s.pending := (takeAnswer_kept a v s).pending
@[simp] theorem takeAnswer_settings (a : Nat) (v : Bool) (s : State) : (takeAnswer a v s).link.settings = s.link.settings := (takeAnswer_kept a v s).settings

theorem missingSample_kept (s : State) : Kept s (missingSample s) := by
  unfold missingSample
  constructor <;> (repeat' split) <;> simp

@[simp] theorem missingSample_tune (s : State) : (missingSample s).tune = s.tune := (missingSample_kept s).tune
@[simp] theorem missingSample_port (s : State) : (missingSample s).port = s.port := (missingSample_kept s).port
@[simp] theorem missingSample_free (s : State) : (missingSample s).free = s.free := (missingSample_kept s).free
@[simp] theorem missingSample_pending (s : State) : (missingSample s).pending = s.pending := (missingSample_kept s).pending
@[simp] theorem missingSample_settings (s : State) : (missingSample s).link.settings = s.link.settings := (missingSample_kept s).settings

theorem captureSwing_kept (s : State) : Kept s (captureSwing s) := by
  unfold captureSwing
  constructor <;> simp <;> (repeat' split) <;> simp

@[simp] theorem captureSwing_tune (s : State) : (captureSwing s).tune = s.tune := (captureSwing_kept s).tune
@[simp] theorem captureSwing_port (s : State) : (captureSwing s).port = s.port := (captureSwing_kept s).port
@[simp] theorem captureSwing_free (s : State) : (captureSwing s).free = s.free := (captureSwing_kept s).free
@[simp] theorem captureSwing_pending (s : State) : (captureSwing s).pending = s.pending := (captureSwing_kept s).pending
@[simp] theorem captureSwing_settings (s : State) : (captureSwing s).link.settings = s.link.settings := (captureSwing_kept s).settings

theorem handOver_kept (s : State) : Kept s (handOver s) := by
  unfold handOver
  constructor <;> simp

@[simp] theorem handOver_tune (s : State) : (handOver s).tune = s.tune := (handOver_kept s).tune
@[simp] theorem handOver_port (s : State) : (handOver s).port = s.port := (handOver_kept s).port
@[simp] theorem handOver_free (s : State) : (handOver s).free = s.free := (handOver_kept s).free
@[simp] theorem handOver_pending (s : State) : (handOver s).pending = s.pending := (handOver_kept s).pending
@[simp] theorem handOver_settings (s : State) : (handOver s).link.settings = s.link.settings := (handOver_kept s).settings

theorem changeDirection_kept (d : Direction) (s : State) : Kept s (changeDirection d s) := by
  unfold changeDirection
  constructor <;> simp

@[simp] theorem changeDirection_tune (d : Direction) (s : State) : (changeDirection d s).tune = s.tune := (changeDirection_kept d s).tune
@[simp] theorem changeDirection_port (d : Direction) (s : State) : (changeDirection d s).port = s.port := (changeDirection_kept d s).port
@[simp] theorem changeDirection_free (d : Direction) (s : State) : (changeDirection d s).free = s.free := (changeDirection_kept d s).free
@[simp] theorem changeDirection_pending (d : Direction) (s : State) : (changeDirection d s).pending = s.pending := (changeDirection_kept d s).pending
@[simp] theorem changeDirection_settings (d : Direction) (s : State) : (changeDirection d s).link.settings = s.link.settings := (changeDirection_kept d s).settings

theorem trackerCompletes_kept (s : State) : Kept s (trackerCompletes s) := by
  unfold trackerCompletes
  constructor <;> simp

@[simp] theorem trackerCompletes_tune (s : State) : (trackerCompletes s).tune = s.tune := (trackerCompletes_kept s).tune
@[simp] theorem trackerCompletes_port (s : State) : (trackerCompletes s).port = s.port := (trackerCompletes_kept s).port
@[simp] theorem trackerCompletes_free (s : State) : (trackerCompletes s).free = s.free := (trackerCompletes_kept s).free
@[simp] theorem trackerCompletes_pending (s : State) : (trackerCompletes s).pending = s.pending := (trackerCompletes_kept s).pending
@[simp] theorem trackerCompletes_settings (s : State) : (trackerCompletes s).link.settings = s.link.settings := (trackerCompletes_kept s).settings

theorem tripIfMoving_kept (c : TripCause) (p : Nat) (s : State) : Kept s (tripIfMoving c p s) := by
  unfold tripIfMoving
  constructor <;> (repeat' split) <;> simp

@[simp] theorem tripIfMoving_tune (c : TripCause) (p : Nat) (s : State) : (tripIfMoving c p s).tune = s.tune := (tripIfMoving_kept c p s).tune
@[simp] theorem tripIfMoving_port (c : TripCause) (p : Nat) (s : State) : (tripIfMoving c p s).port = s.port := (tripIfMoving_kept c p s).port
@[simp] theorem tripIfMoving_free (c : TripCause) (p : Nat) (s : State) : (tripIfMoving c p s).free = s.free := (tripIfMoving_kept c p s).free
@[simp] theorem tripIfMoving_pending (c : TripCause) (p : Nat) (s : State) : (tripIfMoving c p s).pending = s.pending := (tripIfMoving_kept c p s).pending
@[simp] theorem tripIfMoving_settings (c : TripCause) (p : Nat) (s : State) : (tripIfMoving c p s).link.settings = s.link.settings := (tripIfMoving_kept c p s).settings

theorem enterFaulted_kept (p : Nat) (r : FaultReason) (s : State) : Kept s (enterFaulted p r s) := by
  unfold enterFaulted
  constructor <;> simp

@[simp] theorem enterFaulted_tune (p : Nat) (r : FaultReason) (s : State) : (enterFaulted p r s).tune = s.tune := (enterFaulted_kept p r s).tune
@[simp] theorem enterFaulted_port (p : Nat) (r : FaultReason) (s : State) : (enterFaulted p r s).port = s.port := (enterFaulted_kept p r s).port
@[simp] theorem enterFaulted_free (p : Nat) (r : FaultReason) (s : State) : (enterFaulted p r s).free = s.free := (enterFaulted_kept p r s).free
@[simp] theorem enterFaulted_pending (p : Nat) (r : FaultReason) (s : State) : (enterFaulted p r s).pending = s.pending := (enterFaulted_kept p r s).pending
@[simp] theorem enterFaulted_settings (p : Nat) (r : FaultReason) (s : State) : (enterFaulted p r s).link.settings = s.link.settings := (enterFaulted_kept p r s).settings

theorem enterUnrequested_kept (p : Nat) (s : State) : Kept s (enterUnrequested p s) := by
  unfold enterUnrequested
  constructor <;> simp

@[simp] theorem enterUnrequested_tune (p : Nat) (s : State) : (enterUnrequested p s).tune = s.tune := (enterUnrequested_kept p s).tune
@[simp] theorem enterUnrequested_port (p : Nat) (s : State) : (enterUnrequested p s).port = s.port := (enterUnrequested_kept p s).port
@[simp] theorem enterUnrequested_free (p : Nat) (s : State) : (enterUnrequested p s).free = s.free := (enterUnrequested_kept p s).free
@[simp] theorem enterUnrequested_pending (p : Nat) (s : State) : (enterUnrequested p s).pending = s.pending := (enterUnrequested_kept p s).pending
@[simp] theorem enterUnrequested_settings (p : Nat) (s : State) : (enterUnrequested p s).link.settings = s.link.settings := (enterUnrequested_kept p s).settings

theorem missLimit_kept (p : Nat) (s : State) : Kept s (missLimit p s) := by
  unfold missLimit
  constructor <;> simp

@[simp] theorem missLimit_tune (p : Nat) (s : State) : (missLimit p s).tune = s.tune := (missLimit_kept p s).tune
@[simp] theorem missLimit_port (p : Nat) (s : State) : (missLimit p s).port = s.port := (missLimit_kept p s).port
@[simp] theorem missLimit_free (p : Nat) (s : State) : (missLimit p s).free = s.free := (missLimit_kept p s).free
@[simp] theorem missLimit_pending (p : Nat) (s : State) : (missLimit p s).pending = s.pending := (missLimit_kept p s).pending
@[simp] theorem missLimit_settings (p : Nat) (s : State) : (missLimit p s).link.settings = s.link.settings := (missLimit_kept p s).settings

theorem followLimit_kept (p : Nat) (s : State) : Kept s (followLimit p s) := by
  unfold followLimit
  constructor <;> simp

@[simp] theorem followLimit_tune (p : Nat) (s : State) : (followLimit p s).tune = s.tune := (followLimit_kept p s).tune
@[simp] theorem followLimit_port (p : Nat) (s : State) : (followLimit p s).port = s.port := (followLimit_kept p s).port
@[simp] theorem followLimit_free (p : Nat) (s : State) : (followLimit p s).free = s.free := (followLimit_kept p s).free
@[simp] theorem followLimit_pending (p : Nat) (s : State) : (followLimit p s).pending = s.pending := (followLimit_kept p s).pending
@[simp] theorem followLimit_settings (p : Nat) (s : State) : (followLimit p s).link.settings = s.link.settings := (followLimit_kept p s).settings

theorem stallLimit_kept (p : Nat) (s : State) : Kept s (stallLimit p s) := by
  unfold stallLimit
  constructor <;> simp

@[simp] theorem stallLimit_tune (p : Nat) (s : State) : (stallLimit p s).tune = s.tune := (stallLimit_kept p s).tune
@[simp] theorem stallLimit_port (p : Nat) (s : State) : (stallLimit p s).port = s.port := (stallLimit_kept p s).port
@[simp] theorem stallLimit_free (p : Nat) (s : State) : (stallLimit p s).free = s.free := (stallLimit_kept p s).free
@[simp] theorem stallLimit_pending (p : Nat) (s : State) : (stallLimit p s).pending = s.pending := (stallLimit_kept p s).pending
@[simp] theorem stallLimit_settings (p : Nat) (s : State) : (stallLimit p s).link.settings = s.link.settings := (stallLimit_kept p s).settings

theorem resetTimeout_kept (p : Nat) (s : State) : Kept s (resetTimeout p s) := by
  unfold resetTimeout
  constructor <;> simp

@[simp] theorem resetTimeout_tune (p : Nat) (s : State) : (resetTimeout p s).tune = s.tune := (resetTimeout_kept p s).tune
@[simp] theorem resetTimeout_port (p : Nat) (s : State) : (resetTimeout p s).port = s.port := (resetTimeout_kept p s).port
@[simp] theorem resetTimeout_free (p : Nat) (s : State) : (resetTimeout p s).free = s.free := (resetTimeout_kept p s).free
@[simp] theorem resetTimeout_pending (p : Nat) (s : State) : (resetTimeout p s).pending = s.pending := (resetTimeout_kept p s).pending
@[simp] theorem resetTimeout_settings (p : Nat) (s : State) : (resetTimeout p s).link.settings = s.link.settings := (resetTimeout_kept p s).settings

theorem pollMissed_kept (p : Nat) (s : State) : Kept s (pollMissed p s) := by
  unfold pollMissed
  constructor <;> (repeat' split) <;> simp

@[simp] theorem pollMissed_tune (p : Nat) (s : State) : (pollMissed p s).tune = s.tune := (pollMissed_kept p s).tune
@[simp] theorem pollMissed_port (p : Nat) (s : State) : (pollMissed p s).port = s.port := (pollMissed_kept p s).port
@[simp] theorem pollMissed_free (p : Nat) (s : State) : (pollMissed p s).free = s.free := (pollMissed_kept p s).free
@[simp] theorem pollMissed_pending (p : Nat) (s : State) : (pollMissed p s).pending = s.pending := (pollMissed_kept p s).pending
@[simp] theorem pollMissed_settings (p : Nat) (s : State) : (pollMissed p s).link.settings = s.link.settings := (pollMissed_kept p s).settings

theorem judgeUndriven_kept (p : Nat) (b : BitVec 5) (s : State) : Kept s (judgeUndriven p b s) := by
  unfold judgeUndriven
  constructor <;> (repeat' split) <;> simp

@[simp] theorem judgeUndriven_tune (p : Nat) (b : BitVec 5) (s : State) : (judgeUndriven p b s).tune = s.tune := (judgeUndriven_kept p b s).tune
@[simp] theorem judgeUndriven_port (p : Nat) (b : BitVec 5) (s : State) : (judgeUndriven p b s).port = s.port := (judgeUndriven_kept p b s).port
@[simp] theorem judgeUndriven_free (p : Nat) (b : BitVec 5) (s : State) : (judgeUndriven p b s).free = s.free := (judgeUndriven_kept p b s).free
@[simp] theorem judgeUndriven_pending (p : Nat) (b : BitVec 5) (s : State) : (judgeUndriven p b s).pending = s.pending := (judgeUndriven_kept p b s).pending
@[simp] theorem judgeUndriven_settings (p : Nat) (b : BitVec 5) (s : State) : (judgeUndriven p b s).link.settings = s.link.settings := (judgeUndriven_kept p b s).settings

theorem judgeDriven_kept (p : Nat) (t : Tower) (b : BitVec 5) (n : Nat) (s : State) : Kept s (judgeDriven p t b n s) := by
  unfold judgeDriven
  constructor <;> (repeat' split) <;> simp <;> (repeat' split) <;> simp

@[simp] theorem judgeDriven_tune (p : Nat) (t : Tower) (b : BitVec 5) (n : Nat) (s : State) : (judgeDriven p t b n s).tune = s.tune := (judgeDriven_kept p t b n s).tune
@[simp] theorem judgeDriven_port (p : Nat) (t : Tower) (b : BitVec 5) (n : Nat) (s : State) : (judgeDriven p t b n s).port = s.port := (judgeDriven_kept p t b n s).port
@[simp] theorem judgeDriven_free (p : Nat) (t : Tower) (b : BitVec 5) (n : Nat) (s : State) : (judgeDriven p t b n s).free = s.free := (judgeDriven_kept p t b n s).free
@[simp] theorem judgeDriven_pending (p : Nat) (t : Tower) (b : BitVec 5) (n : Nat) (s : State) : (judgeDriven p t b n s).pending = s.pending := (judgeDriven_kept p t b n s).pending
@[simp] theorem judgeDriven_settings (p : Nat) (t : Tower) (b : BitVec 5) (n : Nat) (s : State) : (judgeDriven p t b n s).link.settings = s.link.settings := (judgeDriven_kept p t b n s).settings

theorem judgeResetting_kept (p : Nat) (g : ResetStage) (b : BitVec 5) (s : State) : Kept s (judgeResetting p g b s) := by
  unfold judgeResetting
  constructor <;> (repeat' split) <;> simp

@[simp] theorem judgeResetting_tune (p : Nat) (g : ResetStage) (b : BitVec 5) (s : State) : (judgeResetting p g b s).tune = s.tune := (judgeResetting_kept p g b s).tune
@[simp] theorem judgeResetting_port (p : Nat) (g : ResetStage) (b : BitVec 5) (s : State) : (judgeResetting p g b s).port = s.port := (judgeResetting_kept p g b s).port
@[simp] theorem judgeResetting_free (p : Nat) (g : ResetStage) (b : BitVec 5) (s : State) : (judgeResetting p g b s).free = s.free := (judgeResetting_kept p g b s).free
@[simp] theorem judgeResetting_pending (p : Nat) (g : ResetStage) (b : BitVec 5) (s : State) : (judgeResetting p g b s).pending = s.pending := (judgeResetting_kept p g b s).pending
@[simp] theorem judgeResetting_settings (p : Nat) (g : ResetStage) (b : BitVec 5) (s : State) : (judgeResetting p g b s).link.settings = s.link.settings := (judgeResetting_kept p g b s).settings

theorem pollGood_kept (p : Nat) (r : Reading) (s : State) : Kept s (pollGood p r s) := by
  unfold pollGood
  constructor <;> simp <;> (repeat' split) <;> simp

@[simp] theorem pollGood_tune (p : Nat) (r : Reading) (s : State) : (pollGood p r s).tune = s.tune := (pollGood_kept p r s).tune
@[simp] theorem pollGood_port (p : Nat) (r : Reading) (s : State) : (pollGood p r s).port = s.port := (pollGood_kept p r s).port
@[simp] theorem pollGood_free (p : Nat) (r : Reading) (s : State) : (pollGood p r s).free = s.free := (pollGood_kept p r s).free
@[simp] theorem pollGood_pending (p : Nat) (r : Reading) (s : State) : (pollGood p r s).pending = s.pending := (pollGood_kept p r s).pending
@[simp] theorem pollGood_settings (p : Nat) (r : Reading) (s : State) : (pollGood p r s).link.settings = s.link.settings := (pollGood_kept p r s).settings

theorem pollOutcome_kept (p : Nat) (o : LineOutcome) (s : State) : Kept s (pollOutcome p o s) := by
  unfold pollOutcome
  constructor <;> (repeat' split) <;> simp

@[simp] theorem pollOutcome_tune (p : Nat) (o : LineOutcome) (s : State) : (pollOutcome p o s).tune = s.tune := (pollOutcome_kept p o s).tune
@[simp] theorem pollOutcome_port (p : Nat) (o : LineOutcome) (s : State) : (pollOutcome p o s).port = s.port := (pollOutcome_kept p o s).port
@[simp] theorem pollOutcome_free (p : Nat) (o : LineOutcome) (s : State) : (pollOutcome p o s).free = s.free := (pollOutcome_kept p o s).free
@[simp] theorem pollOutcome_pending (p : Nat) (o : LineOutcome) (s : State) : (pollOutcome p o s).pending = s.pending := (pollOutcome_kept p o s).pending
@[simp] theorem pollOutcome_settings (p : Nat) (o : LineOutcome) (s : State) : (pollOutcome p o s).link.settings = s.link.settings := (pollOutcome_kept p o s).settings

theorem resetOutcome_kept (p : Nat) (o : LineOutcome) (s : State) : Kept s (resetOutcome p o s) := by
  unfold resetOutcome
  constructor <;> (repeat' split) <;> simp

@[simp] theorem resetOutcome_tune (p : Nat) (o : LineOutcome) (s : State) : (resetOutcome p o s).tune = s.tune := (resetOutcome_kept p o s).tune
@[simp] theorem resetOutcome_port (p : Nat) (o : LineOutcome) (s : State) : (resetOutcome p o s).port = s.port := (resetOutcome_kept p o s).port
@[simp] theorem resetOutcome_free (p : Nat) (o : LineOutcome) (s : State) : (resetOutcome p o s).free = s.free := (resetOutcome_kept p o s).free
@[simp] theorem resetOutcome_pending (p : Nat) (o : LineOutcome) (s : State) : (resetOutcome p o s).pending = s.pending := (resetOutcome_kept p o s).pending
@[simp] theorem resetOutcome_settings (p : Nat) (o : LineOutcome) (s : State) : (resetOutcome p o s).link.settings = s.link.settings := (resetOutcome_kept p o s).settings

theorem rosterCompletes_kept (s : State) : Kept s (rosterCompletes s) := ⟨rfl, rfl, rfl, rfl, rfl⟩

@[simp] theorem rosterCompletes_tune (s : State) : (rosterCompletes s).tune = s.tune := (rosterCompletes_kept s).tune
@[simp] theorem rosterCompletes_port (s : State) : (rosterCompletes s).port = s.port := (rosterCompletes_kept s).port
@[simp] theorem rosterCompletes_free (s : State) : (rosterCompletes s).free = s.free := (rosterCompletes_kept s).free
@[simp] theorem rosterCompletes_pending (s : State) : (rosterCompletes s).pending = s.pending := (rosterCompletes_kept s).pending
@[simp] theorem rosterCompletes_settings (s : State) : (rosterCompletes s).link.settings = s.link.settings := (rosterCompletes_kept s).settings

theorem clearRoster_kept (s : State) : Kept s (clearRoster s) := ⟨rfl, rfl, rfl, rfl, rfl⟩

@[simp] theorem clearRoster_tune (s : State) : (clearRoster s).tune = s.tune := (clearRoster_kept s).tune
@[simp] theorem clearRoster_port (s : State) : (clearRoster s).port = s.port := (clearRoster_kept s).port
@[simp] theorem clearRoster_free (s : State) : (clearRoster s).free = s.free := (clearRoster_kept s).free
@[simp] theorem clearRoster_pending (s : State) : (clearRoster s).pending = s.pending := (clearRoster_kept s).pending
@[simp] theorem clearRoster_settings (s : State) : (clearRoster s).link.settings = s.link.settings := (clearRoster_kept s).settings

theorem staleReadings_kept (s : State) : Kept s (staleReadings s) := ⟨rfl, rfl, rfl, rfl, rfl⟩

@[simp] theorem staleReadings_tune (s : State) : (staleReadings s).tune = s.tune := (staleReadings_kept s).tune
@[simp] theorem staleReadings_port (s : State) : (staleReadings s).port = s.port := (staleReadings_kept s).port
@[simp] theorem staleReadings_free (s : State) : (staleReadings s).free = s.free := (staleReadings_kept s).free
@[simp] theorem staleReadings_pending (s : State) : (staleReadings s).pending = s.pending := (staleReadings_kept s).pending
@[simp] theorem staleReadings_settings (s : State) : (staleReadings s).link.settings = s.link.settings := (staleReadings_kept s).settings

theorem warnCheck_kept (n p : Nat) (s : State) : Kept s (warnCheck n p s) := by
  unfold warnCheck
  constructor <;> (repeat' split) <;> simp

@[simp] theorem warnCheck_tune (n p : Nat) (s : State) : (warnCheck n p s).tune = s.tune := (warnCheck_kept n p s).tune
@[simp] theorem warnCheck_port (n p : Nat) (s : State) : (warnCheck n p s).port = s.port := (warnCheck_kept n p s).port
@[simp] theorem warnCheck_free (n p : Nat) (s : State) : (warnCheck n p s).free = s.free := (warnCheck_kept n p s).free
@[simp] theorem warnCheck_pending (n p : Nat) (s : State) : (warnCheck n p s).pending = s.pending := (warnCheck_kept n p s).pending
@[simp] theorem warnCheck_settings (n p : Nat) (s : State) : (warnCheck n p s).link.settings = s.link.settings := (warnCheck_kept n p s).settings

theorem foldl_kept {α : Type} (g : State → α → State) (h : ∀ s a, Kept s (g s a)) (l : List α) (s : State) :
    Kept s (l.foldl g s) := by
  induction l generalizing s with
  | nil => exact ⟨rfl, rfl, rfl, rfl, rfl⟩
  | cons a l ih =>
    exact (h s a).trans (ih (g s a))

theorem warnChecks_kept (s : State) : Kept s (warnChecks s) := foldl_kept _ (fun s p => warnCheck_kept _ p s) _ _

@[simp] theorem warnChecks_tune (s : State) : (warnChecks s).tune = s.tune := (warnChecks_kept s).tune
@[simp] theorem warnChecks_port (s : State) : (warnChecks s).port = s.port := (warnChecks_kept s).port
@[simp] theorem warnChecks_free (s : State) : (warnChecks s).free = s.free := (warnChecks_kept s).free
@[simp] theorem warnChecks_pending (s : State) : (warnChecks s).pending = s.pending := (warnChecks_kept s).pending
@[simp] theorem warnChecks_settings (s : State) : (warnChecks s).link.settings = s.link.settings := (warnChecks_kept s).settings

theorem writeTowers_kept (w : Option Nat) (s : State) : Kept s (writeTowers w s) := ⟨rfl, rfl, rfl, rfl, rfl⟩

@[simp] theorem writeTowers_tune (w : Option Nat) (s : State) : (writeTowers w s).tune = s.tune := (writeTowers_kept w s).tune
@[simp] theorem writeTowers_port (w : Option Nat) (s : State) : (writeTowers w s).port = s.port := (writeTowers_kept w s).port
@[simp] theorem writeTowers_free (w : Option Nat) (s : State) : (writeTowers w s).free = s.free := (writeTowers_kept w s).free
@[simp] theorem writeTowers_pending (w : Option Nat) (s : State) : (writeTowers w s).pending = s.pending := (writeTowers_kept w s).pending
@[simp] theorem writeTowers_settings (w : Option Nat) (s : State) : (writeTowers w s).link.settings = s.link.settings := (writeTowers_kept w s).settings

theorem takeJogMet_kept (s : State) : Kept s (takeJogMet s) := by
  unfold takeJogMet
  constructor <;> (repeat' split) <;> simp

@[simp] theorem takeJogMet_tune (s : State) : (takeJogMet s).tune = s.tune := (takeJogMet_kept s).tune
@[simp] theorem takeJogMet_port (s : State) : (takeJogMet s).port = s.port := (takeJogMet_kept s).port
@[simp] theorem takeJogMet_free (s : State) : (takeJogMet s).free = s.free := (takeJogMet_kept s).free
@[simp] theorem takeJogMet_pending (s : State) : (takeJogMet s).pending = s.pending := (takeJogMet_kept s).pending
@[simp] theorem takeJogMet_settings (s : State) : (takeJogMet s).link.settings = s.link.settings := (takeJogMet_kept s).settings

theorem countJogRound_kept (j : Jog) (s : State) : Kept s (countJogRound j s) := by
  unfold countJogRound
  constructor <;> (repeat' split) <;> simp

@[simp] theorem countJogRound_tune (j : Jog) (s : State) : (countJogRound j s).tune = s.tune := (countJogRound_kept j s).tune
@[simp] theorem countJogRound_port (j : Jog) (s : State) : (countJogRound j s).port = s.port := (countJogRound_kept j s).port
@[simp] theorem countJogRound_free (j : Jog) (s : State) : (countJogRound j s).free = s.free := (countJogRound_kept j s).free
@[simp] theorem countJogRound_pending (j : Jog) (s : State) : (countJogRound j s).pending = s.pending := (countJogRound_kept j s).pending
@[simp] theorem countJogRound_settings (j : Jog) (s : State) : (countJogRound j s).link.settings = s.link.settings := (countJogRound_kept j s).settings

theorem takeRest_kept (b : Bool) (s : State) : Kept s (takeRest b s) := by
  unfold takeRest
  constructor <;> (repeat' split) <;> simp

@[simp] theorem takeRest_tune (b : Bool) (s : State) : (takeRest b s).tune = s.tune := (takeRest_kept b s).tune
@[simp] theorem takeRest_port (b : Bool) (s : State) : (takeRest b s).port = s.port := (takeRest_kept b s).port
@[simp] theorem takeRest_free (b : Bool) (s : State) : (takeRest b s).free = s.free := (takeRest_kept b s).free
@[simp] theorem takeRest_pending (b : Bool) (s : State) : (takeRest b s).pending = s.pending := (takeRest_kept b s).pending
@[simp] theorem takeRest_settings (b : Bool) (s : State) : (takeRest b s).link.settings = s.link.settings := (takeRest_kept b s).settings

theorem makeReports_kept (m : Option Nat) (w j r : Bool) (s : State) : Kept s (makeReports m w j r s) := by
  unfold makeReports
  constructor <;> (repeat' split) <;> simp

@[simp] theorem makeReports_tune (m : Option Nat) (w j r : Bool) (s : State) : (makeReports m w j r s).tune = s.tune := (makeReports_kept m w j r s).tune
@[simp] theorem makeReports_port (m : Option Nat) (w j r : Bool) (s : State) : (makeReports m w j r s).port = s.port := (makeReports_kept m w j r s).port
@[simp] theorem makeReports_free (m : Option Nat) (w j r : Bool) (s : State) : (makeReports m w j r s).free = s.free := (makeReports_kept m w j r s).free
@[simp] theorem makeReports_pending (m : Option Nat) (w j r : Bool) (s : State) : (makeReports m w j r s).pending = s.pending := (makeReports_kept m w j r s).pending
@[simp] theorem makeReports_settings (m : Option Nat) (w j r : Bool) (s : State) : (makeReports m w j r s).link.settings = s.link.settings := (makeReports_kept m w j r s).settings

theorem ageRequests_kept (s : State) : Kept s (ageRequests s) := by
  unfold ageRequests
  constructor <;> (repeat' split) <;> simp

@[simp] theorem ageRequests_tune (s : State) : (ageRequests s).tune = s.tune := (ageRequests_kept s).tune
@[simp] theorem ageRequests_port (s : State) : (ageRequests s).port = s.port := (ageRequests_kept s).port
@[simp] theorem ageRequests_free (s : State) : (ageRequests s).free = s.free := (ageRequests_kept s).free
@[simp] theorem ageRequests_pending (s : State) : (ageRequests s).pending = s.pending := (ageRequests_kept s).pending
@[simp] theorem ageRequests_settings (s : State) : (ageRequests s).link.settings = s.link.settings := (ageRequests_kept s).settings

theorem startRound_kept (s : State) : Kept s (startRound s) := by
  unfold startRound
  constructor <;> simp [Link.startRound]

@[simp] theorem startRound_tune (s : State) : (startRound s).tune = s.tune := (startRound_kept s).tune
@[simp] theorem startRound_port (s : State) : (startRound s).port = s.port := (startRound_kept s).port
@[simp] theorem startRound_free (s : State) : (startRound s).free = s.free := (startRound_kept s).free
@[simp] theorem startRound_pending (s : State) : (startRound s).pending = s.pending := (startRound_kept s).pending
@[simp] theorem startRound_settings (s : State) : (startRound s).link.settings = s.link.settings := (startRound_kept s).settings

theorem beginPoll_kept (p : Nat) (s : State) : Kept s (beginPoll p s) := by
  unfold beginPoll
  constructor <;> simp [Link.begin]

@[simp] theorem beginPoll_tune (p : Nat) (s : State) : (beginPoll p s).tune = s.tune := (beginPoll_kept p s).tune
@[simp] theorem beginPoll_port (p : Nat) (s : State) : (beginPoll p s).port = s.port := (beginPoll_kept p s).port
@[simp] theorem beginPoll_free (p : Nat) (s : State) : (beginPoll p s).free = s.free := (beginPoll_kept p s).free
@[simp] theorem beginPoll_pending (p : Nat) (s : State) : (beginPoll p s).pending = s.pending := (beginPoll_kept p s).pending
@[simp] theorem beginPoll_settings (p : Nat) (s : State) : (beginPoll p s).link.settings = s.link.settings := (beginPoll_kept p s).settings

theorem beginReset_kept (p : Nat) (s : State) : Kept s (beginReset p s) := by
  unfold beginReset
  constructor <;> simp [Link.begin]

@[simp] theorem beginReset_tune (p : Nat) (s : State) : (beginReset p s).tune = s.tune := (beginReset_kept p s).tune
@[simp] theorem beginReset_port (p : Nat) (s : State) : (beginReset p s).port = s.port := (beginReset_kept p s).port
@[simp] theorem beginReset_free (p : Nat) (s : State) : (beginReset p s).free = s.free := (beginReset_kept p s).free
@[simp] theorem beginReset_pending (p : Nat) (s : State) : (beginReset p s).pending = s.pending := (beginReset_kept p s).pending
@[simp] theorem beginReset_settings (p : Nat) (s : State) : (beginReset p s).link.settings = s.link.settings := (beginReset_kept p s).settings

theorem beginService_kept (n : Nat) (r : Request) (s : State) : Kept s (beginService n r s) := by
  unfold beginService
  constructor <;> simp [Link.begin]

@[simp] theorem beginService_tune (n : Nat) (r : Request) (s : State) : (beginService n r s).tune = s.tune := (beginService_kept n r s).tune
@[simp] theorem beginService_port (n : Nat) (r : Request) (s : State) : (beginService n r s).port = s.port := (beginService_kept n r s).port
@[simp] theorem beginService_free (n : Nat) (r : Request) (s : State) : (beginService n r s).free = s.free := (beginService_kept n r s).free
@[simp] theorem beginService_pending (n : Nat) (r : Request) (s : State) : (beginService n r s).pending = s.pending := (beginService_kept n r s).pending
@[simp] theorem beginService_settings (n : Nat) (r : Request) (s : State) : (beginService n r s).link.settings = s.link.settings := (beginService_kept n r s).settings

theorem closePhase_kept (s : State) : Kept s (closePhase s) := by
  unfold closePhase
  constructor <;> simp

@[simp] theorem closePhase_tune (s : State) : (closePhase s).tune = s.tune := (closePhase_kept s).tune
@[simp] theorem closePhase_port (s : State) : (closePhase s).port = s.port := (closePhase_kept s).port
@[simp] theorem closePhase_free (s : State) : (closePhase s).free = s.free := (closePhase_kept s).free
@[simp] theorem closePhase_pending (s : State) : (closePhase s).pending = s.pending := (closePhase_kept s).pending
@[simp] theorem closePhase_settings (s : State) : (closePhase s).link.settings = s.link.settings := (closePhase_kept s).settings

theorem resetBegins_kept (s : State) : Kept s (resetBegins s) := by
  unfold resetBegins
  constructor <;> (repeat' split) <;> simp

@[simp] theorem resetBegins_tune (s : State) : (resetBegins s).tune = s.tune := (resetBegins_kept s).tune
@[simp] theorem resetBegins_port (s : State) : (resetBegins s).port = s.port := (resetBegins_kept s).port
@[simp] theorem resetBegins_free (s : State) : (resetBegins s).free = s.free := (resetBegins_kept s).free
@[simp] theorem resetBegins_pending (s : State) : (resetBegins s).pending = s.pending := (resetBegins_kept s).pending
@[simp] theorem resetBegins_settings (s : State) : (resetBegins s).link.settings = s.link.settings := (resetBegins_kept s).settings

theorem serviceBegins_kept (s : State) : Kept s (serviceBegins s) := by
  unfold serviceBegins
  constructor <;> (repeat' split) <;> simp

@[simp] theorem serviceBegins_tune (s : State) : (serviceBegins s).tune = s.tune := (serviceBegins_kept s).tune
@[simp] theorem serviceBegins_port (s : State) : (serviceBegins s).port = s.port := (serviceBegins_kept s).port
@[simp] theorem serviceBegins_free (s : State) : (serviceBegins s).free = s.free := (serviceBegins_kept s).free
@[simp] theorem serviceBegins_pending (s : State) : (serviceBegins s).pending = s.pending := (serviceBegins_kept s).pending
@[simp] theorem serviceBegins_settings (s : State) : (serviceBegins s).link.settings = s.link.settings := (serviceBegins_kept s).settings

theorem deliver_kept (x : Exchange) (o : LineOutcome) (s : State) : Kept s (deliver x o s) := by
  unfold deliver
  constructor <;> (repeat' split) <;> simp

@[simp] theorem deliver_tune (x : Exchange) (o : LineOutcome) (s : State) : (deliver x o s).tune = s.tune := (deliver_kept x o s).tune
@[simp] theorem deliver_port (x : Exchange) (o : LineOutcome) (s : State) : (deliver x o s).port = s.port := (deliver_kept x o s).port
@[simp] theorem deliver_free (x : Exchange) (o : LineOutcome) (s : State) : (deliver x o s).free = s.free := (deliver_kept x o s).free
@[simp] theorem deliver_pending (x : Exchange) (o : LineOutcome) (s : State) : (deliver x o s).pending = s.pending := (deliver_kept x o s).pending
@[simp] theorem deliver_settings (x : Exchange) (o : LineOutcome) (s : State) : (deliver x o s).link.settings = s.link.settings := (deliver_kept x o s).settings

theorem driveOnline_kept (s : State) : Kept s (driveOnline s) := ⟨rfl, rfl, rfl, rfl, rfl⟩

@[simp] theorem driveOnline_tune (s : State) : (driveOnline s).tune = s.tune := (driveOnline_kept s).tune
@[simp] theorem driveOnline_port (s : State) : (driveOnline s).port = s.port := (driveOnline_kept s).port
@[simp] theorem driveOnline_free (s : State) : (driveOnline s).free = s.free := (driveOnline_kept s).free
@[simp] theorem driveOnline_pending (s : State) : (driveOnline s).pending = s.pending := (driveOnline_kept s).pending
@[simp] theorem driveOnline_settings (s : State) : (driveOnline s).link.settings = s.link.settings := (driveOnline_kept s).settings

theorem startTimerStarts_kept (s : State) : Kept s (startTimerStarts s) := by
  unfold startTimerStarts
  constructor <;> (repeat' split) <;> simp

@[simp] theorem startTimerStarts_tune (s : State) : (startTimerStarts s).tune = s.tune := (startTimerStarts_kept s).tune
@[simp] theorem startTimerStarts_port (s : State) : (startTimerStarts s).port = s.port := (startTimerStarts_kept s).port
@[simp] theorem startTimerStarts_free (s : State) : (startTimerStarts s).free = s.free := (startTimerStarts_kept s).free
@[simp] theorem startTimerStarts_pending (s : State) : (startTimerStarts s).pending = s.pending := (startTimerStarts_kept s).pending
@[simp] theorem startTimerStarts_settings (s : State) : (startTimerStarts s).link.settings = s.link.settings := (startTimerStarts_kept s).settings

theorem faceStart_kept (d : Direction) (e : Option Nat) (s : State) : Kept s (faceStart d e s) := by
  unfold faceStart
  constructor <;> (repeat' split) <;> simp

@[simp] theorem faceStart_tune (d : Direction) (e : Option Nat) (s : State) : (faceStart d e s).tune = s.tune := (faceStart_kept d e s).tune
@[simp] theorem faceStart_port (d : Direction) (e : Option Nat) (s : State) : (faceStart d e s).port = s.port := (faceStart_kept d e s).port
@[simp] theorem faceStart_free (d : Direction) (e : Option Nat) (s : State) : (faceStart d e s).free = s.free := (faceStart_kept d e s).free
@[simp] theorem faceStart_pending (d : Direction) (e : Option Nat) (s : State) : (faceStart d e s).pending = s.pending := (faceStart_kept d e s).pending
@[simp] theorem faceStart_settings (d : Direction) (e : Option Nat) (s : State) : (faceStart d e s).link.settings = s.link.settings := (faceStart_kept d e s).settings

theorem acceptStart_kept (d : Direction) (e : Option Nat) (s : State) : Kept s (acceptStart d e s) := by
  unfold acceptStart
  constructor <;> simp

@[simp] theorem acceptStart_tune (d : Direction) (e : Option Nat) (s : State) : (acceptStart d e s).tune = s.tune := (acceptStart_kept d e s).tune
@[simp] theorem acceptStart_port (d : Direction) (e : Option Nat) (s : State) : (acceptStart d e s).port = s.port := (acceptStart_kept d e s).port
@[simp] theorem acceptStart_free (d : Direction) (e : Option Nat) (s : State) : (acceptStart d e s).free = s.free := (acceptStart_kept d e s).free
@[simp] theorem acceptStart_pending (d : Direction) (e : Option Nat) (s : State) : (acceptStart d e s).pending = s.pending := (acceptStart_kept d e s).pending
@[simp] theorem acceptStart_settings (d : Direction) (e : Option Nat) (s : State) : (acceptStart d e s).link.settings = s.link.settings := (acceptStart_kept d e s).settings

theorem acceptJog_kept (j : Jog) (s : State) : Kept s (acceptJog j s) := by
  unfold acceptJog
  constructor <;> simp

@[simp] theorem acceptJog_tune (j : Jog) (s : State) : (acceptJog j s).tune = s.tune := (acceptJog_kept j s).tune
@[simp] theorem acceptJog_port (j : Jog) (s : State) : (acceptJog j s).port = s.port := (acceptJog_kept j s).port
@[simp] theorem acceptJog_free (j : Jog) (s : State) : (acceptJog j s).free = s.free := (acceptJog_kept j s).free
@[simp] theorem acceptJog_pending (j : Jog) (s : State) : (acceptJog j s).pending = s.pending := (acceptJog_kept j s).pending
@[simp] theorem acceptJog_settings (j : Jog) (s : State) : (acceptJog j s).link.settings = s.link.settings := (acceptJog_kept j s).settings

theorem startExpires_kept (s : State) : Kept s (startExpires s) := by
  unfold startExpires
  constructor <;> simp

@[simp] theorem startExpires_tune (s : State) : (startExpires s).tune = s.tune := (startExpires_kept s).tune
@[simp] theorem startExpires_port (s : State) : (startExpires s).port = s.port := (startExpires_kept s).port
@[simp] theorem startExpires_free (s : State) : (startExpires s).free = s.free := (startExpires_kept s).free
@[simp] theorem startExpires_pending (s : State) : (startExpires s).pending = s.pending := (startExpires_kept s).pending
@[simp] theorem startExpires_settings (s : State) : (startExpires s).link.settings = s.link.settings := (startExpires_kept s).settings

theorem reversalExpires_kept (s : State) : Kept s (reversalExpires s) := by
  unfold reversalExpires
  constructor <;> simp

@[simp] theorem reversalExpires_tune (s : State) : (reversalExpires s).tune = s.tune := (reversalExpires_kept s).tune
@[simp] theorem reversalExpires_port (s : State) : (reversalExpires s).port = s.port := (reversalExpires_kept s).port
@[simp] theorem reversalExpires_free (s : State) : (reversalExpires s).free = s.free := (reversalExpires_kept s).free
@[simp] theorem reversalExpires_pending (s : State) : (reversalExpires s).pending = s.pending := (reversalExpires_kept s).pending
@[simp] theorem reversalExpires_settings (s : State) : (reversalExpires s).link.settings = s.link.settings := (reversalExpires_kept s).settings

theorem loopChanges_kept (b : Bool) (s : State) : Kept s (loopChanges b s) := by
  unfold loopChanges
  constructor <;> (repeat' split) <;> simp

@[simp] theorem loopChanges_tune (b : Bool) (s : State) : (loopChanges b s).tune = s.tune := (loopChanges_kept b s).tune
@[simp] theorem loopChanges_port (b : Bool) (s : State) : (loopChanges b s).port = s.port := (loopChanges_kept b s).port
@[simp] theorem loopChanges_free (b : Bool) (s : State) : (loopChanges b s).free = s.free := (loopChanges_kept b s).free
@[simp] theorem loopChanges_pending (b : Bool) (s : State) : (loopChanges b s).pending = s.pending := (loopChanges_kept b s).pending
@[simp] theorem loopChanges_settings (b : Bool) (s : State) : (loopChanges b s).link.settings = s.link.settings := (loopChanges_kept b s).settings

theorem goOnline_kept (s : State) : Kept s (goOnline s) := by
  unfold goOnline
  constructor <;> simp

@[simp] theorem goOnline_tune (s : State) : (goOnline s).tune = s.tune := (goOnline_kept s).tune
@[simp] theorem goOnline_port (s : State) : (goOnline s).port = s.port := (goOnline_kept s).port
@[simp] theorem goOnline_free (s : State) : (goOnline s).free = s.free := (goOnline_kept s).free
@[simp] theorem goOnline_pending (s : State) : (goOnline s).pending = s.pending := (goOnline_kept s).pending
@[simp] theorem goOnline_settings (s : State) : (goOnline s).link.settings = s.link.settings := (goOnline_kept s).settings

theorem unreachableSlot_kept (n : Nat) (s : State) : Kept s (unreachableSlot n s) := by
  unfold unreachableSlot
  constructor <;> simp

@[simp] theorem unreachableSlot_tune (n : Nat) (s : State) : (unreachableSlot n s).tune = s.tune := (unreachableSlot_kept n s).tune
@[simp] theorem unreachableSlot_port (n : Nat) (s : State) : (unreachableSlot n s).port = s.port := (unreachableSlot_kept n s).port
@[simp] theorem unreachableSlot_free (n : Nat) (s : State) : (unreachableSlot n s).free = s.free := (unreachableSlot_kept n s).free
@[simp] theorem unreachableSlot_pending (n : Nat) (s : State) : (unreachableSlot n s).pending = s.pending := (unreachableSlot_kept n s).pending
@[simp] theorem unreachableSlot_settings (n : Nat) (s : State) : (unreachableSlot n s).link.settings = s.link.settings := (unreachableSlot_kept n s).settings

theorem stepStart_kept (s : State) : Kept s (stepStart s) := by
  unfold stepStart
  constructor <;> (repeat' split) <;> simp

@[simp] theorem stepStart_tune (s : State) : (stepStart s).tune = s.tune := (stepStart_kept s).tune
@[simp] theorem stepStart_port (s : State) : (stepStart s).port = s.port := (stepStart_kept s).port
@[simp] theorem stepStart_free (s : State) : (stepStart s).free = s.free := (stepStart_kept s).free
@[simp] theorem stepStart_pending (s : State) : (stepStart s).pending = s.pending := (stepStart_kept s).pending
@[simp] theorem stepStart_settings (s : State) : (stepStart s).link.settings = s.link.settings := (stepStart_kept s).settings

theorem stepDwell_kept (s : State) : Kept s (stepDwell s) := by
  unfold stepDwell
  constructor <;> (repeat' split) <;> simp

@[simp] theorem stepDwell_tune (s : State) : (stepDwell s).tune = s.tune := (stepDwell_kept s).tune
@[simp] theorem stepDwell_port (s : State) : (stepDwell s).port = s.port := (stepDwell_kept s).port
@[simp] theorem stepDwell_free (s : State) : (stepDwell s).free = s.free := (stepDwell_kept s).free
@[simp] theorem stepDwell_pending (s : State) : (stepDwell s).pending = s.pending := (stepDwell_kept s).pending
@[simp] theorem stepDwell_settings (s : State) : (stepDwell s).link.settings = s.link.settings := (stepDwell_kept s).settings

theorem stepReversal_kept (s : State) : Kept s (stepReversal s) := by
  unfold stepReversal
  constructor <;> (repeat' split) <;> simp

@[simp] theorem stepReversal_tune (s : State) : (stepReversal s).tune = s.tune := (stepReversal_kept s).tune
@[simp] theorem stepReversal_port (s : State) : (stepReversal s).port = s.port := (stepReversal_kept s).port
@[simp] theorem stepReversal_free (s : State) : (stepReversal s).free = s.free := (stepReversal_kept s).free
@[simp] theorem stepReversal_pending (s : State) : (stepReversal s).pending = s.pending := (stepReversal_kept s).pending
@[simp] theorem stepReversal_settings (s : State) : (stepReversal s).link.settings = s.link.settings := (stepReversal_kept s).settings

theorem stepReset_kept (p : Nat) (s : State) : Kept s (stepReset p s) := by
  unfold stepReset
  constructor <;> (repeat' split) <;> simp

@[simp] theorem stepReset_tune (p : Nat) (s : State) : (stepReset p s).tune = s.tune := (stepReset_kept p s).tune
@[simp] theorem stepReset_port (p : Nat) (s : State) : (stepReset p s).port = s.port := (stepReset_kept p s).port
@[simp] theorem stepReset_free (p : Nat) (s : State) : (stepReset p s).free = s.free := (stepReset_kept p s).free
@[simp] theorem stepReset_pending (p : Nat) (s : State) : (stepReset p s).pending = s.pending := (stepReset_kept p s).pending
@[simp] theorem stepReset_settings (p : Nat) (s : State) : (stepReset p s).link.settings = s.link.settings := (stepReset_kept p s).settings

theorem stepResets_kept (s : State) :
    Kept s ((List.range' 1 Config.positions).foldl (fun s p => stepReset p s) s) :=
  foldl_kept _ (fun s p => stepReset_kept p s) _ _

theorem stepTimers_kept (s : State) : Kept s (stepTimers s) := by
  unfold stepTimers
  exact ((stepStart_kept s).trans (stepDwell_kept _)).trans ((stepReversal_kept _).trans (stepResets_kept _))

@[simp] theorem stepTimers_tune (s : State) : (stepTimers s).tune = s.tune := (stepTimers_kept s).tune
@[simp] theorem stepTimers_port (s : State) : (stepTimers s).port = s.port := (stepTimers_kept s).port
@[simp] theorem stepTimers_free (s : State) : (stepTimers s).free = s.free := (stepTimers_kept s).free
@[simp] theorem stepTimers_pending (s : State) : (stepTimers s).pending = s.pending := (stepTimers_kept s).pending
@[simp] theorem stepTimers_settings (s : State) : (stepTimers s).link.settings = s.link.settings := (stepTimers_kept s).settings

theorem lineRuns_kept (n : Nat) (s : State) : Kept s (lineRuns n s) := by
  unfold lineRuns
  split <;> exact ⟨rfl, rfl, rfl, rfl, rfl⟩

theorem runSteps_kept (going : State → Bool) (k n : Nat) (s : State) : Kept s (runSteps going k n s) := by
  induction k generalizing n s with
  | zero => exact lineRuns_kept _ _
  | succ k ih =>
    have h : Kept s (stepTimers (lineRuns s.link.toStep s)) := (lineRuns_kept _ s).trans (stepTimers_kept _)
    unfold runSteps
    dsimp only
    split
    · exact lineRuns_kept _ _
    · split
      · exact h.trans (ih _ _)
      · exact h

theorem timePasses_kept (n : Nat) (s : State) : Kept s (timePasses n s) := runSteps_kept _ _ _ _

theorem timePassesWhile_kept (going : State → Bool) (n : Nat) (s : State) : Kept s (timePassesWhile going n s) :=
  runSteps_kept _ _ _ _

@[simp] theorem timePasses_tune (n : Nat) (s : State) : (timePasses n s).tune = s.tune := (timePasses_kept n s).tune
@[simp] theorem timePasses_port (n : Nat) (s : State) : (timePasses n s).port = s.port := (timePasses_kept n s).port
@[simp] theorem timePasses_free (n : Nat) (s : State) : (timePasses n s).free = s.free := (timePasses_kept n s).free
@[simp] theorem timePasses_pending (n : Nat) (s : State) : (timePasses n s).pending = s.pending := (timePasses_kept n s).pending
@[simp] theorem timePasses_settings (n : Nat) (s : State) : (timePasses n s).link.settings = s.link.settings := (timePasses_kept n s).settings

theorem requestEnds_kept (x : Exchange) (s : State) : Kept s (requestEnds x s) := by
  exact ⟨rfl, rfl, rfl, rfl, rfl⟩

@[simp] theorem requestEnds_tune (x : Exchange) (s : State) : (requestEnds x s).tune = s.tune := (requestEnds_kept x s).tune
@[simp] theorem requestEnds_port (x : Exchange) (s : State) : (requestEnds x s).port = s.port := (requestEnds_kept x s).port
@[simp] theorem requestEnds_free (x : Exchange) (s : State) : (requestEnds x s).free = s.free := (requestEnds_kept x s).free
@[simp] theorem requestEnds_pending (x : Exchange) (s : State) : (requestEnds x s).pending = s.pending := (requestEnds_kept x s).pending
@[simp] theorem requestEnds_settings (x : Exchange) (s : State) : (requestEnds x s).link.settings = s.link.settings := (requestEnds_kept x s).settings

theorem lineFallsIdle_kept (s : State) : Kept s (lineFallsIdle s) := by
  unfold lineFallsIdle
  split <;> exact ⟨rfl, rfl, rfl, rfl, rfl⟩

@[simp] theorem lineFallsIdle_tune (s : State) : (lineFallsIdle s).tune = s.tune := (lineFallsIdle_kept s).tune
@[simp] theorem lineFallsIdle_port (s : State) : (lineFallsIdle s).port = s.port := (lineFallsIdle_kept s).port
@[simp] theorem lineFallsIdle_free (s : State) : (lineFallsIdle s).free = s.free := (lineFallsIdle_kept s).free
@[simp] theorem lineFallsIdle_pending (s : State) : (lineFallsIdle s).pending = s.pending := (lineFallsIdle_kept s).pending
@[simp] theorem lineFallsIdle_settings (s : State) : (lineFallsIdle s).link.settings = s.link.settings := (lineFallsIdle_kept s).settings

theorem refreshSnapshot_slots (n : Nat) (s : State) : KeptSlots s (refreshSnapshot n s) :=
  ⟨rfl, rfl, rfl, rfl, rfl, rfl, rfl, rfl, rfl, rfl⟩

@[simp] theorem sendBreak_settings (l : Link) : l.sendBreak.settings = l.settings := rfl
@[simp] theorem breakOnFree_settings' (l : Link) : l.breakOnFree.settings = l.settings := breakOnFree_settings l

theorem computation_kept (s : State) : KeptSlots s (computation s) := by
  unfold computation
  exact (((writeTowers_kept _ s).trans (warnChecks_kept _)).trans (makeReports_kept _ _ _ _ _)).slots.trans
    (refreshSnapshot_slots _ _)

@[simp] theorem computation_tune (s : State) : (computation s).tune = s.tune := (computation_kept s).tune
@[simp] theorem computation_command (s : State) : (computation s).port.command = s.port.command := (computation_kept s).command
@[simp] theorem computation_response (s : State) : (computation s).port.response = s.port.response := (computation_kept s).response
@[simp] theorem computation_rdy (s : State) : (computation s).port.rdy = s.port.rdy := (computation_kept s).rdy
@[simp] theorem computation_transaction (s : State) : (computation s).port.transaction = s.port.transaction := (computation_kept s).transaction
@[simp] theorem computation_dropped (s : State) : (computation s).port.dropped = s.port.dropped := (computation_kept s).dropped
@[simp] theorem computation_mask (s : State) : (computation s).port.mask = s.port.mask := (computation_kept s).mask
@[simp] theorem computation_free (s : State) : (computation s).free = s.free := (computation_kept s).free
@[simp] theorem computation_pending (s : State) : (computation s).pending = s.pending := (computation_kept s).pending
@[simp] theorem computation_settings (s : State) : (computation s).link.settings = s.link.settings := (computation_kept s).settings

theorem pollComplete_kept (s : State) : KeptSlots s (pollComplete s) := by
  unfold pollComplete
  constructor <;> simp

@[simp] theorem pollComplete_tune (s : State) : (pollComplete s).tune = s.tune := (pollComplete_kept s).tune
@[simp] theorem pollComplete_command (s : State) : (pollComplete s).port.command = s.port.command := (pollComplete_kept s).command
@[simp] theorem pollComplete_response (s : State) : (pollComplete s).port.response = s.port.response := (pollComplete_kept s).response
@[simp] theorem pollComplete_rdy (s : State) : (pollComplete s).port.rdy = s.port.rdy := (pollComplete_kept s).rdy
@[simp] theorem pollComplete_transaction (s : State) : (pollComplete s).port.transaction = s.port.transaction := (pollComplete_kept s).transaction
@[simp] theorem pollComplete_dropped (s : State) : (pollComplete s).port.dropped = s.port.dropped := (pollComplete_kept s).dropped
@[simp] theorem pollComplete_mask (s : State) : (pollComplete s).port.mask = s.port.mask := (pollComplete_kept s).mask
@[simp] theorem pollComplete_free (s : State) : (pollComplete s).free = s.free := (pollComplete_kept s).free
@[simp] theorem pollComplete_pending (s : State) : (pollComplete s).pending = s.pending := (pollComplete_kept s).pending
@[simp] theorem pollComplete_settings (s : State) : (pollComplete s).link.settings = s.link.settings := (pollComplete_kept s).settings

theorem settlePoll_kept (s : State) : KeptSlots s (settlePoll s) := by
  unfold settlePoll
  constructor <;> (repeat' split) <;> simp

@[simp] theorem settlePoll_tune (s : State) : (settlePoll s).tune = s.tune := (settlePoll_kept s).tune
@[simp] theorem settlePoll_command (s : State) : (settlePoll s).port.command = s.port.command := (settlePoll_kept s).command
@[simp] theorem settlePoll_response (s : State) : (settlePoll s).port.response = s.port.response := (settlePoll_kept s).response
@[simp] theorem settlePoll_rdy (s : State) : (settlePoll s).port.rdy = s.port.rdy := (settlePoll_kept s).rdy
@[simp] theorem settlePoll_transaction (s : State) : (settlePoll s).port.transaction = s.port.transaction := (settlePoll_kept s).transaction
@[simp] theorem settlePoll_dropped (s : State) : (settlePoll s).port.dropped = s.port.dropped := (settlePoll_kept s).dropped
@[simp] theorem settlePoll_mask (s : State) : (settlePoll s).port.mask = s.port.mask := (settlePoll_kept s).mask
@[simp] theorem settlePoll_free (s : State) : (settlePoll s).free = s.free := (settlePoll_kept s).free
@[simp] theorem settlePoll_pending (s : State) : (settlePoll s).pending = s.pending := (settlePoll_kept s).pending
@[simp] theorem settlePoll_settings (s : State) : (settlePoll s).link.settings = s.link.settings := (settlePoll_kept s).settings

theorem skipPolls_kept (p : Nat) (s : State) : KeptSlots s (skipPolls p s) := by
  unfold skipPolls
  have h := foldl_kept (fun s q => pollOutcome q .skipped s) (fun s q => pollOutcome_kept q .skipped s)
    (s.link.settings.positions.filter (p ≤ ·)) s
  constructor <;> simp [h.tune, h.port, h.free, h.pending, h.settings]

@[simp] theorem skipPolls_tune (p : Nat) (s : State) : (skipPolls p s).tune = s.tune := (skipPolls_kept p s).tune
@[simp] theorem skipPolls_command (p : Nat) (s : State) : (skipPolls p s).port.command = s.port.command := (skipPolls_kept p s).command
@[simp] theorem skipPolls_response (p : Nat) (s : State) : (skipPolls p s).port.response = s.port.response := (skipPolls_kept p s).response
@[simp] theorem skipPolls_rdy (p : Nat) (s : State) : (skipPolls p s).port.rdy = s.port.rdy := (skipPolls_kept p s).rdy
@[simp] theorem skipPolls_transaction (p : Nat) (s : State) : (skipPolls p s).port.transaction = s.port.transaction := (skipPolls_kept p s).transaction
@[simp] theorem skipPolls_dropped (p : Nat) (s : State) : (skipPolls p s).port.dropped = s.port.dropped := (skipPolls_kept p s).dropped
@[simp] theorem skipPolls_mask (p : Nat) (s : State) : (skipPolls p s).port.mask = s.port.mask := (skipPolls_kept p s).mask
@[simp] theorem skipPolls_free (p : Nat) (s : State) : (skipPolls p s).free = s.free := (skipPolls_kept p s).free
@[simp] theorem skipPolls_pending (p : Nat) (s : State) : (skipPolls p s).pending = s.pending := (skipPolls_kept p s).pending
@[simp] theorem skipPolls_settings (p : Nat) (s : State) : (skipPolls p s).link.settings = s.link.settings := (skipPolls_kept p s).settings

theorem pollBegins_kept (s : State) : KeptSlots s (pollBegins s) := by
  unfold pollBegins
  constructor <;> (repeat' split) <;> simp

@[simp] theorem pollBegins_tune (s : State) : (pollBegins s).tune = s.tune := (pollBegins_kept s).tune
@[simp] theorem pollBegins_command (s : State) : (pollBegins s).port.command = s.port.command := (pollBegins_kept s).command
@[simp] theorem pollBegins_response (s : State) : (pollBegins s).port.response = s.port.response := (pollBegins_kept s).response
@[simp] theorem pollBegins_rdy (s : State) : (pollBegins s).port.rdy = s.port.rdy := (pollBegins_kept s).rdy
@[simp] theorem pollBegins_transaction (s : State) : (pollBegins s).port.transaction = s.port.transaction := (pollBegins_kept s).transaction
@[simp] theorem pollBegins_dropped (s : State) : (pollBegins s).port.dropped = s.port.dropped := (pollBegins_kept s).dropped
@[simp] theorem pollBegins_mask (s : State) : (pollBegins s).port.mask = s.port.mask := (pollBegins_kept s).mask
@[simp] theorem pollBegins_free (s : State) : (pollBegins s).free = s.free := (pollBegins_kept s).free
@[simp] theorem pollBegins_pending (s : State) : (pollBegins s).pending = s.pending := (pollBegins_kept s).pending
@[simp] theorem pollBegins_settings (s : State) : (pollBegins s).link.settings = s.link.settings := (pollBegins_kept s).settings

theorem endExchange_kept (x : Exchange) (o : LineOutcome) (s : State) : KeptSlots s (endExchange x o s) := by
  unfold endExchange
  constructor <;> simp <;> split <;> simp

@[simp] theorem endExchange_tune (x : Exchange) (o : LineOutcome) (s : State) : (endExchange x o s).tune = s.tune := (endExchange_kept x o s).tune
@[simp] theorem endExchange_command (x : Exchange) (o : LineOutcome) (s : State) : (endExchange x o s).port.command = s.port.command := (endExchange_kept x o s).command
@[simp] theorem endExchange_response (x : Exchange) (o : LineOutcome) (s : State) : (endExchange x o s).port.response = s.port.response := (endExchange_kept x o s).response
@[simp] theorem endExchange_rdy (x : Exchange) (o : LineOutcome) (s : State) : (endExchange x o s).port.rdy = s.port.rdy := (endExchange_kept x o s).rdy
@[simp] theorem endExchange_transaction (x : Exchange) (o : LineOutcome) (s : State) : (endExchange x o s).port.transaction = s.port.transaction := (endExchange_kept x o s).transaction
@[simp] theorem endExchange_dropped (x : Exchange) (o : LineOutcome) (s : State) : (endExchange x o s).port.dropped = s.port.dropped := (endExchange_kept x o s).dropped
@[simp] theorem endExchange_mask (x : Exchange) (o : LineOutcome) (s : State) : (endExchange x o s).port.mask = s.port.mask := (endExchange_kept x o s).mask
@[simp] theorem endExchange_free (x : Exchange) (o : LineOutcome) (s : State) : (endExchange x o s).free = s.free := (endExchange_kept x o s).free
@[simp] theorem endExchange_pending (x : Exchange) (o : LineOutcome) (s : State) : (endExchange x o s).pending = s.pending := (endExchange_kept x o s).pending
@[simp] theorem endExchange_settings (x : Exchange) (o : LineOutcome) (s : State) : (endExchange x o s).link.settings = s.link.settings := (endExchange_kept x o s).settings

theorem windowCloses_kept (x : Exchange) (s : State) : KeptSlots s (windowCloses x s) := by
  unfold windowCloses
  constructor <;> simp

@[simp] theorem windowCloses_tune (x : Exchange) (s : State) : (windowCloses x s).tune = s.tune := (windowCloses_kept x s).tune
@[simp] theorem windowCloses_command (x : Exchange) (s : State) : (windowCloses x s).port.command = s.port.command := (windowCloses_kept x s).command
@[simp] theorem windowCloses_response (x : Exchange) (s : State) : (windowCloses x s).port.response = s.port.response := (windowCloses_kept x s).response
@[simp] theorem windowCloses_rdy (x : Exchange) (s : State) : (windowCloses x s).port.rdy = s.port.rdy := (windowCloses_kept x s).rdy
@[simp] theorem windowCloses_transaction (x : Exchange) (s : State) : (windowCloses x s).port.transaction = s.port.transaction := (windowCloses_kept x s).transaction
@[simp] theorem windowCloses_dropped (x : Exchange) (s : State) : (windowCloses x s).port.dropped = s.port.dropped := (windowCloses_kept x s).dropped
@[simp] theorem windowCloses_mask (x : Exchange) (s : State) : (windowCloses x s).port.mask = s.port.mask := (windowCloses_kept x s).mask
@[simp] theorem windowCloses_free (x : Exchange) (s : State) : (windowCloses x s).free = s.free := (windowCloses_kept x s).free
@[simp] theorem windowCloses_pending (x : Exchange) (s : State) : (windowCloses x s).pending = s.pending := (windowCloses_kept x s).pending
@[simp] theorem windowCloses_settings (x : Exchange) (s : State) : (windowCloses x s).link.settings = s.link.settings := (windowCloses_kept x s).settings

theorem reservationEnds_kept (x : Exchange) (s : State) : KeptSlots s (reservationEnds x s) := by
  unfold reservationEnds
  constructor <;> simp

@[simp] theorem reservationEnds_tune (x : Exchange) (s : State) : (reservationEnds x s).tune = s.tune := (reservationEnds_kept x s).tune
@[simp] theorem reservationEnds_command (x : Exchange) (s : State) : (reservationEnds x s).port.command = s.port.command := (reservationEnds_kept x s).command
@[simp] theorem reservationEnds_response (x : Exchange) (s : State) : (reservationEnds x s).port.response = s.port.response := (reservationEnds_kept x s).response
@[simp] theorem reservationEnds_rdy (x : Exchange) (s : State) : (reservationEnds x s).port.rdy = s.port.rdy := (reservationEnds_kept x s).rdy
@[simp] theorem reservationEnds_transaction (x : Exchange) (s : State) : (reservationEnds x s).port.transaction = s.port.transaction := (reservationEnds_kept x s).transaction
@[simp] theorem reservationEnds_dropped (x : Exchange) (s : State) : (reservationEnds x s).port.dropped = s.port.dropped := (reservationEnds_kept x s).dropped
@[simp] theorem reservationEnds_mask (x : Exchange) (s : State) : (reservationEnds x s).port.mask = s.port.mask := (reservationEnds_kept x s).mask
@[simp] theorem reservationEnds_free (x : Exchange) (s : State) : (reservationEnds x s).free = s.free := (reservationEnds_kept x s).free
@[simp] theorem reservationEnds_pending (x : Exchange) (s : State) : (reservationEnds x s).pending = s.pending := (reservationEnds_kept x s).pending
@[simp] theorem reservationEnds_settings (x : Exchange) (s : State) : (reservationEnds x s).link.settings = s.link.settings := (reservationEnds_kept x s).settings

theorem replyBreaksOff_kept (s : State) : KeptSlots s (replyBreaksOff s) := by
  unfold replyBreaksOff
  constructor <;> (repeat' split) <;> simp

@[simp] theorem replyBreaksOff_tune (s : State) : (replyBreaksOff s).tune = s.tune := (replyBreaksOff_kept s).tune
@[simp] theorem replyBreaksOff_command (s : State) : (replyBreaksOff s).port.command = s.port.command := (replyBreaksOff_kept s).command
@[simp] theorem replyBreaksOff_response (s : State) : (replyBreaksOff s).port.response = s.port.response := (replyBreaksOff_kept s).response
@[simp] theorem replyBreaksOff_rdy (s : State) : (replyBreaksOff s).port.rdy = s.port.rdy := (replyBreaksOff_kept s).rdy
@[simp] theorem replyBreaksOff_transaction (s : State) : (replyBreaksOff s).port.transaction = s.port.transaction := (replyBreaksOff_kept s).transaction
@[simp] theorem replyBreaksOff_dropped (s : State) : (replyBreaksOff s).port.dropped = s.port.dropped := (replyBreaksOff_kept s).dropped
@[simp] theorem replyBreaksOff_mask (s : State) : (replyBreaksOff s).port.mask = s.port.mask := (replyBreaksOff_kept s).mask
@[simp] theorem replyBreaksOff_free (s : State) : (replyBreaksOff s).free = s.free := (replyBreaksOff_kept s).free
@[simp] theorem replyBreaksOff_pending (s : State) : (replyBreaksOff s).pending = s.pending := (replyBreaksOff_kept s).pending
@[simp] theorem replyBreaksOff_settings (s : State) : (replyBreaksOff s).link.settings = s.link.settings := (replyBreaksOff_kept s).settings

theorem replyArrives_kept (b : List Byte) (x : Exchange) (s : State) : KeptSlots s (replyArrives b x s) := by
  unfold replyArrives
  constructor <;> simp

@[simp] theorem replyArrives_tune (b : List Byte) (x : Exchange) (s : State) : (replyArrives b x s).tune = s.tune := (replyArrives_kept b x s).tune
@[simp] theorem replyArrives_command (b : List Byte) (x : Exchange) (s : State) : (replyArrives b x s).port.command = s.port.command := (replyArrives_kept b x s).command
@[simp] theorem replyArrives_response (b : List Byte) (x : Exchange) (s : State) : (replyArrives b x s).port.response = s.port.response := (replyArrives_kept b x s).response
@[simp] theorem replyArrives_rdy (b : List Byte) (x : Exchange) (s : State) : (replyArrives b x s).port.rdy = s.port.rdy := (replyArrives_kept b x s).rdy
@[simp] theorem replyArrives_transaction (b : List Byte) (x : Exchange) (s : State) : (replyArrives b x s).port.transaction = s.port.transaction := (replyArrives_kept b x s).transaction
@[simp] theorem replyArrives_dropped (b : List Byte) (x : Exchange) (s : State) : (replyArrives b x s).port.dropped = s.port.dropped := (replyArrives_kept b x s).dropped
@[simp] theorem replyArrives_mask (b : List Byte) (x : Exchange) (s : State) : (replyArrives b x s).port.mask = s.port.mask := (replyArrives_kept b x s).mask
@[simp] theorem replyArrives_free (b : List Byte) (x : Exchange) (s : State) : (replyArrives b x s).free = s.free := (replyArrives_kept b x s).free
@[simp] theorem replyArrives_pending (b : List Byte) (x : Exchange) (s : State) : (replyArrives b x s).pending = s.pending := (replyArrives_kept b x s).pending
@[simp] theorem replyArrives_settings (b : List Byte) (x : Exchange) (s : State) : (replyArrives b x s).link.settings = s.link.settings := (replyArrives_kept b x s).settings

theorem breakBegins_kept (s : State) : KeptSlots s (breakBegins s) := by
  unfold breakBegins
  constructor <;> (repeat' split) <;> simp

@[simp] theorem breakBegins_tune (s : State) : (breakBegins s).tune = s.tune := (breakBegins_kept s).tune
@[simp] theorem breakBegins_command (s : State) : (breakBegins s).port.command = s.port.command := (breakBegins_kept s).command
@[simp] theorem breakBegins_response (s : State) : (breakBegins s).port.response = s.port.response := (breakBegins_kept s).response
@[simp] theorem breakBegins_rdy (s : State) : (breakBegins s).port.rdy = s.port.rdy := (breakBegins_kept s).rdy
@[simp] theorem breakBegins_transaction (s : State) : (breakBegins s).port.transaction = s.port.transaction := (breakBegins_kept s).transaction
@[simp] theorem breakBegins_dropped (s : State) : (breakBegins s).port.dropped = s.port.dropped := (breakBegins_kept s).dropped
@[simp] theorem breakBegins_mask (s : State) : (breakBegins s).port.mask = s.port.mask := (breakBegins_kept s).mask
@[simp] theorem breakBegins_free (s : State) : (breakBegins s).free = s.free := (breakBegins_kept s).free
@[simp] theorem breakBegins_pending (s : State) : (breakBegins s).pending = s.pending := (breakBegins_kept s).pending
@[simp] theorem breakBegins_settings (s : State) : (breakBegins s).link.settings = s.link.settings := (breakBegins_kept s).settings

theorem breakEnds_kept (s : State) : KeptSlots s (breakEnds s) := by
  unfold breakEnds
  constructor <;> simp

@[simp] theorem breakEnds_tune (s : State) : (breakEnds s).tune = s.tune := (breakEnds_kept s).tune
@[simp] theorem breakEnds_command (s : State) : (breakEnds s).port.command = s.port.command := (breakEnds_kept s).command
@[simp] theorem breakEnds_response (s : State) : (breakEnds s).port.response = s.port.response := (breakEnds_kept s).response
@[simp] theorem breakEnds_rdy (s : State) : (breakEnds s).port.rdy = s.port.rdy := (breakEnds_kept s).rdy
@[simp] theorem breakEnds_transaction (s : State) : (breakEnds s).port.transaction = s.port.transaction := (breakEnds_kept s).transaction
@[simp] theorem breakEnds_dropped (s : State) : (breakEnds s).port.dropped = s.port.dropped := (breakEnds_kept s).dropped
@[simp] theorem breakEnds_mask (s : State) : (breakEnds s).port.mask = s.port.mask := (breakEnds_kept s).mask
@[simp] theorem breakEnds_free (s : State) : (breakEnds s).free = s.free := (breakEnds_kept s).free
@[simp] theorem breakEnds_pending (s : State) : (breakEnds s).pending = s.pending := (breakEnds_kept s).pending
@[simp] theorem breakEnds_settings (s : State) : (breakEnds s).link.settings = s.link.settings := (breakEnds_kept s).settings

theorem endRound_kept (s : State) : KeptSlots s (endRound s) := by
  unfold endRound
  constructor <;> (repeat' split) <;> simp

@[simp] theorem endRound_tune (s : State) : (endRound s).tune = s.tune := (endRound_kept s).tune
@[simp] theorem endRound_command (s : State) : (endRound s).port.command = s.port.command := (endRound_kept s).command
@[simp] theorem endRound_response (s : State) : (endRound s).port.response = s.port.response := (endRound_kept s).response
@[simp] theorem endRound_rdy (s : State) : (endRound s).port.rdy = s.port.rdy := (endRound_kept s).rdy
@[simp] theorem endRound_transaction (s : State) : (endRound s).port.transaction = s.port.transaction := (endRound_kept s).transaction
@[simp] theorem endRound_dropped (s : State) : (endRound s).port.dropped = s.port.dropped := (endRound_kept s).dropped
@[simp] theorem endRound_mask (s : State) : (endRound s).port.mask = s.port.mask := (endRound_kept s).mask
@[simp] theorem endRound_free (s : State) : (endRound s).free = s.free := (endRound_kept s).free
@[simp] theorem endRound_pending (s : State) : (endRound s).pending = s.pending := (endRound_kept s).pending
@[simp] theorem endRound_settings (s : State) : (endRound s).link.settings = s.link.settings := (endRound_kept s).settings

theorem exchangeDue_kept (s : State) : KeptSlots s (exchangeDue s) := by
  unfold exchangeDue
  constructor <;> (repeat' split) <;> simp

@[simp] theorem exchangeDue_tune (s : State) : (exchangeDue s).tune = s.tune := (exchangeDue_kept s).tune
@[simp] theorem exchangeDue_command (s : State) : (exchangeDue s).port.command = s.port.command := (exchangeDue_kept s).command
@[simp] theorem exchangeDue_response (s : State) : (exchangeDue s).port.response = s.port.response := (exchangeDue_kept s).response
@[simp] theorem exchangeDue_rdy (s : State) : (exchangeDue s).port.rdy = s.port.rdy := (exchangeDue_kept s).rdy
@[simp] theorem exchangeDue_transaction (s : State) : (exchangeDue s).port.transaction = s.port.transaction := (exchangeDue_kept s).transaction
@[simp] theorem exchangeDue_dropped (s : State) : (exchangeDue s).port.dropped = s.port.dropped := (exchangeDue_kept s).dropped
@[simp] theorem exchangeDue_mask (s : State) : (exchangeDue s).port.mask = s.port.mask := (exchangeDue_kept s).mask
@[simp] theorem exchangeDue_free (s : State) : (exchangeDue s).free = s.free := (exchangeDue_kept s).free
@[simp] theorem exchangeDue_pending (s : State) : (exchangeDue s).pending = s.pending := (exchangeDue_kept s).pending
@[simp] theorem exchangeDue_settings (s : State) : (exchangeDue s).link.settings = s.link.settings := (exchangeDue_kept s).settings

theorem breakDue_kept (s : State) : KeptSlots s (breakDue s) := by
  unfold breakDue
  constructor <;> (repeat' split) <;> simp

@[simp] theorem breakDue_tune (s : State) : (breakDue s).tune = s.tune := (breakDue_kept s).tune
@[simp] theorem breakDue_command (s : State) : (breakDue s).port.command = s.port.command := (breakDue_kept s).command
@[simp] theorem breakDue_response (s : State) : (breakDue s).port.response = s.port.response := (breakDue_kept s).response
@[simp] theorem breakDue_rdy (s : State) : (breakDue s).port.rdy = s.port.rdy := (breakDue_kept s).rdy
@[simp] theorem breakDue_transaction (s : State) : (breakDue s).port.transaction = s.port.transaction := (breakDue_kept s).transaction
@[simp] theorem breakDue_dropped (s : State) : (breakDue s).port.dropped = s.port.dropped := (breakDue_kept s).dropped
@[simp] theorem breakDue_mask (s : State) : (breakDue s).port.mask = s.port.mask := (breakDue_kept s).mask
@[simp] theorem breakDue_free (s : State) : (breakDue s).free = s.free := (breakDue_kept s).free
@[simp] theorem breakDue_pending (s : State) : (breakDue s).pending = s.pending := (breakDue_kept s).pending
@[simp] theorem breakDue_settings (s : State) : (breakDue s).link.settings = s.link.settings := (breakDue_kept s).settings

/-- What an exchange's moment keeps, if what happens at it keeps that. -/
theorem atMoment_kept {act : Exchange → State → State} (h : ∀ x s, KeptSlots s (act x s)) (st : ExStep)
    (moment : Exchange → Nat) (s : State) : KeptSlots s (atMoment st moment act s) := by
  unfold atMoment
  split
  · dsimp only
    split
    · exact (timePassesWhile_kept _ _ s).slots.trans (h _ _)
    · exact (timePassesWhile_kept _ _ s).slots.trans (breakDue_kept _)
  · exact ⟨rfl, rfl, rfl, rfl, rfl, rfl, rfl, rfl, rfl, rfl⟩

theorem breakSent_kept (s : State) : KeptSlots s (breakSent s) := by
  unfold breakSent
  split
  · exact (timePasses_kept _ s).slots.trans (breakEnds_kept _)
  all_goals exact ⟨rfl, rfl, rfl, rfl, rfl, rfl, rfl, rfl, rfl, rfl⟩

@[simp] theorem breakSent_tune (s : State) : (breakSent s).tune = s.tune := (breakSent_kept s).tune
@[simp] theorem breakSent_command (s : State) : (breakSent s).port.command = s.port.command := (breakSent_kept s).command
@[simp] theorem breakSent_response (s : State) : (breakSent s).port.response = s.port.response := (breakSent_kept s).response
@[simp] theorem breakSent_rdy (s : State) : (breakSent s).port.rdy = s.port.rdy := (breakSent_kept s).rdy
@[simp] theorem breakSent_transaction (s : State) : (breakSent s).port.transaction = s.port.transaction := (breakSent_kept s).transaction
@[simp] theorem breakSent_dropped (s : State) : (breakSent s).port.dropped = s.port.dropped := (breakSent_kept s).dropped
@[simp] theorem breakSent_mask (s : State) : (breakSent s).port.mask = s.port.mask := (breakSent_kept s).mask
@[simp] theorem breakSent_free (s : State) : (breakSent s).free = s.free := (breakSent_kept s).free
@[simp] theorem breakSent_pending (s : State) : (breakSent s).pending = s.pending := (breakSent_kept s).pending
@[simp] theorem breakSent_settings (s : State) : (breakSent s).link.settings = s.link.settings := (breakSent_kept s).settings

theorem roundPasses_kept (s : State) : KeptSlots s (roundPasses s) := by
  unfold roundPasses
  dsimp only
  have h := (timePassesWhile_kept (fun u => u.link.free) s.link.remaining s).slots
  split
  · exact h
  · exact (h.trans (breakSent_kept _)).trans (timePasses_kept _ _).slots

@[simp] theorem roundPasses_tune (s : State) : (roundPasses s).tune = s.tune := (roundPasses_kept s).tune
@[simp] theorem roundPasses_command (s : State) : (roundPasses s).port.command = s.port.command := (roundPasses_kept s).command
@[simp] theorem roundPasses_response (s : State) : (roundPasses s).port.response = s.port.response := (roundPasses_kept s).response
@[simp] theorem roundPasses_rdy (s : State) : (roundPasses s).port.rdy = s.port.rdy := (roundPasses_kept s).rdy
@[simp] theorem roundPasses_transaction (s : State) : (roundPasses s).port.transaction = s.port.transaction := (roundPasses_kept s).transaction
@[simp] theorem roundPasses_dropped (s : State) : (roundPasses s).port.dropped = s.port.dropped := (roundPasses_kept s).dropped
@[simp] theorem roundPasses_mask (s : State) : (roundPasses s).port.mask = s.port.mask := (roundPasses_kept s).mask
@[simp] theorem roundPasses_free (s : State) : (roundPasses s).free = s.free := (roundPasses_kept s).free
@[simp] theorem roundPasses_pending (s : State) : (roundPasses s).pending = s.pending := (roundPasses_kept s).pending
@[simp] theorem roundPasses_settings (s : State) : (roundPasses s).link.settings = s.link.settings := (roundPasses_kept s).settings

theorem characterTime_kept (s : State) : KeptSlots s (characterTime s) := by
  unfold characterTime
  constructor <;> simp

@[simp] theorem characterTime_tune (s : State) : (characterTime s).tune = s.tune := (characterTime_kept s).tune
@[simp] theorem characterTime_command (s : State) : (characterTime s).port.command = s.port.command := (characterTime_kept s).command
@[simp] theorem characterTime_response (s : State) : (characterTime s).port.response = s.port.response := (characterTime_kept s).response
@[simp] theorem characterTime_rdy (s : State) : (characterTime s).port.rdy = s.port.rdy := (characterTime_kept s).rdy
@[simp] theorem characterTime_transaction (s : State) : (characterTime s).port.transaction = s.port.transaction := (characterTime_kept s).transaction
@[simp] theorem characterTime_dropped (s : State) : (characterTime s).port.dropped = s.port.dropped := (characterTime_kept s).dropped
@[simp] theorem characterTime_mask (s : State) : (characterTime s).port.mask = s.port.mask := (characterTime_kept s).mask
@[simp] theorem characterTime_free (s : State) : (characterTime s).free = s.free := (characterTime_kept s).free
@[simp] theorem characterTime_pending (s : State) : (characterTime s).pending = s.pending := (characterTime_kept s).pending
@[simp] theorem characterTime_settings (s : State) : (characterTime s).link.settings = s.link.settings := (characterTime_kept s).settings

end Sys2Proof.Machine
end

