-- ==== Sys2Proof/Laws/Supervision.lean ====
section
/-! SUPPORT. What the operations do to the Motion Supervisor: those that leave it alone, and those that keep its laws
(Supervisor.Lawful). -/

namespace Sys2Proof.Machine

/-! ### Operations that leave the supervisor alone -/

@[simp] theorem releaseTowers_sup (s : State) : (releaseTowers s).sup = s.sup := rfl
@[simp] theorem serviceOutcome_sup (n : Nat) (o : LineOutcome) (s : State) : (serviceOutcome n o s).sup = s.sup := by
  unfold serviceOutcome
  (repeat' split) <;> simp
@[simp] theorem deliverAbandoned_sup (x : Exchange) (s : State) : (deliverAbandoned x s).sup = s.sup := by
  unfold deliverAbandoned
  (repeat' split) <;> simp
@[simp] theorem requestBreak_sup (s : State) : (requestBreak s).sup = s.sup := by
  unfold requestBreak
  (repeat' split) <;> simp
@[simp] theorem noteCrossing_sup (s : State) : (noteCrossing s).sup = s.sup := rfl
@[simp] theorem refresh_sup (s : State) : (refresh s).sup = s.sup := by
  unfold refresh; simp; split <;> simp
@[simp] theorem giveUpAngle_sup (s : State) : (giveUpAngle s).sup = s.sup := rfl
@[simp] theorem leaveEscape_sup (r : Option Sector) (s : State) : (leaveEscape r s).sup = s.sup := by
  unfold leaveEscape
  (repeat' split) <;> simp
@[simp] theorem clearServed_sup (r : Option Sector) (s : State) : (clearServed r s).sup = s.sup := by
  unfold clearServed
  (repeat' split) <;> simp
@[simp] theorem captureSwing_sup (s : State) : (captureSwing s).sup = s.sup := by
  unfold captureSwing; simp; split <;> simp
@[simp] theorem handOver_sup (s : State) : (handOver s).sup = s.sup := by
  unfold handOver; simp
@[simp] theorem resetOutcome_sup (p : Nat) (o : LineOutcome) (s : State) : (resetOutcome p o s).sup = s.sup := by
  unfold resetOutcome
  (repeat' split) <;> simp
@[simp] theorem rosterCompletes_sup (s : State) : (rosterCompletes s).sup = s.sup := rfl
@[simp] theorem clearRoster_sup (s : State) : (clearRoster s).sup = s.sup := rfl
@[simp] theorem staleReadings_sup (s : State) : (staleReadings s).sup = s.sup := rfl
@[simp] theorem reconfigure_sup (a b : LinkSettings) (s : State) : (reconfigure a b s).sup = s.sup := rfl
@[simp] theorem warnCheck_sup (n p : Nat) (s : State) : (warnCheck n p s).sup = s.sup := by
  unfold warnCheck
  (repeat' split) <;> simp
theorem foldl_sup {α : Type} (g : State → α → State) (h : ∀ s a, (g s a).sup = s.sup) (l : List α) (s : State) :
    (l.foldl g s).sup = s.sup := by
  induction l generalizing s with
  | nil => rfl
  | cons a l ih => exact (ih (g s a)).trans (h s a)

@[simp] theorem warnChecks_sup (s : State) : (warnChecks s).sup = s.sup := foldl_sup _ (fun s p => warnCheck_sup _ p s) _ _
@[simp] theorem writeTowers_sup (w : Option Nat) (s : State) : (writeTowers w s).sup = s.sup := rfl
@[simp] theorem ageRequests_sup (s : State) : (ageRequests s).sup = s.sup := by
  unfold ageRequests
  (repeat' split) <;> simp
@[simp] theorem startRound_sup (s : State) : (startRound s).sup = s.sup := by
  unfold startRound; simp
@[simp] theorem beginPoll_sup (p : Nat) (s : State) : (beginPoll p s).sup = s.sup := rfl
@[simp] theorem beginReset_sup (p : Nat) (s : State) : (beginReset p s).sup = s.sup := rfl
@[simp] theorem beginService_sup (n : Nat) (r : Request) (s : State) : (beginService n r s).sup = s.sup := rfl
@[simp] theorem closePhase_sup (s : State) : (closePhase s).sup = s.sup := rfl
@[simp] theorem resetBegins_sup (s : State) : (resetBegins s).sup = s.sup := by
  unfold resetBegins
  (repeat' split) <;> simp
@[simp] theorem serviceBegins_sup (s : State) : (serviceBegins s).sup = s.sup := by
  unfold serviceBegins
  (repeat' split) <;> simp
@[simp] theorem driveOnline_sup (s : State) : (driveOnline s).sup = s.sup := rfl
@[simp] theorem unreachableSlot_sup (n : Nat) (s : State) : (unreachableSlot n s).sup = s.sup := rfl

/-! ### A change of machine state -/

/-- The laws of the supervisor but for the trip record. -/
abbrev Supervisor.Contexts (u : Supervisor) : Prop :=
  u.permit = u.machine.isMotion ∧ (u.startTimer ≠ none → u.machine = .starting)
    ∧ (u.hold ≠ Hold.cleared → u.machine = .holding) ∧ (u.reversal ≠ .none → u.machine = .reversing)
    ∧ (u.jog ≠ none → u.machine = .jogging ∨ u.machine = .stopping)

theorem Supervisor.Lawful.contexts {u : Supervisor} (h : u.Lawful) : u.Contexts :=
  ⟨h.1, h.2.2.1, h.2.2.2.1, h.2.2.2.2.1, h.2.2.2.2.2⟩

theorem Supervisor.Contexts.lawful {u : Supervisor} (h : u.Contexts) (t : u.trip.isSome = decide (u.machine = .tripped)) :
    u.Lawful := ⟨h.1, t, h.2.1, h.2.2.1, h.2.2.2.1, h.2.2.2.2⟩

/-- Outside TRIPPED no trip record is filled. -/
theorem Supervisor.Lawful.no_trip {u : Supervisor} (h : u.Lawful) (m : u.machine ≠ .tripped) : u.trip = none := by
  have := h.2.1
  rw [decide_eq_false m] at this
  exact Option.isSome_eq_false_iff.mp this |> Option.isNone_iff_eq_none.mp

/-- The contexts after a move to a state: those that the departure leaves. -/
theorem Supervisor.moveTo_contexts (u : Supervisor) (m : MachineState) (h : u.Contexts) : (u.moveTo m).Contexts := by
  obtain ⟨h1, h2, h3, h4, h5⟩ := h
  unfold Supervisor.moveTo Supervisor.depart permitAfter
  cases hm : u.machine <;> cases m <;> simp_all [MachineState.isMotion, Hold.cleared, Supervisor.Contexts]

@[simp] theorem Supervisor.moveTo_machine (u : Supervisor) (m : MachineState) : (u.moveTo m).machine = m := by
  rfl

@[simp] theorem Supervisor.moveTo_trip (u : Supervisor) (m : MachineState) : (u.moveTo m).trip = u.trip := by
  unfold Supervisor.moveTo Supervisor.depart; cases u.machine <;> simp; split <;> rfl

/-- What a removal of the RETIRING record does to the supervisor: at most, the hold becomes a manual hold. -/
theorem completeRetirement_sup (s : State) :
    (completeRetirement s).sup = s.sup ∨ (completeRetirement s).sup = { s.sup with hold := Hold.cleared } := by
  unfold completeRetirement
  split
  · simp only [raise_sup, removeRecord]
    split
    · exact Or.inr rfl
    · exact Or.inl rfl
  · exact Or.inl rfl

@[simp] theorem completeRetirement_machine (s : State) : (completeRetirement s).sup.machine = s.sup.machine := by
  rcases completeRetirement_sup s with h | h <;> rw [h]

theorem Supervisor.Contexts.manual {u : Supervisor} (h : u.Contexts) : ({ u with hold := Hold.cleared }).Contexts := by
  obtain ⟨h1, h2, h3, h4, h5⟩ := h
  exact ⟨h1, h2, fun k => absurd rfl k, h4, h5⟩

theorem Supervisor.Lawful.manual {u : Supervisor} (h : u.Lawful) : ({ u with hold := Hold.cleared }).Lawful :=
  (h.contexts.manual).lawful h.2.1

/-- A change of state gives the supervisor's own move, and at most makes the hold a manual hold. -/
theorem changeState_sup (m : MachineState) (s : State) :
    (changeState m s).sup = s.sup.moveTo m ∨ (changeState m s).sup = { s.sup.moveTo m with hold := Hold.cleared } := by
  unfold changeState entryEffects enterStanding
  cases m <;> simp only [raise_sup, true_or]
  all_goals exact completeRetirement_sup _

@[simp] theorem changeState_machine (m : MachineState) (s : State) : (changeState m s).sup.machine = m := by
  rcases changeState_sup m s with h | h <;> rw [h] <;> rfl

@[simp] theorem changeState_trip (m : MachineState) (s : State) : (changeState m s).sup.trip = s.sup.trip := by
  rcases changeState_sup m s with h | h <;> rw [h] <;> simp

theorem changeState_contexts (m : MachineState) (s : State) (h : s.sup.Contexts) : (changeState m s).sup.Contexts := by
  rcases changeState_sup m s with e | e <;> rw [e]
  · exact s.sup.moveTo_contexts m h
  · exact (s.sup.moveTo_contexts m h).manual

/-- A change to a state other than TRIPPED, from one other than TRIPPED, keeps the laws. -/
theorem changeState_lawful (m : MachineState) (s : State) (h : s.sup.Lawful) (hs : s.sup.machine ≠ .tripped)
    (hm : m ≠ .tripped) : (changeState m s).sup.Lawful := by
  refine (changeState_contexts m s h.contexts).lawful ?_
  rw [changeState_trip, changeState_machine, h.no_trip hs, decide_eq_false hm]; rfl

/-! ### Holds -/

theorem dwellExpires_lawful (s : State) (h : s.sup.Lawful) (hs : s.sup.machine = .holding) :
    (dwellExpires s).sup.Lawful := by
  unfold dwellExpires
  split
  · exact changeState_lawful _ _ h (by rw [hs]; decide) (by decide)
  · obtain ⟨h1, h2, h3, h4, h5, h6⟩ := h
    exact ⟨h1, h2, h3, fun _ => hs, h5, h6⟩

theorem startDwell_lawful (n : Nat) (s : State) (h : s.sup.Lawful) (hs : s.sup.machine = .holding) :
    (startDwell n s).sup.Lawful := by
  unfold startDwell
  split
  · exact dwellExpires_lawful s h hs
  · obtain ⟨h1, h2, h3, h4, h5, h6⟩ := h
    exact ⟨h1, h2, h3, fun _ => hs, h5, h6⟩

theorem arriveAtHold_lawful (r : Sector) (s : State) (h : s.sup.Lawful) (hs : s.sup.machine ≠ .tripped) :
    (arriveAtHold r s).sup.Lawful := by
  unfold arriveAtHold
  have k := changeState_lawful .holding s h hs (by decide)
  have km : (changeState .holding s).sup.machine = .holding := by simp
  generalize changeState .holding s = t at k km ⊢
  obtain ⟨h1, h2, h3, h4, h5, h6⟩ := k
  exact startDwell_lawful _ _ ⟨h1, h2, h3, fun _ => km, h5, h6⟩ km

theorem manualHold_lawful (s : State) (h : s.sup.Lawful) : (manualHold s).sup.Lawful := h.manual

theorem beginReversal_lawful (s : State) (h : s.sup.Lawful) (hs : s.sup.machine ≠ .tripped) :
    (beginReversal s).sup.Lawful := by
  unfold beginReversal
  have k := changeState_lawful .reversing s h hs (by decide)
  have km : (changeState .reversing s).sup.machine = .reversing := by simp
  generalize changeState .reversing s = t at k km ⊢
  obtain ⟨h1, h2, h3, h4, h5, h6⟩ := k
  exact ⟨h1, h2, h3, h4, fun _ => km, h6⟩

theorem arriveAtBarrier_lawful (r : Sector) (s : State) (h : s.sup.Lawful) (hs : s.sup.machine ≠ .tripped) :
    (arriveAtBarrier r s).sup.Lawful := by
  unfold arriveAtBarrier
  split
  · exact changeState_lawful _ _ h hs (by decide)
  · exact beginReversal_lawful s h hs

/-! ### Trips -/

/-- Outcome of a trip taken: the machine is TRIPPED. -/
@[simp] theorem takeTrip_machine (c : TripCause) (p : Option Nat) (s : State) :
    (takeTrip c p s).sup.machine = .tripped := by
  simp [takeTrip]

@[simp] theorem takeTrip_trip (c : TripCause) (p : Option Nat) (s : State) :
    (takeTrip c p s).sup.trip = some (s.tripRecord c p) := by
  simp [takeTrip]

theorem takeTrip_lawful (c : TripCause) (p : Option Nat) (s : State) (h : s.sup.Contexts) :
    (takeTrip c p s).sup.Lawful := by
  have k := changeState_contexts .tripped s h
  have km : (changeState .tripped s).sup.machine = .tripped := by simp
  simp only [takeTrip, requestBreak_sup, raise_sup]
  obtain ⟨h1, h2, h3, h4, h5⟩ := k
  refine ⟨h1, ?_, h2, h3, h4, h5⟩
  simp only [mapTowers_sup, km]; rfl

theorem addCause_lawful (c : TripCause) (s : State) (h : s.sup.Lawful) : (addCause c s).sup.Lawful := by
  obtain ⟨h1, h2, h3, h4, h5, h6⟩ := h
  refine ⟨h1, ?_, h3, h4, h5, h6⟩
  simp only [addCause, Option.isSome_map]
  exact h2

theorem tripRequest_lawful (c : TripCause) (p : Option Nat) (s : State) (h : s.sup.Lawful) :
    (tripRequest c p s).sup.Lawful := by
  unfold tripRequest
  split
  all_goals first | exact takeTrip_lawful c p s h.contexts | exact addCause_lawful c s h | exact h

/-! ### The tracker -/

theorem arriveHold_lawful (r : Sector) (a : Nat) (s : State) (h : s.sup.Lawful) (hs : s.sup.machine ≠ .tripped) :
    (arriveHold r a s).sup.Lawful := arriveAtHold_lawful r _ h hs

theorem arrivalCheck_lawful (s : State) (h : s.sup.Lawful) (hs : s.sup.machine ≠ .tripped) :
    (arrivalCheck s).sup.Lawful := by
  unfold arrivalCheck
  repeat' split
  all_goals first | exact h | exact arriveHold_lawful _ _ s h hs | exact arriveAtBarrier_lawful _ _ h hs

theorem arrivalCheckIf_lawful (b : Bool) (s : State) (h : s.sup.Lawful) (hs : b = true → s.sup.machine = .running) :
    (arrivalCheckIf b s).sup.Lawful := by
  unfold arrivalCheckIf
  split
  · rename_i hb
    exact arrivalCheck_lawful s h (by rw [hs (by simp_all)]; decide)
  · exact h

theorem angleLost_lawful (b : Bool) (s : State) (h : s.sup.Lawful) : (angleLost b s).sup.Lawful := by
  unfold angleLost
  repeat' split
  all_goals first | exact tripRequest_lawful _ _ s h | exact h

theorem badSample_lawful (s : State) (h : s.sup.Lawful) : (badSample s).sup.Lawful := by
  unfold badSample
  simp only
  split
  · exact h
  · refine angleLost_lawful _ _ (arrivalCheckIf_lawful _ _ (by simpa using h) ?_)
    simp

@[simp] theorem leaveRetiring_machine (r : Option Sector) (s : State) :
    (leaveRetiring r s).sup.machine = s.sup.machine := by
  unfold leaveRetiring; (repeat' split) <;> simp

theorem completeRetirement_lawful (s : State) (h : s.sup.Lawful) : (completeRetirement s).sup.Lawful := by
  rcases completeRetirement_sup s with e | e <;> rw [e]
  · exact h
  · exact h.manual

theorem leaveRetiring_lawful (r : Option Sector) (s : State) (h : s.sup.Lawful) : (leaveRetiring r s).sup.Lawful := by
  unfold leaveRetiring
  repeat' split
  all_goals first | exact h | exact completeRetirement_lawful s h

/-- The checks of R46 and R47 keep the laws, and leave the supervisor alone where they made no request and no arrival. -/
theorem passedOver_lawful (a : Arc) (r : Sector) (c : Bool) (s : State) (h : s.sup.Lawful)
    (hs : s.sup.machine ≠ .tripped) :
    (passedOver a r c s).1.sup.Lawful ∧ ((passedOver a r c s).2 = false → (passedOver a r c s).1.sup = s.sup) := by
  unfold passedOver
  split
  · exact ⟨tripRequest_lawful _ _ s h, by simp⟩
  · simp only
    cases hm : holdMet a r c s with
    | none =>
      simp only [Option.isSome_none]
      split
      · exact ⟨tripRequest_lawful _ _ s h, by simp⟩
      · exact ⟨h, fun _ => rfl⟩
    | some q =>
      simp only [Option.isSome_some]
      have k := arriveHold_lawful q r.start s h hs
      split
      · exact ⟨tripRequest_lawful _ _ _ k, by simp⟩
      · exact ⟨k, by simp⟩

theorem passageChecks_lawful (b : Bool) (a : Option Arc) (r : Option Sector) (c : Bool) (s : State) (h : s.sup.Lawful)
    (hs : b = true → s.sup.machine = .running) :
    (passageChecks b a r c s).1.sup.Lawful ∧
      ((passageChecks b a r c s).2 = false → (passageChecks b a r c s).1.sup = s.sup) := by
  unfold passageChecks
  split
  · split
    · rename_i hb
      exact passedOver_lawful _ _ _ s h (by rw [hs (by simp_all)]; decide)
    · exact ⟨h, fun _ => rfl⟩
  · exact ⟨h, fun _ => rfl⟩

theorem goodSample_lawful (angle : Nat) (s : State) (h : s.sup.Lawful) : (goodSample angle s).sup.Lawful := by
  unfold goodSample
  simp only
  refine arrivalCheckIf_lawful _ _ ?_ ?_
  · refine (passageChecks_lawful _ _ _ _ _ ?_ ?_).1
    · simp only [clearServed_sup, leaveEscape_sup]
      split <;> exact leaveRetiring_lawful _ _ h
    · simp only [clearServed_sup, leaveEscape_sup]
      intro hr
      split <;> simpa using hr
  · intro hb
    simp only [Bool.and_eq_true, Bool.not_eq_true'] at hb
    simp only [findView_sup]
    rw [(passageChecks_lawful _ _ _ _ _ ?_ ?_).2 hb.2]
    · simp only [clearServed_sup, leaveEscape_sup]
      split <;> simpa using hb.1
    · simp only [clearServed_sup, leaveEscape_sup]
      split <;> exact leaveRetiring_lawful _ _ h
    · simp only [clearServed_sup, leaveEscape_sup]
      intro hr
      split <;> simpa using hr

theorem takeAnswer_lawful (a : Nat) (v : Bool) (s : State) (h : s.sup.Lawful) : (takeAnswer a v s).sup.Lawful := by
  unfold takeAnswer
  simp only
  repeat' split
  · exact goodSample_lawful _ _ h
  · exact badSample_lawful _ h
  · exact h

theorem missingSample_lawful (s : State) (h : s.sup.Lawful) : (missingSample s).sup.Lawful := by
  unfold missingSample
  split
  · exact badSample_lawful _ h
  · exact h

theorem changeDirection_lawful (d : Direction) (s : State) (h : s.sup.Lawful) :
    (changeDirection d s).sup.Lawful := by
  unfold changeDirection
  rw [refresh_sup]
  exact h

@[simp] theorem changeDirection_machine (d : Direction) (s : State) :
    (changeDirection d s).sup.machine = s.sup.machine := by
  unfold changeDirection; rw [refresh_sup]

/-! ### The roster -/

theorem tripIfMoving_lawful (c : TripCause) (p : Nat) (s : State) (h : s.sup.Lawful) :
    (tripIfMoving c p s).sup.Lawful := by
  unfold tripIfMoving
  split
  · exact tripRequest_lawful _ _ s h
  · exact h

theorem enterFaulted_lawful (p : Nat) (r : FaultReason) (s : State) (h : s.sup.Lawful) :
    (enterFaulted p r s).sup.Lawful := tripIfMoving_lawful _ _ _ (by simpa using h)

theorem enterUnrequested_lawful (p : Nat) (s : State) (h : s.sup.Lawful) : (enterUnrequested p s).sup.Lawful :=
  tripIfMoving_lawful _ _ _ (by simpa using h)

theorem missLimit_lawful (p : Nat) (s : State) (h : s.sup.Lawful) : (missLimit p s).sup.Lawful :=
  tripIfMoving_lawful _ _ _ (by simpa using h)

theorem pollMissed_lawful (p : Nat) (s : State) (h : s.sup.Lawful) : (pollMissed p s).sup.Lawful := by
  unfold pollMissed
  repeat' split
  all_goals first | exact missLimit_lawful p s h | exact h | simpa using h

theorem judgeUndriven_lawful (p : Nat) (b : BitVec 5) (s : State) (h : s.sup.Lawful) :
    (judgeUndriven p b s).sup.Lawful := by
  unfold judgeUndriven
  split
  · exact enterFaulted_lawful _ _ s h
  split
  · exact enterFaulted_lawful _ _ s h
  split
  · exact enterUnrequested_lawful p s h
  · rw [modTower_sup]; exact h

theorem judgeDriven_lawful (p : Nat) (t : Tower) (b : BitVec 5) (n : Nat) (s : State) (h : s.sup.Lawful) :
    (judgeDriven p t b n s).sup.Lawful := by
  unfold judgeDriven
  split
  · exact enterFaulted_lawful _ _ s h
  split
  · exact enterFaulted_lawful _ _ s h
  split
  · exact enterUnrequested_lawful p s h
  split
  · split
    · exact enterFaulted_lawful _ _ s h
    · rw [modTower_sup]; exact h
  · dsimp only
    split
    · exact enterFaulted_lawful _ _ s h
    · rw [modTower_sup]; exact h

theorem judgeResetting_lawful (p : Nat) (g : ResetStage) (b : BitVec 5) (s : State) (h : s.sup.Lawful) :
    (judgeResetting p g b s).sup.Lawful := by
  have k : (setChange p .resetDone
      (s.modTower p fun t => { t with state := .online, stage := .none, resetTimer := none })).sup.Lawful := by
    rw [setChange_sup, modTower_sup]; exact h
  unfold judgeResetting
  split
  · exact h
  · exact h
  all_goals
    split
    · exact h
    split
    · exact enterFaulted_lawful _ _ s h
    split
    · exact enterFaulted_lawful _ _ s h
    · exact k

theorem pollGood_lawful (p : Nat) (r : Reading) (s : State) (h : s.sup.Lawful) : (pollGood p r s).sup.Lawful := by
  have k : (s.modTower p fun t => t.store p (s.isEnd p) s.link.round r).sup.Lawful := by rw [modTower_sup]; exact h
  unfold pollGood
  dsimp only
  split
  · refine judgeUndriven_lawful _ _ _ ?_
    rw [setChange_sup]; exact k
  · exact judgeUndriven_lawful _ _ _ k
  · exact judgeDriven_lawful _ _ _ _ _ k
  · exact judgeDriven_lawful _ _ _ _ _ k
  · exact judgeResetting_lawful _ _ _ _ k
  · exact k
  · exact k

theorem pollOutcome_lawful (p : Nat) (o : LineOutcome) (s : State) (h : s.sup.Lawful) :
    (pollOutcome p o s).sup.Lawful := by
  unfold pollOutcome
  repeat' split
  all_goals first | exact pollGood_lawful _ _ s h | exact pollMissed_lawful p s h | exact h

/-! ### The computation and the line -/

theorem takeJogMet_lawful (s : State) (h : s.sup.Lawful) : (takeJogMet s).sup.Lawful := by
  unfold takeJogMet
  split
  · rename_i hm
    exact changeState_lawful _ _ h (by rw [hm]; decide) (by decide)
  · exact h

theorem countJogRound_lawful (j : Jog) (s : State) (h : s.sup.Lawful) (hs : s.sup.machine = .jogging) :
    (countJogRound j s).sup.Lawful := by
  obtain ⟨h1, h2, h3, h4, h5, h6⟩ := h
  unfold countJogRound
  simp only
  split
  · refine changeState_lawful _ _ ⟨h1, h2, h3, h4, h5, fun _ => Or.inl hs⟩ ?_ (by decide)
    simp [hs]
  · exact ⟨h1, h2, h3, h4, h5, fun _ => Or.inl hs⟩

theorem takeRest_lawful (b : Bool) (s : State) (h : s.sup.Lawful) : (takeRest b s).sup.Lawful := by
  unfold takeRest
  split
  · rename_i hm
    split
    · exact changeState_lawful _ _ h (by rw [hm]; decide) (by decide)
    · exact h
  · rename_i hm
    split
    · obtain ⟨h1, h2, h3, h4, h5, h6⟩ := h
      exact ⟨h1, h2, h3, h4, fun _ => hm, h6⟩
    · exact h
  · rename_i hm
    split
    · exact countJogRound_lawful _ s h hm
    · exact h
  all_goals exact h

theorem makeReports_lawful (m : Option Nat) (w j r : Bool) (s : State) (h : s.sup.Lawful) :
    (makeReports m w j r s).sup.Lawful := by
  have a : (match m with | some p => tripRequest .misalign (some p) s | none => s).sup.Lawful := by
    split
    · exact tripRequest_lawful _ _ s h
    · exact h
  unfold makeReports
  simp only
  refine takeRest_lawful _ _ ?_
  split
  · refine takeJogMet_lawful _ ?_
    split
    · exact tripRequest_lawful _ _ _ a
    · exact a
  · split
    · exact tripRequest_lawful _ _ _ a
    · exact a

theorem computation_lawful (s : State) (h : s.sup.Lawful) : (computation s).sup.Lawful := by
  unfold computation
  simp only [refreshSnapshot_sup]
  exact makeReports_lawful _ _ _ _ _ (by simpa using h)

theorem pollComplete_lawful (s : State) (h : s.sup.Lawful) : (pollComplete s).sup.Lawful := by
  unfold pollComplete trackerCompletes
  refine computation_lawful _ ?_
  simp only [handOver_sup, rosterCompletes_sup]
  exact missingSample_lawful _ h

theorem settlePoll_lawful (s : State) (h : s.sup.Lawful) : (settlePoll s).sup.Lawful := by
  unfold settlePoll
  split
  · exact pollComplete_lawful s h
  · exact h

theorem foldl_lawful {α : Type} (g : State → α → State) (k : ∀ s a, s.sup.Lawful → (g s a).sup.Lawful) (l : List α)
    (s : State) (h : s.sup.Lawful) : (l.foldl g s).sup.Lawful := by
  induction l generalizing s with
  | nil => exact h
  | cons a l ih => exact ih (g s a) (k s a h)

theorem skipPolls_lawful (p : Nat) (s : State) (h : s.sup.Lawful) : (skipPolls p s).sup.Lawful := by
  unfold skipPolls
  exact pollComplete_lawful _ (foldl_lawful _ (fun s q h => pollOutcome_lawful q _ s h) _ _ h)

theorem pollBegins_lawful (s : State) (h : s.sup.Lawful) : (pollBegins s).sup.Lawful := by
  unfold pollBegins
  repeat' split
  all_goals first | exact skipPolls_lawful _ s h | exact h

theorem deliver_lawful (x : Exchange) (o : LineOutcome) (s : State) (h : s.sup.Lawful) :
    (deliver x o s).sup.Lawful := by
  unfold deliver
  repeat' split
  all_goals first | exact h | exact pollOutcome_lawful _ _ s h | simpa using h

theorem endExchange_lawful (x : Exchange) (o : LineOutcome) (s : State) (h : s.sup.Lawful) :
    (endExchange x o s).sup.Lawful := by
  unfold endExchange
  have k := deliver_lawful x o { s with link := { s.link with exchange := none } } h
  simp only
  split
  · exact pollComplete_lawful _ k
  · exact k

theorem replyBreaksOff_lawful (s : State) (h : s.sup.Lawful) : (replyBreaksOff s).sup.Lawful := by
  unfold replyBreaksOff
  split
  · exact endExchange_lawful _ _ s h
  · exact h

theorem breakBegins_lawful (s : State) (h : s.sup.Lawful) : (breakBegins s).sup.Lawful := by
  unfold breakBegins
  repeat' split
  all_goals first | exact h | exact settlePoll_lawful _ h

theorem breakEnds_lawful (s : State) (h : s.sup.Lawful) : (breakEnds s).sup.Lawful := by
  unfold breakEnds
  exact settlePoll_lawful _ h

theorem endRound_lawful (s : State) (h : s.sup.Lawful) : (endRound s).sup.Lawful := by
  unfold endRound
  repeat' split
  all_goals first | exact skipPolls_lawful _ s h | exact h

/-! ### The supervisor's own events -/

theorem startTimerStarts_lawful (s : State) (h : s.sup.Lawful) (hs : s.sup.machine = .starting) :
    (startTimerStarts s).sup.Lawful := by
  unfold startTimerStarts
  split
  · exact changeState_lawful _ _ h (by rw [hs]; decide) (by decide)
  · obtain ⟨h1, h2, h3, h4, h5, h6⟩ := h
    exact ⟨h1, h2, fun _ => hs, h4, h5, h6⟩

theorem faceStart_lawful (d : Direction) (e : Option Nat) (s : State) (h : s.sup.Lawful) :
    (faceStart d e s).sup.Lawful := by
  unfold faceStart
  simp only
  repeat' split
  all_goals first | exact h | exact changeDirection_lawful d s h

@[simp] theorem faceStart_machine (d : Direction) (e : Option Nat) (s : State) :
    (faceStart d e s).sup.machine = s.sup.machine := by
  unfold faceStart
  simp only
  (repeat' split) <;> simp

theorem acceptStart_lawful (d : Direction) (e : Option Nat) (s : State) (h : s.sup.Lawful)
    (hs : s.sup.machine ≠ .tripped) : (acceptStart d e s).sup.Lawful := by
  unfold acceptStart
  refine startTimerStarts_lawful _ ?_ (by simp)
  rw [driveOnline_sup]
  exact changeState_lawful _ _ (faceStart_lawful d e s h) (by simpa using hs) (by decide)

theorem acceptJog_lawful (j : Jog) (s : State) (h : s.sup.Lawful) (hs : s.sup.machine ≠ .tripped) :
    (acceptJog j s).sup.Lawful := by
  have k := changeState_lawful .jogging s h hs (by decide)
  have km : (changeState .jogging s).sup.machine = .jogging := by simp
  unfold acceptJog
  simp only [modTower_sup]
  generalize changeState .jogging s = t at k km ⊢
  obtain ⟨h1, h2, h3, h4, h5, h6⟩ := k
  exact ⟨h1, h2, h3, h4, h5, fun _ => Or.inl km⟩

theorem startExpires_lawful (s : State) (h : s.sup.Lawful) (hs : s.sup.machine ≠ .tripped) :
    (startExpires s).sup.Lawful := changeState_lawful _ s h hs (by decide)

theorem reversalExpires_lawful (s : State) (h : s.sup.Lawful) (hs : s.sup.machine ≠ .tripped) :
    (reversalExpires s).sup.Lawful :=
  changeState_lawful _ _ (changeDirection_lawful _ s h) (by simpa using hs) (by decide)

theorem loopChanges_lawful (b : Bool) (s : State) (h : s.sup.Lawful) : (loopChanges b s).sup.Lawful := by
  unfold loopChanges
  simp only
  split
  · exact tripRequest_lawful _ _ _ h
  · exact h

theorem goOnline_lawful (s : State) (h : s.sup.Lawful) (hs : s.sup.machine ≠ .tripped) : (goOnline s).sup.Lawful := by
  unfold goOnline
  simp only [startRound_sup]
  exact changeState_lawful _ _ h hs (by decide)

theorem goOffline_lawful (s : State) (h : s.sup.Lawful) : (goOffline s).sup.Lawful := by
  have k := changeState_contexts .setup s h.contexts
  have km : (changeState .setup s).sup.machine = .setup := by simp
  unfold goOffline
  simp only [clearRoster_sup]
  generalize changeState .setup s = t at k km ⊢
  obtain ⟨h1, h2, h3, h4, h5⟩ := k
  refine ⟨h1, ?_, h2, h3, h4, h5⟩
  simp [km]

theorem restarted_lawful (u : Supervisor) : u.restarted.Lawful :=
  ⟨rfl, rfl, fun k => absurd rfl k, fun k => absurd rfl k, fun k => absurd rfl k, fun k => absurd rfl k⟩

theorem powerOn_lawful (b : Bool) : (Supervisor.powerOn b).Lawful :=
  ⟨rfl, rfl, fun k => absurd rfl k, fun k => absurd rfl k, fun k => absurd rfl k, fun k => absurd rfl k⟩

/-! ### Time -/

theorem stepStart_lawful (s : State) (h : s.sup.Lawful) : (stepStart s).sup.Lawful := by
  unfold stepStart
  split
  · exact h
  · rename_i n hn
    obtain ⟨h1, h2, h3, h4, h5, h6⟩ := h
    have hm := h3 (by rw [hn]; simp)
    split
    · exact startExpires_lawful s ⟨h1, h2, h3, h4, h5, h6⟩ (by rw [hm]; decide)
    · exact ⟨h1, h2, fun _ => hm, h4, h5, h6⟩

theorem stepDwell_lawful (s : State) (h : s.sup.Lawful) : (stepDwell s).sup.Lawful := by
  unfold stepDwell
  split
  · exact h
  · exact h
  · rename_i n hn
    obtain ⟨h1, h2, h3, h4, h5, h6⟩ := h
    have hm := h4 (by intro e; rw [e] at hn; simp [Hold.cleared] at hn)
    split
    · exact dwellExpires_lawful s ⟨h1, h2, h3, h4, h5, h6⟩ hm
    · exact ⟨h1, h2, h3, fun _ => hm, h5, h6⟩

theorem stepReversal_lawful (s : State) (h : s.sup.Lawful) : (stepReversal s).sup.Lawful := by
  unfold stepReversal
  split
  · exact h
  · exact h
  · rename_i n hn
    obtain ⟨h1, h2, h3, h4, h5, h6⟩ := h
    have hm := h5 (by rw [hn]; simp)
    split
    · exact reversalExpires_lawful s ⟨h1, h2, h3, h4, h5, h6⟩ (by rw [hm]; decide)
    · exact ⟨h1, h2, h3, h4, fun _ => hm, h6⟩

theorem stepReset_lawful (p : Nat) (s : State) (h : s.sup.Lawful) : (stepReset p s).sup.Lawful := by
  unfold stepReset
  repeat' split
  all_goals first | exact h | exact enterFaulted_lawful _ _ s h | simpa using h

theorem stepTimers_lawful (s : State) (h : s.sup.Lawful) : (stepTimers s).sup.Lawful := by
  unfold stepTimers
  exact foldl_lawful _ (fun s p h => stepReset_lawful p s h) _ _
    (stepReversal_lawful _ (stepDwell_lawful _ (stepStart_lawful _ h)))

theorem lineRuns_lawful (n : Nat) (s : State) (h : s.sup.Lawful) : (lineRuns n s).sup.Lawful := by
  unfold lineRuns
  split <;> exact h

theorem runSteps_lawful (going : State → Bool) (k n : Nat) (s : State) (h : s.sup.Lawful) :
    (runSteps going k n s).sup.Lawful := by
  induction k generalizing n s with
  | zero => exact lineRuns_lawful _ _ h
  | succ k ih =>
    have t : (stepTimers (lineRuns s.link.toStep s)).sup.Lawful := stepTimers_lawful _ (lineRuns_lawful _ s h)
    unfold runSteps
    dsimp only
    split
    · exact lineRuns_lawful _ _ h
    · split
      · exact ih _ _ t
      · exact t

theorem timePasses_lawful (n : Nat) (s : State) (h : s.sup.Lawful) : (timePasses n s).sup.Lawful := runSteps_lawful _ _ _ _ h

theorem timePassesWhile_lawful (going : State → Bool) (n : Nat) (s : State) (h : s.sup.Lawful) :
    (timePassesWhile going n s).sup.Lawful := runSteps_lawful _ _ _ _ h

theorem lineFallsIdle_lawful (s : State) (h : s.sup.Lawful) : (lineFallsIdle s).sup.Lawful := by
  unfold lineFallsIdle
  split <;> exact h

theorem breakDue_lawful (s : State) (h : s.sup.Lawful) : (breakDue s).sup.Lawful := by
  unfold breakDue
  repeat' split
  all_goals first | exact h | exact breakBegins_lawful s h | exact breakEnds_lawful s h

theorem atMoment_lawful {act : Exchange → State → State} (k : ∀ x s, s.sup.Lawful → (act x s).sup.Lawful) (st : ExStep)
    (moment : Exchange → Nat) (s : State) (h : s.sup.Lawful) : (atMoment st moment act s).sup.Lawful := by
  unfold atMoment
  split
  · dsimp only
    split
    · exact k _ _ (timePassesWhile_lawful _ _ _ h)
    · exact breakDue_lawful _ (timePassesWhile_lawful _ _ _ h)
  · exact h

theorem breakSent_lawful (s : State) (h : s.sup.Lawful) : (breakSent s).sup.Lawful := by
  unfold breakSent
  split
  · exact breakEnds_lawful _ (timePasses_lawful _ _ h)
  all_goals exact h

theorem roundPasses_lawful (s : State) (h : s.sup.Lawful) : (roundPasses s).sup.Lawful := by
  have t := timePassesWhile_lawful (fun u => u.link.free) s.link.remaining s h
  unfold roundPasses
  dsimp only
  split
  · exact t
  · exact timePasses_lawful _ _ (breakSent_lawful _ t)

theorem exchangeDue_lawful (s : State) (h : s.sup.Lawful) : (exchangeDue s).sup.Lawful := by
  unfold exchangeDue requestEnds windowCloses reservationEnds
  repeat' split
  all_goals first | exact h | exact endExchange_lawful _ _ _ h

theorem characterTime_lawful (s : State) (h : s.sup.Lawful) : (characterTime s).sup.Lawful :=
  breakDue_lawful _ (exchangeDue_lawful _ (timePasses_lawful _ _ h))

end Sys2Proof.Machine
end

