-- ==== Sys2Proof/Laws/Plan.lean ====
section
/-! SUPPORT. What the operations do to the field plan: no operation but the edits of the table adds a record or changes one,
and the edits keep the first law of the plan (PlanLawful). -/

namespace Sys2Proof.Machine

/-! ### Operations that leave the plan alone -/

@[simp] theorem releaseTowers_plan (s : State) : (releaseTowers s).plan = s.plan := rfl
@[simp] theorem serviceOutcome_plan (n : Nat) (o : LineOutcome) (s : State) : (serviceOutcome n o s).plan = s.plan := by
  unfold serviceOutcome
  (repeat' split) <;> simp
@[simp] theorem deliverAbandoned_plan (x : Exchange) (s : State) : (deliverAbandoned x s).plan = s.plan := by
  unfold deliverAbandoned
  (repeat' split) <;> simp
@[simp] theorem requestBreak_plan (s : State) : (requestBreak s).plan = s.plan := by
  unfold requestBreak
  (repeat' split) <;> simp
@[simp] theorem noteCrossing_plan (s : State) : (noteCrossing s).plan = s.plan := rfl
@[simp] theorem refresh_plan (s : State) : (refresh s).plan = s.plan := by
  unfold refresh; simp; split <;> simp
@[simp] theorem giveUpAngle_plan (s : State) : (giveUpAngle s).plan = s.plan := rfl
@[simp] theorem leaveEscape_plan (r : Option Sector) (s : State) : (leaveEscape r s).plan = s.plan := by
  unfold leaveEscape
  (repeat' split) <;> simp
@[simp] theorem clearServed_plan (r : Option Sector) (s : State) : (clearServed r s).plan = s.plan := by
  unfold clearServed
  (repeat' split) <;> simp
@[simp] theorem captureSwing_plan (s : State) : (captureSwing s).plan = s.plan := by
  unfold captureSwing; simp; split <;> simp
@[simp] theorem handOver_plan (s : State) : (handOver s).plan = s.plan := by
  unfold handOver; simp
@[simp] theorem changeDirection_plan (d : Direction) (s : State) : (changeDirection d s).plan = s.plan := by
  unfold changeDirection; simp
@[simp] theorem resetOutcome_plan (p : Nat) (o : LineOutcome) (s : State) : (resetOutcome p o s).plan = s.plan := by
  unfold resetOutcome
  (repeat' split) <;> simp
@[simp] theorem rosterCompletes_plan (s : State) : (rosterCompletes s).plan = s.plan := rfl
@[simp] theorem clearRoster_plan (s : State) : (clearRoster s).plan = s.plan := rfl
@[simp] theorem staleReadings_plan (s : State) : (staleReadings s).plan = s.plan := rfl
@[simp] theorem reconfigure_plan (a b : LinkSettings) (s : State) : (reconfigure a b s).plan = s.plan := rfl
@[simp] theorem warnCheck_plan (n p : Nat) (s : State) : (warnCheck n p s).plan = s.plan := by
  unfold warnCheck
  (repeat' split) <;> simp
theorem foldl_plan_eq {α : Type} (g : State → α → State) (h : ∀ s a, (g s a).plan = s.plan) (l : List α)
    (s : State) : (l.foldl g s).plan = s.plan := by
  induction l generalizing s with
  | nil => rfl
  | cons a l ih => exact (ih (g s a)).trans (h s a)

@[simp] theorem warnChecks_plan (s : State) : (warnChecks s).plan = s.plan := foldl_plan_eq _ (fun s p => warnCheck_plan _ p s) _ _
@[simp] theorem writeTowers_plan (w : Option Nat) (s : State) : (writeTowers w s).plan = s.plan := rfl
@[simp] theorem ageRequests_plan (s : State) : (ageRequests s).plan = s.plan := by
  unfold ageRequests
  (repeat' split) <;> simp
@[simp] theorem startRound_plan (s : State) : (startRound s).plan = s.plan := by
  unfold startRound; simp
@[simp] theorem beginPoll_plan (p : Nat) (s : State) : (beginPoll p s).plan = s.plan := rfl
@[simp] theorem beginReset_plan (p : Nat) (s : State) : (beginReset p s).plan = s.plan := rfl
@[simp] theorem beginService_plan (n : Nat) (r : Request) (s : State) : (beginService n r s).plan = s.plan := rfl
@[simp] theorem closePhase_plan (s : State) : (closePhase s).plan = s.plan := rfl
@[simp] theorem resetBegins_plan (s : State) : (resetBegins s).plan = s.plan := by
  unfold resetBegins
  (repeat' split) <;> simp
@[simp] theorem serviceBegins_plan (s : State) : (serviceBegins s).plan = s.plan := by
  unfold serviceBegins
  (repeat' split) <;> simp
@[simp] theorem driveOnline_plan (s : State) : (driveOnline s).plan = s.plan := rfl
@[simp] theorem faceStart_plan (d : Direction) (e : Option Nat) (s : State) : (faceStart d e s).plan = s.plan := by
  unfold faceStart; simp only; (repeat' split) <;> simp
@[simp] theorem unreachableSlot_plan (n : Nat) (s : State) : (unreachableSlot n s).plan = s.plan := rfl

/-! ### Operations that remove at most the RETIRING record -/

/-- Every record of `t`'s plan is one of `s`'s plan, in the same order. -/
abbrev Shrinks (s t : State) : Prop := t.plan.Sublist s.plan

theorem Shrinks.rfl' {s : State} : Shrinks s s := List.Sublist.refl _

theorem removeRecord_shrinks (k : Nat) (s : State) : Shrinks s (removeRecord k s) := List.filter_sublist

theorem completeRetirement_shrinks (s : State) : Shrinks s (completeRetirement s) := by
  unfold completeRetirement
  split
  · exact removeRecord_shrinks _ s
  · exact List.Sublist.refl _

theorem enterStanding_shrinks (s : State) : Shrinks s (enterStanding s) := completeRetirement_shrinks _

theorem entryEffects_shrinks (m : MachineState) (s : State) : Shrinks s (entryEffects m s) := by
  unfold entryEffects
  split
  all_goals first | exact enterStanding_shrinks (releaseTowers s) | exact enterStanding_shrinks s | exact List.Sublist.refl _

theorem changeState_shrinks (m : MachineState) (s : State) : Shrinks s (changeState m s) := entryEffects_shrinks m { s with sup := s.sup.moveTo m }

theorem dwellExpires_shrinks (s : State) : Shrinks s (dwellExpires s) := by
  unfold dwellExpires
  split
  · exact changeState_shrinks _ s
  · exact List.Sublist.refl _

theorem startDwell_shrinks (n : Nat) (s : State) : Shrinks s (startDwell n s) := by
  unfold startDwell
  split
  · exact dwellExpires_shrinks s
  · exact List.Sublist.refl _

theorem arriveAtHold_shrinks (r : Sector) (s : State) : Shrinks s (arriveAtHold r s) := by
  unfold arriveAtHold
  exact (startDwell_shrinks _ _).trans (changeState_shrinks .holding s)

theorem beginReversal_shrinks (s : State) : Shrinks s (beginReversal s) := changeState_shrinks .reversing s

theorem arriveAtBarrier_shrinks (r : Sector) (s : State) : Shrinks s (arriveAtBarrier r s) := by
  unfold arriveAtBarrier
  split
  · exact changeState_shrinks _ s
  · exact beginReversal_shrinks s

theorem takeTrip_shrinks (c : TripCause) (p : Option Nat) (s : State) : Shrinks s (takeTrip c p s) := by
  have h := changeState_shrinks .tripped s
  simpa [takeTrip, Shrinks] using h

theorem tripRequest_shrinks (c : TripCause) (p : Option Nat) (s : State) : Shrinks s (tripRequest c p s) := by
  unfold tripRequest
  split
  all_goals first | exact takeTrip_shrinks c p s | exact List.Sublist.refl _

theorem arriveHold_shrinks (r : Sector) (a : Nat) (s : State) : Shrinks s (arriveHold r a s) := arriveAtHold_shrinks r _

theorem arrivalCheck_shrinks (s : State) : Shrinks s (arrivalCheck s) := by
  unfold arrivalCheck
  repeat' split
  all_goals first | exact List.Sublist.refl _ | exact arriveHold_shrinks _ _ s | exact arriveAtBarrier_shrinks _ (raise .arrival s)

theorem arrivalCheckIf_shrinks (b : Bool) (s : State) : Shrinks s (arrivalCheckIf b s) := by
  unfold arrivalCheckIf
  split
  · exact arrivalCheck_shrinks s
  · exact List.Sublist.refl _

theorem angleLost_shrinks (b : Bool) (s : State) : Shrinks s (angleLost b s) := by
  unfold angleLost
  repeat' split
  all_goals first | exact tripRequest_shrinks _ _ s | exact List.Sublist.refl _

theorem badSample_shrinks (s : State) : Shrinks s (badSample s) := by
  unfold badSample
  dsimp only
  split
  · exact List.Sublist.refl _
  · refine (angleLost_shrinks _ _).trans ((arrivalCheckIf_shrinks _ _).trans ?_)
    rw [refresh_plan]; exact List.Sublist.refl _

theorem leaveRetiring_shrinks (r : Option Sector) (s : State) : Shrinks s (leaveRetiring r s) := by
  unfold leaveRetiring
  repeat' split
  all_goals first | exact completeRetirement_shrinks s | exact List.Sublist.refl _

theorem passedOver_shrinks (a : Arc) (r : Sector) (b : Bool) (s : State) : Shrinks s ((passedOver a r b s).1) := by
  unfold passedOver
  split
  · exact tripRequest_shrinks _ _ s
  · dsimp only
    have k : Shrinks s (match holdMet a r b s with | some h => arriveHold h r.start s | none => s) := by
      split
      · exact arriveHold_shrinks _ _ s
      · exact List.Sublist.refl _
    split
    · exact (tripRequest_shrinks _ _ _).trans k
    · exact k

theorem passageChecks_shrinks (b : Bool) (a : Option Arc) (r : Option Sector) (c : Bool) (s : State) : Shrinks s ((passageChecks b a r c s).1) := by
  unfold passageChecks
  split
  · split
    · exact passedOver_shrinks _ _ _ s
    · exact List.Sublist.refl _
  · exact List.Sublist.refl _

theorem goodSample_shrinks (a : Nat) (s : State) : Shrinks s (goodSample a s) := by
  unfold goodSample
  dsimp only
  refine (arrivalCheckIf_shrinks _ _).trans ?_
  rw [findView_plan]
  refine (passageChecks_shrinks _ _ _ _ _).trans ?_
  rw [clearServed_plan, leaveEscape_plan]
  split
  · exact leaveRetiring_shrinks _ _
  · exact leaveRetiring_shrinks _ _

theorem takeAnswer_shrinks (a : Nat) (v : Bool) (s : State) : Shrinks s (takeAnswer a v s) := by
  unfold takeAnswer
  dsimp only
  split
  · split
    · exact goodSample_shrinks _ _
    · exact badSample_shrinks _
  · exact List.Sublist.refl _

theorem missingSample_shrinks (s : State) : Shrinks s (missingSample s) := by
  unfold missingSample
  split
  · exact badSample_shrinks _
  · exact List.Sublist.refl _

theorem tripIfMoving_shrinks (c : TripCause) (p : Nat) (s : State) : Shrinks s (tripIfMoving c p s) := by
  unfold tripIfMoving
  split
  · exact tripRequest_shrinks _ _ s
  · exact List.Sublist.refl _

theorem enterFaulted_shrinks (p : Nat) (r : FaultReason) (s : State) : Shrinks s (enterFaulted p r s) := by
  refine (tripIfMoving_shrinks _ _ _).trans ?_
  rw [setChange_plan, modTower_plan]

theorem enterUnrequested_shrinks (p : Nat) (s : State) : Shrinks s (enterUnrequested p s) := by
  refine (tripIfMoving_shrinks _ _ _).trans ?_
  rw [setChange_plan, modTower_plan]

theorem missLimit_shrinks (p : Nat) (s : State) : Shrinks s (missLimit p s) := by
  refine (tripIfMoving_shrinks _ _ _).trans ?_
  rw [setChange_plan, modTower_plan]

theorem pollMissed_shrinks (p : Nat) (s : State) : Shrinks s (pollMissed p s) := by
  unfold pollMissed
  split
  · exact missLimit_shrinks p s
  · split
    all_goals first | exact List.Sublist.refl _ | (rw [Shrinks, modTower_plan])

theorem judgeUndriven_shrinks (p : Nat) (b : BitVec 5) (s : State) : Shrinks s (judgeUndriven p b s) := by
  unfold judgeUndriven
  split
  · exact enterFaulted_shrinks _ _ s
  split
  · exact enterFaulted_shrinks _ _ s
  split
  · exact enterUnrequested_shrinks p s
  · rw [Shrinks, modTower_plan]

theorem judgeDriven_shrinks (p : Nat) (t : Tower) (b : BitVec 5) (n : Nat) (s : State) : Shrinks s (judgeDriven p t b n s) := by
  unfold judgeDriven
  split
  · exact enterFaulted_shrinks _ _ s
  split
  · exact enterFaulted_shrinks _ _ s
  split
  · exact enterUnrequested_shrinks p s
  split
  · split
    · exact enterFaulted_shrinks _ _ s
    · rw [Shrinks, modTower_plan]
  · dsimp only
    split
    · exact enterFaulted_shrinks _ _ s
    · rw [Shrinks, modTower_plan]

theorem judgeResetting_shrinks (p : Nat) (g : ResetStage) (b : BitVec 5) (s : State) : Shrinks s (judgeResetting p g b s) := by
  unfold judgeResetting
  split
  · exact List.Sublist.refl _
  · exact List.Sublist.refl _
  all_goals
    split
    · exact List.Sublist.refl _
    split
    · exact enterFaulted_shrinks _ _ s
    split
    · exact enterFaulted_shrinks _ _ s
    · rw [Shrinks, setChange_plan, modTower_plan]

theorem pollGood_shrinks (p : Nat) (r : Reading) (s : State) : Shrinks s (pollGood p r s) := by
  have k : Shrinks s (s.modTower p fun t => t.store p (s.isEnd p) s.link.round r) := by rw [Shrinks, modTower_plan]
  unfold pollGood
  dsimp only
  split
  · refine (judgeUndriven_shrinks _ _ _).trans ?_
    rw [setChange_plan]; exact k
  · exact (judgeUndriven_shrinks _ _ _).trans k
  · exact (judgeDriven_shrinks _ _ _ _ _).trans k
  · exact (judgeDriven_shrinks _ _ _ _ _).trans k
  · exact (judgeResetting_shrinks _ _ _ _).trans k
  · exact k
  · exact k

theorem pollOutcome_shrinks (p : Nat) (o : LineOutcome) (s : State) : Shrinks s (pollOutcome p o s) := by
  unfold pollOutcome
  split
  · split
    · exact pollGood_shrinks _ _ s
    · exact List.Sublist.refl _
  all_goals first | exact pollMissed_shrinks p s | exact List.Sublist.refl _

theorem takeJogMet_shrinks (s : State) : Shrinks s (takeJogMet s) := by
  unfold takeJogMet
  split
  · exact changeState_shrinks _ s
  · exact List.Sublist.refl _

theorem countJogRound_shrinks (j : Jog) (s : State) : Shrinks s (countJogRound j s) := by
  unfold countJogRound
  dsimp only
  split
  · exact changeState_shrinks _ _
  · exact List.Sublist.refl _

theorem takeRest_shrinks (b : Bool) (s : State) : Shrinks s (takeRest b s) := by
  unfold takeRest
  split
  · split
    · exact changeState_shrinks _ s
    · exact List.Sublist.refl _
  · split
    · exact List.Sublist.refl _
    · exact List.Sublist.refl _
  · split
    · exact countJogRound_shrinks _ s
    · exact List.Sublist.refl _
  all_goals exact List.Sublist.refl _

theorem makeReports_shrinks (m : Option Nat) (w j r : Bool) (s : State) : Shrinks s (makeReports m w j r s) := by
  have a : Shrinks s (match m with | some p => tripRequest .misalign (some p) s | none => s) := by
    split
    · exact tripRequest_shrinks _ _ s
    · exact List.Sublist.refl _
  unfold makeReports
  dsimp only
  refine (takeRest_shrinks _ _).trans ?_
  split
  · refine (takeJogMet_shrinks _).trans ?_
    split
    · exact (tripRequest_shrinks _ _ _).trans a
    · exact a
  · split
    · exact (tripRequest_shrinks _ _ _).trans a
    · exact a

theorem computation_shrinks (s : State) : Shrinks s (computation s) := by
  unfold computation
  dsimp only
  rw [Shrinks, refreshSnapshot_plan]
  refine (makeReports_shrinks _ _ _ _ _).trans ?_
  rw [warnChecks_plan, writeTowers_plan]

theorem pollComplete_shrinks (s : State) : Shrinks s (pollComplete s) := by
  unfold pollComplete trackerCompletes
  refine (computation_shrinks _).trans ?_
  rw [handOver_plan, rosterCompletes_plan]
  exact missingSample_shrinks { s with link := { s.link with phase := .service } }

theorem settlePoll_shrinks (s : State) : Shrinks s (settlePoll s) := by
  unfold settlePoll
  split
  · exact pollComplete_shrinks s
  · exact List.Sublist.refl _

theorem foldl_shrinks {α : Type} (g : State → α → State) (h : ∀ s a, Shrinks s (g s a)) (l : List α) (s : State) :
    Shrinks s (l.foldl g s) := by
  induction l generalizing s with
  | nil => exact List.Sublist.refl _
  | cons a l ih => exact (ih (g s a)).trans (h s a)

theorem skipPolls_shrinks (p : Nat) (s : State) : Shrinks s (skipPolls p s) := by
  unfold skipPolls
  dsimp only
  exact (pollComplete_shrinks _).trans (foldl_shrinks _ (fun s q => pollOutcome_shrinks q .skipped s) _ s)

theorem pollBegins_shrinks (s : State) : Shrinks s (pollBegins s) := by
  unfold pollBegins
  repeat' split
  all_goals first | exact skipPolls_shrinks _ s | exact List.Sublist.refl _

theorem deliver_shrinks (x : Exchange) (o : LineOutcome) (s : State) : Shrinks s (deliver x o s) := by
  unfold deliver
  split
  · exact List.Sublist.refl _
  · split
    · exact pollOutcome_shrinks _ _ s
    · rw [Shrinks, resetOutcome_plan]
    · rw [Shrinks, serviceOutcome_plan]

theorem endExchange_shrinks (x : Exchange) (o : LineOutcome) (s : State) : Shrinks s (endExchange x o s) := by
  have k := deliver_shrinks x o { s with link := { s.link with exchange := none } }
  unfold endExchange
  dsimp only
  split
  · exact (pollComplete_shrinks _).trans k
  · exact k

theorem windowCloses_shrinks (x : Exchange) (s : State) : Shrinks s (windowCloses x s) := endExchange_shrinks x _ s

theorem reservationEnds_shrinks (x : Exchange) (s : State) : Shrinks s (reservationEnds x s) := endExchange_shrinks x _ s

theorem replyArrives_shrinks (b : List Byte) (x : Exchange) (s : State) : Shrinks s (replyArrives b x s) :=
  endExchange_shrinks x _ s

theorem replyBreaksOff_shrinks (s : State) : Shrinks s (replyBreaksOff s) := by
  unfold replyBreaksOff
  split
  · exact endExchange_shrinks _ _ s
  · exact List.Sublist.refl _

theorem breakBegins_shrinks (s : State) : Shrinks s (breakBegins s) := by
  unfold breakBegins
  split
  · exact settlePoll_shrinks { s with link := s.link.breakOnFree }
  · split
    · exact List.Sublist.refl _
    · exact List.Sublist.refl _
  · exact List.Sublist.refl _
  · exact List.Sublist.refl _

theorem breakEnds_shrinks (s : State) : Shrinks s (breakEnds s) := by
  unfold breakEnds
  exact (settlePoll_shrinks _).trans (List.Sublist.refl _)

theorem endRound_shrinks (s : State) : Shrinks s (endRound s) := by
  unfold endRound
  repeat' split
  all_goals first | exact skipPolls_shrinks _ s | exact List.Sublist.refl _

theorem startTimerStarts_shrinks (s : State) : Shrinks s (startTimerStarts s) := by
  unfold startTimerStarts
  split
  · exact changeState_shrinks _ s
  · exact List.Sublist.refl _

theorem acceptStart_shrinks (d : Direction) (e : Option Nat) (s : State) : Shrinks s (acceptStart d e s) := by
  unfold acceptStart
  refine (startTimerStarts_shrinks _).trans ?_
  rw [driveOnline_plan]
  refine (changeState_shrinks _ _).trans ?_
  rw [faceStart_plan]

theorem acceptJog_shrinks (j : Jog) (s : State) : Shrinks s (acceptJog j s) := by
  unfold acceptJog
  dsimp only
  rw [Shrinks, modTower_plan]
  exact changeState_shrinks .jogging s

theorem reversalExpires_shrinks (s : State) : Shrinks s (reversalExpires s) := by
  unfold reversalExpires
  refine (changeState_shrinks _ _).trans ?_
  rw [changeDirection_plan]

theorem loopChanges_shrinks (b : Bool) (s : State) : Shrinks s (loopChanges b s) := by
  unfold loopChanges
  dsimp only
  split
  · exact tripRequest_shrinks _ _ { s with sup := { s.sup with loopClosed := b } }
  · exact List.Sublist.refl _

theorem goOnline_shrinks (s : State) : Shrinks s (goOnline s) := by
  unfold goOnline
  dsimp only
  rw [Shrinks, startRound_plan]
  exact changeState_shrinks .standby s

theorem goOffline_shrinks (s : State) : Shrinks s (goOffline s) := by
  unfold goOffline
  dsimp only
  rw [Shrinks, clearRoster_plan]
  exact changeState_shrinks .setup s

theorem stepStart_shrinks (s : State) : Shrinks s (stepStart s) := by
  unfold stepStart
  repeat' split
  all_goals first | exact changeState_shrinks _ s | exact List.Sublist.refl _

theorem stepDwell_shrinks (s : State) : Shrinks s (stepDwell s) := by
  unfold stepDwell
  repeat' split
  all_goals first | exact dwellExpires_shrinks s | exact List.Sublist.refl _

theorem stepReversal_shrinks (s : State) : Shrinks s (stepReversal s) := by
  unfold stepReversal
  repeat' split
  all_goals first | exact reversalExpires_shrinks s | exact List.Sublist.refl _

theorem stepReset_shrinks (p : Nat) (s : State) : Shrinks s (stepReset p s) := by
  unfold stepReset
  split
  · exact List.Sublist.refl _
  · split
    · exact enterFaulted_shrinks _ _ s
    · rw [Shrinks, modTower_plan]

theorem stepTimers_shrinks (s : State) : Shrinks s (stepTimers s) := by
  unfold stepTimers
  exact (foldl_shrinks _ (fun s p => stepReset_shrinks p s) _ _).trans
    ((stepReversal_shrinks _).trans ((stepDwell_shrinks _).trans (stepStart_shrinks s)))

theorem lineRuns_shrinks (n : Nat) (s : State) : Shrinks s (lineRuns n s) := by
  unfold lineRuns
  split <;> exact List.Sublist.refl _

theorem runSteps_shrinks (going : State → Bool) (k n : Nat) (s : State) : Shrinks s (runSteps going k n s) := by
  induction k generalizing n s with
  | zero => exact lineRuns_shrinks _ _
  | succ k ih =>
    have t : Shrinks s (stepTimers (lineRuns s.link.toStep s)) := (stepTimers_shrinks _).trans (lineRuns_shrinks _ s)
    unfold runSteps
    dsimp only
    split
    · exact lineRuns_shrinks _ _
    · split
      · exact (ih _ _).trans t
      · exact t

theorem timePasses_shrinks (n : Nat) (s : State) : Shrinks s (timePasses n s) := runSteps_shrinks _ _ _ _

theorem timePassesWhile_shrinks (going : State → Bool) (n : Nat) (s : State) : Shrinks s (timePassesWhile going n s) :=
  runSteps_shrinks _ _ _ _

@[simp] theorem lineFallsIdle_plan (s : State) : (lineFallsIdle s).plan = s.plan := by
  unfold lineFallsIdle
  split <;> rfl

theorem breakDue_shrinks (s : State) : Shrinks s (breakDue s) := by
  unfold breakDue
  repeat' split
  all_goals first | exact breakBegins_shrinks s | exact breakEnds_shrinks s | exact List.Sublist.refl _

theorem atMoment_shrinks {act : Exchange → State → State} (k : ∀ x s, Shrinks s (act x s)) (st : ExStep)
    (moment : Exchange → Nat) (s : State) : Shrinks s (atMoment st moment act s) := by
  unfold atMoment
  split
  · dsimp only
    split
    · exact (k _ _).trans (timePassesWhile_shrinks _ _ s)
    · exact (breakDue_shrinks _).trans (timePassesWhile_shrinks _ _ s)
  · exact List.Sublist.refl _

theorem breakSent_shrinks (s : State) : Shrinks s (breakSent s) := by
  unfold breakSent
  split
  · exact (breakEnds_shrinks _).trans (timePasses_shrinks _ s)
  all_goals exact List.Sublist.refl _

theorem roundPasses_shrinks (s : State) : Shrinks s (roundPasses s) := by
  have t := timePassesWhile_shrinks (fun u => u.link.free) s.link.remaining s
  unfold roundPasses
  dsimp only
  split
  · exact t
  · exact (timePasses_shrinks _ _).trans ((breakSent_shrinks _).trans t)

theorem exchangeDue_shrinks (s : State) : Shrinks s (exchangeDue s) := by
  unfold exchangeDue
  split
  · exact List.Sublist.refl _
  · split
    all_goals split
    all_goals
      first
      | exact windowCloses_shrinks _ s
      | exact reservationEnds_shrinks _ s
      | exact List.Sublist.refl _

theorem characterTime_shrinks (s : State) : Shrinks s (characterTime s) :=
  (breakDue_shrinks _).trans ((exchangeDue_shrinks _).trans (timePasses_shrinks 1 s))

/-! ### The first law of the plan (R6) -/

theorem PlanLawful.sublist {p q : List Sector} (h : PlanLawful p) (k : q.Sublist p) : PlanLawful q :=
  ⟨k.length_le.trans h.1, h.2.1.sublist k, fun r hr => h.2.2 r (k.subset hr)⟩

/-- Start angles on the circle. -/
theorem PlanLawful.start_lt {p : List Sector} (h : PlanLawful p) {r : Sector} (hr : r ∈ p) : r.start < 36000 := by
  have := h.2.2 r hr
  simp only [Sector.valid, Sector.inRange, isAngle, Config.circle, Bool.and_eq_true] at this
  exact of_decide_eq_true this.1.1.1.1.1.1.1

/-- A record put in its place keeps the plan's order if it stands apart from every record of it. -/
theorem insertRecord_apart (r : Sector) (p : List Sector) (h : p.Pairwise Sector.apart)
    (k : ∀ q ∈ p, (q.start < r.start ∧ q.apart r) ∨ (r.start < q.start ∧ r.apart q)) :
    (insertRecord r p).Pairwise Sector.apart := by
  induction p with
  | nil => exact List.pairwise_singleton _ _
  | cons a l ih =>
    rw [List.pairwise_cons] at h
    unfold insertRecord
    split
    · rename_i hlt
      refine List.pairwise_cons.mpr ⟨?_, List.pairwise_cons.mpr h⟩
      intro q hq
      rcases List.mem_cons.mp hq with rfl | hq'
      · rcases k q (List.mem_cons_self) with ⟨h1, -⟩ | ⟨-, h2⟩
        · omega
        · exact h2
      · rcases k q (List.mem_cons_of_mem _ hq') with ⟨h1, -⟩ | ⟨-, h2⟩
        · have := (h.1 q hq').1
          omega
        · exact h2
    · rename_i hge
      refine List.pairwise_cons.mpr ⟨?_, ih h.2 fun q hq => k q (List.mem_cons_of_mem _ hq)⟩
      intro q hq
      have mem : q = r ∨ q ∈ l := by
        clear ih h k hge
        induction l with
        | nil => exact Or.inl (by simpa [insertRecord] using hq)
        | cons b l ih =>
          unfold insertRecord at hq
          split at hq
          · rcases List.mem_cons.mp hq with e | e
            · exact Or.inl e
            · exact Or.inr e
          · rcases List.mem_cons.mp hq with e | e
            · exact Or.inr (e ▸ List.mem_cons_self)
            · rcases ih e with e | e
              · exact Or.inl e
              · exact Or.inr (List.mem_cons_of_mem _ e)
      rcases mem with rfl | hq'
      · rcases k a List.mem_cons_self with ⟨-, h2⟩ | ⟨h1, -⟩
        · exact h2
        · omega
      · exact h.1 q hq'

theorem mem_insertRecord {r q : Sector} {p : List Sector} (h : q ∈ insertRecord r p) : q = r ∨ q ∈ p := by
  induction p with
  | nil => exact Or.inl (by simpa [insertRecord] using h)
  | cons b l ih =>
    unfold insertRecord at h
    split at h
    · rcases List.mem_cons.mp h with e | e
      · exact Or.inl e
      · exact Or.inr e
    · rcases List.mem_cons.mp h with e | e
      · exact Or.inr (e ▸ List.mem_cons_self)
      · rcases ih e with e | e
        · exact Or.inl e
        · exact Or.inr (List.mem_cons_of_mem _ e)

@[simp] theorem length_insertRecord (r : Sector) (p : List Sector) : (insertRecord r p).length = p.length + 1 := by
  induction p with
  | nil => rfl
  | cons b l ih => unfold insertRecord; split <;> simp [ih]

/-- The distance up between two angles of the circle. -/
theorem upDist_eq {a b : Nat} (ha : a < 36000) (hb : b < 36000) :
    upDist a b = if a ≤ b then b - a else b + 36000 - a := by
  unfold upDist Config.circle
  split <;> omega

/-- In a lawful plan the last record at or below an angle is the greatest of them. -/
theorem getLast?_filter_le {p : List Sector} (h : p.Pairwise Sector.apart) {f : Sector → Bool} {c : Sector}
    (hc : (p.filter f).getLast? = some c) {q : Sector} (hq : q ∈ p) (hf : f q = true) : q.start ≤ c.start := by
  have hp := h.sublist (List.filter_sublist (p := f))
  have hm : q ∈ p.filter f := List.mem_filter.mpr ⟨hq, hf⟩
  generalize p.filter f = l at *
  obtain ⟨l', rfl⟩ : ∃ l', l = l' ++ [c] := by
    rw [List.getLast?_eq_some_iff] at hc
    exact hc
  rcases List.mem_append.mp hm with e | e
  · have := ((List.pairwise_append.mp hp).2.2 q e c (by simp)).1
    omega
  · rw [List.mem_singleton.mp e]

/-- In a lawful plan the first record that satisfies a test is the least of them. -/
theorem find?_le {p : List Sector} (h : p.Pairwise Sector.apart) {f : Sector → Bool} {n : Sector}
    (hn : p.find? f = some n) {q : Sector} (hq : q ∈ p) (hf : f q = true) : n.start ≤ q.start := by
  induction p with
  | nil => simp at hn
  | cons a l ih =>
    rw [List.pairwise_cons] at h
    by_cases ha : f a = true
    · rw [List.find?_cons_of_pos ha] at hn
      obtain rfl := Option.some.inj hn
      rcases List.mem_cons.mp hq with rfl | hq'
      · exact le_refl _
      · have := (h.1 q hq').1; omega
    · rw [List.find?_cons_of_neg ha] at hn
      rcases List.mem_cons.mp hq with rfl | hq'
      · exact absurd hf ha
      · exact ih h.2 hn hq'

/-- R12's checks 2 and 5 together: a new record stands apart from every record of the plan. -/
theorem apart_of_wideEnough {p : List Sector} (h : PlanLawful p) {r : Sector} (hr : r.start < 36000)
    (hk : findRecord p r.start = none) (hw : wideEnough p r.start = true) :
    ∀ q ∈ p, (q.start < r.start ∧ q.apart r) ∨ (r.start < q.start ∧ r.apart q) := by
  intro q hq
  have hq36 := h.start_lt hq
  have hne : q.start ≠ r.start := by
    have := List.find?_eq_none.mp hk q hq
    simpa using this
  -- the record below
  have below : ∀ c, covering p r.start = some c → 10 ≤ upDist c.start r.start →
      (q.start < r.start → q.start + 10 ≤ r.start) ∧ (r.start < q.start → q.start + 10 ≤ r.start + 36000) := by
    intro c hc hd
    unfold covering at hc
    cases hl : (p.filter (·.start ≤ r.start)).getLast? with
    | some c' =>
      rw [hl] at hc
      obtain rfl : c' = c := by simpa using hc
      have hcm := List.mem_of_getLast? hl
      rw [List.mem_filter] at hcm
      have hc36 := h.start_lt hcm.1
      have hcle : c'.start ≤ r.start := by simpa using hcm.2
      rw [upDist_eq hc36 hr, if_pos hcle] at hd
      refine ⟨fun hlt => ?_, fun hlt => ?_⟩
      · have := getLast?_filter_le h.2.1 hl hq (by simpa using hlt.le)
        omega
      · omega
    | none =>
      rw [hl] at hc
      simp only [Option.none_or] at hc
      have hnil := List.getLast?_eq_none_iff.mp hl
      have hge : ∀ x ∈ p, r.start < x.start := by
        intro x hx
        by_contra hx'
        have : x ∈ p.filter (·.start ≤ r.start) := List.mem_filter.mpr ⟨hx, by simpa using hx'⟩
        rw [hnil] at this; simp at this
      have hcm := List.mem_of_getLast? hc
      have hcge := hge c hcm
      rw [upDist_eq (h.start_lt hcm) hr, if_neg (by omega)] at hd
      refine ⟨fun hlt => absurd (hge q hq) (by omega), fun _ => ?_⟩
      have := getLast?_filter_le (f := fun _ => true) h.2.1 (c := c) (by simpa using hc) hq rfl
      have := h.start_lt hcm
      omega
  -- the record above
  have above : 10 ≤ widthFrom p r.start →
      (q.start < r.start → r.start + 10 ≤ q.start + 36000) ∧ (r.start < q.start → r.start + 10 ≤ q.start) := by
    intro hd
    unfold widthFrom successor at hd
    cases hf : p.find? (r.start < ·.start) with
    | some n =>
      rw [hf] at hd
      simp only [Option.some_or] at hd
      have hnm := List.mem_of_find?_eq_some hf
      have hlt := List.find?_some hf
      simp only [decide_eq_true_eq] at hlt
      rw [if_neg (by omega), upDist_eq hr (h.start_lt hnm), if_pos hlt.le] at hd
      have := h.start_lt hnm
      refine ⟨fun _ => by omega, fun hgt => ?_⟩
      have := find?_le h.2.1 hf hq (by simpa using hgt)
      omega
    | none =>
      rw [hf] at hd
      simp only [Option.none_or] at hd
      have hle : ∀ x ∈ p, x.start ≤ r.start := by
        intro x hx
        have := List.find?_eq_none.mp hf x hx
        simpa using this
      cases p with
      | nil => simp at hq
      | cons a l =>
        simp only [List.head?_cons] at hd
        have ha := hle a List.mem_cons_self
        have hane : a.start ≠ r.start := by
          have := List.find?_eq_none.mp hk a List.mem_cons_self
          simpa using this
        rw [if_neg hane, upDist_eq hr (h.start_lt List.mem_cons_self), if_neg (by omega)] at hd
        refine ⟨fun _ => ?_, fun hgt => absurd (hle q hq) (by omega)⟩
        have haq : a.start ≤ q.start := by
          rcases List.mem_cons.mp hq with rfl | hq'
          · exact le_refl _
          · have := ((List.pairwise_cons.mp h.2.1).1 q hq').1; omega
        omega
  unfold wideEnough at hw
  cases hc : covering p r.start with
  | none =>
    exfalso
    unfold covering at hc
    rw [Option.or_eq_none_iff] at hc
    rw [List.getLast?_eq_none_iff.mp hc.2] at hq
    simp at hq
  | some c =>
    rw [hc] at hw
    simp only [Config.minWidth, Bool.and_eq_true] at hw
    have hb := below c hc (of_decide_eq_true hw.2)
    have ha := above (of_decide_eq_true hw.1)
    unfold Sector.apart Config.minWidth Config.circle
    omega

/-- SECTOR_PUT's insertion keeps the first law. -/
theorem insertRecord_lawful {p : List Sector} (h : PlanLawful p) {r : Sector} (hv : r.valid = true)
    (hk : findRecord p r.start = none) (hl : p.length < Config.planSize) (hw : wideEnough p r.start = true) :
    PlanLawful (insertRecord r p) := by
  have hr : r.start < 36000 := by
    simp only [Sector.valid, Sector.inRange, isAngle, Config.circle, Bool.and_eq_true] at hv
    exact of_decide_eq_true hv.1.1.1.1.1.1.1
  refine ⟨by rw [length_insertRecord]; exact hl, insertRecord_apart r p h.2.1 (apart_of_wideEnough h hr hk hw), ?_⟩
  intro q hq
  rcases mem_insertRecord hq with rfl | hq'
  · exact hv
  · exact h.2.2 q hq'

/-- A record replaced at its own start angle keeps the first law. -/
theorem replaceRecord_lawful {p : List Sector} (h : PlanLawful p) {r : Sector} (hv : r.valid = true) :
    PlanLawful (replaceRecord r p) := by
  have start : ∀ q : Sector, (if q.start = r.start then r else q).start = q.start := by
    intro q; split <;> simp_all
  refine ⟨by simpa [replaceRecord] using h.1, ?_, ?_⟩
  · rw [replaceRecord, List.pairwise_map]
    refine h.2.1.imp fun {a b} hab => ?_
    unfold Sector.apart at *
    rw [start, start]; exact hab
  · intro q hq
    obtain ⟨x, hx, rfl⟩ := List.mem_map.mp hq
    split
    · exact hv
    · exact h.2.2 x hx

end Sys2Proof.Machine
end

