-- ==== Sys2Proof/Laws/Port.lean ====
section
/-! SUPPORT. Everything the carrying out of a command can do, and what each command's handler keeps: the queue and the
transaction, the supervisor's laws and the plan's. -/

namespace Sys2Proof.Machine

/-! ### Carrying out a command -/

/-- The answer to a frame given by itself enters a slot whose waiting answer has been taken out. -/
theorem finishFrame_eq (code : Byte) (h : Handler) (payload : List Byte) (s : State) :
    finishFrame code h payload s = finishCommand code h payload s := rfl

theorem isBetween_iff (p : Port) : p.isBetween = true ↔ p.transaction = none ∧ p.mask = .clear := by
  simp [Port.isBetween]

/-- A command that is taken is finished with its own payload. -/
theorem carryOut_of_takes {code : Byte} {payload : List Byte} {s : State} (h : Handler) (k : s.takes code payload) :
    carryOut code h payload s = finishCommand code h payload s := by
  rcases k with k | ⟨k, k'⟩
  · simp [carryOut, k]
  · simp [carryOut, k, (isBetween_iff _).mpr k', finishFrame_eq]

/-- A command is finished with some payload that is taken, or nothing happens. -/
theorem carryOut_cases (code : Byte) (h : Handler) (payload : List Byte) (s : State) :
    carryOut code h payload s = s ∨
      ∃ q, s.takes code q ∧ carryOut code h payload s = finishCommand code h q s := by
  unfold carryOut
  cases k : s.port.command with
  | none =>
    by_cases k' : s.port.isBetween = true
    · exact Or.inr ⟨payload, Or.inr ⟨k, (isBetween_iff _).mp k'⟩, by simp [k', finishFrame_eq]⟩
    · exact Or.inl (by simp [k'])
  | some c =>
    by_cases e : c.code = code
    · exact Or.inr ⟨c.payload, Or.inl (by rw [k, ← e]), by simp [e]⟩
    · exact Or.inl (by simp [e])

/-- A finished command: the handler's effect, and its answer in the response slot. -/
theorem finishCommand_eq (code : Byte) (h : Handler) (payload : List Byte) (s : State) :
    finishCommand code h payload s = ((h payload s).1).respond ((h payload s).2.frame code) := rfl

/-- What holds of the state and of what a command leaves, its answer aside, holds after it is carried out. -/
theorem carryOut_induct {P : State → Prop} {code : Byte} {h : Handler} {payload : List Byte} {s : State} (k : P s)
    (m : ∀ q, s.takes code q → ∀ b, P (((h q s).1).respond b)) : P (carryOut code h payload s) := by
  rcases carryOut_cases code h payload s with e | ⟨q, t, e⟩
  · rw [e]; exact k
  · rw [e]; exact m q t _

@[simp] theorem plainHandler_nil (f : State → State × Answer) (s : State) : plainHandler f [] s = f s := rfl
@[simp] theorem plainHandler_cons (f : State → State × Answer) (b : Byte) (l : List Byte) (s : State) :
    plainHandler f (b :: l) s = (s, .refuse .badValue) := rfl

theorem decodedHandler_some {α : Type} {decode : List Byte → Option α} {p : List Byte} {a : α} (h : decode p = some a)
    (f : α → State → State × Answer) (s : State) : decodedHandler decode f p s = f a s := by
  simp [decodedHandler, h]

theorem decodedHandler_none {α : Type} {decode : List Byte → Option α} {p : List Byte} (h : decode p = none)
    (f : α → State → State × Answer) (s : State) : decodedHandler decode f p s = (s, .refuse .badValue) := by
  simp [decodedHandler, h]

/-! ### What a handler keeps -/

/-- A relation of a state to what a command makes of it, its answer aside. -/
def Handler.Relates (h : Handler) (R : State → State → Prop) : Prop := ∀ p s, R s (h p s).1

theorem plainHandler_relates {R : State → State → Prop} {f : State → State × Answer} (r : ∀ s, R s s)
    (k : ∀ s, R s (f s).1) : (plainHandler f).Relates R := by
  intro p s; unfold plainHandler; split
  · exact k s
  · exact r s

theorem decodedHandler_relates {α : Type} {R : State → State → Prop} {d : List Byte → Option α}
    {f : α → State → State × Answer} (r : ∀ s, R s s) (k : ∀ a s, R s (f a s).1) : (decodedHandler d f).Relates R := by
  intro p s; unfold decodedHandler; split
  · exact k _ s
  · exact r s

/-- `t` has the queue and the transaction of `s`. -/
abbrev SameQueue (s t : State) : Prop := t.pending = s.pending ∧ t.port.transaction = s.port.transaction

theorem SameQueue.refl (s : State) : SameQueue s s := ⟨rfl, rfl⟩

/-- The plan of `t` is lawful if that of `s` is. -/
abbrev PlanKept (s t : State) : Prop := PlanLawful s.plan → PlanLawful t.plan

/-- The supervisor of `t` is lawful if that of `s` is. -/
abbrev SupKept (s t : State) : Prop := s.sup.Lawful → t.sup.Lawful

theorem PlanKept.of_shrinks {s t : State} (h : Shrinks s t) : PlanKept s t := fun k => k.sublist h

/-! ### The queue and the transaction -/

theorem heldAmended_queue (r : Sector) (cs : List Change) (s : State) : SameQueue s (heldAmended r cs s) := by
  unfold heldAmended
  (repeat' split) <;> simp [SameQueue]

@[simp] theorem reconfigure_pending (a b : LinkSettings) (s : State) : (reconfigure a b s).pending = s.pending := rfl
@[simp] theorem reconfigure_port (a b : LinkSettings) (s : State) : (reconfigure a b s).port = s.port := rfl

theorem goOffline_queue (s : State) : SameQueue s (goOffline s) := by simp [goOffline, SameQueue]

theorem restartBlocks_queue (s : State) : SameQueue s (restartBlocks s) := by simp [restartBlocks, SameQueue]

theorem sectorPut_queue (r : Sector) (s : State) : SameQueue s (sectorPut r s).1 := by
  unfold sectorPut
  (repeat' split) <;> simp [SameQueue]

theorem acceptAmendment_queue (r : Sector) (cs : List Change) (s : State) : SameQueue s (acceptAmendment r cs s).1 := by
  unfold acceptAmendment
  simp only
  split
  · have h := heldAmended_queue { r.amended cs with revision := (r.revision + 1) % 256 } cs
      { s with plan := replaceRecord { r.amended cs with revision := (r.revision + 1) % 256 } s.plan }
    exact h
  · exact ⟨rfl, rfl⟩

theorem amendRecord_queue (r : Sector) (a : Amendment) (s : State) : SameQueue s (amendRecord r a s).1 := by
  unfold amendRecord
  (repeat' split) <;> first | exact acceptAmendment_queue r a.changes s | exact SameQueue.refl s

theorem sectorAmend_queue (a : Amendment) (s : State) : SameQueue s (sectorAmend a s).1 := by
  unfold sectorAmend
  (repeat' split) <;> first | exact amendRecord_queue _ a s | exact SameQueue.refl s

theorem retireRecord_queue (r : Sector) (s : State) : SameQueue s (retireRecord r s).1 := by
  unfold retireRecord
  (repeat' split) <;> exact ⟨rfl, rfl⟩

theorem sectorRetire_queue (k : Nat) (s : State) : SameQueue s (sectorRetire k s).1 := by
  unfold sectorRetire
  (repeat' split) <;> first | exact retireRecord_queue _ s | exact SameQueue.refl s

theorem sectorClear_queue (s : State) : SameQueue s (sectorClear s).1 := by
  unfold sectorClear
  (repeat' split) <;> simp [SameQueue]

theorem motionSetup_queue (m : MotionSettings) (s : State) : SameQueue s (motionSetup m s).1 := by
  unfold motionSetup
  (repeat' split) <;> simp [SameQueue]

theorem towerSet_queue (c : TowerSetting) (s : State) : SameQueue s (towerSet c s).1 := by
  unfold towerSet
  (repeat' split) <;> simp [SameQueue]

theorem towerTrim_queue (c : Nat × Int) (s : State) : SameQueue s (towerTrim c s).1 := by
  unfold towerTrim
  (repeat' split) <;> simp [SameQueue]

theorem towerGet_queue (p : Nat) (s : State) : SameQueue s (towerGet p s).1 := by
  unfold towerGet
  (repeat' split) <;> simp [SameQueue]

theorem towerAck_queue (c : Nat × BitVec 5) (s : State) : SameQueue s (towerAck c s).1 := by
  unfold towerAck
  (repeat' split) <;> simp [SameQueue]

theorem towerReset_queue (p : Nat) (s : State) : SameQueue s (towerReset p s).1 := by
  unfold towerReset
  (repeat' split) <;> simp [SameQueue]

theorem linkSetup_queue (l : LinkSettings) (s : State) : SameQueue s (linkSetup l s).1 := by
  unfold linkSetup
  (repeat' split) <;> simp [SameQueue]

theorem alignTune_queue (t : Tune) (s : State) : SameQueue s (alignTune t s).1 := by
  unfold alignTune
  (repeat' split) <;> simp [SameQueue]

theorem online_queue (s : State) : SameQueue s (online s).1 := by
  unfold online
  (repeat' split) <;> simp [SameQueue]

theorem offline_queue (s : State) : SameQueue s (offline s).1 := by
  unfold offline
  split
  · exact goOffline_queue s
  · exact SameQueue.refl s

theorem startAt_queue (d : Direction) (n : Nat) (s : State) : SameQueue s (startAt d n s).1 := by
  unfold startAt
  (repeat' split) <;> simp [SameQueue]

theorem start_queue (d : Direction) (s : State) : SameQueue s (start d s).1 := by
  unfold start
  (repeat' split) <;> first | exact startAt_queue d _ s | exact SameQueue.refl s

theorem stop_queue (s : State) : SameQueue s (stop s).1 := by
  unfold stop
  (repeat' split) <;> simp [SameQueue]

theorem pause_queue (s : State) : SameQueue s (pause s).1 := by
  unfold pause
  (repeat' split) <;> simp [SameQueue]

theorem continueRun_queue (s : State) : SameQueue s (continueRun s).1 := by
  unfold continueRun
  (repeat' split) <;> simp [SameQueue]

theorem reverse_queue (s : State) : SameQueue s (reverse s).1 := by
  unfold reverse
  (repeat' split) <;> simp [SameQueue]

theorem jog_queue (j : Jog) (s : State) : SameQueue s (jog j s).1 := by
  unfold jog
  (repeat' split) <;> simp [SameQueue]

theorem estop_queue (s : State) : SameQueue s (estop s).1 := by
  unfold estop
  (repeat' split) <;> simp [SameQueue]

theorem clearTrip_queue (s : State) : SameQueue s (clearTrip s).1 := by
  unfold clearTrip
  (repeat' split) <;> simp [SameQueue]

theorem timingSetup_queue (c : Nat × Nat) (s : State) : SameQueue s (timingSetup c s).1 := by
  unfold timingSetup
  (repeat' split) <;> simp [SameQueue]

theorem svcSubmit_queue (c : Submission) (s : State) : SameQueue s (svcSubmit c s).1 := by
  unfold svcSubmit
  (repeat' split) <;> simp [SameQueue]

theorem svcResult_queue (n : Nat) (s : State) : SameQueue s (svcResult n s).1 := by
  unfold svcResult
  (repeat' split) <;> simp [SameQueue]

theorem svcCancel_queue (n : Nat) (s : State) : SameQueue s (svcCancel n s).1 := by
  unfold svcCancel
  (repeat' split) <;> simp [SameQueue]

theorem nopHandler_queue : nopHandler.Relates SameQueue :=
  plainHandler_relates SameQueue.refl fun _ => ⟨rfl, rfl⟩

theorem statusHandler_queue : statusHandler.Relates SameQueue :=
  plainHandler_relates SameQueue.refl fun _ => ⟨rfl, rfl⟩

theorem restartHandler_queue : restartHandler.Relates SameQueue :=
  plainHandler_relates SameQueue.refl restartBlocks_queue

theorem sectorPutHandler_queue : sectorPutHandler.Relates SameQueue :=
  decodedHandler_relates SameQueue.refl sectorPut_queue

theorem sectorAmendHandler_queue : sectorAmendHandler.Relates SameQueue :=
  decodedHandler_relates SameQueue.refl sectorAmend_queue

theorem sectorRetireHandler_queue : sectorRetireHandler.Relates SameQueue :=
  decodedHandler_relates SameQueue.refl sectorRetire_queue

theorem sectorGetHandler_queue : sectorGetHandler.Relates SameQueue :=
  decodedHandler_relates SameQueue.refl fun _ _ => ⟨rfl, rfl⟩

theorem sectorFindHandler_queue : sectorFindHandler.Relates SameQueue :=
  decodedHandler_relates SameQueue.refl fun _ _ => ⟨rfl, rfl⟩

theorem sectorWalkHandler_queue : sectorWalkHandler.Relates SameQueue :=
  decodedHandler_relates SameQueue.refl fun _ _ => ⟨rfl, rfl⟩

theorem sectorClearHandler_queue : sectorClearHandler.Relates SameQueue :=
  plainHandler_relates SameQueue.refl sectorClear_queue

theorem motionSetupHandler_queue : motionSetupHandler.Relates SameQueue :=
  decodedHandler_relates SameQueue.refl motionSetup_queue

theorem towerSetHandler_queue : towerSetHandler.Relates SameQueue :=
  decodedHandler_relates SameQueue.refl towerSet_queue

theorem towerTrimHandler_queue : towerTrimHandler.Relates SameQueue :=
  decodedHandler_relates SameQueue.refl towerTrim_queue

theorem towerGetHandler_queue : towerGetHandler.Relates SameQueue :=
  decodedHandler_relates SameQueue.refl towerGet_queue

theorem towerAckHandler_queue : towerAckHandler.Relates SameQueue :=
  decodedHandler_relates SameQueue.refl towerAck_queue

theorem towerResetHandler_queue : towerResetHandler.Relates SameQueue :=
  decodedHandler_relates SameQueue.refl towerReset_queue

theorem linkSetupHandler_queue : linkSetupHandler.Relates SameQueue :=
  decodedHandler_relates SameQueue.refl linkSetup_queue

theorem alignTuneHandler_queue : alignTuneHandler.Relates SameQueue :=
  decodedHandler_relates SameQueue.refl alignTune_queue

theorem onlineHandler_queue : onlineHandler.Relates SameQueue :=
  plainHandler_relates SameQueue.refl online_queue

theorem offlineHandler_queue : offlineHandler.Relates SameQueue :=
  plainHandler_relates SameQueue.refl offline_queue

theorem startHandler_queue : startHandler.Relates SameQueue :=
  decodedHandler_relates SameQueue.refl start_queue

theorem stopHandler_queue : stopHandler.Relates SameQueue :=
  plainHandler_relates SameQueue.refl stop_queue

theorem pauseHandler_queue : pauseHandler.Relates SameQueue :=
  plainHandler_relates SameQueue.refl pause_queue

theorem continueHandler_queue : continueHandler.Relates SameQueue :=
  plainHandler_relates SameQueue.refl continueRun_queue

theorem reverseHandler_queue : reverseHandler.Relates SameQueue :=
  plainHandler_relates SameQueue.refl reverse_queue

theorem jogHandler_queue : jogHandler.Relates SameQueue :=
  decodedHandler_relates SameQueue.refl jog_queue

theorem estopHandler_queue : estopHandler.Relates SameQueue :=
  plainHandler_relates SameQueue.refl estop_queue

theorem clearTripHandler_queue : clearTripHandler.Relates SameQueue :=
  plainHandler_relates SameQueue.refl clearTrip_queue

theorem timingSetupHandler_queue : timingSetupHandler.Relates SameQueue :=
  decodedHandler_relates SameQueue.refl timingSetup_queue

theorem machineGetHandler_queue : machineGetHandler.Relates SameQueue :=
  plainHandler_relates SameQueue.refl fun _ => ⟨rfl, rfl⟩

theorem svcSubmitHandler_queue : svcSubmitHandler.Relates SameQueue :=
  decodedHandler_relates SameQueue.refl svcSubmit_queue

theorem svcResultHandler_queue : svcResultHandler.Relates SameQueue :=
  decodedHandler_relates SameQueue.refl svcResult_queue

theorem svcCancelHandler_queue : svcCancelHandler.Relates SameQueue :=
  decodedHandler_relates SameQueue.refl svcCancel_queue

theorem evtReadHandler_queue : evtReadHandler.Relates SameQueue :=
  plainHandler_relates SameQueue.refl fun _ => ⟨rfl, rfl⟩

theorem evtAckHandler_queue : evtAckHandler.Relates SameQueue :=
  decodedHandler_relates SameQueue.refl fun _ _ => ⟨rfl, rfl⟩

theorem evtEnableHandler_queue : evtEnableHandler.Relates SameQueue :=
  decodedHandler_relates SameQueue.refl fun _ _ => ⟨rfl, rfl⟩

theorem evtDisableHandler_queue : evtDisableHandler.Relates SameQueue :=
  decodedHandler_relates SameQueue.refl fun _ _ => ⟨rfl, rfl⟩

/-- Every command's handler, by its code. -/
theorem handlerOf_induct {P : Handler → Prop} (nop : P nopHandler) (status : P statusHandler) (restart : P restartHandler)
    (sectorPut : P sectorPutHandler) (sectorAmend : P sectorAmendHandler) (sectorRetire : P sectorRetireHandler)
    (sectorGet : P sectorGetHandler) (sectorFind : P sectorFindHandler) (sectorWalk : P sectorWalkHandler)
    (sectorClear : P sectorClearHandler) (motionSetup : P motionSetupHandler) (towerSet : P towerSetHandler)
    (towerTrim : P towerTrimHandler) (towerGet : P towerGetHandler) (towerAck : P towerAckHandler)
    (towerReset : P towerResetHandler) (linkSetup : P linkSetupHandler) (alignTune : P alignTuneHandler)
    (online : P onlineHandler) (offline : P offlineHandler) (start : P startHandler) (stop : P stopHandler)
    (pause : P pauseHandler) (continueRun : P continueHandler) (reverse : P reverseHandler) (jog : P jogHandler)
    (estop : P estopHandler) (clearTrip : P clearTripHandler) (timingSetup : P timingSetupHandler)
    (machineGet : P machineGetHandler) (svcSubmit : P svcSubmitHandler) (svcResult : P svcResultHandler)
    (svcCancel : P svcCancelHandler) (evtRead : P evtReadHandler) (evtAck : P evtAckHandler)
    (evtEnable : P evtEnableHandler) (evtDisable : P evtDisableHandler)
    {code : Byte} {h : Handler} (k : handlerOf code = some h) : P h := by
  unfold handlerOf at k
  split at k
  · injection k with k; exact k ▸ nop
  · injection k with k; exact k ▸ status
  · injection k with k; exact k ▸ restart
  · injection k with k; exact k ▸ sectorPut
  · injection k with k; exact k ▸ sectorAmend
  · injection k with k; exact k ▸ sectorRetire
  · injection k with k; exact k ▸ sectorGet
  · injection k with k; exact k ▸ sectorFind
  · injection k with k; exact k ▸ sectorWalk
  · injection k with k; exact k ▸ sectorClear
  · injection k with k; exact k ▸ motionSetup
  · injection k with k; exact k ▸ towerSet
  · injection k with k; exact k ▸ towerTrim
  · injection k with k; exact k ▸ towerGet
  · injection k with k; exact k ▸ towerAck
  · injection k with k; exact k ▸ towerReset
  · injection k with k; exact k ▸ linkSetup
  · injection k with k; exact k ▸ alignTune
  · injection k with k; exact k ▸ online
  · injection k with k; exact k ▸ offline
  · injection k with k; exact k ▸ start
  · injection k with k; exact k ▸ stop
  · injection k with k; exact k ▸ pause
  · injection k with k; exact k ▸ continueRun
  · injection k with k; exact k ▸ reverse
  · injection k with k; exact k ▸ jog
  · injection k with k; exact k ▸ estop
  · injection k with k; exact k ▸ clearTrip
  · injection k with k; exact k ▸ timingSetup
  · injection k with k; exact k ▸ machineGet
  · injection k with k; exact k ▸ svcSubmit
  · injection k with k; exact k ▸ svcResult
  · injection k with k; exact k ▸ svcCancel
  · injection k with k; exact k ▸ evtRead
  · injection k with k; exact k ▸ evtAck
  · injection k with k; exact k ▸ evtEnable
  · injection k with k; exact k ▸ evtDisable
  · simp at k

/-- No command changes the queue or the transaction in progress. -/
theorem handlerOf_queue {code : Byte} {h : Handler} (k : handlerOf code = some h) : h.Relates SameQueue :=
  handlerOf_induct (P := fun h => h.Relates SameQueue)
    nopHandler_queue statusHandler_queue restartHandler_queue sectorPutHandler_queue sectorAmendHandler_queue
    sectorRetireHandler_queue sectorGetHandler_queue sectorFindHandler_queue sectorWalkHandler_queue
    sectorClearHandler_queue motionSetupHandler_queue towerSetHandler_queue towerTrimHandler_queue
    towerGetHandler_queue towerAckHandler_queue towerResetHandler_queue linkSetupHandler_queue
    alignTuneHandler_queue onlineHandler_queue offlineHandler_queue startHandler_queue stopHandler_queue
    pauseHandler_queue continueHandler_queue reverseHandler_queue jogHandler_queue estopHandler_queue
    clearTripHandler_queue timingSetupHandler_queue machineGetHandler_queue svcSubmitHandler_queue
    svcResultHandler_queue svcCancelHandler_queue evtReadHandler_queue evtAckHandler_queue evtEnableHandler_queue
    evtDisableHandler_queue k

/-! ### The slots -/

/-- A response that enters while no transaction waits on empty slots leaves the port lawful. -/
theorem respond_port_lawful {s : State} (b : List Byte) (h : ∀ t ∈ s.port.transaction, t.busy = true) :
    (s.respond b).port.Lawful :=
  ⟨rfl, Or.inl rfl, fun t m => Or.inl (h t m)⟩

/-- While a command is carried out, a transaction in progress is one that began with BUSY. -/
theorem takes_busy {code : Byte} {payload : List Byte} {s : State} (l : s.port.Lawful) (k : s.takes code payload) :
    ∀ t ∈ s.port.transaction, t.busy = true := by
  intro t m
  rcases k with k | ⟨-, k, -⟩
  · rcases l.2.2 t m with b | ⟨c, -⟩
    · exact b
    · rw [k] at c; cases c
  · rw [k] at m; cases m

/-- Carrying out a command keeps the port's laws. -/
theorem carryOut_port_lawful {code : Byte} {h : Handler} (r : h.Relates SameQueue) (payload : List Byte) {s : State}
    (l : s.port.Lawful) : (carryOut code h payload s).port.Lawful :=
  carryOut_induct (P := fun t => t.port.Lawful) l fun q k b =>
    respond_port_lawful b (by rw [(r q s).2]; exact takes_busy l k)

/-- Carrying out a command keeps the queue. -/
theorem carryOut_pending {code : Byte} {h : Handler} (r : h.Relates SameQueue) (payload : List Byte) (s : State) :
    (carryOut code h payload s).pending = s.pending :=
  carryOut_induct (P := fun t => t.pending = s.pending) rfl fun q _ _ => (r q s).1

/-- Carrying out a command keeps a lawful plan lawful. -/
theorem carryOut_plan_lawful {code : Byte} {h : Handler} (r : h.Relates PlanKept) (payload : List Byte) {s : State}
    (l : PlanLawful s.plan) : PlanLawful (carryOut code h payload s).plan :=
  carryOut_induct (P := fun t => PlanLawful t.plan) l fun q _ _ => r q s l

/-- Carrying out a command keeps the supervisor's laws. -/
theorem carryOut_sup_lawful {code : Byte} {h : Handler} (r : h.Relates SupKept) (payload : List Byte) {s : State}
    (l : s.sup.Lawful) : (carryOut code h payload s).sup.Lawful :=
  carryOut_induct (P := fun t => t.sup.Lawful) l fun q _ _ => r q s l

/-! ### The supervisor's laws -/

theorem heldAmended_lawful (r : Sector) (cs : List Change) (s : State) (h : s.sup.Lawful) (hs : s.sup.machine = .holding) :
    (heldAmended r cs s).sup.Lawful := by
  unfold heldAmended
  split
  · exact manualHold_lawful s h
  · split
    · exact startDwell_lawful _ s h hs
    · split
      · exact changeState_lawful .running s h (by simp [hs]) (by simp)
      · exact h

theorem acceptAmendment_lawful (r : Sector) (cs : List Change) (s : State) : SupKept s (acceptAmendment r cs s).1 := by
  intro h
  unfold acceptAmendment
  simp only
  split
  · rename_i e
    refine heldAmended_lawful _ cs
      { s with plan := replaceRecord { r.amended cs with revision := (r.revision + 1) % 256 } s.plan } h ?_
    exact h.2.2.2.1 (fun e' => by rw [e'] at e; simp [Hold.cleared] at e)
  · exact h

theorem amendRecord_lawful (r : Sector) (a : Amendment) (s : State) : SupKept s (amendRecord r a s).1 := by
  unfold amendRecord
  (repeat' split) <;> first | exact acceptAmendment_lawful r a.changes s | exact id

theorem sectorAmend_lawful (a : Amendment) (s : State) : SupKept s (sectorAmend a s).1 := by
  unfold sectorAmend
  (repeat' split) <;> first | exact amendRecord_lawful _ a s | exact id

theorem removeRecord_lawful (k : Nat) (s : State) : SupKept s (removeRecord k s) := by
  intro h
  unfold removeRecord
  simp only
  split
  · exact h.manual
  · exact h

theorem retireRecord_lawful (r : Sector) (s : State) : SupKept s (retireRecord r s).1 := by
  unfold retireRecord
  (repeat' split) <;> first | exact removeRecord_lawful _ s | exact id

theorem sectorRetire_lawful (k : Nat) (s : State) : SupKept s (sectorRetire k s).1 := by
  unfold sectorRetire
  (repeat' split) <;> first | exact retireRecord_lawful _ s | exact id

theorem restartBlocks_lawful (s : State) : SupKept s (restartBlocks s) := fun _ => restarted_lawful s.sup

theorem sectorPut_lawful (r : Sector) (s : State) : SupKept s (sectorPut r s).1 := by
  unfold sectorPut
  (repeat' split) <;> simp [SupKept]

theorem sectorClear_lawful (s : State) : SupKept s (sectorClear s).1 := by
  unfold sectorClear
  (repeat' split) <;> simp [SupKept]

theorem motionSetup_lawful (m : MotionSettings) (s : State) : SupKept s (motionSetup m s).1 := by
  unfold motionSetup
  (repeat' split) <;> simp [SupKept]

theorem towerSet_lawful (c : TowerSetting) (s : State) : SupKept s (towerSet c s).1 := by
  unfold towerSet
  (repeat' split) <;> simp [SupKept]

theorem towerTrim_lawful (c : Nat × Int) (s : State) : SupKept s (towerTrim c s).1 := by
  unfold towerTrim
  (repeat' split) <;> simp [SupKept]

theorem towerGet_lawful (p : Nat) (s : State) : SupKept s (towerGet p s).1 := by
  unfold towerGet
  (repeat' split) <;> simp [SupKept]

theorem towerAck_lawful (c : Nat × BitVec 5) (s : State) : SupKept s (towerAck c s).1 := by
  unfold towerAck
  (repeat' split) <;> simp [SupKept]

theorem towerReset_lawful (p : Nat) (s : State) : SupKept s (towerReset p s).1 := by
  unfold towerReset
  (repeat' split) <;> simp [SupKept]

theorem linkSetup_lawful (l : LinkSettings) (s : State) : SupKept s (linkSetup l s).1 := by
  unfold linkSetup
  (repeat' split) <;> simp [SupKept]

theorem alignTune_lawful (t : Tune) (s : State) : SupKept s (alignTune t s).1 := by
  unfold alignTune
  (repeat' split) <;> simp [SupKept]

theorem svcSubmit_lawful (c : Submission) (s : State) : SupKept s (svcSubmit c s).1 := by
  unfold svcSubmit
  (repeat' split) <;> simp [SupKept]

theorem svcResult_lawful (n : Nat) (s : State) : SupKept s (svcResult n s).1 := by
  unfold svcResult
  (repeat' split) <;> simp [SupKept]

theorem svcCancel_lawful (n : Nat) (s : State) : SupKept s (svcCancel n s).1 := by
  unfold svcCancel
  (repeat' split) <;> simp [SupKept]

theorem online_lawful (s : State) : SupKept s (online s).1 := by
  intro h
  unfold online
  split
  · exact h
  · rename_i m
    (repeat' split) <;> first | exact goOnline_lawful s h (fun e => m (by simp [e])) | exact h

theorem offline_lawful (s : State) : SupKept s (offline s).1 := by
  intro h
  unfold offline
  split
  · exact goOffline_lawful s h
  · exact h

theorem start_lawful (d : Direction) (s : State) : SupKept s (start d s).1 := by
  intro h
  unfold start
  split
  · exact h
  · rename_i m
    have m : s.sup.machine = .standby := by simpa using m
    (repeat' split) <;> first | exact h | skip
    unfold startAt
    (repeat' split) <;> first | exact acceptStart_lawful d _ s h (by simp [m]) | exact h

theorem stop_lawful (s : State) : SupKept s (stop s).1 := by
  intro h
  unfold stop
  split <;> rename_i m <;> first | exact h | exact changeState_lawful _ s h (by simp [m]) (by simp)

theorem pause_lawful (s : State) : SupKept s (pause s).1 := by
  intro h
  unfold pause
  split <;> rename_i m <;> first
    | exact h
    | exact manualHold_lawful s h
    | exact manualHold_lawful _ (changeState_lawful _ s h (by simp [m]) (by simp))

theorem continueRun_lawful (s : State) : SupKept s (continueRun s).1 := by
  intro h
  unfold continueRun
  split
  · rename_i m; exact changeState_lawful _ s h (by simp [m]) (by simp)
  · exact h

theorem reverse_lawful (s : State) : SupKept s (reverse s).1 := by
  intro h
  unfold reverse
  split
  · rename_i m; exact beginReversal_lawful s h (by rcases m.1 with e | e <;> simp [e])
  · exact h

theorem jog_lawful (j : Jog) (s : State) : SupKept s (jog j s).1 := by
  intro h
  unfold jog
  split
  · exact h
  · split
    · exact h
    · split
      · exact h
      · rename_i m
        (repeat' split) <;> first | exact h | exact acceptJog_lawful j s h (fun e => m (by simp [e]))

theorem estop_lawful (s : State) : SupKept s (estop s).1 := by
  intro h
  unfold estop
  split <;> first | exact h | exact tripRequest_lawful _ _ s h | simpa using h

theorem clearTrip_lawful (s : State) : SupKept s (clearTrip s).1 := by
  intro h
  unfold clearTrip
  split
  · rename_i m
    exact (changeState_contexts .standby { s with sup := { s.sup with trip := none } } h.contexts).lawful (by simp)
  · exact h

theorem timingSetup_lawful (c : Nat × Nat) (s : State) : SupKept s (timingSetup c s).1 := by
  intro h
  unfold timingSetup
  split <;> exact h

theorem nopHandler_sup : nopHandler.Relates SupKept :=
  plainHandler_relates (fun _ => id) fun _ => id

theorem statusHandler_sup : statusHandler.Relates SupKept :=
  plainHandler_relates (fun _ => id) fun _ => id

theorem restartHandler_sup : restartHandler.Relates SupKept :=
  plainHandler_relates (fun _ => id) restartBlocks_lawful

theorem sectorPutHandler_sup : sectorPutHandler.Relates SupKept :=
  decodedHandler_relates (fun _ => id) sectorPut_lawful

theorem sectorAmendHandler_sup : sectorAmendHandler.Relates SupKept :=
  decodedHandler_relates (fun _ => id) sectorAmend_lawful

theorem sectorRetireHandler_sup : sectorRetireHandler.Relates SupKept :=
  decodedHandler_relates (fun _ => id) sectorRetire_lawful

theorem sectorGetHandler_sup : sectorGetHandler.Relates SupKept :=
  decodedHandler_relates (fun _ => id) fun _ _ => id

theorem sectorFindHandler_sup : sectorFindHandler.Relates SupKept :=
  decodedHandler_relates (fun _ => id) fun _ _ => id

theorem sectorWalkHandler_sup : sectorWalkHandler.Relates SupKept :=
  decodedHandler_relates (fun _ => id) fun _ _ => id

theorem sectorClearHandler_sup : sectorClearHandler.Relates SupKept :=
  plainHandler_relates (fun _ => id) sectorClear_lawful

theorem motionSetupHandler_sup : motionSetupHandler.Relates SupKept :=
  decodedHandler_relates (fun _ => id) motionSetup_lawful

theorem towerSetHandler_sup : towerSetHandler.Relates SupKept :=
  decodedHandler_relates (fun _ => id) towerSet_lawful

theorem towerTrimHandler_sup : towerTrimHandler.Relates SupKept :=
  decodedHandler_relates (fun _ => id) towerTrim_lawful

theorem towerGetHandler_sup : towerGetHandler.Relates SupKept :=
  decodedHandler_relates (fun _ => id) towerGet_lawful

theorem towerAckHandler_sup : towerAckHandler.Relates SupKept :=
  decodedHandler_relates (fun _ => id) towerAck_lawful

theorem towerResetHandler_sup : towerResetHandler.Relates SupKept :=
  decodedHandler_relates (fun _ => id) towerReset_lawful

theorem linkSetupHandler_sup : linkSetupHandler.Relates SupKept :=
  decodedHandler_relates (fun _ => id) linkSetup_lawful

theorem alignTuneHandler_sup : alignTuneHandler.Relates SupKept :=
  decodedHandler_relates (fun _ => id) alignTune_lawful

theorem onlineHandler_sup : onlineHandler.Relates SupKept :=
  plainHandler_relates (fun _ => id) online_lawful

theorem offlineHandler_sup : offlineHandler.Relates SupKept :=
  plainHandler_relates (fun _ => id) offline_lawful

theorem startHandler_sup : startHandler.Relates SupKept :=
  decodedHandler_relates (fun _ => id) start_lawful

theorem stopHandler_sup : stopHandler.Relates SupKept :=
  plainHandler_relates (fun _ => id) stop_lawful

theorem pauseHandler_sup : pauseHandler.Relates SupKept :=
  plainHandler_relates (fun _ => id) pause_lawful

theorem continueHandler_sup : continueHandler.Relates SupKept :=
  plainHandler_relates (fun _ => id) continueRun_lawful

theorem reverseHandler_sup : reverseHandler.Relates SupKept :=
  plainHandler_relates (fun _ => id) reverse_lawful

theorem jogHandler_sup : jogHandler.Relates SupKept :=
  decodedHandler_relates (fun _ => id) jog_lawful

theorem estopHandler_sup : estopHandler.Relates SupKept :=
  plainHandler_relates (fun _ => id) estop_lawful

theorem clearTripHandler_sup : clearTripHandler.Relates SupKept :=
  plainHandler_relates (fun _ => id) clearTrip_lawful

theorem timingSetupHandler_sup : timingSetupHandler.Relates SupKept :=
  decodedHandler_relates (fun _ => id) timingSetup_lawful

theorem machineGetHandler_sup : machineGetHandler.Relates SupKept :=
  plainHandler_relates (fun _ => id) fun _ => id

theorem svcSubmitHandler_sup : svcSubmitHandler.Relates SupKept :=
  decodedHandler_relates (fun _ => id) svcSubmit_lawful

theorem svcResultHandler_sup : svcResultHandler.Relates SupKept :=
  decodedHandler_relates (fun _ => id) svcResult_lawful

theorem svcCancelHandler_sup : svcCancelHandler.Relates SupKept :=
  decodedHandler_relates (fun _ => id) svcCancel_lawful

theorem evtReadHandler_sup : evtReadHandler.Relates SupKept :=
  plainHandler_relates (fun _ => id) fun _ => id

theorem evtAckHandler_sup : evtAckHandler.Relates SupKept :=
  decodedHandler_relates (fun _ => id) fun _ _ => id

theorem evtEnableHandler_sup : evtEnableHandler.Relates SupKept :=
  decodedHandler_relates (fun _ => id) fun _ _ => id

theorem evtDisableHandler_sup : evtDisableHandler.Relates SupKept :=
  decodedHandler_relates (fun _ => id) fun _ _ => id

/-- Every command keeps the supervisor lawful. -/
theorem handlerOf_sup {code : Byte} {h : Handler} (k : handlerOf code = some h) : h.Relates SupKept :=
  handlerOf_induct (P := fun h => h.Relates SupKept)
    nopHandler_sup statusHandler_sup restartHandler_sup sectorPutHandler_sup sectorAmendHandler_sup
    sectorRetireHandler_sup sectorGetHandler_sup sectorFindHandler_sup sectorWalkHandler_sup sectorClearHandler_sup
    motionSetupHandler_sup towerSetHandler_sup towerTrimHandler_sup towerGetHandler_sup towerAckHandler_sup
    towerResetHandler_sup linkSetupHandler_sup alignTuneHandler_sup onlineHandler_sup offlineHandler_sup
    startHandler_sup stopHandler_sup pauseHandler_sup continueHandler_sup reverseHandler_sup jogHandler_sup
    estopHandler_sup clearTripHandler_sup timingSetupHandler_sup machineGetHandler_sup svcSubmitHandler_sup
    svcResultHandler_sup svcCancelHandler_sup evtReadHandler_sup evtAckHandler_sup evtEnableHandler_sup
    evtDisableHandler_sup k

/-! ### The plan's laws -/

theorem amended_start (r : Sector) (cs : List Change) : (r.amended cs).start = r.start := by
  have one : ∀ (q : Sector) (c : Change), (q.applyChange c).start = q.start := by intro q c; cases c <;> rfl
  have all : ∀ (cs : List Change) (q : Sector), (cs.foldl Sector.applyChange q).start = q.start := by
    intro cs
    induction cs with
    | nil => intro q; rfl
    | cons c cs ih => intro q; rw [List.foldl_cons, ih, one]
  unfold Sector.amended
  simp only
  split
  · exact all cs r
  · unfold Sector.dropDisallowed
    split <;> exact all cs r

theorem valid_revision (r : Sector) (n : Nat) : ({ r with revision := n }).valid = r.valid := rfl
theorem valid_state (r : Sector) (st : RecordState) : ({ r with state := st }).valid = r.valid := rfl

theorem sectorPut_plan (r : Sector) (s : State) : PlanKept s (sectorPut r s).1 := by
  intro h
  unfold sectorPut
  split
  · exact h
  · rename_i hv
    split
    · exact h
    · rename_i hk
      split
      · exact h
      · rename_i hl
        split
        · exact h
        · split
          · exact h
          · rename_i hw
            split
            · exact h
            · exact insertRecord_lawful h (by simpa using hv) (by simpa using hk) (by omega) (by simpa using hw)

theorem heldAmended_shrinks (r : Sector) (cs : List Change) (s : State) : Shrinks s (heldAmended r cs s) := by
  unfold heldAmended
  (repeat' split) <;> first | exact startDwell_shrinks _ s | exact changeState_shrinks _ s | exact Shrinks.rfl'

theorem acceptAmendment_plan (r : Sector) (cs : List Change) (s : State) (hv : (r.amended cs).valid = true) :
    PlanKept s (acceptAmendment r cs s).1 := by
  intro h
  have k : PlanLawful (replaceRecord { r.amended cs with revision := (r.revision + 1) % 256 } s.plan) :=
    replaceRecord_lawful h hv
  unfold acceptAmendment
  simp only
  split
  · exact k.sublist (heldAmended_shrinks _ cs
      { s with plan := replaceRecord { r.amended cs with revision := (r.revision + 1) % 256 } s.plan })
  · exact k

theorem amendRecord_plan (r : Sector) (a : Amendment) (s : State) : PlanKept s (amendRecord r a s).1 := by
  unfold amendRecord
  split
  · exact id
  · split
    · exact id
    · split
      · exact id
      · rename_i hv
        split
        · exact id
        · exact acceptAmendment_plan r a.changes s (by simpa using hv)

theorem sectorAmend_plan (a : Amendment) (s : State) : PlanKept s (sectorAmend a s).1 := by
  unfold sectorAmend
  (repeat' split) <;> first | exact amendRecord_plan _ a s | exact id

theorem findRecord_mem {plan : List Sector} {k : Nat} {r : Sector} (h : findRecord plan k = some r) : r ∈ plan :=
  List.mem_of_find?_eq_some h

theorem retireRecord_plan (r : Sector) (s : State) (hr : r ∈ s.plan) : PlanKept s (retireRecord r s).1 := by
  intro h
  unfold retireRecord
  (repeat' split) <;> first
    | exact h
    | exact h.sublist (removeRecord_shrinks _ s)
    | exact replaceRecord_lawful h ((valid_state r .retiring).trans (h.2.2 r hr))

theorem sectorRetire_plan (k : Nat) (s : State) : PlanKept s (sectorRetire k s).1 := by
  unfold sectorRetire
  split
  · exact id
  · split
    · exact id
    · rename_i r hr; exact retireRecord_plan r s (findRecord_mem hr)

theorem sectorClear_plan (s : State) : PlanKept s (sectorClear s).1 := by
  unfold sectorClear
  split
  · exact id
  · intro h; exact h.sublist (List.nil_sublist _)

theorem restartBlocks_plan (s : State) : PlanKept s (restartBlocks s) := fun h =>
  h.sublist (show (livePlan s.plan).Sublist s.plan from List.filter_sublist)

theorem motionSetup_plan (m : MotionSettings) (s : State) : PlanKept s (motionSetup m s).1 := by
  unfold motionSetup
  (repeat' split) <;> simp [PlanKept]

theorem towerSet_plan (c : TowerSetting) (s : State) : PlanKept s (towerSet c s).1 := by
  unfold towerSet
  (repeat' split) <;> simp [PlanKept]

theorem towerTrim_plan (c : Nat × Int) (s : State) : PlanKept s (towerTrim c s).1 := by
  unfold towerTrim
  (repeat' split) <;> simp [PlanKept]

theorem towerGet_plan (p : Nat) (s : State) : PlanKept s (towerGet p s).1 := by
  unfold towerGet
  (repeat' split) <;> simp [PlanKept]

theorem towerAck_plan (c : Nat × BitVec 5) (s : State) : PlanKept s (towerAck c s).1 := by
  unfold towerAck
  (repeat' split) <;> simp [PlanKept]

theorem towerReset_plan (p : Nat) (s : State) : PlanKept s (towerReset p s).1 := by
  unfold towerReset
  (repeat' split) <;> simp [PlanKept]

theorem linkSetup_plan (l : LinkSettings) (s : State) : PlanKept s (linkSetup l s).1 := by
  unfold linkSetup
  (repeat' split) <;> simp [PlanKept]

theorem alignTune_plan (t : Tune) (s : State) : PlanKept s (alignTune t s).1 := by
  unfold alignTune
  (repeat' split) <;> simp [PlanKept]

theorem svcSubmit_plan (c : Submission) (s : State) : PlanKept s (svcSubmit c s).1 := by
  unfold svcSubmit
  (repeat' split) <;> simp [PlanKept]

theorem svcResult_plan (n : Nat) (s : State) : PlanKept s (svcResult n s).1 := by
  unfold svcResult
  (repeat' split) <;> simp [PlanKept]

theorem svcCancel_plan (n : Nat) (s : State) : PlanKept s (svcCancel n s).1 := by
  unfold svcCancel
  (repeat' split) <;> simp [PlanKept]

theorem timingSetup_plan (c : Nat × Nat) (s : State) : PlanKept s (timingSetup c s).1 := by
  unfold timingSetup
  (repeat' split) <;> simp [PlanKept]

theorem online_plan (s : State) : PlanKept s (online s).1 := by
  unfold online
  (repeat' split) <;> first | exact id | exact PlanKept.of_shrinks (goOnline_shrinks s)

theorem offline_plan (s : State) : PlanKept s (offline s).1 := by
  unfold offline
  (repeat' split) <;> first | exact id | exact PlanKept.of_shrinks (goOffline_shrinks s)

theorem startAt_plan (d : Direction) (n : Nat) (s : State) : PlanKept s (startAt d n s).1 := by
  unfold startAt
  (repeat' split) <;> first | exact id | exact PlanKept.of_shrinks (acceptStart_shrinks d _ s)

theorem start_plan (d : Direction) (s : State) : PlanKept s (start d s).1 := by
  unfold start
  (repeat' split) <;> first | exact id | exact startAt_plan d _ s

theorem stop_plan (s : State) : PlanKept s (stop s).1 := by
  unfold stop
  split <;> first | exact id | exact PlanKept.of_shrinks (changeState_shrinks _ s)

theorem pause_plan (s : State) : PlanKept s (pause s).1 := by
  unfold pause
  split
  · exact PlanKept.of_shrinks (changeState_shrinks .holding s)
  all_goals exact id

theorem continueRun_plan (s : State) : PlanKept s (continueRun s).1 := by
  unfold continueRun
  split
  · exact PlanKept.of_shrinks (changeState_shrinks _ s)
  · exact id

theorem reverse_plan (s : State) : PlanKept s (reverse s).1 := by
  unfold reverse
  split
  · exact PlanKept.of_shrinks (beginReversal_shrinks s)
  · exact id

theorem jog_plan (j : Jog) (s : State) : PlanKept s (jog j s).1 := by
  unfold jog
  (repeat' split) <;> first | exact id | exact PlanKept.of_shrinks (acceptJog_shrinks j s)

theorem estop_plan (s : State) : PlanKept s (estop s).1 := by
  unfold estop
  split
  · exact id
  · intro h; simpa using h
  all_goals exact PlanKept.of_shrinks (tripRequest_shrinks _ _ s)

theorem clearTrip_plan (s : State) : PlanKept s (clearTrip s).1 := by
  unfold clearTrip
  split
  · exact PlanKept.of_shrinks (changeState_shrinks .standby { s with sup := { s.sup with trip := none } })
  · exact id

theorem nopHandler_plan : nopHandler.Relates PlanKept :=
  plainHandler_relates (fun _ => id) fun _ => id

theorem statusHandler_plan : statusHandler.Relates PlanKept :=
  plainHandler_relates (fun _ => id) fun _ => id

theorem restartHandler_plan : restartHandler.Relates PlanKept :=
  plainHandler_relates (fun _ => id) restartBlocks_plan

theorem sectorPutHandler_plan : sectorPutHandler.Relates PlanKept :=
  decodedHandler_relates (fun _ => id) sectorPut_plan

theorem sectorAmendHandler_plan : sectorAmendHandler.Relates PlanKept :=
  decodedHandler_relates (fun _ => id) sectorAmend_plan

theorem sectorRetireHandler_plan : sectorRetireHandler.Relates PlanKept :=
  decodedHandler_relates (fun _ => id) sectorRetire_plan

theorem sectorGetHandler_plan : sectorGetHandler.Relates PlanKept :=
  decodedHandler_relates (fun _ => id) fun _ _ => id

theorem sectorFindHandler_plan : sectorFindHandler.Relates PlanKept :=
  decodedHandler_relates (fun _ => id) fun _ _ => id

theorem sectorWalkHandler_plan : sectorWalkHandler.Relates PlanKept :=
  decodedHandler_relates (fun _ => id) fun _ _ => id

theorem sectorClearHandler_plan : sectorClearHandler.Relates PlanKept :=
  plainHandler_relates (fun _ => id) sectorClear_plan

theorem motionSetupHandler_plan : motionSetupHandler.Relates PlanKept :=
  decodedHandler_relates (fun _ => id) motionSetup_plan

theorem towerSetHandler_plan : towerSetHandler.Relates PlanKept :=
  decodedHandler_relates (fun _ => id) towerSet_plan

theorem towerTrimHandler_plan : towerTrimHandler.Relates PlanKept :=
  decodedHandler_relates (fun _ => id) towerTrim_plan

theorem towerGetHandler_plan : towerGetHandler.Relates PlanKept :=
  decodedHandler_relates (fun _ => id) towerGet_plan

theorem towerAckHandler_plan : towerAckHandler.Relates PlanKept :=
  decodedHandler_relates (fun _ => id) towerAck_plan

theorem towerResetHandler_plan : towerResetHandler.Relates PlanKept :=
  decodedHandler_relates (fun _ => id) towerReset_plan

theorem linkSetupHandler_plan : linkSetupHandler.Relates PlanKept :=
  decodedHandler_relates (fun _ => id) linkSetup_plan

theorem alignTuneHandler_plan : alignTuneHandler.Relates PlanKept :=
  decodedHandler_relates (fun _ => id) alignTune_plan

theorem onlineHandler_plan : onlineHandler.Relates PlanKept :=
  plainHandler_relates (fun _ => id) online_plan

theorem offlineHandler_plan : offlineHandler.Relates PlanKept :=
  plainHandler_relates (fun _ => id) offline_plan

theorem startHandler_plan : startHandler.Relates PlanKept :=
  decodedHandler_relates (fun _ => id) start_plan

theorem stopHandler_plan : stopHandler.Relates PlanKept :=
  plainHandler_relates (fun _ => id) stop_plan

theorem pauseHandler_plan : pauseHandler.Relates PlanKept :=
  plainHandler_relates (fun _ => id) pause_plan

theorem continueHandler_plan : continueHandler.Relates PlanKept :=
  plainHandler_relates (fun _ => id) continueRun_plan

theorem reverseHandler_plan : reverseHandler.Relates PlanKept :=
  plainHandler_relates (fun _ => id) reverse_plan

theorem jogHandler_plan : jogHandler.Relates PlanKept :=
  decodedHandler_relates (fun _ => id) jog_plan

theorem estopHandler_plan : estopHandler.Relates PlanKept :=
  plainHandler_relates (fun _ => id) estop_plan

theorem clearTripHandler_plan : clearTripHandler.Relates PlanKept :=
  plainHandler_relates (fun _ => id) clearTrip_plan

theorem timingSetupHandler_plan : timingSetupHandler.Relates PlanKept :=
  decodedHandler_relates (fun _ => id) timingSetup_plan

theorem machineGetHandler_plan : machineGetHandler.Relates PlanKept :=
  plainHandler_relates (fun _ => id) fun _ => id

theorem svcSubmitHandler_plan : svcSubmitHandler.Relates PlanKept :=
  decodedHandler_relates (fun _ => id) svcSubmit_plan

theorem svcResultHandler_plan : svcResultHandler.Relates PlanKept :=
  decodedHandler_relates (fun _ => id) svcResult_plan

theorem svcCancelHandler_plan : svcCancelHandler.Relates PlanKept :=
  decodedHandler_relates (fun _ => id) svcCancel_plan

theorem evtReadHandler_plan : evtReadHandler.Relates PlanKept :=
  plainHandler_relates (fun _ => id) fun _ => id

theorem evtAckHandler_plan : evtAckHandler.Relates PlanKept :=
  decodedHandler_relates (fun _ => id) fun _ _ => id

theorem evtEnableHandler_plan : evtEnableHandler.Relates PlanKept :=
  decodedHandler_relates (fun _ => id) fun _ _ => id

theorem evtDisableHandler_plan : evtDisableHandler.Relates PlanKept :=
  decodedHandler_relates (fun _ => id) fun _ _ => id

/-- Every command keeps a lawful plan lawful. -/
theorem handlerOf_plan {code : Byte} {h : Handler} (k : handlerOf code = some h) : h.Relates PlanKept :=
  handlerOf_induct (P := fun h => h.Relates PlanKept)
    nopHandler_plan statusHandler_plan restartHandler_plan sectorPutHandler_plan sectorAmendHandler_plan
    sectorRetireHandler_plan sectorGetHandler_plan sectorFindHandler_plan sectorWalkHandler_plan
    sectorClearHandler_plan motionSetupHandler_plan towerSetHandler_plan towerTrimHandler_plan towerGetHandler_plan
    towerAckHandler_plan towerResetHandler_plan linkSetupHandler_plan alignTuneHandler_plan onlineHandler_plan
    offlineHandler_plan startHandler_plan stopHandler_plan pauseHandler_plan continueHandler_plan
    reverseHandler_plan jogHandler_plan estopHandler_plan clearTripHandler_plan timingSetupHandler_plan
    machineGetHandler_plan svcSubmitHandler_plan svcResultHandler_plan svcCancelHandler_plan evtReadHandler_plan
    evtAckHandler_plan evtEnableHandler_plan evtDisableHandler_plan k

end Sys2Proof.Machine
end

