-- ==== Sys2Proof/Laws/Towers.lean ====
section
/-! SUPPORT. Every operation keeps the roster lawful: a tower is driven only in a motion state, one that is not driven has
target and applied command 0, and both lie within 0 to 1000 (R69, R111, R113). -/

namespace Sys2Proof.Machine

/-! ### One record -/

/-- A record that is not driven and has no commands is lawful in every machine state. -/
theorem Tower.lawful_of_still {m : Bool} {t : Tower} (h : t.isDriven = false) (k : t.target = 0 ∧ t.applied = 0) :
    t.Lawful m :=
  ⟨fun e => absurd e (by simp [h]), fun _ => k, by omega, by omega⟩

/-- A lawful record stays lawful when only fields other than its state and commands change. -/
theorem Tower.Lawful.congr {m : Bool} {t u : Tower} (h : t.Lawful m) (e : u.state = t.state) (a : u.target = t.target)
    (b : u.applied = t.applied) : u.Lawful m := by
  have d : u.isDriven = t.isDriven := by unfold Tower.isDriven; rw [e]
  exact ⟨fun k => h.1 (d ▸ k), fun k => by rw [a, b]; exact h.2.1 (d ▸ k), a ▸ h.2.2.1, b ▸ h.2.2.2⟩

theorem Tower.leaveTo_still {m : Bool} {t : Tower} (h : t.Lawful m) (st : TowerState) :
    (t.leaveTo st).target = 0 ∧ (t.leaveTo st).applied = 0 := by
  cases d : t.isDriven
  · simpa [Tower.leaveTo, d] using h.2.1 d
  · simp [Tower.leaveTo, d, Tower.zeroed]

@[simp] theorem Tower.leaveTo_state (t : Tower) (st : TowerState) : (t.leaveTo st).state = st := rfl

/-- A record moved out of the driven states is lawful in every machine state. -/
theorem Tower.leaveTo_lawful {m n : Bool} {t : Tower} (h : t.Lawful m) {st : TowerState} (a : st ≠ .driving)
    (b : st ≠ .following) : (t.leaveTo st).Lawful n :=
  Tower.lawful_of_still (by simp [Tower.isDriven, a, b]) (Tower.leaveTo_still h st)

theorem Tower.cleared_lawful (m : Bool) (g : Option Geometry) {st : TowerState} (a : st ≠ .driving)
    (b : st ≠ .following) : (Tower.cleared g st).Lawful m :=
  Tower.lawful_of_still (by simp [Tower.isDriven, Tower.cleared, a, b]) ⟨rfl, rfl⟩

theorem clearedTower_lawful (m : Bool) (l : LinkSettings) (p : Nat) (t : Tower) : (clearedTower l p t).Lawful m := by
  unfold clearedTower
  split <;> exact Tower.cleared_lawful m _ (by simp) (by simp)

theorem vacantTower_lawful (m : Bool) : vacantTower.Lawful m := Tower.cleared_lawful m _ (by simp) (by simp)

/-- A driven record whose commands are in range is lawful in a motion state. -/
theorem Tower.lawful_driven {m : Bool} {t : Tower} (d : t.isDriven = true) (h : m = true)
    (k : t.target ≤ 1000 ∧ t.applied ≤ 1000) : t.Lawful m :=
  ⟨fun _ => h, fun e => absurd e (by simp [d]), k⟩

/-! ### The roster -/

theorem State.TowersLawful.congr {s t : State} (h : s.TowersLawful) (r : t.roster = s.roster)
    (m : t.inMotion = s.inMotion) : t.TowersLawful := by
  intro p hp; rw [tower_congr r, m]; exact h p hp

/-- Every position reads a lawful record, those outside the roster too. -/
theorem State.TowersLawful.all {s : State} (h : s.TowersLawful) (p : Nat) : (s.tower p).Lawful s.inMotion := by
  by_cases hp : 1 ≤ p ∧ p ≤ Config.positions
  · exact h p hp.2
  · rw [tower_outside hp]; exact vacantTower_lawful _

@[simp] theorem modTower_inMotion (p : Nat) (g : Tower → Tower) (s : State) : (s.modTower p g).inMotion = s.inMotion := by
  simp [State.inMotion]

@[simp] theorem raise_inMotion (e : EventFlag) (s : State) : (raise e s).inMotion = s.inMotion := rfl
@[simp] theorem setChange_inMotion (p : Nat) (c : ChangeFlag) (s : State) : (setChange p c s).inMotion = s.inMotion := by
  simp [State.inMotion]

theorem modTower_towers {s : State} (h : s.TowersLawful) {p : Nat} {g : Tower → Tower}
    (k : (s.tower p).Lawful s.inMotion → (g (s.tower p)).Lawful s.inMotion) : (s.modTower p g).TowersLawful := by
  intro q hq
  rw [tower_modTower, modTower_inMotion]
  split
  · exact k (h.all p)
  · exact h q hq

theorem mapTowers_towers {s : State} (h : s.TowersLawful) {g : Nat → Tower → Tower}
    (k : ∀ p t, t.Lawful s.inMotion → (g p t).Lawful s.inMotion) : (s.mapTowers g).TowersLawful := by
  intro q hq
  rw [tower_mapTowers]
  split
  · exact k q _ (h.all q)
  · exact vacantTower_lawful _

theorem raise_towers (e : EventFlag) {s : State} (h : s.TowersLawful) : (raise e s).TowersLawful := h

theorem setChange_towers (p : Nat) (c : ChangeFlag) {s : State} (h : s.TowersLawful) : (setChange p c s).TowersLawful := by
  unfold setChange
  split
  · exact h
  · exact modTower_towers h fun k => k.congr rfl rfl rfl

theorem clearRoster_towers (s : State) : (clearRoster s).TowersLawful := by
  intro p hp
  unfold clearRoster
  rw [tower_mapTowers]
  split
  · exact clearedTower_lawful _ _ _ _
  · exact vacantTower_lawful _

theorem reconfigure_towers (a b : LinkSettings) {s : State} (h : s.TowersLawful) : (reconfigure a b s).TowersLawful :=
  mapTowers_towers h fun p t k => by
    split
    · exact k
    · exact clearedTower_lawful _ _ _ _

theorem staleReadings_towers {s : State} (h : s.TowersLawful) : (staleReadings s).TowersLawful :=
  mapTowers_towers h fun p t k => by
    split
    · exact k.congr rfl rfl rfl
    · exact k

theorem rosterCompletes_towers {s : State} (h : s.TowersLawful) : (rosterCompletes s).TowersLawful :=
  mapTowers_towers h fun p t k => by
    split
    · rename_i e
      exact Tower.lawful_driven (by simp [Tower.isDriven]) (k.1 (by simp [Tower.isDriven, e.1])) k.2.2
    · exact k

/-! ### Changes of machine state -/

theorem completeRetirement_roster (s : State) : (completeRetirement s).roster = s.roster := by
  unfold completeRetirement; split <;> rfl

theorem completeRetirement_inMotion (s : State) : (completeRetirement s).inMotion = s.inMotion := by
  simp [State.inMotion]

theorem completeRetirement_towers {s : State} (h : s.TowersLawful) : (completeRetirement s).TowersLawful :=
  h.congr (completeRetirement_roster s) (completeRetirement_inMotion s)

theorem enterStanding_roster (s : State) : (enterStanding s).roster = s.roster := completeRetirement_roster _

theorem releaseTowers_tower {s : State} (h : s.TowersLawful) (m : Bool) (p : Nat) :
    ((releaseTowers s).tower p).Lawful m := by
  unfold releaseTowers
  rw [tower_mapTowers]
  split
  · split
    · exact Tower.leaveTo_lawful (h.all p) (by simp) (by simp)
    · rename_i d
      have d : (s.tower p).isDriven = false := by simpa using d
      exact Tower.lawful_of_still d ((h.all p).2.1 d)
  · exact vacantTower_lawful _

/-- A change of machine state keeps the roster lawful; for SETUP, from a machine that stands. -/
theorem changeState_towers (new : MachineState) {s : State} (h : s.TowersLawful)
    (k : new = .setup → s.inMotion = false) : (changeState new s).TowersLawful := by
  intro p hp
  have m : (changeState new s).inMotion = new.isMotion := by simp [State.inMotion]
  rw [m]
  have still : ∀ t : State, t.roster = (releaseTowers s).roster → (t.tower p).Lawful new.isMotion := fun t e => by
    rw [tower_congr e]; exact releaseTowers_tower h _ p
  have same : ∀ t : State, t.roster = s.roster → new.isMotion = s.inMotion ∨ new.isMotion = true →
      (t.tower p).Lawful new.isMotion := fun t e q => by
    rw [tower_congr e]
    rcases q with q | q
    · rw [q]; exact h.all p
    · exact ⟨fun _ => q, (h.all p).2⟩
  cases new
  · exact same _ (by simp [changeState, entryEffects, enterStanding_roster]) (Or.inl (k rfl).symm)
  · refine still _ ?_
    simp [changeState, entryEffects, enterStanding_roster]
    rfl
  all_goals first
    | exact same _ rfl (Or.inr rfl)
    | (refine still _ ?_; simp [changeState, entryEffects, enterStanding_roster]; rfl)

/-! ### Holds, trips and samples -/

theorem changeState_moving {new : MachineState} (k : new.isMotion = true) {s : State} (h : s.TowersLawful) :
    (changeState new s).TowersLawful :=
  changeState_towers new h fun e => by rw [e] at k; cases k

theorem dwellExpires_towers {s : State} (h : s.TowersLawful) : (dwellExpires s).TowersLawful := by
  unfold dwellExpires
  split
  · exact changeState_moving rfl h
  · exact h

theorem startDwell_towers (n : Nat) {s : State} (h : s.TowersLawful) : (startDwell n s).TowersLawful := by
  unfold startDwell
  split
  · exact dwellExpires_towers h
  · exact h

theorem arriveAtHold_towers (r : Sector) {s : State} (h : s.TowersLawful) : (arriveAtHold r s).TowersLawful := by
  have k : (changeState .holding s).TowersLawful := changeState_moving rfl h
  exact startDwell_towers _ (s := { changeState .holding s with sup := _ }) (k.congr rfl rfl)

theorem beginReversal_towers {s : State} (h : s.TowersLawful) : (beginReversal s).TowersLawful := by
  have k : (changeState .reversing s).TowersLawful := changeState_moving rfl h
  exact k.congr rfl rfl

theorem arriveAtBarrier_towers (r : Sector) {s : State} (h : s.TowersLawful) : (arriveAtBarrier r s).TowersLawful := by
  unfold arriveAtBarrier
  split
  · exact changeState_moving rfl h
  · exact beginReversal_towers h

theorem serviceOutcome_roster (n : Nat) (o : LineOutcome) (s : State) : (serviceOutcome n o s).roster = s.roster := by
  unfold serviceOutcome
  (repeat' split) <;> rfl

theorem deliverAbandoned_roster (x : Exchange) (s : State) : (deliverAbandoned x s).roster = s.roster := by
  unfold deliverAbandoned
  (repeat' split) <;> first | rfl | exact serviceOutcome_roster _ _ _

theorem requestBreak_roster (s : State) : (requestBreak s).roster = s.roster := by
  unfold requestBreak
  (repeat' split) <;> first | rfl | exact deliverAbandoned_roster _ _

theorem requestBreak_towers {s : State} (h : s.TowersLawful) : (requestBreak s).TowersLawful :=
  h.congr (requestBreak_roster s) (by simp [State.inMotion])

theorem takeTrip_towers (c : TripCause) (p : Option Nat) {s : State} (h : s.TowersLawful) :
    (takeTrip c p s).TowersLawful := by
  have k : (changeState .tripped s).TowersLawful := changeState_towers _ h (by simp)
  have k' : ((changeState .tripped s).mapTowers fun p t =>
      if (changeState .tripped s).isConfigured p then { t with applied := 0 } else t).TowersLawful :=
    mapTowers_towers k fun p t l => by
      split
      · exact ⟨l.1, fun d => ⟨(l.2.1 d).1, rfl⟩, l.2.2.1, Nat.zero_le _⟩
      · exact l
  exact requestBreak_towers (s := raise .trip _) k'

theorem tripRequest_towers (c : TripCause) (p : Option Nat) {s : State} (h : s.TowersLawful) :
    (tripRequest c p s).TowersLawful := by
  unfold tripRequest
  split <;> first | exact takeTrip_towers c p h | exact h

theorem arriveHold_towers (r : Sector) (a : Nat) {s : State} (h : s.TowersLawful) : (arriveHold r a s).TowersLawful :=
  arriveAtHold_towers r (s := raise .arrival (markServed r.start a s)) h

theorem arrivalCheck_towers {s : State} (h : s.TowersLawful) : (arrivalCheck s).TowersLawful := by
  unfold arrivalCheck
  (repeat' split) <;> first
    | exact h
    | exact arriveHold_towers _ _ h
    | exact arriveAtBarrier_towers _ (raise_towers _ h)

theorem arrivalCheckIf_towers (b : Bool) {s : State} (h : s.TowersLawful) : (arrivalCheckIf b s).TowersLawful := by
  unfold arrivalCheckIf
  split
  · exact arrivalCheck_towers h
  · exact h

theorem refresh_roster (s : State) : (refresh s).roster = s.roster := by
  unfold refresh
  simp only [updateView_roster]
  split <;> rfl

theorem refresh_towers {s : State} (h : s.TowersLawful) : (refresh s).TowersLawful :=
  h.congr (refresh_roster s) (by simp [State.inMotion])

theorem changeDirection_towers (d : Direction) {s : State} (h : s.TowersLawful) :
    (changeDirection d s).TowersLawful :=
  refresh_towers (s := { s with sup := { s.sup with direction := d } }) h

theorem angleLost_towers (b : Bool) {s : State} (h : s.TowersLawful) : (angleLost b s).TowersLawful := by
  unfold angleLost
  (repeat' split) <;> first | exact tripRequest_towers _ _ h | exact h

theorem badSample_towers {s : State} (h : s.TowersLawful) : (badSample s).TowersLawful := by
  unfold badSample
  simp only
  split
  · exact h
  · refine angleLost_towers _ (arrivalCheckIf_towers _ (refresh_towers ?_))
    exact h

theorem leaveRetiring_towers (r : Option Sector) {s : State} (h : s.TowersLawful) :
    (leaveRetiring r s).TowersLawful := by
  unfold leaveRetiring
  (repeat' split) <;> first | exact h | exact completeRetirement_towers h

theorem leaveEscape_towers (r : Option Sector) {s : State} (h : s.TowersLawful) : (leaveEscape r s).TowersLawful := by
  unfold leaveEscape
  (repeat' split) <;> exact h

theorem clearServed_towers (r : Option Sector) {s : State} (h : s.TowersLawful) : (clearServed r s).TowersLawful := by
  unfold clearServed
  (repeat' split) <;> exact h

theorem passedOver_towers (a : Arc) (r : Sector) (b : Bool) {s : State} (h : s.TowersLawful) :
    ((passedOver a r b s).1).TowersLawful := by
  unfold passedOver
  split
  · exact tripRequest_towers _ _ h
  · have k : (match holdMet a r b s with
        | some q => arriveHold q r.start s
        | none => s).TowersLawful := by
      split
      · exact arriveHold_towers _ _ h
      · exact h
    simp only
    split
    · exact tripRequest_towers _ _ k
    · exact k

theorem passageChecks_towers (b : Bool) (a : Option Arc) (r : Option Sector) (c : Bool) {s : State}
    (h : s.TowersLawful) : ((passageChecks b a r c s).1).TowersLawful := by
  unfold passageChecks
  (repeat' split) <;> first | exact h | exact passedOver_towers _ _ _ h

theorem goodSample_towers (angle : Nat) {s : State} (h : s.TowersLawful) : (goodSample angle s).TowersLawful := by
  unfold goodSample
  simp only
  refine arrivalCheckIf_towers _ ?_
  refine State.TowersLawful.congr (s := (passageChecks _ _ _ _ _).1) ?_ (updateView_roster _) rfl
  refine passageChecks_towers _ _ _ _ (clearServed_towers _ (leaveEscape_towers _ ?_))
  split
  · exact leaveRetiring_towers _ (s := { s with tracker := _ }) h
  · exact leaveRetiring_towers _ (s := { s with tracker := _ }) h

theorem takeAnswer_towers (angle : Nat) (v : Bool) {s : State} (h : s.TowersLawful) :
    (takeAnswer angle v s).TowersLawful := by
  unfold takeAnswer
  simp only
  split
  · split
    · exact goodSample_towers _ (s := { s with tracker := _ }) h
    · exact badSample_towers (s := { s with tracker := _ }) h
  · exact h

theorem missingSample_towers {s : State} (h : s.TowersLawful) : (missingSample s).TowersLawful := by
  unfold missingSample
  split
  · exact badSample_towers (s := { s with tracker := _ }) h
  · exact h

/-! ### Outcomes of polls -/

theorem tripIfMoving_towers (c : TripCause) (p : Nat) {s : State} (h : s.TowersLawful) :
    (tripIfMoving c p s).TowersLawful := by
  unfold tripIfMoving
  split
  · exact tripRequest_towers _ _ h
  · exact h

theorem enterFaulted_towers (p : Nat) (r : FaultReason) {s : State} (h : s.TowersLawful) :
    (enterFaulted p r s).TowersLawful :=
  tripIfMoving_towers _ _ (setChange_towers _ _ (modTower_towers h fun k =>
    (Tower.leaveTo_lawful k (st := .faulted) (by simp) (by simp)).congr rfl rfl rfl))

theorem enterUnrequested_towers (p : Nat) {s : State} (h : s.TowersLawful) : (enterUnrequested p s).TowersLawful :=
  tripIfMoving_towers _ _ (setChange_towers _ _ (modTower_towers h fun k =>
    (Tower.leaveTo_lawful k (st := .resetting) (by simp) (by simp)).congr rfl rfl rfl))

theorem missLimit_towers (p : Nat) {s : State} (h : s.TowersLawful) : (missLimit p s).TowersLawful :=
  tripIfMoving_towers _ _ (setChange_towers _ _ (modTower_towers h fun k =>
    (Tower.leaveTo_lawful k (st := .silent) (by simp) (by simp)).congr rfl rfl rfl))

theorem pollMissed_towers (p : Nat) {s : State} (h : s.TowersLawful) : (pollMissed p s).TowersLawful := by
  unfold pollMissed
  split
  · exact missLimit_towers p h
  · split <;> first
      | exact h
      | (refine modTower_towers h fun k => ?_
         by_cases e : (s.tower p).state = .driving
         · exact Tower.lawful_driven (by simp [Tower.isDriven, e]) (k.1 (by simp [Tower.isDriven, e])) k.2.2
         · exact k.congr (by simp [e]) rfl rfl)

/-- A tower that is not driven moves to ONLINE. -/
theorem toOnline_lawful {m : Bool} {t u : Tower} (k : t.Lawful m) (d : t.isDriven = false) (e : u.state = .online)
    (a : u.target = t.target) (b : u.applied = t.applied) : u.Lawful m :=
  Tower.lawful_of_still (by simp [Tower.isDriven, e]) (by rw [a, b]; exact k.2.1 d)

theorem judgeUndriven_towers (p : Nat) (b : BitVec 5) {s : State} (h : s.TowersLawful)
    (d : (s.tower p).isDriven = false) : (judgeUndriven p b s).TowersLawful := by
  unfold judgeUndriven
  split
  · exact enterFaulted_towers _ _ h
  · split
    · exact enterFaulted_towers _ _ h
    · split
      · exact enterUnrequested_towers _ h
      · exact modTower_towers h fun k => toOnline_lawful k d rfl rfl rfl

theorem judgeDriven_towers (p : Nat) (t : Tower) (b : BitVec 5) (n : Nat) {s : State} (h : s.TowersLawful)
    (m : s.inMotion = true) : (judgeDriven p t b n s).TowersLawful := by
  unfold judgeDriven
  simp only
  split
  · exact enterFaulted_towers _ _ h
  · split
    · exact enterFaulted_towers _ _ h
    · split
      · exact enterUnrequested_towers _ h
      · split
        · split
          · exact enterFaulted_towers _ _ h
          · exact modTower_towers h fun k => Tower.lawful_driven rfl m k.2.2
        · split
          · exact enterFaulted_towers _ _ h
          · exact modTower_towers h fun k => Tower.lawful_driven rfl m k.2.2

theorem judgeResetting_towers (p : Nat) (g : ResetStage) (b : BitVec 5) {s : State} (h : s.TowersLawful)
    (d : (s.tower p).isDriven = false) : (judgeResetting p g b s).TowersLawful := by
  have ends : (setChange p .resetDone
      (s.modTower p fun t => { t with state := .online, stage := .none, resetTimer := none })).TowersLawful :=
    setChange_towers _ _ (modTower_towers h fun k => toOnline_lawful k d rfl rfl rfl)
  unfold judgeResetting
  split
  · exact h
  · exact h
  all_goals
    split
    · exact h
    · split
      · exact enterFaulted_towers _ _ h
      · split
        · exact enterFaulted_towers _ _ h
        · exact ends

theorem pollGood_towers (p : Nat) (r : Reading) {s : State} (h : s.TowersLawful) : (pollGood p r s).TowersLawful := by
  have st : (s.modTower p fun t => t.store p (s.isEnd p) s.link.round r).TowersLawful :=
    modTower_towers h fun k => k.congr rfl rfl rfl
  have same : ((s.modTower p fun t => t.store p (s.isEnd p) s.link.round r).tower p).state = (s.tower p).state := by
    rw [tower_modTower]
    split
    · rfl
    · rfl
  have dv : ((s.modTower p fun t => t.store p (s.isEnd p) s.link.round r).tower p).isDriven = (s.tower p).isDriven := by
    unfold Tower.isDriven; rw [same]
  unfold pollGood
  simp only
  split <;> rename_i e
  · refine judgeUndriven_towers _ _ (setChange_towers _ _ st) ?_
    have e2 : ((setChange p .presence (s.modTower p fun t => t.store p (s.isEnd p) s.link.round r)).tower p).state =
        .silent := by
      rw [tower_setChange]; split <;> simp [same, e]
    simp [Tower.isDriven, e2]
  · exact judgeUndriven_towers _ _ st (by rw [dv]; simp [Tower.isDriven, e])
  · exact judgeDriven_towers _ _ _ _ st (by simpa using (h.all p).1 (by simp [Tower.isDriven, e]))
  · exact judgeDriven_towers _ _ _ _ st (by simpa using (h.all p).1 (by simp [Tower.isDriven, e]))
  · exact judgeResetting_towers _ _ _ st (by rw [dv]; simp [Tower.isDriven, e])
  · exact st
  · exact st

theorem pollOutcome_towers (p : Nat) (o : LineOutcome) {s : State} (h : s.TowersLawful) :
    (pollOutcome p o s).TowersLawful := by
  unfold pollOutcome
  split
  · split
    · exact pollGood_towers _ _ h
    · exact h
  · exact pollMissed_towers _ h
  · exact pollMissed_towers _ h
  · exact pollMissed_towers _ h
  · exact pollMissed_towers _ h
  · exact h
  · exact h

theorem resetOutcome_towers (p : Nat) (o : LineOutcome) {s : State} (h : s.TowersLawful) :
    (resetOutcome p o s).TowersLawful := by
  have k : (s.modTower p fun t => { t with stage := .acknowledged, resetPending := false }).TowersLawful :=
    modTower_towers h fun k => k.congr rfl rfl rfl
  unfold resetOutcome
  split
  · split
    · exact k
    · exact h
  all_goals exact h

/-! ### The computation -/

theorem captureSwing_roster (s : State) : (captureSwing s).roster = s.roster := by
  unfold captureSwing; simp only; split <;> rfl

theorem handOver_towers {s : State} (h : s.TowersLawful) : (handOver s).TowersLawful :=
  h.congr (captureSwing_roster s) (by simp [State.inMotion])

/-- A target lies within 0 to 1000 (R111, R120). -/
theorem targetOf_le (s : State) (w : Option Nat) (p : Nat) (t : Tower) : (targetOf s w p t).1 ≤ 1000 := by
  unfold targetOf jogTarget clampInt
  repeat' split
  all_goals simp only
  all_goals omega

/-- The applied command passes neither its last value nor its target (R113). -/
theorem slewed_le (a t l : Nat) : slewed a t l ≤ max a t := by
  unfold slewed clampInt; omega

theorem writeTowers_towers (w : Option Nat) {s : State} (h : s.TowersLawful) : (writeTowers w s).TowersLawful :=
  mapTowers_towers h fun p t k => by
    unfold computedTower
    split
    · rename_i d
      simp only [Bool.and_eq_true] at d
      exact Tower.lawful_driven d.2 (k.1 d.2) ⟨targetOf_le _ _ _ _,
        (slewed_le _ _ _).trans (max_le k.2.2.2 (targetOf_le _ _ _ _))⟩
    · exact k

theorem warnCheck_towers (n p : Nat) {s : State} (h : s.TowersLawful) : (warnCheck n p s).TowersLawful := by
  unfold warnCheck
  (repeat' split) <;> first
    | exact h
    | exact raise_towers _ (setChange_towers _ _ (modTower_towers h fun k => k.congr rfl rfl rfl))
    | exact modTower_towers h fun k => k.congr rfl rfl rfl

theorem foldl_towers {α : Type} (g : State → α → State) (k : ∀ s a, s.TowersLawful → (g s a).TowersLawful) (l : List α)
    {s : State} (h : s.TowersLawful) : (l.foldl g s).TowersLawful := by
  induction l generalizing s with
  | nil => exact h
  | cons a l ih => exact ih (k s a h)

theorem warnChecks_towers {s : State} (h : s.TowersLawful) : (warnChecks s).TowersLawful :=
  foldl_towers _ (fun _ _ k => warnCheck_towers _ _ k) _ h

theorem takeJogMet_towers {s : State} (h : s.TowersLawful) : (takeJogMet s).TowersLawful := by
  unfold takeJogMet
  split
  · exact changeState_moving rfl h
  · exact h

theorem countJogRound_towers (j : Jog) {s : State} (h : s.TowersLawful) : (countJogRound j s).TowersLawful := by
  unfold countJogRound
  simp only
  split
  · exact changeState_moving (s := { s with sup := _ }) rfl h
  · exact h

theorem takeRest_towers (b : Bool) {s : State} (h : s.TowersLawful) : (takeRest b s).TowersLawful := by
  unfold takeRest
  (repeat' split) <;> first
    | exact h
    | exact changeState_towers _ h (by simp)
    | exact countJogRound_towers _ h

theorem makeReports_towers (m : Option Nat) (w j r : Bool) {s : State} (h : s.TowersLawful) :
    (makeReports m w j r s).TowersLawful := by
  have b : ∀ u : State, u.TowersLawful →
      (takeRest r (if j then takeJogMet (if w then tripRequest .swing (some Config.cornerPos) u else u)
        else (if w then tripRequest .swing (some Config.cornerPos) u else u))).TowersLawful := by
    intro u k
    have k' : (if w then tripRequest .swing (some Config.cornerPos) u else u).TowersLawful := by
      split
      · exact tripRequest_towers _ _ k
      · exact k
    refine takeRest_towers _ ?_
    split
    · exact takeJogMet_towers k'
    · exact k'
  cases m with
  | none => exact b s h
  | some p => exact b _ (tripRequest_towers _ _ h)

theorem computation_towers {s : State} (h : s.TowersLawful) : (computation s).TowersLawful :=
  makeReports_towers _ _ _ _ (warnChecks_towers (writeTowers_towers _ h))

theorem pollComplete_towers {s : State} (h : s.TowersLawful) : (pollComplete s).TowersLawful :=
  computation_towers (handOver_towers (rosterCompletes_towers (missingSample_towers (s := { s with link := _ }) h)))

theorem settlePoll_towers {s : State} (h : s.TowersLawful) : (settlePoll s).TowersLawful := by
  unfold settlePoll
  split
  · exact pollComplete_towers h
  · exact h

/-! ### The line -/

theorem ageRequests_roster (s : State) : (ageRequests s).roster = s.roster := by
  unfold ageRequests; simp only; split <;> rfl

theorem startRound_towers {s : State} (h : s.TowersLawful) : (startRound s).TowersLawful :=
  (staleReadings_towers (s := { s with link := _, tracker := _ }) h).congr (ageRequests_roster _)
    (by simp [State.inMotion, startRound])

theorem skipPolls_towers (p : Nat) {s : State} (h : s.TowersLawful) : (skipPolls p s).TowersLawful :=
  pollComplete_towers (s := { raise _ _ with link := _ })
    (foldl_towers _ (fun _ _ k => pollOutcome_towers _ _ k) _ h)

theorem pollBegins_towers {s : State} (h : s.TowersLawful) : (pollBegins s).TowersLawful := by
  unfold pollBegins
  (repeat' split) <;> first | exact h | exact skipPolls_towers _ h

theorem resetBegins_towers {s : State} (h : s.TowersLawful) : (resetBegins s).TowersLawful := by
  unfold resetBegins
  (repeat' split) <;> exact h

theorem serviceBegins_towers {s : State} (h : s.TowersLawful) : (serviceBegins s).TowersLawful := by
  unfold serviceBegins
  (repeat' split) <;> exact h

theorem deliver_towers (x : Exchange) (o : LineOutcome) {s : State} (h : s.TowersLawful) :
    (deliver x o s).TowersLawful := by
  unfold deliver
  (repeat' split) <;> first
    | exact h
    | exact pollOutcome_towers _ _ h
    | exact resetOutcome_towers _ _ h
    | exact h.congr (serviceOutcome_roster _ _ _) (by simp [State.inMotion])

theorem endExchange_towers (x : Exchange) (o : LineOutcome) {s : State} (h : s.TowersLawful) :
    (endExchange x o s).TowersLawful := by
  have k : (deliver x o { s with link := { s.link with exchange := none } }).TowersLawful := deliver_towers x o h
  unfold endExchange
  simp only
  split
  · exact pollComplete_towers k
  · exact k

theorem windowCloses_towers (x : Exchange) {s : State} (h : s.TowersLawful) : (windowCloses x s).TowersLawful :=
  endExchange_towers x _ h

theorem reservationEnds_towers (x : Exchange) {s : State} (h : s.TowersLawful) : (reservationEnds x s).TowersLawful :=
  endExchange_towers x _ h

theorem replyArrives_towers (b : List Byte) (x : Exchange) {s : State} (h : s.TowersLawful) :
    (replyArrives b x s).TowersLawful :=
  endExchange_towers x _ h

theorem replyBreaksOff_towers {s : State} (h : s.TowersLawful) : (replyBreaksOff s).TowersLawful := by
  unfold replyBreaksOff
  split
  · exact endExchange_towers _ _ h
  · exact h

theorem breakBegins_towers {s : State} (h : s.TowersLawful) : (breakBegins s).TowersLawful := by
  unfold breakBegins
  (repeat' split) <;> first | exact h | exact settlePoll_towers (s := { s with link := _ }) h

theorem breakEnds_towers {s : State} (h : s.TowersLawful) : (breakEnds s).TowersLawful :=
  settlePoll_towers (s := { s with link := _ }) h

theorem endRound_towers {s : State} (h : s.TowersLawful) : (endRound s).TowersLawful := by
  unfold endRound
  split
  · split
    · exact skipPolls_towers _ h
    · exact h
  · exact h

theorem lineFallsIdle_towers {s : State} (h : s.TowersLawful) : (lineFallsIdle s).TowersLawful := by
  unfold lineFallsIdle
  split <;> exact h

/-! ### The supervisor and time -/

theorem driveOnline_towers {s : State} (h : s.TowersLawful) (m : s.inMotion = true) : (driveOnline s).TowersLawful :=
  mapTowers_towers h fun p t k => by
    split
    · exact Tower.lawful_driven (by simp [Tower.isDriven, Tower.drive]) m k.2.2
    · exact k

theorem startTimerStarts_towers {s : State} (h : s.TowersLawful) : (startTimerStarts s).TowersLawful := by
  unfold startTimerStarts
  split
  · exact changeState_moving rfl h
  · exact h

theorem faceStart_towers (d : Direction) (e : Option Nat) {s : State} (h : s.TowersLawful) :
    (faceStart d e s).TowersLawful := by
  have k : (if d = s.sup.direction then s else changeDirection d s).TowersLawful := by
    split
    · exact h
    · exact changeDirection_towers d h
  unfold faceStart
  simp only
  split
  · exact k
  · exact k

theorem acceptStart_towers (d : Direction) (e : Option Nat) {s : State} (h : s.TowersLawful) :
    (acceptStart d e s).TowersLawful :=
  startTimerStarts_towers (driveOnline_towers (changeState_moving rfl (faceStart_towers d e h)) (by simp [State.inMotion, MachineState.isMotion]))

theorem acceptJog_towers (j : Jog) {s : State} (h : s.TowersLawful) : (acceptJog j s).TowersLawful := by
  have k : (changeState .jogging s).TowersLawful := changeState_moving rfl h
  have m : (changeState .jogging s).inMotion = true := by simp [State.inMotion, MachineState.isMotion]
  have k' : ({ changeState .jogging s with sup := { (changeState .jogging s).sup with jog := some j } }).TowersLawful :=
    k.congr rfl rfl
  exact modTower_towers (g := Tower.drive) k' fun l => Tower.lawful_driven rfl m l.2.2

theorem startExpires_towers {s : State} (h : s.TowersLawful) : (startExpires s).TowersLawful :=
  changeState_moving rfl h

theorem reversalExpires_towers {s : State} (h : s.TowersLawful) : (reversalExpires s).TowersLawful :=
  changeState_moving rfl (changeDirection_towers _ h)

theorem loopChanges_towers (b : Bool) {s : State} (h : s.TowersLawful) : (loopChanges b s).TowersLawful := by
  unfold loopChanges
  simp only
  split
  · exact tripRequest_towers _ _ (s := { s with sup := _ }) h
  · exact h

theorem goOnline_towers {s : State} (h : s.TowersLawful) : (goOnline s).TowersLawful := by
  have k : (changeState .standby s).TowersLawful := changeState_towers _ h (by simp)
  exact startRound_towers (s := { changeState .standby s with link := _ }) (k.congr rfl rfl)

theorem goOffline_towers (s : State) : (goOffline s).TowersLawful := clearRoster_towers _

theorem restartBlocks_towers (s : State) : (restartBlocks s).TowersLawful := clearRoster_towers _

theorem stepStart_towers {s : State} (h : s.TowersLawful) : (stepStart s).TowersLawful := by
  unfold stepStart
  (repeat' split) <;> first | exact h | exact startExpires_towers h

theorem stepDwell_towers {s : State} (h : s.TowersLawful) : (stepDwell s).TowersLawful := by
  unfold stepDwell
  (repeat' split) <;> first | exact h | exact dwellExpires_towers h

theorem stepReversal_towers {s : State} (h : s.TowersLawful) : (stepReversal s).TowersLawful := by
  unfold stepReversal
  (repeat' split) <;> first | exact h | exact reversalExpires_towers h

theorem stepReset_towers (p : Nat) {s : State} (h : s.TowersLawful) : (stepReset p s).TowersLawful := by
  unfold stepReset
  (repeat' split) <;> first
    | exact h
    | exact enterFaulted_towers _ _ h
    | exact modTower_towers h fun k => k.congr rfl rfl rfl

theorem stepTimers_towers {s : State} (h : s.TowersLawful) : (stepTimers s).TowersLawful :=
  foldl_towers _ (fun _ p k => stepReset_towers p k) _ (stepReversal_towers (stepDwell_towers (stepStart_towers h)))

theorem lineRuns_towers (n : Nat) {s : State} (h : s.TowersLawful) : (lineRuns n s).TowersLawful := by
  unfold lineRuns
  split <;> exact h

theorem runSteps_towers (going : State → Bool) (k n : Nat) {s : State} (h : s.TowersLawful) :
    (runSteps going k n s).TowersLawful := by
  induction k generalizing n s with
  | zero => exact lineRuns_towers _ h
  | succ k ih =>
    have t : (stepTimers (lineRuns s.link.toStep s)).TowersLawful := stepTimers_towers (lineRuns_towers _ h)
    unfold runSteps
    dsimp only
    split
    · exact lineRuns_towers _ h
    · split
      · exact ih _ t
      · exact t

theorem timePasses_towers (n : Nat) {s : State} (h : s.TowersLawful) : (timePasses n s).TowersLawful := runSteps_towers _ _ _ h

theorem timePassesWhile_towers (going : State → Bool) (n : Nat) {s : State} (h : s.TowersLawful) :
    (timePassesWhile going n s).TowersLawful := runSteps_towers _ _ _ h

theorem breakDue_towers {s : State} (h : s.TowersLawful) : (breakDue s).TowersLawful := by
  unfold breakDue
  (repeat' split) <;> first | exact h | exact breakBegins_towers h | exact breakEnds_towers h

theorem atMoment_towers {act : Exchange → State → State} (k : ∀ x s, s.TowersLawful → (act x s).TowersLawful)
    (st : ExStep) (moment : Exchange → Nat) {s : State} (h : s.TowersLawful) :
    (atMoment st moment act s).TowersLawful := by
  unfold atMoment
  split
  · dsimp only
    split
    · exact k _ _ (timePassesWhile_towers _ _ h)
    · exact breakDue_towers (timePassesWhile_towers _ _ h)
  · exact h

theorem breakSent_towers {s : State} (h : s.TowersLawful) : (breakSent s).TowersLawful := by
  unfold breakSent
  split
  · exact breakEnds_towers (timePasses_towers _ h)
  all_goals exact h

theorem roundPasses_towers {s : State} (h : s.TowersLawful) : (roundPasses s).TowersLawful := by
  have t := timePassesWhile_towers (fun u => u.link.free) s.link.remaining h
  unfold roundPasses
  dsimp only
  split
  · exact t
  · exact timePasses_towers _ (breakSent_towers t)

theorem exchangeDue_towers {s : State} (h : s.TowersLawful) : (exchangeDue s).TowersLawful := by
  unfold exchangeDue
  split
  · exact h
  · split
    · split <;> exact h
    · split
      · exact windowCloses_towers _ h
      · exact h
    · split
      · exact reservationEnds_towers _ h
      · exact h

theorem characterTime_towers {s : State} (h : s.TowersLawful) : (characterTime s).TowersLawful :=
  breakDue_towers (exchangeDue_towers (timePasses_towers _ h))

/-! ### Commands -/

/-- The roster of `t` is lawful if that of `s` is. -/
abbrev TowersKept (s t : State) : Prop := s.TowersLawful → t.TowersLawful

theorem heldAmended_towers (r : Sector) (cs : List Change) {s : State} (h : s.TowersLawful) :
    (heldAmended r cs s).TowersLawful := by
  unfold heldAmended
  split
  · exact h
  · split
    · exact startDwell_towers _ h
    · split
      · exact changeState_moving rfl h
      · exact h

theorem acceptAmendment_towers (r : Sector) (cs : List Change) (s : State) : TowersKept s (acceptAmendment r cs s).1 := by
  intro h
  unfold acceptAmendment
  simp only
  split
  · exact heldAmended_towers _ cs
      (s := { s with plan := replaceRecord { r.amended cs with revision := (r.revision + 1) % 256 } s.plan }) h
  · exact h

theorem amendRecord_towers (r : Sector) (a : Amendment) (s : State) : TowersKept s (amendRecord r a s).1 := by
  unfold amendRecord
  (repeat' split) <;> first | exact acceptAmendment_towers r a.changes s | exact id

theorem sectorAmend_towers (a : Amendment) (s : State) : TowersKept s (sectorAmend a s).1 := by
  unfold sectorAmend
  (repeat' split) <;> first | exact amendRecord_towers _ a s | exact id

theorem retireRecord_towers (r : Sector) (s : State) : TowersKept s (retireRecord r s).1 := by
  intro h
  unfold retireRecord
  (repeat' split) <;> exact h

theorem sectorRetire_towers (k : Nat) (s : State) : TowersKept s (sectorRetire k s).1 := by
  unfold sectorRetire
  (repeat' split) <;> first | exact retireRecord_towers _ s | exact id

theorem sectorPut_towers (r : Sector) (s : State) : TowersKept s (sectorPut r s).1 := by
  intro h
  unfold sectorPut
  (repeat' split) <;> exact h

theorem sectorClear_towers (s : State) : TowersKept s (sectorClear s).1 := by
  intro h
  unfold sectorClear
  (repeat' split) <;> exact h

theorem motionSetup_towers (m : MotionSettings) (s : State) : TowersKept s (motionSetup m s).1 := by
  intro h
  unfold motionSetup
  (repeat' split) <;> exact h

theorem towerGet_towers (p : Nat) (s : State) : TowersKept s (towerGet p s).1 := by
  intro h
  unfold towerGet
  (repeat' split) <;> exact h

theorem alignTune_towers (t : Tune) (s : State) : TowersKept s (alignTune t s).1 := by
  intro h
  unfold alignTune
  (repeat' split) <;> exact h

theorem svcSubmit_towers (c : Submission) (s : State) : TowersKept s (svcSubmit c s).1 := by
  intro h
  unfold svcSubmit
  (repeat' split) <;> exact h

theorem svcResult_towers (n : Nat) (s : State) : TowersKept s (svcResult n s).1 := by
  intro h
  unfold svcResult
  (repeat' split) <;> exact h

theorem svcCancel_towers (n : Nat) (s : State) : TowersKept s (svcCancel n s).1 := by
  intro h
  unfold svcCancel
  (repeat' split) <;> exact h

theorem timingSetup_towers (c : Nat × Nat) (s : State) : TowersKept s (timingSetup c s).1 := by
  intro h
  unfold timingSetup
  (repeat' split) <;> exact h

theorem towerSet_towers (c : TowerSetting) (s : State) : TowersKept s (towerSet c s).1 := by
  intro h
  unfold towerSet
  split
  · exact h
  · split
    · exact h
    · split
      · exact modTower_towers h fun k => k.congr rfl rfl rfl
      · split
        · split
          · exact h
          · exact modTower_towers h fun k => k.congr rfl rfl rfl
        · exact h

theorem towerTrim_towers (c : Nat × Int) (s : State) : TowersKept s (towerTrim c s).1 := by
  intro h
  unfold towerTrim
  split
  · exact h
  · split
    · exact h
    · exact modTower_towers h fun k => k.congr rfl rfl rfl

theorem towerAck_towers (c : Nat × BitVec 5) (s : State) : TowersKept s (towerAck c s).1 := by
  intro h
  unfold towerAck
  split
  · exact h
  · exact modTower_towers h fun k => k.congr rfl rfl rfl

theorem towerReset_towers (p : Nat) (s : State) : TowersKept s (towerReset p s).1 := by
  intro h
  unfold towerReset
  split
  · exact h
  · split
    · exact h
    · rename_i m
      split
      · exact h
      · refine modTower_towers h fun k => ?_
        have still : s.inMotion = false := by
          have : s.sup.machine = .standby ∨ s.sup.machine = .tripped := by
            by_contra e; exact m ⟨fun e' => e (Or.inl e'), fun e' => e (Or.inr e')⟩
          rcases this with e | e <;> simp [State.inMotion, e, MachineState.isMotion]
        have d : (s.tower p).isDriven = false := by
          by_contra e
          have := k.1 (by simpa using e)
          rw [still] at this; cases this
        exact Tower.lawful_of_still rfl (k.2.1 d)

theorem linkSetup_towers (l : LinkSettings) (s : State) : TowersKept s (linkSetup l s).1 := by
  intro h
  unfold linkSetup
  split
  · exact h
  · split
    · exact reconfigure_towers _ _ (s := { s with link := _ }) h
    · exact h

theorem online_towers (s : State) : TowersKept s (online s).1 := by
  intro h
  unfold online
  (repeat' split) <;> first | exact h | exact goOnline_towers h

theorem offline_towers (s : State) : TowersKept s (offline s).1 := by
  intro h
  unfold offline
  split
  · exact goOffline_towers s
  · exact h

theorem startAt_towers (d : Direction) (n : Nat) (s : State) : TowersKept s (startAt d n s).1 := by
  intro h
  unfold startAt
  (repeat' split) <;> first | exact h | exact acceptStart_towers d _ h

theorem start_towers (d : Direction) (s : State) : TowersKept s (start d s).1 := by
  unfold start
  (repeat' split) <;> first | exact id | exact startAt_towers d _ s

theorem stop_towers (s : State) : TowersKept s (stop s).1 := by
  intro h
  unfold stop
  split <;> first | exact h | exact changeState_towers _ h (by simp)

theorem pause_towers (s : State) : TowersKept s (pause s).1 := by
  intro h
  unfold pause
  split
  · exact (changeState_moving (new := .holding) rfl h).congr rfl rfl
  all_goals exact h

theorem continueRun_towers (s : State) : TowersKept s (continueRun s).1 := by
  intro h
  unfold continueRun
  split
  · exact changeState_moving rfl h
  · exact h

theorem reverse_towers (s : State) : TowersKept s (reverse s).1 := by
  intro h
  unfold reverse
  split
  · exact beginReversal_towers h
  · exact h

theorem jog_towers (j : Jog) (s : State) : TowersKept s (jog j s).1 := by
  intro h
  unfold jog
  (repeat' split) <;> first | exact h | exact acceptJog_towers j h

theorem estop_towers (s : State) : TowersKept s (estop s).1 := by
  intro h
  unfold estop
  split
  · exact h
  · exact requestBreak_towers h
  all_goals exact tripRequest_towers _ _ h

theorem clearTrip_towers (s : State) : TowersKept s (clearTrip s).1 := by
  intro h
  unfold clearTrip
  split
  · exact changeState_towers _ (s := { s with sup := _ }) h (by simp)
  · exact h

theorem nopHandler_towers : nopHandler.Relates TowersKept :=
  plainHandler_relates (fun _ => id) fun _ => id

theorem statusHandler_towers : statusHandler.Relates TowersKept :=
  plainHandler_relates (fun _ => id) fun _ => id

theorem restartHandler_towers : restartHandler.Relates TowersKept :=
  plainHandler_relates (fun _ => id) (fun s _ => restartBlocks_towers s)

theorem sectorPutHandler_towers : sectorPutHandler.Relates TowersKept :=
  decodedHandler_relates (fun _ => id) sectorPut_towers

theorem sectorAmendHandler_towers : sectorAmendHandler.Relates TowersKept :=
  decodedHandler_relates (fun _ => id) sectorAmend_towers

theorem sectorRetireHandler_towers : sectorRetireHandler.Relates TowersKept :=
  decodedHandler_relates (fun _ => id) sectorRetire_towers

theorem sectorGetHandler_towers : sectorGetHandler.Relates TowersKept :=
  decodedHandler_relates (fun _ => id) fun _ _ => id

theorem sectorFindHandler_towers : sectorFindHandler.Relates TowersKept :=
  decodedHandler_relates (fun _ => id) fun _ _ => id

theorem sectorWalkHandler_towers : sectorWalkHandler.Relates TowersKept :=
  decodedHandler_relates (fun _ => id) fun _ _ => id

theorem sectorClearHandler_towers : sectorClearHandler.Relates TowersKept :=
  plainHandler_relates (fun _ => id) sectorClear_towers

theorem motionSetupHandler_towers : motionSetupHandler.Relates TowersKept :=
  decodedHandler_relates (fun _ => id) motionSetup_towers

theorem towerSetHandler_towers : towerSetHandler.Relates TowersKept :=
  decodedHandler_relates (fun _ => id) towerSet_towers

theorem towerTrimHandler_towers : towerTrimHandler.Relates TowersKept :=
  decodedHandler_relates (fun _ => id) towerTrim_towers

theorem towerGetHandler_towers : towerGetHandler.Relates TowersKept :=
  decodedHandler_relates (fun _ => id) towerGet_towers

theorem towerAckHandler_towers : towerAckHandler.Relates TowersKept :=
  decodedHandler_relates (fun _ => id) towerAck_towers

theorem towerResetHandler_towers : towerResetHandler.Relates TowersKept :=
  decodedHandler_relates (fun _ => id) towerReset_towers

theorem linkSetupHandler_towers : linkSetupHandler.Relates TowersKept :=
  decodedHandler_relates (fun _ => id) linkSetup_towers

theorem alignTuneHandler_towers : alignTuneHandler.Relates TowersKept :=
  decodedHandler_relates (fun _ => id) alignTune_towers

theorem onlineHandler_towers : onlineHandler.Relates TowersKept :=
  plainHandler_relates (fun _ => id) online_towers

theorem offlineHandler_towers : offlineHandler.Relates TowersKept :=
  plainHandler_relates (fun _ => id) offline_towers

theorem startHandler_towers : startHandler.Relates TowersKept :=
  decodedHandler_relates (fun _ => id) start_towers

theorem stopHandler_towers : stopHandler.Relates TowersKept :=
  plainHandler_relates (fun _ => id) stop_towers

theorem pauseHandler_towers : pauseHandler.Relates TowersKept :=
  plainHandler_relates (fun _ => id) pause_towers

theorem continueHandler_towers : continueHandler.Relates TowersKept :=
  plainHandler_relates (fun _ => id) continueRun_towers

theorem reverseHandler_towers : reverseHandler.Relates TowersKept :=
  plainHandler_relates (fun _ => id) reverse_towers

theorem jogHandler_towers : jogHandler.Relates TowersKept :=
  decodedHandler_relates (fun _ => id) jog_towers

theorem estopHandler_towers : estopHandler.Relates TowersKept :=
  plainHandler_relates (fun _ => id) estop_towers

theorem clearTripHandler_towers : clearTripHandler.Relates TowersKept :=
  plainHandler_relates (fun _ => id) clearTrip_towers

theorem timingSetupHandler_towers : timingSetupHandler.Relates TowersKept :=
  decodedHandler_relates (fun _ => id) timingSetup_towers

theorem machineGetHandler_towers : machineGetHandler.Relates TowersKept :=
  plainHandler_relates (fun _ => id) fun _ => id

theorem svcSubmitHandler_towers : svcSubmitHandler.Relates TowersKept :=
  decodedHandler_relates (fun _ => id) svcSubmit_towers

theorem svcResultHandler_towers : svcResultHandler.Relates TowersKept :=
  decodedHandler_relates (fun _ => id) svcResult_towers

theorem svcCancelHandler_towers : svcCancelHandler.Relates TowersKept :=
  decodedHandler_relates (fun _ => id) svcCancel_towers

theorem evtReadHandler_towers : evtReadHandler.Relates TowersKept :=
  plainHandler_relates (fun _ => id) fun _ => id

theorem evtAckHandler_towers : evtAckHandler.Relates TowersKept :=
  decodedHandler_relates (fun _ => id) fun _ _ => id

theorem evtEnableHandler_towers : evtEnableHandler.Relates TowersKept :=
  decodedHandler_relates (fun _ => id) fun _ _ => id

theorem evtDisableHandler_towers : evtDisableHandler.Relates TowersKept :=
  decodedHandler_relates (fun _ => id) fun _ _ => id

/-- Every command keeps the roster lawful. -/
theorem handlerOf_towers {code : Byte} {h : Handler} (k : handlerOf code = some h) : h.Relates TowersKept :=
  handlerOf_induct (P := fun h => h.Relates TowersKept)
    nopHandler_towers statusHandler_towers restartHandler_towers sectorPutHandler_towers sectorAmendHandler_towers
    sectorRetireHandler_towers sectorGetHandler_towers sectorFindHandler_towers sectorWalkHandler_towers
    sectorClearHandler_towers motionSetupHandler_towers towerSetHandler_towers towerTrimHandler_towers
    towerGetHandler_towers towerAckHandler_towers towerResetHandler_towers linkSetupHandler_towers
    alignTuneHandler_towers onlineHandler_towers offlineHandler_towers startHandler_towers stopHandler_towers
    pauseHandler_towers continueHandler_towers reverseHandler_towers jogHandler_towers estopHandler_towers
    clearTripHandler_towers timingSetupHandler_towers machineGetHandler_towers svcSubmitHandler_towers
    svcResultHandler_towers svcCancelHandler_towers evtReadHandler_towers evtAckHandler_towers
    evtEnableHandler_towers evtDisableHandler_towers k

/-- Carrying out a command keeps the roster lawful. -/
theorem carryOut_towers {code : Byte} {h : Handler} (r : h.Relates TowersKept) (payload : List Byte) {s : State}
    (l : s.TowersLawful) : (carryOut code h payload s).TowersLawful :=
  carryOut_induct (P := State.TowersLawful) l fun q _ _ => r q s l

end Sys2Proof.Machine
end

