-- ==== Sys2Proof/Laws/Trips.lean ====
section
/-! SUPPORT. Everything a trip taken in a motion state does (R146, R147): the supervisor, the towers, the tracker and the
event flags. -/

namespace Sys2Proof.Machine

theorem completeRetirement_isSet (g) (s : State) (h : s.ev.isSet g = true) : (completeRetirement s).ev.isSet g = true := by
  unfold completeRetirement; split
  · exact isSet_raise_mono _ _ _ h
  · exact h
theorem entry_isSet (m g) (s : State) (h : s.ev.isSet g = true) : (entryEffects m s).ev.isSet g = true := by
  unfold entryEffects enterStanding
  split
  · exact completeRetirement_isSet _ _ h
  · exact completeRetirement_isSet _ _ h
  · exact completeRetirement_isSet _ _ h
  all_goals exact h
theorem changeState_isSet (m g) (s : State) (h : s.ev.isSet g = true) : (changeState m s).ev.isSet g = true :=
  isSet_raise_mono _ _ _ (entry_isSet m g _ h)
theorem changeState_sets (m) (s : State) : (changeState m s).ev.isSet .machineState = true := isSet_raise_self _ _

theorem serviceOutcome_isSet (n o g) (s : State) (h : s.ev.isSet g = true) : (serviceOutcome n o s).ev.isSet g = true := by
  unfold serviceOutcome
  (repeat' split) <;> first | exact h | exact isSet_raise_mono _ _ _ h
theorem requestBreak_isSet (g) (s : State) (h : s.ev.isSet g = true) : (requestBreak s).ev.isSet g = true := by
  unfold requestBreak deliverAbandoned
  (repeat' split) <;> first | exact h | exact serviceOutcome_isSet _ _ _ _ h

/-- A change to a motion state leaves the tracker alone. -/
theorem changeState_tracker_moving {m : MachineState} (k : m.isMotion = true) (s : State) : (changeState m s).tracker = s.tracker := by
  cases m <;> first | rfl | cases k
theorem completeRetirement_tracker (s : State) : (completeRetirement s).tracker.escape = s.tracker.escape ∧
   (completeRetirement s).tracker.pace = s.tracker.pace ∧ (completeRetirement s).tracker.lastGood = s.tracker.lastGood := by
  unfold completeRetirement; split <;> exact ⟨rfl, rfl, rfl⟩

theorem requestBreak_tracker (s : State) : (requestBreak s).tracker = s.tracker := by
  unfold requestBreak deliverAbandoned serviceOutcome
  (repeat' split) <;> rfl

theorem motion_cases {m : MachineState} (h : m.isMotion = true) : m ≠ .setup ∧ m ≠ .standby ∧ m ≠ .tripped := by
  cases m <;> simp_all [MachineState.isMotion]


/-- A trip taken in a motion state leaves the supervisor with exactly the trip's record. -/
theorem takeTrip_sup (c : TripCause) (p : Option Nat) (s : State) (h : s.inMotion = true) (l : s.sup.Lawful) :
    (takeTrip c p s).sup = { s.sup with
      machine := .tripped, permit := false, startTimer := none, hold := .cleared, reversal := .none, jog := none
      trip := some (s.tripRecord c p) } := by
  obtain ⟨l1, l2, l3, l4, l5, l6⟩ := l
  have mv : s.sup.moveTo .tripped = { s.sup with
      machine := .tripped, permit := false, startTimer := none, hold := .cleared, reversal := .none, jog := none } := by
    unfold State.inMotion at h
    unfold Supervisor.moveTo Supervisor.depart permitAfter
    generalize s.sup = u at *
    rcases u with ⟨m, d, pm, lc, st, hd, rv, jg, tr, sd, rd⟩
    simp only at *
    cases m <;> simp_all [MachineState.isMotion]
  have k : (changeState .tripped s).sup = s.sup.moveTo .tripped := by
    rcases changeState_sup .tripped s with e | e
    · exact e
    · rw [e, mv]
  simp [takeTrip, k, mv]

theorem takeTrip_towers_at (c : TripCause) (q : Option Nat) (s : State) (p : Nat) :
    (takeTrip c q s).tower p = (((changeState .tripped s).mapTowers fun p t =>
      if (changeState .tripped s).isConfigured p then { t with applied := 0 } else t)).tower p :=
  tower_congr (requestBreak_roster _) p

theorem releaseTowers_at {s : State} (h : s.TowersLawful) (p : Nat) :
    ((releaseTowers s).tower p).isDriven = false ∧ ((releaseTowers s).tower p).target = 0 ∧ ((releaseTowers s).tower p).applied = 0 := by
  have k := releaseTowers_tower h false p
  have d : ((releaseTowers s).tower p).isDriven = false := by
    by_contra e; exact absurd (k.1 (by simpa using e)) (by simp)
  exact ⟨d, k.2.1 d⟩

theorem takeTrip_still (c : TripCause) (q : Option Nat) {s : State} (h : s.TowersLawful) (p : Nat) :
    ((takeTrip c q s).tower p).isDriven = false ∧ ((takeTrip c q s).tower p).applied = 0 := by
  rw [takeTrip_towers_at, tower_mapTowers]
  have e : (changeState .tripped s).tower p = (releaseTowers s).tower p := by
    apply tower_congr
    simp [changeState, entryEffects, enterStanding_roster]; rfl
  split
  · rw [e]
    obtain ⟨a, b, c⟩ := releaseTowers_at h p
    split
    · exact ⟨a, rfl⟩
    · exact ⟨a, c⟩
  · exact ⟨rfl, rfl⟩

/-- A tower that is not driven keeps its record through a trip, but for its applied command. -/
theorem takeTrip_undriven (c : TripCause) (q : Option Nat) {s : State} {p : Nat} (hp : 1 ≤ p ∧ p ≤ Config.positions) (d : (s.tower p).isDriven = false)
   : (takeTrip c q s).tower p = { s.tower p with applied := ((takeTrip c q s).tower p).applied } := by
  rw [takeTrip_towers_at, tower_mapTowers]
  have e : (changeState .tripped s).tower p = (releaseTowers s).tower p := by
    apply tower_congr
    simp [changeState, entryEffects, enterStanding_roster]; rfl
  have e2 : (releaseTowers s).tower p = s.tower p := by
    unfold releaseTowers; rw [tower_mapTowers, if_pos hp, d]; rfl
  rw [if_pos hp, e, e2]
  split <;> rfl

theorem takeTrip_tracker (c : TripCause) (q : Option Nat) (s : State) :
    (takeTrip c q s).tracker.escape = none ∧ (takeTrip c q s).tracker.pace = 0 ∧
      (takeTrip c q s).tracker.lastGood = s.tracker.lastGood := by
  simp only [takeTrip, requestBreak_tracker, raise_tracker, mapTowers_tracker, changeState, entryEffects, enterStanding]
  obtain ⟨a, b, c⟩ := completeRetirement_tracker
    { releaseTowers { s with sup := s.sup.moveTo .tripped } with
      tracker := { (releaseTowers { s with sup := s.sup.moveTo .tripped }).tracker with escape := none, pace := 0 } }
  exact ⟨a, b, c⟩

theorem takeTrip_isSet (c : TripCause) (q : Option Nat) (s : State) :
    (takeTrip c q s).ev.isSet .trip = true ∧ (takeTrip c q s).ev.isSet .machineState = true := by
  unfold takeTrip
  simp only
  refine ⟨requestBreak_isSet _ _ ?_, requestBreak_isSet _ _ ?_⟩
  · exact isSet_raise_self _ _
  · exact isSet_raise_mono _ _ _ (changeState_sets _ _)

theorem tripRequest_moving (c : TripCause) (q : Option Nat) {s : State} (h : s.inMotion = true) : tripRequest c q s = takeTrip c q s := by
  unfold State.inMotion at h
  unfold tripRequest
  cases hm : s.sup.machine <;> simp [hm, MachineState.isMotion] at h <;> rfl

/-- In a lawful roster a trip leaves every record that was not driven, and moves every driven one to ONLINE. -/
theorem takeTrip_tower (c : TripCause) (q : Option Nat) {s : State} (h : s.TowersLawful) (p : Nat) :
    (takeTrip c q s).tower p = if (s.tower p).isDriven then (s.tower p).leaveTo .online else s.tower p := by
  rw [takeTrip_towers_at, tower_mapTowers]
  have e : (changeState .tripped s).tower p = (releaseTowers s).tower p := by
    apply tower_congr
    simp [changeState, entryEffects, enterStanding_roster]; rfl
  have z := (releaseTowers_at h p).2.2
  by_cases hp : 1 ≤ p ∧ p ≤ Config.positions
  · have e2 : (releaseTowers s).tower p = if (s.tower p).isDriven then (s.tower p).leaveTo .online else s.tower p := by
      unfold releaseTowers; rw [tower_mapTowers, if_pos hp]
    rw [if_pos hp, e, ← e2]
    split
    · generalize (releaseTowers s).tower p = t at z
      cases t; simp_all
    · rfl
  · rw [if_neg hp, tower_outside hp]; rfl

theorem deliverAbandoned_link (x : Exchange) (s : State) : (deliverAbandoned x s).link = s.link := by
  unfold deliverAbandoned serviceOutcome
  (repeat' split) <;> rfl

@[simp] theorem changeState_link (m : MachineState) (s : State) : (changeState m s).link = s.link := by
  unfold changeState entryEffects enterStanding completeRetirement
  (repeat' split) <;> rfl

theorem completeRetirement_motion (s : State) : (completeRetirement s).tracker.settings = s.tracker.settings := by
  unfold completeRetirement; split <;> rfl

theorem takeTrip_motion (c : TripCause) (q : Option Nat) (s : State) :
    (takeTrip c q s).tracker.settings = s.tracker.settings := by
  simp only [takeTrip, requestBreak_tracker, raise_tracker, mapTowers_tracker, changeState, entryEffects, enterStanding]
  rw [completeRetirement_motion]; rfl

/-- A request for BREAK leaves the link's settings, round and running, and while rounds run a BREAK under way. -/
theorem requestBreak_link (s : State) :
    (requestBreak s).link.settings = s.link.settings ∧ (requestBreak s).link.round = s.link.round
      ∧ (requestBreak s).link.running = s.link.running
      ∧ (s.link.running = true → (requestBreak s).link.brk ≠ .none) := by
  unfold requestBreak
  split
  · split
    · split
      · unfold Link.breakOnFree Link.sendBreak
        split <;> simp
      · rw [deliverAbandoned_link]
        unfold Link.cutShort Link.breakOnFree Link.sendBreak Exchange.quietWait
        (repeat' split) <;> simp
    all_goals simp_all
  · simp_all

/-- What a trip does to the line: BREAK is asked for, and the settings, the round and the rounds' running stay. -/
theorem takeTrip_link (c : TripCause) (q : Option Nat) (s : State) :
    (takeTrip c q s).link.settings = s.link.settings ∧ (takeTrip c q s).link.round = s.link.round
      ∧ (takeTrip c q s).link.running = s.link.running
      ∧ (s.link.running = true → (takeTrip c q s).link.brk ≠ .none) := by
  unfold takeTrip
  simp only
  generalize hu : raise .trip _ = u
  have e : u.link = s.link := by rw [← hu]; simp
  rw [← e]
  exact requestBreak_link u

/-- A trip request in a motion state of a lawful machine leaves it tripped by that cause. `u` is the state the request
began in: what differs between the two is named. -/
theorem trippedBy {s u : State} (c : TripCause) (q : Option Nat) (hm : s.inMotion = true) (l : s.sup.Lawful)
    (ht : s.TowersLawful) (hl : s.link = u.link) (ha : s.tracker.lastGood = u.tracker.lastGood)
    (hset : s.tracker.settings = u.tracker.settings) (hd : s.sup.direction = u.sup.direction)
    (hsd : s.sup.startDelay = u.sup.startDelay) (hrd : s.sup.reversalDelay = u.sup.reversalDelay)
    (hp : s.plan.Sublist u.plan) (htune : s.tune = u.tune) (hf : s.free = u.free)
    (hr : ∀ p ≤ 21, q ≠ some p → s.tower p = u.tower p) :
    (tripRequest c q s).TrippedBy u c q := by
  rw [tripRequest_moving c q hm]
  have k := takeTrip_sup c q s hm l
  obtain ⟨a, b, d⟩ := takeTrip_tracker c q s
  obtain ⟨e, f⟩ := takeTrip_isSet c q s
  have kept := takeTrip_kept c q s
  obtain ⟨w1, w2, w3, w4⟩ := takeTrip_link c q s
  refine ⟨by rw [k], by rw [k], by rw [k], by rw [k], by rw [k], by rw [k], by rw [k]; exact hd, ?_, by rw [k]; exact hsd,
    by rw [k]; exact hrd, fun p _ => takeTrip_still c q ht p, fun p hp hq => ?_, a, b, d.trans ha,
    (takeTrip_motion c q s).trans hset, fun h => w4 (hl ▸ h), w1.trans (by rw [hl]), w2.trans (by rw [hl]),
    w3.trans (by rw [hl]), (takeTrip_shrinks c q s).trans hp, kept.tune.trans htune, kept.free.trans hf, e, f⟩
  · rw [k]; simp [State.tripRecord, hl, ha]
  · rw [takeTrip_tower c q ht, hr p hp hq]

end Sys2Proof.Machine
end

