-- ==== Sys2Proof/Laws/Tracker.lean ====
section
/-! SUPPORT. What the tracker's operations keep: the angle fields through every arrival, passage and trip, and what an
arrival can do to the rest of the part. -/

namespace Sys2Proof.Machine

/-! ### The angle fields -/

/-- `t` has the last good angle, the angle used, the held mark, the bad count, the request mark and the settings of `s`. -/
structure SameAngle (s t : State) : Prop where
  lastGood : t.tracker.lastGood = s.tracker.lastGood
  angleUsed : t.tracker.angleUsed = s.tracker.angleUsed
  held : t.tracker.held = s.tracker.held
  badCount : t.tracker.badCount = s.tracker.badCount
  awaiting : t.tracker.awaiting = s.tracker.awaiting
  settings : t.tracker.settings = s.tracker.settings

theorem SameAngle.trans {s t u : State} (h : SameAngle s t) (k : SameAngle t u) : SameAngle s u :=
  ⟨k.lastGood.trans h.lastGood, k.angleUsed.trans h.angleUsed, k.held.trans h.held, k.badCount.trans h.badCount,
    k.awaiting.trans h.awaiting, k.settings.trans h.settings⟩

/-- The same tracker holds the same angle. -/
theorem SameAngle.of_tracker {s t : State} (h : t.tracker = s.tracker) : SameAngle s t := by constructor <;> rw [h]

theorem SameAngle.refl (s : State) : SameAngle s s := SameAngle.of_tracker rfl

theorem removeRecord_angle (k : Nat) (s : State) : SameAngle s (removeRecord k s) := ⟨rfl, rfl, rfl, rfl, rfl, rfl⟩

theorem completeRetirement_angle (s : State) : SameAngle s (completeRetirement s) := by
  unfold completeRetirement
  split
  · exact (removeRecord_angle _ s).trans (SameAngle.of_tracker rfl)
  · exact SameAngle.refl s

theorem enterStanding_angle (s : State) : SameAngle s (enterStanding s) :=
  SameAngle.trans (t := { s with tracker := { s.tracker with escape := none, pace := 0 } })
    ⟨rfl, rfl, rfl, rfl, rfl, rfl⟩ (completeRetirement_angle _)

theorem entryEffects_angle (m : MachineState) (s : State) : SameAngle s (entryEffects m s) := by
  have k : SameAngle s (enterStanding (releaseTowers s)) :=
    SameAngle.trans (t := releaseTowers s) (SameAngle.of_tracker rfl) (enterStanding_angle _)
  cases m
  · exact enterStanding_angle s
  · exact k.trans ⟨rfl, rfl, rfl, rfl, rfl, rfl⟩
  · exact SameAngle.refl s
  · exact SameAngle.refl s
  · exact SameAngle.refl s
  · exact SameAngle.refl s
  · exact SameAngle.refl s
  · exact SameAngle.refl s
  · exact k

theorem changeState_angle (m : MachineState) (s : State) : SameAngle s (changeState m s) := by
  have h : SameAngle s (entryEffects m { s with sup := s.sup.moveTo m }) :=
    SameAngle.trans (t := { s with sup := s.sup.moveTo m }) (SameAngle.of_tracker rfl) (entryEffects_angle m _)
  exact h.trans (SameAngle.of_tracker rfl)

theorem takeTrip_angle (c : TripCause) (p : Option Nat) (s : State) : SameAngle s (takeTrip c p s) :=
  (changeState_angle .tripped s).trans (SameAngle.of_tracker (requestBreak_tracker _))

theorem tripRequest_angle (c : TripCause) (p : Option Nat) (s : State) : SameAngle s (tripRequest c p s) := by
  unfold tripRequest
  split <;> first | exact takeTrip_angle c p s | exact SameAngle.of_tracker rfl

theorem updateView_angle (s : State) : SameAngle s (updateView s) := ⟨rfl, rfl, rfl, rfl, rfl, rfl⟩
theorem findView_angle (c : Option Sector) (s : State) : SameAngle s (findView c s) := ⟨rfl, rfl, rfl, rfl, rfl, rfl⟩
theorem noteCrossing_angle (s : State) : SameAngle s (noteCrossing s) := ⟨rfl, rfl, rfl, rfl, rfl, rfl⟩

theorem refresh_angle (s : State) : SameAngle s (refresh s) := by
  unfold refresh
  simp only
  split
  · exact (noteCrossing_angle s).trans (updateView_angle _)
  · exact updateView_angle s

/-! ### The refresh (R35) -/

/-- The view found from an angle (R35, R38 to R40). -/
theorem viewAt_eq {s : State} {angle : Nat} {r n : Sector} (hc : covering s.plan angle = some r)
    (hn : nextRecord s.plan s.sup.direction r.start = some n) :
    viewAt s angle = some (s.viewToward s.tracker.served angle r n) := by
  unfold viewAt
  simp only [hc, hn, Option.getD_some, Tracker.paceToward, Tracker.isServed, beq_iff_eq]
  rfl

/-- A refresh from the last good angle (R35). -/
theorem refresh_eq {s : State} {angle : Nat} {r n : Sector} (ha : s.tracker.lastGood = some angle)
    (hc : covering s.plan angle = some r) (hn : nextRecord s.plan s.sup.direction r.start = some n) :
    refresh s = s.refreshedTo angle r n := by
  have hr : s.coveringRecord = some r := by unfold State.coveringRecord; rw [ha]; exact hc
  have hv := viewAt_eq hc hn
  have hb : changedRecord s.tracker.activeKey (some r) = s.tracker.view.any fun v => v.activeKey ≠ r.start := by
    unfold Tracker.activeKey
    cases s.tracker.view with
    | none => rfl
    | some v => simp [changedRecord, bne, Bool.beq_eq_decide_eq, eq_comm]
  unfold refresh State.refreshedTo
  rw [hr, hb]
  dsimp only
  by_cases k : (s.tracker.view.any fun v => v.activeKey ≠ r.start) = true
  · rw [if_pos k, if_pos k]
    have hv' : viewAt (noteCrossing s) angle = _ := hv
    unfold updateView
    rw [show (noteCrossing s).tracker.lastGood.bind (viewAt (noteCrossing s)) = _ from (congrArg (Option.bind · (viewAt (noteCrossing s))) ha).trans hv']
    rfl
  · rw [if_neg k, if_neg k]
    unfold updateView
    rw [show s.tracker.lastGood.bind (viewAt s) = _ from (congrArg (Option.bind · (viewAt s)) ha).trans hv]

/-- A refresh without an angle or with an empty table finds nothing (R35). -/
theorem refresh_blank {s : State} (h : s.tracker.lastGood = none ∨ s.plan = []) :
    refresh s = { s with tracker := { s.tracker with view := none } } := by
  have hr : s.coveringRecord = none := by
    unfold State.coveringRecord
    rcases h with h | h <;> rw [h]
    · rfl
    · cases s.tracker.lastGood <;> rfl
  have hv : s.tracker.lastGood.bind (viewAt s) = none := by
    rcases h with h | h
    · rw [h]; rfl
    · cases s.tracker.lastGood with
      | none => rfl
      | some a => simp [viewAt, h, covering]
  unfold refresh
  rw [hr]
  have : ∀ a, changedRecord a none = false := by intro a; cases a <;> rfl
  rw [this]
  simp only [Bool.false_eq_true, if_false, updateView, hv]

/-- A refresh touches the view, the capture-pending mark and the event flags alone. -/
theorem refreshedTo_frame (s : State) (a : Nat) (r n : Sector) : ∃ b e, s.refreshedTo a r n =
    { s with ev := e, tracker := { s.tracker with
      capturePending := b, view := some (s.viewToward s.tracker.served a r n) } } := by
  unfold State.refreshedTo
  dsimp only
  split <;> exact ⟨_, _, rfl⟩

/-! ### Steps of a sample -/

/-- The state a bad sample holds the last good angle in (R33). -/
abbrev State.holdingAt (s : State) (a : Nat) : State :=
  raise .angle { s with tracker := { s.tracker with
    badCount := min Config.badCountTop (s.tracker.badCount + 1), angleUsed := some a, held := true } }

/-- A bad sample with a last good angle (R33, R34). -/
theorem badSample_held {s : State} {a : Nat} (h : s.tracker.lastGood = some a) :
    badSample s = angleLost s.inMotion (arrivalCheckIf (s.sup.machine == .running) (refresh (s.holdingAt a))) := by
  unfold badSample
  dsimp only
  split
  · rename_i k; rw [h] at k; cases k
  · rename_i x k
    obtain rfl : a = x := Option.some.inj (h.symm.trans k)
    rfl

theorem leaveRetiring_angle (c : Option Sector) (s : State) : SameAngle s (leaveRetiring c s) := by
  unfold leaveRetiring
  split
  · split
    · exact SameAngle.refl s
    · exact completeRetirement_angle s
  · exact SameAngle.refl s

theorem leaveEscape_angle (c : Option Sector) (s : State) : SameAngle s (leaveEscape c s) := by
  unfold leaveEscape
  split
  · split
    · exact SameAngle.refl s
    · simp only; split <;> exact ⟨rfl, rfl, rfl, rfl, rfl, rfl⟩
  · exact SameAngle.refl s

theorem clearServed_angle (c : Option Sector) (s : State) : SameAngle s (clearServed c s) := by
  unfold clearServed
  split
  · split <;> exact ⟨rfl, rfl, rfl, rfl, rfl, rfl⟩
  · exact SameAngle.refl s

/-! ### Arrivals -/

/-- What an arrival of a machine leaves: the angle, the trip record, the direction, the delays, the line, the plan and the
roster as they were, a moving machine still moving, and every set flag still set. -/
structure Arrives (s t : State) : Prop where
  angle : SameAngle s t
  trip : t.sup.trip = s.sup.trip
  direction : t.sup.direction = s.sup.direction
  startDelay : t.sup.startDelay = s.sup.startDelay
  reversalDelay : t.sup.reversalDelay = s.sup.reversalDelay
  plan : t.plan = s.plan
  roster : t.roster = s.roster
  link : t.link = s.link
  moving : s.inMotion = true → t.inMotion = true
  flags : ∀ g, s.ev.isSet g = true → t.ev.isSet g = true

theorem Arrives.trans {s t u : State} (h : Arrives s t) (k : Arrives t u) : Arrives s u :=
  ⟨h.angle.trans k.angle, k.trip.trans h.trip, k.direction.trans h.direction, k.startDelay.trans h.startDelay,
    k.reversalDelay.trans h.reversalDelay, k.plan.trans h.plan, k.roster.trans h.roster, k.link.trans h.link,
    fun m => k.moving (h.moving m), fun g m => k.flags g (h.flags g m)⟩

theorem Arrives.refl (s : State) : Arrives s s := ⟨SameAngle.refl s, rfl, rfl, rfl, rfl, rfl, rfl, rfl, id, fun _ => id⟩

theorem raise_arrives (f : EventFlag) (s : State) : Arrives s (raise f s) :=
  ⟨SameAngle.of_tracker rfl, rfl, rfl, rfl, rfl, rfl, rfl, rfl, id, fun g => isSet_raise_mono f g _⟩

theorem changeState_direction (m : MachineState) (s : State) : (changeState m s).sup.direction = s.sup.direction := by
  have k : (s.sup.moveTo m).direction = s.sup.direction := by
    unfold Supervisor.moveTo Supervisor.depart
    cases s.sup.machine <;> simp
    split <;> rfl
  rcases changeState_sup m s with e | e <;> rw [e] <;> exact k

theorem changeState_delays (m : MachineState) (s : State) :
    (changeState m s).sup.startDelay = s.sup.startDelay ∧ (changeState m s).sup.reversalDelay = s.sup.reversalDelay := by
  have k : (s.sup.moveTo m).startDelay = s.sup.startDelay ∧ (s.sup.moveTo m).reversalDelay = s.sup.reversalDelay := by
    unfold Supervisor.moveTo Supervisor.depart
    cases s.sup.machine <;> simp
    split <;> exact ⟨rfl, rfl⟩
  rcases changeState_sup m s with e | e <;> rw [e] <;> exact k

/-- A change to a motion state leaves plan, roster and tracker alone. -/
theorem changeState_motion {m : MachineState} (k : m.isMotion = true) (s : State) :
    changeState m s = raise .machineState { s with sup := s.sup.moveTo m } := by
  cases m <;> first | rfl | cases k

theorem changeState_plan_moving {m : MachineState} (k : m.isMotion = true) (s : State) : (changeState m s).plan = s.plan := by
  rw [changeState_motion k]; rfl

theorem changeState_roster_moving {m : MachineState} (k : m.isMotion = true) (s : State) :
    (changeState m s).roster = s.roster := by
  rw [changeState_motion k]; rfl

theorem changeState_arrives {m : MachineState} (k : m.isMotion = true) (s : State) : Arrives s (changeState m s) :=
  ⟨changeState_angle m s, changeState_trip m s, changeState_direction m s, changeState_delays m s |>.1,
    changeState_delays m s |>.2, changeState_plan_moving k s, changeState_roster_moving k s, changeState_link m s,
    fun _ => by rw [State.inMotion, changeState_machine]; exact k, fun g => changeState_isSet m g s⟩

/-- A change of the hold alone. -/
theorem setHold_arrives (x : Hold) (s : State) : Arrives s { s with sup := { s.sup with hold := x } } :=
  ⟨SameAngle.of_tracker rfl, rfl, rfl, rfl, rfl, rfl, rfl, rfl, id, fun _ => id⟩

theorem dwellExpires_arrives (s : State) : Arrives s (dwellExpires s) := by
  unfold dwellExpires
  split
  · exact changeState_arrives rfl s
  · exact setHold_arrives _ s

theorem startDwell_arrives (n : Nat) (s : State) : Arrives s (startDwell n s) := by
  unfold startDwell
  split
  · exact dwellExpires_arrives s
  · exact setHold_arrives _ s

theorem arriveAtHold_arrives (r : Sector) (s : State) : Arrives s (arriveAtHold r s) :=
  ((changeState_arrives (m := .holding) rfl s).trans
    (setHold_arrives { held := some r.start, dwell := .stopped } _)).trans (startDwell_arrives _ _)

theorem beginReversal_arrives (s : State) : Arrives s (beginReversal s) :=
  (changeState_arrives (m := .reversing) rfl s).trans ⟨SameAngle.of_tracker rfl, rfl, rfl, rfl, rfl, rfl, rfl, rfl, id, fun _ => id⟩

theorem arriveAtBarrier_arrives (r : Sector) (s : State) : Arrives s (arriveAtBarrier r s) := by
  unfold arriveAtBarrier
  split
  · exact changeState_arrives rfl s
  · exact beginReversal_arrives s

theorem markServed_arrives (k a : Nat) (s : State) : Arrives s (markServed k a s) :=
  ⟨⟨rfl, rfl, rfl, rfl, rfl, rfl⟩, rfl, rfl, rfl, rfl, rfl, rfl, rfl, id, fun _ => id⟩

theorem arriveHold_arrives (r : Sector) (a : Nat) (s : State) : Arrives s (arriveHold r a s) :=
  ((markServed_arrives r.start a s).trans (raise_arrives .arrival _)).trans (arriveAtHold_arrives r _)

theorem arrivalCheck_arrives (s : State) : Arrives s (arrivalCheck s) := by
  unfold arrivalCheck
  split
  · exact Arrives.refl s
  · split
    · split
      · exact Arrives.refl s
      · split
        · exact Arrives.refl s
        · split
          · exact Arrives.refl s
          · exact arriveHold_arrives _ _ s
        · exact (raise_arrives .arrival s).trans (arriveAtBarrier_arrives _ _)
    · exact Arrives.refl s

theorem arrivalCheckIf_arrives (b : Bool) (s : State) : Arrives s (arrivalCheckIf b s) := by
  unfold arrivalCheckIf
  split
  · exact arrivalCheck_arrives s
  · exact Arrives.refl s

theorem refresh_arrives (s : State) : Arrives s (refresh s) := by
  refine ⟨refresh_angle s, by simp, by simp, by simp, by simp, refresh_plan s, refresh_roster s, ?_, fun h => by simpa [State.inMotion] using h, fun g h => ?_⟩
  · unfold refresh; simp only [updateView_link]; split <;> rfl
  · unfold refresh
    simp only [updateView_ev]
    split
    · exact isSet_raise_mono _ _ _ h
    · exact h

theorem passedOver_angle (a : Arc) (r : Sector) (b : Bool) (s : State) : SameAngle s (passedOver a r b s).1 := by
  unfold passedOver
  split
  · exact tripRequest_angle _ _ s
  · have k : SameAngle s (match holdMet a r b s with
        | some q => arriveHold q r.start s
        | none => s) := by
      split
      · exact (arriveHold_arrives _ _ s).angle
      · exact SameAngle.refl s
    simp only
    split
    · exact k.trans (tripRequest_angle _ _ _)
    · exact k

theorem passageChecks_angle (b : Bool) (a : Option Arc) (r : Option Sector) (c : Bool) (s : State) :
    SameAngle s (passageChecks b a r c s).1 := by
  unfold passageChecks
  split
  · split
    · exact passedOver_angle _ _ _ s
    · exact SameAngle.refl s
  · exact SameAngle.refl s

/-- A good sample leaves the angle fields as its own first step sets them. -/
theorem goodSample_angle (angle : Nat) (s : State) :
    SameAngle { s with tracker := { s.tracker with lastGood := some angle, angleUsed := some angle, held := false,
                                                   badCount := 0 } } (goodSample angle s) := by
  unfold goodSample
  simp only
  refine SameAngle.trans ?_ (arrivalCheckIf_arrives _ _).angle
  refine SameAngle.trans ?_ (findView_angle _ _)
  refine SameAngle.trans ?_ (passageChecks_angle _ _ _ _ _)
  refine SameAngle.trans ?_ (clearServed_angle _ _)
  refine SameAngle.trans ?_ (leaveEscape_angle _ _)
  split
  · refine SameAngle.trans ?_ (noteCrossing_angle _)
    refine SameAngle.trans ?_ (leaveRetiring_angle _ _)
    exact ⟨rfl, rfl, rfl, rfl, rfl, rfl⟩
  · refine SameAngle.trans ?_ (leaveRetiring_angle _ _)
    exact ⟨rfl, rfl, rfl, rfl, rfl, rfl⟩

end Sys2Proof.Machine
end

