-- ==== Sys2Proof/Laws/Commands.lean ====
section
/-! SUPPORT. What a command that is taken answers, by the shape of its handler, and one lemma for each shared operation the
commands go through: slots of the service table, change flags, a limit reached by a driven tower, START, the round start. -/

namespace Sys2Proof.Machine

/-! ### A command that is taken -/

/-- A command that is taken answers what its handler does. -/
theorem next_carryOut {code : Byte} {p : List Byte} {s : State} (h : Handler) (k : s.takes code p) :
    (Host.Outcome.next (carryOut code h p s) : Host.Outcome State Fault Refusal)
      = .next (((h p s).1).answer code (h p s).2) := by
  rw [carryOut_of_takes h k, finishCommand_eq]

/-- A command whose payload decodes answers what its operands do. -/
theorem next_decoded {α : Type} {code : Byte} {p : List Byte} {s : State} {d : List Byte → Option α}
    {f : α → State → State × Answer} {a : α} (k : s.takes code p) (e : d p = some a) :
    (Host.Outcome.next (carryOut code (decodedHandler d f) p s) : Host.Outcome State Fault Refusal)
      = .next (((f a s).1).answer code (f a s).2) := by
  rw [next_carryOut _ k, decodedHandler_some e f s]

/-- A command without payload answers what it does. -/
theorem next_plain {code : Byte} {s : State} {f : State → State × Answer} (k : s.takes code []) :
    (Host.Outcome.next (carryOut code (plainHandler f) [] s) : Host.Outcome State Fault Refusal)
      = .next (((f s).1).answer code (f s).2) := next_carryOut _ k

/-- A refusing handler leaves the state as it is. -/
theorem refused_leaves (h : Handler) (code : Byte) (e : handlerOf code = some h) (p : List Byte) (s : State) :
    (h p s).2.code ≠ .ok → (h p s).2.code ≠ .deferred → (h p s).1 = s := by
  have R : ∀ {f : State → State × Answer}, (∀ s, (f s).2.code ≠ .ok → (f s).2.code ≠ .deferred → (f s).1 = s) →
     ∀ p s, ((plainHandler f) p s).2.code ≠ .ok → ((plainHandler f) p s).2.code ≠ .deferred → ((plainHandler f) p s).1 = s := by
    intro f k p s
    cases p
    · exact k s
    · intros; rfl
  have D : ∀ {α} {d : List Byte → Option α} {f : α → State → State × Answer}, (∀ a s, (f a s).2.code ≠ .ok → (f a s).2.code ≠ .deferred → (f a s).1 = s) →
     ∀ p s, ((decodedHandler d f) p s).2.code ≠ .ok → ((decodedHandler d f) p s).2.code ≠ .deferred → ((decodedHandler d f) p s).1 = s := by
    intro α d f k p s
    unfold decodedHandler
    split
    · exact k _ s
    · intros; rfl
  have O : ∀ {t s : State} {x : Answer}, x.code = .ok → ((t, x) : State × Answer).2.code ≠ .ok → ((t, x) : State × Answer).2.code ≠ .deferred → t = s := by
    intro t s x e a; exact absurd e a
  refine handlerOf_induct (P := fun h => ∀ p s, (h p s).2.code ≠ .ok → (h p s).2.code ≠ .deferred → (h p s).1 = s)
    (R fun s => by simp [Answer.ok]) (R fun s => by simp [statusAnswer, Answer.okWith]) (R fun s => by simp [Answer.ok])
    (D ?_) (D ?_) (D ?_) (D ?_) (D ?_) (D ?_) (R ?_) (D ?_) (D ?_) (D ?_) (D ?_) (D ?_) (D ?_) (D ?_) (D ?_)
    (R ?_) (R ?_) (D ?_) (R ?_) (R ?_) (R ?_) (R ?_) (D ?_) (R ?_) (R ?_) (D ?_) (R ?_) (D ?_) (D ?_) (D ?_)
    (R ?_) (D ?_) (D ?_) (D ?_) e p s
  · intro a s; unfold sectorPut; (repeat' split) <;> simp [Answer.okWith, Answer.refuse]
  · intro a s; unfold sectorAmend amendRecord acceptAmendment; (repeat' split) <;> simp [Answer.okWith, Answer.refuse]
  · intro a s; unfold sectorRetire retireRecord; (repeat' split) <;> simp [Answer.okWith, Answer.refuse, Answer.deferred]
  · intro a s; unfold sectorGet; simp
  · intro a s; unfold sectorFind; simp
  · intro a s; unfold sectorWalk; simp
  · intro s; unfold sectorClear; (repeat' split) <;> simp [Answer.ok, Answer.refuse]
  · intro a s; unfold motionSetup; (repeat' split) <;> simp [Answer.ok, Answer.refuse]
  · intro a s; unfold towerSet; (repeat' split) <;> simp [Answer.ok, Answer.refuse]
  · intro a s; unfold towerTrim; (repeat' split) <;> simp [Answer.ok, Answer.refuse]
  · intro a s; unfold towerGet; (repeat' split) <;> simp [Answer.okWith, Answer.refuse]
  · intro a s; unfold towerAck; (repeat' split) <;> simp [Answer.ok, Answer.refuse]
  · intro a s; unfold towerReset; (repeat' split) <;> simp [Answer.ok, Answer.refuse]
  · intro a s; unfold linkSetup; (repeat' split) <;> simp [Answer.ok, Answer.refuse]
  · intro a s; unfold alignTune; (repeat' split) <;> simp [Answer.ok, Answer.refuse]
  · intro s; unfold online; (repeat' split) <;> simp [Answer.ok, Answer.refuse]
  · intro s; unfold offline; (repeat' split) <;> simp [Answer.ok, Answer.refuse]
  · intro a s; unfold start startAt; (repeat' split) <;> simp [Answer.ok, Answer.refuse]
  · intro s; unfold stop; (repeat' split) <;> simp [Answer.ok, Answer.refuse]
  · intro s; unfold pause; (repeat' split) <;> simp [Answer.ok, Answer.refuse]
  · intro s; unfold continueRun; (repeat' split) <;> simp [Answer.ok, Answer.refuse]
  · intro s; unfold reverse; (repeat' split) <;> simp [Answer.ok, Answer.refuse]
  · intro a s; unfold jog; (repeat' split) <;> simp [Answer.ok, Answer.refuse]
  · intro s; unfold estop; (repeat' split) <;> simp [Answer.ok]
  · intro s; unfold clearTrip; (repeat' split) <;> simp [Answer.ok, Answer.refuse]
  · intro a s; unfold timingSetup; (repeat' split) <;> simp [Answer.ok, Answer.refuse]
  · intro s; unfold machineGet; simp
  · intro a s; unfold svcSubmit; (repeat' split) <;> simp [Answer.okWith, Answer.refuse]
  · intro a s; unfold svcResult; (repeat' split) <;> simp [Answer.okWith, Answer.refuse]
  · intro a s; unfold svcCancel; (repeat' split) <;> simp [Answer.ok, Answer.refuse, Answer.deferred]
  · intro s; simp [changeEvents, eventAnswer, Answer.okWith]
  · intro a s; simp [changeEvents, eventAnswer, Answer.okWith]
  · intro a s; simp [changeEvents, eventAnswer, Answer.okWith]
  · intro a s; simp [changeEvents, eventAnswer, Answer.okWith]

/-- Every command row carries out the handler of its code. -/
theorem exec_command (i : Instr) (code : Byte) (p : List Byte) (s : State) (e : commandOf i = some (code, p)) :
    ∃ h, handlerOf code = some h ∧ exec i s = .next (carryOut code h p s) := by
  cases i <;> simp only [commandOf, Option.some.injEq, Prod.mk.injEq, reduceCtorEq] at e <;>
    (obtain ⟨rfl, rfl⟩ := e; exact ⟨_, rfl, rfl⟩)

/-! ### Ratios -/

/-- A ramp lies between its two ends. -/
theorem truncRatio_between (a b c : Int) (hb : 0 ≤ b) (hc : b ≤ c) (h0 : 0 < c) :
    min 0 a ≤ truncRatio a b c ∧ truncRatio a b c ≤ max 0 a := by
  unfold truncRatio
  rcases le_total 0 a with ha | ha
  · rw [Int.tdiv_eq_ediv_of_nonneg (by positivity)]
    have h1 : 0 ≤ a * b / c := Int.ediv_nonneg (by positivity) (by omega)
    have h2 : a * b / c ≤ a := Int.ediv_le_of_le_mul h0 (by nlinarith)
    omega
  · have e : (a * b).tdiv c = -(((-a) * b).tdiv c) := by rw [← Int.neg_tdiv]; congr 1; ring
    rw [e, Int.tdiv_eq_ediv_of_nonneg (by nlinarith)]
    have h1 : 0 ≤ (-a) * b / c := Int.ediv_nonneg (by nlinarith) (by omega)
    have h2 : (-a) * b / c ≤ (-a) := Int.ediv_le_of_le_mul h0 (by nlinarith)
    omega

/-! ### Records of the plan -/

/-- The first record of a lawful plan has the least start angle. -/
theorem head_least {p : List Sector} (h : p.Pairwise Sector.apart) {a q : Sector} (ha : p.head? = some a) (hq : q ∈ p) :
    a.start ≤ q.start := by
  cases p with
  | nil => cases hq
  | cons b l =>
    simp at ha; subst ha
    rcases List.mem_cons.1 hq with rfl | hq
    · exact le_refl _
    · have := ((List.pairwise_cons.1 h).1 q hq).1; unfold Config.minWidth at this; omega

/-- Two records of a lawful plan stand apart both ways round. -/
theorem records_apart {p : List Sector} (h : p.Pairwise Sector.apart) {a b : Sector} (ha : a ∈ p) (hb : b ∈ p)
    (hl : a.start < b.start) : a.start + 10 ≤ b.start ∧ b.start + 10 ≤ a.start + 36000 := by
  have : Sector.apart a b ∨ Sector.apart b a ∨ a = b := by
    induction h with
    | nil => cases ha
    | cons hx hp ih =>
      rcases List.mem_cons.1 ha with rfl | ha'
      · rcases List.mem_cons.1 hb with rfl | hb'
        · exact .inr (.inr rfl)
        · exact .inl (hx _ hb')
      · rcases List.mem_cons.1 hb with rfl | hb'
        · exact .inr (.inl (hx _ ha'))
        · exact ih ha' hb'
  unfold Sector.apart Config.minWidth Config.circle at this
  rcases this with q | q | rfl <;> omega

/-! ### Towers -/

/-- A driven tower stands at a position of the roster. -/
theorem position_of_driven {s : State} {p : Nat} (h : (s.tower p).isDriven = true) : 1 ≤ p ∧ p ≤ Config.positions := by
  by_contra k
  rw [tower_outside k] at h; cases h

theorem hasChange_or (t : Tower) (c : ChangeFlag) : ({ t with changes := t.changes ||| c.bit }).hasChange c = true := by
  unfold Tower.hasChange; simp only
  cases c <;> (simp only [ChangeFlag.bit]; generalize t.changes = w; revert w; decide)

theorem changes_of_hasChange (t : Tower) (c : ChangeFlag) (h : t.hasChange c = true) : t.changes ||| c.bit = t.changes := by
  unfold Tower.hasChange at h
  cases c <;> (simp only [ChangeFlag.bit] at *; generalize t.changes = w at *; revert w; decide)

theorem setChange_sets (s : State) (p : Nat) (c : ChangeFlag) (hp : 1 ≤ p ∧ p ≤ Config.positions) :
    ((setChange p c s).tower p).hasChange c = true := by
  rw [tower_setChange]
  by_cases h : (s.tower p).hasChange c = true
  · rw [if_neg (by simp [h])]; exact h
  · rw [if_pos ⟨rfl, hp, by simpa using h⟩]; exact hasChange_or _ _

theorem setChange_record (s : State) (p : Nat) (c : ChangeFlag) :
    (setChange p c s).tower p = { s.tower p with changes := ((setChange p c s).tower p).changes } := by
  rw [tower_setChange]; split <;> rfl

/-- Two changes of one record are one change. -/
theorem modTower_modTower (p : Nat) (f g : Tower → Tower) (s : State) :
    (s.modTower p f).modTower p g = s.modTower p (fun t => g (f t)) := by
  by_cases h : 1 ≤ p ∧ p ≤ Config.positions
  · have : (s.modTower p f).tower p = f (s.tower p) := by rw [tower_modTower, if_pos ⟨rfl, h⟩]
    unfold State.modTower at *
    rw [this]
    unfold State.setTower
    rw [dif_pos h, dif_pos h, dif_pos h]
    simp
  · unfold State.modTower State.setTower; rw [dif_neg h, dif_neg h, dif_neg h]

/-- A driven tower that leaves the driven states with a change flag trips the machine with the cause and its position. -/
theorem limit_trips {s : State} (p : Nat) (g : Tower → Tower) (c : ChangeFlag) (cause : TripCause)
    (ht : s.TowersLawful) (hs : s.sup.Lawful) (hd : (s.tower p).isDriven = true)
    (hg : (g (s.tower p)).isDriven = false) (hz : (g (s.tower p)).target = 0 ∧ (g (s.tower p)).applied = 0) :
    let t := tripIfMoving cause p (setChange p c (s.modTower p g))
    t.TrippedBy s cause (some p) ∧ (t.tower p).state = (g (s.tower p)).state ∧ (t.tower p).miss = (g (s.tower p)).miss ∧
      (t.tower p).reason = (g (s.tower p)).reason ∧ (t.tower p).target = 0 ∧ (t.tower p).hasChange c = true := by
  intro t
  have hp := position_of_driven hd
  have hm : s.inMotion = true := (ht.all p).1 hd
  have hm' : (setChange p c (s.modTower p g)).inMotion = true := by simpa using hm
  have lt : (setChange p c (s.modTower p g)).TowersLawful :=
    setChange_towers _ _ (modTower_towers ht fun _ => Tower.lawful_of_still hg hz)
  have et : t = takeTrip cause (some p) (setChange p c (s.modTower p g)) := by
    show tripIfMoving _ _ _ = _
    unfold tripIfMoving; rw [if_pos hm', tripRequest_moving _ _ hm']
  have e1 : (s.modTower p g).tower p = g (s.tower p) := by rw [tower_modTower, if_pos ⟨rfl, hp⟩]
  have e2 := setChange_record (s.modTower p g) p c
  rw [e1] at e2
  have dv : ((setChange p c (s.modTower p g)).tower p).isDriven = false := by rw [e2]; exact hg
  have e3 := takeTrip_undriven cause (some p) hp dv
  rw [← et] at e3
  have et' : t = tripRequest cause (some p) (setChange p c (s.modTower p g)) := by rw [et, tripRequest_moving _ _ hm']
  refine ⟨?_, ?_, ?_, ?_, ?_, ?_⟩
  · rw [et']
    refine trippedBy _ _ hm' (by simpa using hs) lt (by simp) (by simp) (by simp) (by simp) (by simp) (by simp) (by simp)
      (by simp) (by simp) fun q _ hq => ?_
    have hq : q ≠ p := fun e => hq (by rw [e])
    rw [tower_setChange, if_neg (by simp [hq]), tower_modTower, if_neg (by simp [hq])]
  · rw [e3]; simp only; rw [e2]
  · rw [e3]; simp only; rw [e2]
  · rw [e3]; simp only; rw [e2]
  · rw [e3]; simp only; rw [e2]; exact hz.1
  · have := setChange_sets (s.modTower p g) p c hp
    rw [e3]; exact this

/-- A tower of a moving machine that leaves its state with a change flag trips the machine with the cause and its position.
`u` is `s` but for what the reply itself has written into that tower's record. -/
theorem leaves_trips {s u : State} {p : Nat} (hp : 1 ≤ p ∧ p ≤ Config.positions) (es : u.sup = s.sup) (el : u.link = s.link)
    (et : u.tracker = s.tracker) (ep : u.plan = s.plan) (eu : u.tune = s.tune) (ef : u.free = s.free)
    (hu : ∀ q, q ≠ p → u.tower q = s.tower q) (htu : u.TowersLawful) (hs : s.sup.Lawful) (hm : s.inMotion = true)
    (g : Tower → Tower) (c : ChangeFlag) (cause : TripCause) (hg : (g (u.tower p)).isDriven = false)
    (hz : (g (u.tower p)).target = 0 ∧ (g (u.tower p)).applied = 0) :
    let t := tripIfMoving cause p (setChange p c (u.modTower p g))
    t.TrippedBy s cause (some p) ∧ (t.tower p).state = (g (u.tower p)).state ∧ (t.tower p).reason = (g (u.tower p)).reason
      ∧ (t.tower p).stage = (g (u.tower p)).stage := by
  intro t
  have hmu : u.inMotion = true := by unfold State.inMotion at *; rw [es]; exact hm
  have hm' : (setChange p c (u.modTower p g)).inMotion = true := by simpa using hmu
  have lt : (setChange p c (u.modTower p g)).TowersLawful :=
    setChange_towers _ _ (modTower_towers htu fun _ => Tower.lawful_of_still hg hz)
  have et0 : t = tripRequest cause (some p) (setChange p c (u.modTower p g)) := by
    show tripIfMoving _ _ _ = _
    unfold tripIfMoving; rw [if_pos hm']
  have e1 : (u.modTower p g).tower p = g (u.tower p) := by rw [tower_modTower, if_pos ⟨rfl, hp⟩]
  have e2 := setChange_record (u.modTower p g) p c
  rw [e1] at e2
  have dv : ((setChange p c (u.modTower p g)).tower p).isDriven = false := by rw [e2]; exact hg
  have e3 := takeTrip_undriven cause (some p) hp dv
  rw [← tripRequest_moving _ _ hm', ← et0] at e3
  refine ⟨?_, ?_, ?_, ?_⟩
  · rw [et0]
    refine trippedBy _ _ hm' (by simpa [es] using hs) lt (by simp [el]) (by simp [et]) (by simp [et]) (by simp [es])
      (by simp [es]) (by simp [es]) (by simp [ep]) (by simp [eu]) (by simp [ef]) fun q _ hq => ?_
    have hq : q ≠ p := fun e => hq (by rw [e])
    rw [tower_setChange, if_neg (by simp [hq]), tower_modTower, if_neg (by simp [hq]), hu q hq]
  all_goals (rw [e3]; simp only; rw [e2])
/-- A record changed with a change flag, as `TowerBecomes` says it. -/
theorem setChange_becomes {s u : State} {p : Nat} (hp : 1 ≤ p ∧ p ≤ Config.positions) (es : u.sup = s.sup)
    (el : u.link = s.link) (et : u.tracker = s.tracker) (ep : u.plan = s.plan) (eu : u.tune = s.tune) (ev : u.svc = s.svc)
    (eo : u.port = s.port) (ef : u.free = s.free) (hu : ∀ q, q ≠ p → u.tower q = s.tower q) (g : Tower → Tower)
    (c : ChangeFlag) {w : Tower} (hw : w = { g (u.tower p) with changes := (g (u.tower p)).changes ||| c.bit }) :
    (setChange p c (u.modTower p g)).TowerBecomes s p w := by
  have e1 : (u.modTower p g).tower p = g (u.tower p) := by rw [tower_modTower, if_pos ⟨rfl, hp⟩]
  refine ⟨?_, ?_, by simp [es], by simp [el], by simp [et], by simp [ep], by simp [eu], by simp [ev], by simp [eo],
    by simp [ef]⟩
  · rw [tower_setChange, e1, hw]
    split
    · rfl
    · rename_i h
      have : (g (u.tower p)).hasChange c = true := by
        by_contra k; exact h ⟨rfl, hp, by simpa using k⟩
      rw [changes_of_hasChange _ _ this]
  · intro q hq
    rw [tower_setChange, if_neg (by simp [hq]), tower_modTower, if_neg (by simp [hq]), hu q hq]

/-! ### Standing states -/

/-- The towers after a machine that was moving or not has gone to STANDBY. -/
theorem toStandby_tower (s : State) (p : Nat) :
    (changeState .standby s).tower p = if (s.tower p).isDriven then (s.tower p).leaveTo .online else s.tower p := by
  have : (changeState .standby s).roster = (releaseTowers s).roster := by
    simp [changeState, entryEffects, enterStanding_roster]; rfl
  rw [tower_congr this]; unfold releaseTowers; rw [tower_mapTowers]
  split
  · rfl
  · rename_i q; rw [tower_outside q]; rfl

/-- Entry to STANDBY leaves the plan but for a RETIRING record, the angle and the tables as they were. -/
theorem toStandby_frame (s : State) :
    (retiringRecord s.plan = none → (changeState .standby s).plan = s.plan)
      ∧ (changeState .standby s).tracker.escape = none ∧ (changeState .standby s).tracker.served = none
      ∧ (changeState .standby s).svc = s.svc := by
  unfold changeState entryEffects enterStanding completeRetirement
  simp only
  refine ⟨fun h => ?_, ?_, ?_, ?_⟩
  · have : retiringRecord (releaseTowers { s with sup := s.sup.moveTo .standby }).plan = none := h
    rw [this]; rfl
  all_goals split <;> rfl

/-! ### Slots -/

theorem slot_outside {v : Service} {n : Nat} (h : ¬(1 ≤ n ∧ n ≤ 8)) : v.slot n = none := dif_neg h

theorem slot_range {v : Service} {n : Nat} {r : Request} (h : v.slot n = some r) : 1 ≤ n ∧ n ≤ 8 := by
  by_contra k; rw [slot_outside k] at h; cases h

@[simp] theorem setSlot_order (v : Service) (n : Nat) (r : Option Request) : (v.setSlot n r).order = v.order := by
  unfold Service.setSlot; split <;> rfl

@[simp] theorem setSlot_counter (v : Service) (n : Nat) (r : Option Request) : (v.setSlot n r).counter = v.counter := by
  unfold Service.setSlot; split <;> rfl

theorem slot_setSlot (v : Service) (n m : Nat) (r : Option Request) :
    (v.setSlot n r).slot m = if m = n ∧ 1 ≤ n ∧ n ≤ 8 then r else v.slot m := by
  unfold Service.setSlot Service.slot
  by_cases h : 1 ≤ n ∧ n ≤ Config.slots
  · rw [dif_pos h]
    by_cases k : 1 ≤ m ∧ m ≤ Config.slots
    · rw [dif_pos k, dif_pos k]
      by_cases e : m = n
      · subst e; simp [show (1 ≤ m ∧ m ≤ 8) from h]
      · rw [if_neg (by simp [e]), Vector.getElem_set_ne _ _ (by omega)]
    · rw [dif_neg k, dif_neg k, if_neg]; rintro ⟨rfl, q⟩; exact k q
  · rw [dif_neg h]; rw [if_neg]; rintro ⟨_, q⟩; exact h q

/-! ### The round start -/

theorem slot_ageRequests (s : State) (n : Nat) :
    (ageRequests s).svc.slot n = (s.svc.slot n).map (Request.aged s.link.settings.ageLimit) := by
  have : (ageRequests s).svc.slot n = Service.slot { s.svc with
      slots := s.svc.slots.mapIdx fun _ r => r.map (Request.aged s.link.settings.ageLimit)
      order := (ageRequests s).svc.order } n := by
    unfold ageRequests; simp only; split <;> rfl
  rw [this]; unfold Service.slot; split
  · simp
  · rfl

@[simp] theorem ageRequests_line (s : State) : (ageRequests s).link = s.link := by
  unfold ageRequests; simp only; split <;> rfl
@[simp] theorem ageRequests_track (s : State) : (ageRequests s).tracker = s.tracker := by
  unfold ageRequests; simp only; split <;> rfl
theorem ageRequests_order (s : State) :
    (ageRequests s).svc.order = s.svc.order.filter (fun n => !slotOutlives s n)
      ∧ (ageRequests s).svc.counter = s.svc.counter := by
  unfold ageRequests; simp only; split <;> exact ⟨rfl, rfl⟩
theorem ageRequests_ev (s : State) :
    (ageRequests s).ev
      = if (List.range' 1 Config.slots).any (slotOutlives s) then s.ev.raise .serviceDone else s.ev := by
  unfold ageRequests; simp only; split <;> rfl

theorem startRound_link (s : State) : (startRound s).link = s.link.startRound := by
  unfold startRound; rw [ageRequests_line]; rfl

theorem startRound_tower (s : State) (p : Nat) :
    (startRound s).tower p
      = if 1 ≤ p ∧ p ≤ Config.positions then
          (if s.isConfigured p then { s.tower p with fresh := false } else s.tower p)
        else vacantTower := by
  unfold startRound
  rw [tower_congr (ageRequests_roster _)]
  unfold staleReadings; rw [tower_mapTowers]; rfl

theorem startRound_slot (s : State) (n : Nat) :
    (startRound s).svc.slot n = (s.svc.slot n).map (Request.aged s.link.settings.ageLimit) := by
  unfold startRound; rw [slot_ageRequests]; rfl

/-! ### Polls -/

theorem skipped_polls (l : List Nat) (s : State) : l.foldl (fun s q => pollOutcome q .skipped s) s = s := by
  induction l with
  | nil => rfl
  | cons a l ih => exact ih

/-- A miss that does not bring an ONLINE, DRIVING or FOLLOWING tower to the limit (R67). -/
theorem pollMissed_below {u : State} {p : Nat} (h : missReaches u p = false)
    (k : (u.tower p).state ∈ [TowerState.silent, .online, .driving, .following]) :
    pollMissed p u = u.modTower p fun t =>
      { t with miss := min u.link.settings.missLimit (t.miss + 1)
               state := if t.state = .driving then .following else t.state } := by
  unfold pollMissed
  rw [if_neg (by simp [h])]
  simp only [List.mem_cons, List.not_mem_nil, or_false] at k
  rcases k with k | k | k | k <;> rw [k]

/-! ### START -/

theorem faceStart_roster (d : Direction) (e : Option Nat) (s : State) : (faceStart d e s).roster = s.roster := by
  have k : (if d = s.sup.direction then s else changeDirection d s).roster = s.roster := by
    split
    · rfl
    · exact refresh_roster _
  unfold faceStart; simp only; split <;> exact k

theorem faceStart_sup (d : Direction) (e : Option Nat) (s : State) :
    (faceStart d e s).sup = { s.sup with direction := d } := by
  have k : (if d = s.sup.direction then s else changeDirection d s).sup = { s.sup with direction := d } := by
    split
    · rename_i h; subst h; rfl
    · unfold changeDirection; simp
  unfold faceStart; simp only; split <;> exact k

theorem faceStart_link (d : Direction) (e : Option Nat) (s : State) : (faceStart d e s).link = s.link := by
  have k : (if d = s.sup.direction then s else changeDirection d s).link = s.link := by
    split
    · rfl
    · exact (refresh_arrives _).link
  unfold faceStart; simp only; split <;> exact k

theorem refresh_motion (s : State) : (refresh s).tracker.escape = s.tracker.escape ∧ (refresh s).svc = s.svc := by
  unfold refresh; simp only; split <;> exact ⟨rfl, rfl⟩

theorem faceStart_tracker (d : Direction) (e : Option Nat) (s : State) :
    (faceStart d e s).tracker.escape = (match e with | some b => some b | none => s.tracker.escape)
      ∧ (faceStart d e s).tracker.lastGood = s.tracker.lastGood
      ∧ (faceStart d e s).tracker.settings = s.tracker.settings ∧ (faceStart d e s).svc = s.svc := by
  have k : (if d = s.sup.direction then s else changeDirection d s).tracker.escape = s.tracker.escape
      ∧ (if d = s.sup.direction then s else changeDirection d s).tracker.lastGood = s.tracker.lastGood
      ∧ (if d = s.sup.direction then s else changeDirection d s).tracker.settings = s.tracker.settings
      ∧ (if d = s.sup.direction then s else changeDirection d s).svc = s.svc := by
    split
    · exact ⟨rfl, rfl, rfl, rfl⟩
    · exact ⟨(refresh_motion _).1, (refresh_angle _).lastGood, (refresh_angle _).settings, (refresh_motion _).2⟩
  unfold faceStart; simp only
  cases e
  · exact k
  · exact ⟨rfl, k.2⟩

/-- Everything an accepted START does from STANDBY (R133). -/
theorem acceptStart_spec (d : Direction) (e : Option Nat) (s : State) (hm : s.sup.machine = .standby) :
    let t := acceptStart d e s
    t.sup.permit = true ∧ t.sup.direction = d ∧ t.sup.machine = (if s.sup.startDelay = 0 then .running else .starting)
      ∧ (s.sup.startDelay ≠ 0 → t.sup.startTimer = some (10 * s.sup.startDelay))
      ∧ t.roster = (driveOnline s).roster ∧ t.tracker = (faceStart d e s).tracker ∧ t.plan = s.plan ∧ t.link = s.link
      ∧ t.tune = s.tune ∧ t.svc = s.svc ∧ t.free = s.free ∧ t.ev.isSet .machineState = true := by
  intro t
  obtain ⟨u, hu⟩ : ∃ u, u = faceStart d e s := ⟨_, rfl⟩
  have hs := faceStart_sup d e s
  have hl := faceStart_link d e s
  have hr := faceStart_roster d e s
  have hp := faceStart_plan d e s
  have hv := (faceStart_tracker d e s).2.2.2
  have ht : (faceStart d e s).tune = s.tune := by simp
  have hf : (faceStart d e s).free = s.free := by simp
  rw [← hu] at hs hl hr hp hv ht hf ⊢
  have et : t = startTimerStarts (driveOnline (raise .machineState { u with sup := u.sup.moveTo .starting })) := by
    show acceptStart d e s = _
    unfold acceptStart; rw [changeState_motion rfl, ← hu]
  have mv : u.sup.moveTo .starting = { s.sup with direction := d, machine := .starting, permit := true } := by
    rw [hs]; simp [Supervisor.moveTo, Supervisor.depart, hm, permitAfter, MachineState.isMotion]
  have er : (driveOnline (raise .machineState { u with sup := u.sup.moveTo .starting })).roster
      = (driveOnline s).roster := by
    unfold driveOnline State.mapTowers; simp only [raise_roster]; rw [hr]
  have k : (driveOnline (raise .machineState { u with sup := u.sup.moveTo .starting })).sup
      = { s.sup with direction := d, machine := .starting, permit := true } := mv
  rw [et]
  unfold startTimerStarts
  by_cases h : s.sup.startDelay = 0
  · rw [if_pos (by rw [k]; exact h), changeState_motion rfl, k]
    refine ⟨?_, ?_, ?_, fun q => absurd h q, er, rfl, hp, hl, ht, hv, hf, isSet_raise_self _ _⟩
    · simp [Supervisor.moveTo, Supervisor.depart, permitAfter, MachineState.isMotion]
    · simp [Supervisor.moveTo, Supervisor.depart, permitAfter, MachineState.isMotion]
    · simp [h]
  · rw [if_neg (by rw [k]; exact h), k]
    exact ⟨rfl, rfl, by simp [h], fun _ => rfl, er, rfl, hp, hl, ht, hv, hf, isSet_raise_self _ _⟩

/-- The flags after an accepted START: those of the turn, and MACHINE_STATE, once or twice. -/
theorem acceptStart_ev (d : Direction) (e : Option Nat) (s : State) :
    (acceptStart d e s).ev = (faceStart d e s).ev.raise .machineState := by
  unfold acceptStart startTimerStarts
  split
  · rw [changeState_motion (m := .running) rfl, changeState_motion (m := .starting) rfl]
    exact raise_raise _ _
  · rw [changeState_motion (m := .starting) rfl]; rfl

theorem firstNotOnline_none {s : State} :
    firstNotOnline s = none ↔ ∀ p ∈ s.link.settings.positions, (s.tower p).state = .online := by
  unfold firstNotOnline; rw [List.find?_eq_none]; simp

end Sys2Proof.Machine
end

