-- ==== Sys2Proof/Laws/Line.lean ====
section
/-! SUPPORT. The line: the exchange at a step, the end of an exchange, skipped polls, the bits of a request on SPAN_TX, how time
passes in parts and in one, and a moment the line comes to. -/

namespace Sys2Proof.Machine

/-! ### The exchange at a step -/

theorem exchangeAt_of {l : Link} {x : Exchange} {st : ExStep} (h : l.exchange = some x) (k : x.step = st) :
    l.exchangeAt st = some x := by
  unfold Link.exchangeAt
  rw [h]
  simp [Option.filter, k]

theorem exchangeAt_eq_none {l : Link} {st : ExStep} (h : ∀ y, l.exchange = some y → y.step ≠ st) : l.exchangeAt st = none := by
  unfold Link.exchangeAt
  cases e : l.exchange with
  | none => rfl
  | some y => simp [Option.filter, h y e]

/-! ### The end of an exchange -/

theorem skipPolls_eq (p : Nat) (s : State) :
    skipPolls p s = pollComplete { raise .roundShort s with link := { s.link with nextPos := none } } := by
  unfold skipPolls
  rw [skipped_polls]
  rfl

/-- An exchange ends: its outcome is delivered, and with the last poll the poll phase completes (R88, R94). -/
theorem endExchange_eq (x : Exchange) (o : LineOutcome) (s : State) :
    let u := deliver x o { s with link := { s.link with exchange := none } }
    endExchange x o s = if u.link.running = true ∧ u.link.phase = .poll ∧ u.link.nextPos = none then pollComplete u else u := by
  intro u
  unfold endExchange
  simp only [Link.pollsBegun, Bool.and_eq_true, beq_iff_eq, Option.isNone_iff_eq_none, and_assoc]
  rfl

/-- An exchange that is not the last poll's ends by its outcome alone. -/
theorem endExchange_delivers {x : Exchange} {o : LineOutcome} {s t : State}
    (h : deliver x o { s with link := { s.link with exchange := none } } = t) (k : t.link.phase ≠ .poll ∨ t.link.nextPos ≠ none) :
    endExchange x o s = t := by
  unfold endExchange
  simp only [h]
  rw [if_neg (by rcases k with k | k <;> simp [Link.pollsBegun, k])]

theorem settlePoll_id {s : State} (k : s.link.phase ≠ .poll ∨ s.link.nextPos ≠ none) : settlePoll s = s := by
  unfold settlePoll
  rw [if_neg]
  rintro ⟨-, a, b, -⟩
  rcases k with k | k
  · exact k a
  · exact k b

/-- What a failed SERVICE exchange makes of its SENT slot (R158). -/
theorem serviceOutcome_failed {n : Nat} {o : LineOutcome} {c : ResultCode} {s : State} {r : Request}
    (h : s.svc.slot n = some r) (k : r.state = .sent) (e : serviceEnd o = (.failed, c, none)) :
    serviceOutcome n o s
      = raise .serviceDone { s with svc := s.svc.setSlot n (some { r with state := .failed, code := c, result := none }) } := by
  unfold serviceOutcome
  simp only [h, k, e]

/-- A CANCELLING slot is freed at the end of its exchange, whatever the outcome (R163). -/
theorem serviceOutcome_cancelling {n : Nat} {s : State} {r : Request} (o : LineOutcome) (h : s.svc.slot n = some r)
    (k : r.state = .cancelling) : serviceOutcome n o s = { s with svc := s.svc.setSlot n none } := by
  unfold serviceOutcome
  simp only [h, k]

/-- A request for BREAK with an exchange on the line (R96): the exchange leaves the line with the outcome ABANDONED, and BREAK
follows, after a quiet line if its reply was arriving. -/
theorem requestBreak_exchange {x : Exchange} {s : State} (a : s.link.running = true) (b : s.link.brk = .none)
    (c : s.link.exchange = some x) :
    requestBreak s = deliverAbandoned x { s with link := { s.link with
      exchange := none
      brk := if x.step = .receiving then
          .waiting (x.owner.reserve - x.used) (x.replyAt + x.owner.replyLength - x.used + 2)
        else if 4 ≤ s.link.remaining then .sending 0 else .pending } } := by
  unfold requestBreak
  rw [if_pos a, b]
  simp only [c]
  congr 2
  unfold Link.cutShort Link.breakOnFree Exchange.quietWait Link.sendBreak
  simp only [Config.breakReserve, Config.quietTime, a, Bool.not_true, Bool.false_or]
  cases x.step <;> by_cases h : 4 ≤ s.link.remaining <;> simp [h]

/-! ### SPAN_TX (R79) -/

theorem characterBits_length (b : Byte) : (characterBits b).length = 10 := by simp [characterBits]

theorem flatMap_characterBits : ∀ (l : List Byte) (k bit : Nat) (b : Byte), l[k]? = some b → bit < 10 →
    (l.flatMap characterBits)[10 * k + bit]? = (characterBits b)[bit]?
  | [], _, _, _, h, _ => by simp at h
  | a :: l, 0, bit, b, h, lt => by
    simp only [List.getElem?_cons_zero, Option.some.injEq] at h
    subst h
    rw [List.flatMap_cons, List.getElem?_append_left (by rw [characterBits_length]; omega)]
    simp
  | a :: l, k + 1, bit, b, h, lt => by
    rw [List.getElem?_cons_succ] at h
    rw [List.flatMap_cons, List.getElem?_append_right (by rw [characterBits_length]; omega), characterBits_length,
      ← flatMap_characterBits l k bit b h lt]
    congr 1
    omega

/-- The bit of a request in a bit time of the present character time. -/
theorem requestBits_now (x : Exchange) (bit : Nat) (b : Byte) (h : x.request[x.used]? = some b) (lt : bit < 10) :
    x.requestBits.getD (10 * x.used + bit) true = (characterBits b)[bit]! := by
  unfold Exchange.requestBits
  rw [List.getD_eq_getElem?_getD, flatMap_characterBits _ _ _ _ h lt]
  have k : bit < (characterBits b).length := by rw [characterBits_length]; exact lt
  simp [List.getElem?_eq_getElem k, getElem!_pos (characterBits b) bit k]

/-! ### The place in the round: what only the controller itself changes -/

/-- The place in the round: whether rounds run, the round number, the round remaining, the phase, the next poll's position and the
positions offered a RESET. -/
def Link.place (l : Link) : Bool × Nat × Nat × Phase × Option Nat × List Nat :=
  (l.running, l.round, l.remaining, l.phase, l.nextPos, l.offered)

@[simp] theorem sendBreak_place (l : Link) : l.sendBreak.place = l.place := rfl

@[simp] theorem breakOnFree_place (l : Link) : l.breakOnFree.place = l.place := by
  unfold Link.breakOnFree
  split <;> rfl

@[simp] theorem cutShort_place (l : Link) (x : Exchange) : (l.cutShort x).place = l.place := by
  unfold Link.cutShort
  split
  · exact breakOnFree_place _
  · exact breakOnFree_place _
  · rfl

@[simp] theorem serviceOutcome_link (n : Nat) (o : LineOutcome) (s : State) : (serviceOutcome n o s).link = s.link := by
  unfold serviceOutcome
  (repeat' split) <;> rfl

@[simp] theorem deliverAbandoned_place (x : Exchange) (s : State) : (deliverAbandoned x s).link.place = s.link.place := by
  unfold deliverAbandoned
  (repeat' split) <;> first | rfl | simp

@[simp] theorem requestBreak_place (s : State) : (requestBreak s).link.place = s.link.place := by
  unfold requestBreak
  (repeat' split) <;> first | rfl | simp

@[simp] theorem takeTrip_place (c : TripCause) (p : Option Nat) (s : State) : (takeTrip c p s).link.place = s.link.place := by
  unfold takeTrip
  first | rfl | simp

@[simp] theorem tripRequest_place (c : TripCause) (p : Option Nat) (s : State) : (tripRequest c p s).link.place = s.link.place := by
  unfold tripRequest
  (repeat' split) <;> first | rfl | simp

@[simp] theorem noteCrossing_link (s : State) : (noteCrossing s).link = s.link := rfl

@[simp] theorem dwellExpires_link (s : State) : (dwellExpires s).link = s.link := by
  unfold dwellExpires
  split <;> simp

@[simp] theorem startDwell_link (n : Nat) (s : State) : (startDwell n s).link = s.link := by
  unfold startDwell
  split <;> simp

@[simp] theorem arriveAtHold_link (r : Sector) (s : State) : (arriveAtHold r s).link = s.link := by
  unfold arriveAtHold
  simp

@[simp] theorem arriveAtBarrier_link (r : Sector) (s : State) : (arriveAtBarrier r s).link = s.link := by
  unfold arriveAtBarrier beginReversal
  split <;> simp

@[simp] theorem refresh_place (s : State) : (refresh s).link.place = s.link.place := by
  unfold refresh
  simp only [updateView_link]
  split <;> rfl

@[simp] theorem arriveHold_place (r : Sector) (a : Nat) (s : State) : (arriveHold r a s).link.place = s.link.place := by
  unfold arriveHold
  first | rfl | simp

@[simp] theorem arrivalCheck_place (s : State) : (arrivalCheck s).link.place = s.link.place := by
  unfold arrivalCheck
  (repeat' split) <;> first | rfl | simp

@[simp] theorem arrivalCheckIf_place (b : Bool) (s : State) : (arrivalCheckIf b s).link.place = s.link.place := by
  unfold arrivalCheckIf
  (repeat' split) <;> first | rfl | simp

@[simp] theorem giveUpAngle_place (s : State) : (giveUpAngle s).link.place = s.link.place := by
  unfold giveUpAngle
  rfl

@[simp] theorem angleLost_place (b : Bool) (s : State) : (angleLost b s).link.place = s.link.place := by
  unfold angleLost
  (repeat' split) <;> first | rfl | simp

@[simp] theorem badSample_place (s : State) : (badSample s).link.place = s.link.place := by
  unfold badSample
  simp only
  (repeat' split) <;> first | rfl | simp

@[simp] theorem missingSample_place (s : State) : (missingSample s).link.place = s.link.place := by
  unfold missingSample
  (repeat' split) <;> first | rfl | simp

@[simp] theorem trackerCompletes_place (s : State) : (trackerCompletes s).link.place = s.link.place := by
  unfold trackerCompletes
  first | rfl | simp

@[simp] theorem captureSwing_place (s : State) : (captureSwing s).link.place = s.link.place := by
  unfold captureSwing
  simp only
  (repeat' split) <;> rfl

@[simp] theorem handOver_place (s : State) : (handOver s).link.place = s.link.place := by
  unfold handOver
  first | rfl | simp

@[simp] theorem rosterCompletes_place (s : State) : (rosterCompletes s).link.place = s.link.place := by
  unfold rosterCompletes
  rfl

@[simp] theorem tripIfMoving_place (c : TripCause) (p : Nat) (s : State) : (tripIfMoving c p s).link.place = s.link.place := by
  unfold tripIfMoving
  (repeat' split) <;> first | rfl | simp

@[simp] theorem enterFaulted_place (p : Nat) (r : FaultReason) (s : State) : (enterFaulted p r s).link.place = s.link.place := by
  unfold enterFaulted
  first | rfl | simp

@[simp] theorem enterUnrequested_place (p : Nat) (s : State) : (enterUnrequested p s).link.place = s.link.place := by
  unfold enterUnrequested
  first | rfl | simp

@[simp] theorem missLimit_place (p : Nat) (s : State) : (missLimit p s).link.place = s.link.place := by
  unfold missLimit
  first | rfl | simp

@[simp] theorem followLimit_place (p : Nat) (s : State) : (followLimit p s).link.place = s.link.place := by
  unfold followLimit
  first | rfl | simp

@[simp] theorem stallLimit_place (p : Nat) (s : State) : (stallLimit p s).link.place = s.link.place := by
  unfold stallLimit
  first | rfl | simp

@[simp] theorem pollMissed_place (p : Nat) (s : State) : (pollMissed p s).link.place = s.link.place := by
  unfold pollMissed
  (repeat' split) <;> first | rfl | simp

@[simp] theorem judgeUndriven_place (p : Nat) (b : BitVec 5) (s : State) : (judgeUndriven p b s).link.place = s.link.place := by
  unfold judgeUndriven
  (repeat' split) <;> first | rfl | simp

@[simp] theorem judgeDriven_place (p : Nat) (t : Tower) (b : BitVec 5) (n : Nat) (s : State) : (judgeDriven p t b n s).link.place = s.link.place := by
  unfold judgeDriven
  simp only
  (repeat' split) <;> first | rfl | simp

@[simp] theorem judgeResetting_place (p : Nat) (g : ResetStage) (b : BitVec 5) (s : State) : (judgeResetting p g b s).link.place = s.link.place := by
  unfold judgeResetting
  (repeat' split) <;> first | rfl | simp

@[simp] theorem pollGood_place (p : Nat) (r : Reading) (s : State) : (pollGood p r s).link.place = s.link.place := by
  unfold pollGood
  simp only
  (repeat' split) <;> first | rfl | simp

@[simp] theorem pollOutcome_place (p : Nat) (o : LineOutcome) (s : State) : (pollOutcome p o s).link.place = s.link.place := by
  unfold pollOutcome
  (repeat' split) <;> first | rfl | simp

@[simp] theorem resetOutcome_place (p : Nat) (o : LineOutcome) (s : State) : (resetOutcome p o s).link.place = s.link.place := by
  unfold resetOutcome
  (repeat' split) <;> first | rfl | simp

@[simp] theorem warnCheck_place (n p : Nat) (s : State) : (warnCheck n p s).link.place = s.link.place := by
  unfold warnCheck
  (repeat' split) <;> first | rfl | simp

@[simp] theorem warnChecks_place (s : State) : (warnChecks s).link.place = s.link.place := by
  unfold warnChecks
  have h : ∀ (l : List Nat) (n : Nat) (u : State), (l.foldl (fun s' p => warnCheck n p s') u).link.place = u.link.place := by
    intro l n
    induction l with
    | nil => exact fun _ => rfl
    | cons a l ih => exact fun u => (ih _).trans (warnCheck_place n a u)
  exact h _ _ s

@[simp] theorem writeTowers_place (w : Option Nat) (s : State) : (writeTowers w s).link.place = s.link.place := by
  unfold writeTowers
  rfl

@[simp] theorem takeJogMet_place (s : State) : (takeJogMet s).link.place = s.link.place := by
  unfold takeJogMet
  (repeat' split) <;> rfl

@[simp] theorem countJogRound_place (j : Jog) (s : State) : (countJogRound j s).link.place = s.link.place := by
  unfold countJogRound
  (repeat' split) <;> rfl

@[simp] theorem takeRest_place (b : Bool) (s : State) : (takeRest b s).link.place = s.link.place := by
  unfold takeRest
  (repeat' split) <;> first | rfl | simp

@[simp] theorem makeReports_place (m : Option Nat) (w j r : Bool) (s : State) : (makeReports m w j r s).link.place = s.link.place := by
  unfold makeReports
  simp only
  (repeat' split) <;> first | rfl | simp

@[simp] theorem refreshSnapshot_place (n : Nat) (s : State) : (refreshSnapshot n s).link.place = s.link.place := by
  unfold refreshSnapshot
  rfl

@[simp] theorem computation_place (s : State) : (computation s).link.place = s.link.place := by
  unfold computation
  first | rfl | simp

@[simp] theorem deliver_place (x : Exchange) (o : LineOutcome) (s : State) : (deliver x o s).link.place = s.link.place := by
  unfold deliver
  (repeat' split) <;> first | rfl | simp

/-- Two lines at one place in the round agree in its parts. -/
theorem Link.place_eq {l m : Link} (h : l.place = m.place) :
    l.running = m.running ∧ l.round = m.round ∧ l.remaining = m.remaining ∧ l.phase = m.phase ∧ l.nextPos = m.nextPos
      ∧ l.offered = m.offered := by
  simpa [Link.place] using h

/-- A completed poll phase leaves the phase SERVICE and the round as it stood (R88). -/
theorem pollComplete_place (s : State) : (pollComplete s).link.place = { s.link with phase := .service }.place := by
  unfold pollComplete
  simp

/-! ### Time that passes (R82, R129) -/

@[simp] theorem lineRuns_zero (s : State) : lineRuns 0 s = s := rfl

theorem perStep_pos (r : Rate) : 0 < r.perStep := by cases r <;> decide

theorem settleLine_of_low {e : Events} (h : e.phase = .low) : settleLine e = e := by
  simp [settleLine, Events.highEnd, Events.gapEnd, h]

theorem settleLine_low (e : Events) : (settleLine e).phase = .low := by
  unfold settleLine Events.highEnd Events.gapEnd
  repeat' split
  all_goals simp_all

theorem settleLine_settled (e : Events) : settleLine (settleLine e) = settleLine e := settleLine_of_low (settleLine_low e)

theorem BreakState.pass_add (a b : Nat) (k : BreakState) : k.pass (a + b) = (k.pass a).pass b := by
  cases k <;> simp [BreakState.pass, Nat.sub_sub, Nat.add_assoc]

theorem Link.pass_add (a b : Nat) (l : Link) : l.pass (a + b) = (l.pass a).pass b := by
  unfold Link.pass
  simp only [Link.mk.injEq, true_and, BreakState.pass_add, Option.map_map]
  refine ⟨by omega, ?_, by rw [Nat.mod_add_mod, Nat.add_assoc]⟩
  congr 1
  funext x
  simp [Exchange.pass, Nat.add_assoc]

theorem lineRuns_add (a b : Nat) (s : State) : lineRuns (a + b) s = lineRuns b (lineRuns a s) := by
  rcases Nat.eq_zero_or_pos a with rfl | ha
  · simp
  rcases Nat.eq_zero_or_pos b with rfl | hb
  · rfl
  unfold lineRuns
  rw [if_neg (by omega), if_neg (by omega), if_neg (by omega), Link.pass_add]
  simp only [settleLine_settled]

theorem toStep_pos (l : Link) : 0 < l.toStep := Nat.sub_pos_of_lt (Nat.mod_lt _ (perStep_pos _))

theorem toStep_lineRuns {n : Nat} {s : State} (h : n < s.link.toStep) :
    (lineRuns n s).link.toStep = s.link.toStep - n := by
  unfold lineRuns
  split
  · subst n; rfl
  · have m := Nat.mod_lt s.link.clock (perStep_pos s.link.settings.rate)
    unfold Link.toStep at h ⊢
    simp only [Link.pass, Nat.mod_mod]
    rw [← Nat.mod_add_mod, Nat.mod_eq_of_lt (a := s.link.clock % _ + n) (by omega)]
    omega

/-- A bound of the steps that is large enough is as good as any other. -/
theorem runSteps_bound (going : State → Bool) {k n : Nat} (h : n ≤ k) (s : State) :
    runSteps going k n s = timePassesWhile going n s := by
  unfold timePassesWhile
  induction n using Nat.strong_induction_on generalizing k s with
  | _ n ih =>
    have p := toStep_pos s.link
    rcases n with _ | n
    · cases k <;> simp [runSteps, p]
    · obtain ⟨k, rfl⟩ : ∃ m, k = m + 1 := ⟨k - 1, by omega⟩
      unfold runSteps
      dsimp only
      split
      · rfl
      · split
        · rw [ih _ (by omega) (by omega), ← ih (n + 1 - s.link.toStep) (by omega) (k := n) (by omega)]
        · rfl

/-- Time passes to the end of the present step of 100 ms, and on from there. -/
theorem timePassesWhile_eq (going : State → Bool) (n : Nat) (s : State) : timePassesWhile going n s =
    if n < s.link.toStep then lineRuns n s
    else
      let t := stepTimers (lineRuns s.link.toStep s)
      if going t then timePassesWhile going (n - s.link.toStep) t else t := by
  have p := toStep_pos s.link
  conv => lhs; unfold timePassesWhile
  rcases n with _ | n
  · simp [runSteps, p]
  · unfold runSteps
    dsimp only
    rw [runSteps_bound _ (by omega)]

theorem timePasses_eq (n : Nat) (s : State) : timePasses n s =
    if n < s.link.toStep then lineRuns n s
    else timePasses (n - s.link.toStep) (stepTimers (lineRuns s.link.toStep s)) := by
  have h := timePassesWhile_eq (fun _ => true) n s
  simpa [timePassesWhile, timePasses] using h

/-- Time that ends no step of 100 ms runs no timer. -/
theorem timePasses_short {n : Nat} {s : State} (h : n < s.link.toStep) : timePasses n s = lineRuns n s := by
  rw [timePasses_eq, if_pos h]

/-- Time that ends with the present step of 100 ms ends with the timers' step. -/
theorem timePasses_step (s : State) : timePasses s.link.toStep s = stepTimers (lineRuns s.link.toStep s) := by
  rw [timePasses_eq, if_neg (Nat.lt_irrefl _), Nat.sub_self, timePasses_short (toStep_pos _), lineRuns_zero]

/-- Time passes in parts as it passes in one. -/
theorem timePasses_add (m n : Nat) (s : State) : timePasses (m + n) s = timePasses n (timePasses m s) := by
  induction m using Nat.strong_induction_on generalizing s with
  | _ m ih =>
    have p := toStep_pos s.link
    by_cases hm : m < s.link.toStep
    · rw [timePasses_short hm, timePasses_eq (m + n) s, timePasses_eq n (lineRuns m s), toStep_lineRuns hm, ← lineRuns_add,
        ← lineRuns_add, show m + (s.link.toStep - m) = s.link.toStep by omega,
        show n - (s.link.toStep - m) = m + n - s.link.toStep by omega]
      simp only [show n < s.link.toStep - m ↔ m + n < s.link.toStep by omega]
    · rw [timePasses_eq m s, if_neg hm, timePasses_eq (m + n) s, if_neg (by omega),
        show m + n - s.link.toStep = (m - s.link.toStep) + n by omega, ih _ (by omega)]

theorem timePasses_within {n : Nat} {s : State} (h : s.link.clock + n < s.link.settings.rate.perStep) :
    timePasses n s = { s with link := s.link.pass n, ev := if n = 0 then s.ev else settleLine s.ev } := by
  rw [timePasses_short (by unfold Link.toStep; rw [Nat.mod_eq_of_lt (by omega)]; omega)]
  unfold lineRuns
  split
  · subst n
    have e : s.link.exchange.map (Exchange.pass 0) = s.link.exchange := by
      have : Exchange.pass 0 = id := rfl
      rw [this, Option.map_id, id]
    have b : s.link.brk.pass 0 = s.link.brk := by cases s.link.brk <;> rfl
    have c : (s.link.clock + 0) % s.link.settings.rate.perStep = s.link.clock := Nat.mod_eq_of_lt h
    simp only [Link.pass, e, b, c, Nat.sub_zero]
  · rfl

/-- Time passes to its end where what it passes under holds after each of its parts. -/
theorem timePassesWhile_on {going : State → Bool} {n : Nat} {s : State}
    (h : ∀ m ≤ n, going (timePasses m s) = true) : timePassesWhile going n s = timePasses n s := by
  induction n using Nat.strong_induction_on generalizing s with
  | _ n ih =>
    have p := toStep_pos s.link
    rw [timePassesWhile_eq, timePasses_eq]
    split
    · rfl
    · rename_i k
      have g := h s.link.toStep (by omega)
      rw [timePasses_step] at g
      simp only [g, if_true]
      refine ih _ (by omega) fun m hm => ?_
      rw [← timePasses_step, ← timePasses_add]
      exact h _ (by omega)

/-- Time stops passing at the first moment after which what it passes under does not hold. -/
theorem timePassesWhile_cut {going : State → Bool} {k n : Nat} {s : State} (e : ∀ m u, going (lineRuns m u) = going u)
    (hk : k ≤ n) (g : going (timePasses k s) = false) (h : ∀ m < k, going (timePasses m s) = true) (pos : 0 < k) :
    timePassesWhile going n s = timePasses k s := by
  induction n using Nat.strong_induction_on generalizing k s with
  | _ n ih =>
    have p := toStep_pos s.link
    have z : going s = true := by have := h 0 pos; rwa [timePasses_short p, lineRuns_zero] at this
    have lk : s.link.toStep ≤ k := by
      by_contra c
      rw [timePasses_short (by omega), e, z] at g
      exact Bool.noConfusion g
    rw [timePassesWhile_eq, if_neg (by omega)]
    rcases Nat.eq_or_lt_of_le lk with q | q
    · rw [← q, timePasses_step] at g
      dsimp only
      rw [g, ← q, timePasses_step]
      rfl
    · have t := h _ q
      rw [timePasses_step] at t
      simp only [t, if_true]
      rw [timePasses_eq k s, if_neg (by omega)] at g ⊢
      refine ih _ (by omega) (by omega) g (fun m hm => ?_) (by omega)
      rw [← timePasses_step, ← timePasses_add]
      exact h _ (by omega)

theorem free_lineRuns (n : Nat) (s : State) : (lineRuns n s).link.free = s.link.free := by
  unfold lineRuns
  split
  · rfl
  · unfold Link.free
    cases hb : s.link.brk <;> cases he : s.link.exchange <;> simp [Link.pass, BreakState.pass, hb, he]

/-! ### What the timers' steps do to the exchange on the line -/

/-- From `s` to `t` the exchange on the line has stayed or left the line. -/
abbrev ExchangeStays (s t : State) : Prop := t.link.exchange = none ∨ t.link.exchange = s.link.exchange

theorem ExchangeStays.trans {s t u : State} (h : ExchangeStays s t) (k : ExchangeStays t u) : ExchangeStays s u := by
  rcases k with k | k
  · exact Or.inl k
  · rcases h with h | h
    · exact Or.inl (k.trans h)
    · exact Or.inr (k.trans h)

theorem ExchangeStays.of_link {s t : State} (h : t.link = s.link) : ExchangeStays s t := Or.inr (by rw [h])

theorem requestBreak_stays (s : State) : ExchangeStays s (requestBreak s) := by
  unfold requestBreak
  split
  · split
    · split
      · rename_i e
        left
        simp only [Link.breakOnFree]
        split <;> exact e
      · left
        rw [deliverAbandoned_link]
        unfold Link.cutShort Link.breakOnFree
        split
        all_goals first | rfl | (split <;> rfl)
    all_goals exact Or.inr rfl
  · exact Or.inr rfl

theorem tripRequest_stays (c : TripCause) (p : Option Nat) (s : State) : ExchangeStays s (tripRequest c p s) := by
  unfold tripRequest
  split
  all_goals first | exact Or.inr rfl | skip
  all_goals
    unfold takeTrip
    exact (ExchangeStays.of_link (by simp)).trans (requestBreak_stays _)

theorem enterFaulted_stays (p : Nat) (r : FaultReason) (s : State) : ExchangeStays s (enterFaulted p r s) := by
  unfold enterFaulted tripIfMoving
  split
  · exact (ExchangeStays.of_link (by simp)).trans (tripRequest_stays _ _ _)
  · exact ExchangeStays.of_link (by simp)

theorem stepReset_stays (p : Nat) (s : State) : ExchangeStays s (stepReset p s) := by
  unfold stepReset resetTimeout
  split
  · exact Or.inr rfl
  · split
    · exact enterFaulted_stays _ _ s
    · exact ExchangeStays.of_link (by simp)

theorem refresh_link (s : State) : (refresh s).link = s.link := by
  unfold refresh
  simp only [updateView_link]
  split <;> rfl

theorem stepTimers_stays (s : State) : ExchangeStays s (stepTimers s) := by
  have f : ∀ (l : List Nat) (u : State), ExchangeStays u (l.foldl (fun s p => stepReset p s) u) := by
    intro l
    induction l with
    | nil => exact fun _ => Or.inr rfl
    | cons p l ih => exact fun u => (stepReset_stays p u).trans (ih _)
  have a : (stepStart s).link = s.link := by
    unfold stepStart startExpires
    repeat' split
    all_goals rfl
  have b : ∀ u, (stepDwell u).link = u.link := by
    intro u
    unfold stepDwell
    repeat' split
    all_goals first | rfl | simp
  have c : ∀ u, (stepReversal u).link = u.link := by
    intro u
    unfold stepReversal reversalExpires changeDirection
    repeat' split
    all_goals simp [refresh_link]
  unfold stepTimers
  exact (ExchangeStays.of_link ((c _).trans ((b _).trans a))).trans (f _ _)

/-- Whether the exchange on the line is at a step. -/
def onLineAt (st : ExStep) (u : State) : Bool := (u.link.exchangeAt st).isSome

theorem onLineAt_lineRuns (st : ExStep) (n : Nat) (s : State) : onLineAt st (lineRuns n s) = onLineAt st s := by
  unfold lineRuns onLineAt Link.exchangeAt
  split
  · rfl
  · simp only [Link.pass]
    cases s.link.exchange with
    | none => rfl
    | some x => by_cases h : x.step = st <;> simp [Option.filter, Exchange.pass, h]

theorem onLineAt_stays {st : ExStep} {s t : State} (h : ExchangeStays s t) (k : onLineAt st t = true) :
    onLineAt st s = true := by
  unfold onLineAt Link.exchangeAt at *
  rcases h with h | h
  · rw [h] at k
    exact Bool.noConfusion k
  · rwa [h] at k

theorem onLineAt_timePasses {st : ExStep} {n : Nat} {s : State} (k : onLineAt st (timePasses n s) = true) :
    onLineAt st s = true := by
  induction n using Nat.strong_induction_on generalizing s with
  | _ n ih =>
    rw [timePasses_eq] at k
    split at k
    · rwa [onLineAt_lineRuns] at k
    · have p := toStep_pos s.link
      have := onLineAt_stays (stepTimers_stays _) (ih _ (by omega) k)
      rwa [onLineAt_lineRuns] at this

/-- An exchange that is at a step when time has passed was at it all the time. -/
theorem timePassesWhile_onLine {st : ExStep} {n : Nat} {s : State} {y : Exchange}
    (h : (timePasses n s).link.exchangeAt st = some y) : timePassesWhile (onLineAt st) n s = timePasses n s := by
  refine timePassesWhile_on fun m hm => onLineAt_timePasses (n := n - m) ?_
  rw [← timePasses_add, show m + (n - m) = n by omega]
  unfold onLineAt
  rw [h]
  rfl

/-! ### A moment the line comes to -/

/-- At its moment an exchange that is still at the step meets what happens then. -/
theorem atMoment_at {st : ExStep} {m : Exchange → Nat} {act : Exchange → State → State} {s : State} {x y : Exchange}
    (h : s.link.exchangeAt st = some x) (k : (timePasses (m x - x.used) s).link.exchangeAt st = some y) :
    atMoment st m act s = act y (timePasses (m x - x.used) s) := by
  have e := timePassesWhile_onLine k
  unfold onLineAt at e
  unfold atMoment
  simp [h, e, k]

/-- An exchange that leaves the step on the way to its moment lets no more time pass, and only its BREAK may fall due. -/
theorem atMoment_cut {st : ExStep} {m : Exchange → Nat} {act : Exchange → State → State} {s : State} {x : Exchange} {k : Nat}
    (h : s.link.exchangeAt st = some x) (hk : k ≤ m x - x.used) (g : (timePasses k s).link.exchangeAt st = none)
    (b : ∀ j < k, (timePasses j s).link.exchangeAt st ≠ none) : atMoment st m act s = breakDue (timePasses k s) := by
  have pos : 0 < k := by
    rcases Nat.eq_zero_or_pos k with rfl | p
    · rw [timePasses_short (toStep_pos _), lineRuns_zero, h] at g
      cases g
    · exact p
  have e := timePassesWhile_cut (going := onLineAt st) (fun n u => onLineAt_lineRuns st n u) hk (by unfold onLineAt; rw [g]; rfl)
    (fun j hj => Option.isSome_iff_ne_none.mpr (b j hj)) pos
  unfold onLineAt at e
  unfold atMoment
  simp [h, e, g]

end Sys2Proof.Machine
end

