-- ==== Sys2Proof/Laws/Engine.lean ====
section
/-! SUPPORT. The Alignment Engine's computation: what writing the commands and the warn check leave of a record, so that the
checks read the same before and after, and what the requests and reports make of the supervisor. -/

namespace Sys2Proof.Machine

/-! ### The states a computation passes through -/

/-- Two states that the checks of a computation read alike: everything but the commands, the engine's flags, the change flags and
the events. -/
abbrev SameLine (s t : State) : Prop :=
  t.sup = s.sup ∧ t.tune = s.tune ∧ t.link = s.link ∧ t.tracker = s.tracker ∧ t.plan = s.plan ∧ t.port = s.port
    ∧ ∀ p, (t.tower p).state = (s.tower p).state ∧ (t.tower p).error = (s.tower p).error ∧ (t.tower p).fresh = (s.tower p).fresh
      ∧ (t.tower p).measuredSwing = (s.tower p).measuredSwing

theorem SameLine.trans {s t u : State} (h : SameLine s t) (k : SameLine t u) : SameLine s u :=
  ⟨k.1.trans h.1, k.2.1.trans h.2.1, k.2.2.1.trans h.2.2.1, k.2.2.2.1.trans h.2.2.2.1, k.2.2.2.2.1.trans h.2.2.2.2.1,
    k.2.2.2.2.2.1.trans h.2.2.2.2.2.1, fun p =>
      ⟨(k.2.2.2.2.2.2 p).1.trans (h.2.2.2.2.2.2 p).1, (k.2.2.2.2.2.2 p).2.1.trans (h.2.2.2.2.2.2 p).2.1,
        (k.2.2.2.2.2.2 p).2.2.1.trans (h.2.2.2.2.2.2 p).2.2.1, (k.2.2.2.2.2.2 p).2.2.2.trans (h.2.2.2.2.2.2 p).2.2.2⟩⟩

theorem writeTowers_sameLine (w : Option Nat) (s : State) : SameLine s (writeTowers w s) := by
  refine ⟨rfl, rfl, rfl, rfl, rfl, rfl, fun p => ?_⟩
  unfold writeTowers
  rw [tower_mapTowers]
  split
  · unfold computedTower
    split <;> exact ⟨rfl, rfl, rfl, rfl⟩
  · rename_i h
    rw [tower_outside h]
    exact ⟨rfl, rfl, rfl, rfl⟩

/-- The warn check of one tower writes that tower's ALIGN_WARN and WARN alone. -/
theorem tower_warnCheck (n p q : Nat) (s : State) :
    (warnCheck n p s).tower q =
      if q = p ∧ 1 ≤ p ∧ p ≤ Config.positions then
        if n < (s.tower p).error.natAbs then
          if (s.tower p).alignWarn then s.tower p
          else { s.tower p with alignWarn := true, changes := (s.tower p).changes ||| ChangeFlag.warn.bit }
        else { s.tower p with alignWarn := false }
      else s.tower q := by
  unfold warnCheck
  split
  · split
    · split
      · rename_i h; rw [h.1]
      · rfl
    · rw [raise_tower, tower_setChange]
      by_cases hp : q = p ∧ 1 ≤ p ∧ p ≤ Config.positions
      · have e : (s.modTower p fun t => { t with alignWarn := true }).tower p = { s.tower p with alignWarn := true } := by
          rw [tower_modTower, if_pos ⟨rfl, hp.2⟩]
        rw [if_pos hp, e]
        by_cases hc : (s.tower p).hasChange .warn = true
        · rw [if_neg (by rintro ⟨-, -, k⟩; rw [show ({ s.tower p with alignWarn := true } : Tower).hasChange .warn
            = (s.tower p).hasChange .warn from rfl, hc] at k; cases k)]
          rw [tower_modTower, if_pos hp, changes_of_hasChange _ _ hc]
        · rw [if_pos ⟨hp.1, hp.2, Bool.not_eq_true _ ▸ hc⟩]
      · rw [if_neg hp, if_neg (by rintro ⟨a, b, -⟩; exact hp ⟨a, b⟩), tower_modTower, if_neg hp]
  · rw [tower_modTower]

theorem warnCheck_sameLine (n p : Nat) (s : State) : SameLine s (warnCheck n p s) := by
  have e : (warnCheck n p s).tune = s.tune ∧ (warnCheck n p s).link = s.link ∧ (warnCheck n p s).tracker = s.tracker
      ∧ (warnCheck n p s).plan = s.plan ∧ (warnCheck n p s).port = s.port := by
    unfold warnCheck
    refine ⟨?_, ?_, ?_, ?_, ?_⟩ <;> (repeat' split) <;> simp
  refine ⟨warnCheck_sup n p s, e.1, e.2.1, e.2.2.1, e.2.2.2.1, e.2.2.2.2, fun q => ?_⟩
  rw [tower_warnCheck]
  split
  · rename_i h
    rw [h.1]
    (repeat' split) <;> exact ⟨rfl, rfl, rfl, rfl⟩
  · exact ⟨rfl, rfl, rfl, rfl⟩

/-- The warn checks of a list of towers, each once, write those towers alone. -/
theorem tower_foldl_warnCheck (n : Nat) (l : List Nat) (d : l.Nodup) (s : State) (q : Nat) :
    (l.foldl (fun s' p => warnCheck n p s') s).tower q = if q ∈ l then (warnCheck n q s).tower q else s.tower q := by
  induction l generalizing s with
  | nil => simp
  | cons a l ih =>
    rw [List.nodup_cons] at d
    rw [List.foldl_cons, ih d.2]
    by_cases h : q = a
    · subst h
      simp [d.1]
    · have e : (warnCheck n a s).tower q = s.tower q := by
        rw [tower_warnCheck, if_neg (by rintro ⟨k, -⟩; exact h k)]
      by_cases m : q ∈ l
      · rw [if_pos m, if_pos (by simp [m])]
        simp only [tower_warnCheck, e]
      · rw [if_neg m, if_neg (by simp [h, m]), e]

theorem foldl_warnCheck_sameLine (n : Nat) (l : List Nat) (s : State) :
    SameLine s (l.foldl (fun s' p => warnCheck n p s') s) := by
  induction l generalizing s with
  | nil => exact ⟨rfl, rfl, rfl, rfl, rfl, rfl, fun _ => ⟨rfl, rfl, rfl, rfl⟩⟩
  | cons a l ih => exact (warnCheck_sameLine n a s).trans (ih _)

/-- A joint bent beyond the limit for the first time raises ALIGN_WARN (R116). -/
theorem warnCheck_raises {n p : Nat} {s : State} (h : n < (s.tower p).error.natAbs) (k : (s.tower p).alignWarn = false) :
    (warnCheck n p s).ev.isSet .alignWarn = true := by
  unfold warnCheck
  rw [if_pos h, if_neg (by simp [k])]
  exact isSet_raise_self _ _

theorem setChange_isSet (p : Nat) (c : ChangeFlag) (f : EventFlag) {s : State} (h : s.ev.isSet f = true) :
    (setChange p c s).ev.isSet f = true := by
  unfold setChange
  split
  · exact h
  · exact isSet_raise_mono _ _ _ (by simpa using h)

theorem warnCheck_isSet (n p : Nat) (f : EventFlag) {s : State} (h : s.ev.isSet f = true) :
    (warnCheck n p s).ev.isSet f = true := by
  unfold warnCheck
  (repeat' split)
  · exact h
  · exact isSet_raise_mono _ _ _ (setChange_isSet _ _ _ (by simpa using h))
  · simpa using h

theorem foldl_warnCheck_isSet (n : Nat) (f : EventFlag) (l : List Nat) {s : State} (h : s.ev.isSet f = true) :
    (l.foldl (fun s' p => warnCheck n p s') s).ev.isSet f = true := by
  induction l generalizing s with
  | nil => exact h
  | cons a l ih => exact ih (warnCheck_isSet n a f h)

theorem foldl_warnCheck_raises {n p : Nat} (l : List Nat) (d : l.Nodup) (s : State) (m : p ∈ l)
    (h : n < (s.tower p).error.natAbs) (k : (s.tower p).alignWarn = false) :
    (l.foldl (fun s' p => warnCheck n p s') s).ev.isSet .alignWarn = true := by
  induction l generalizing s with
  | nil => simp at m
  | cons a l ih =>
    rw [List.nodup_cons] at d
    rcases List.mem_cons.1 m with e | e
    · subst e
      exact foldl_warnCheck_isSet _ _ l (warnCheck_raises h k)
    · have ne : p ≠ a := fun q => d.1 (q ▸ e)
      have t : (warnCheck n a s).tower p = s.tower p := by
        rw [tower_warnCheck, if_neg (by rintro ⟨q, -⟩; exact ne q)]
      exact ih d.2 _ e (by rw [t]; exact h) (by rw [t]; exact k)

theorem warnChecks_sameLine (s : State) : SameLine s (warnChecks s) := foldl_warnCheck_sameLine _ _ s

theorem mem_warnChecked {s : State} {p : Nat} :
    p ∈ warnChecked s ↔ s.sup.machine.watches = true ∧ (1 ≤ p ∧ p < s.link.settings.towers) ∧ (s.tower p).state = .driving := by
  unfold warnChecked jointPositions
  split
  · rename_i h
    simp only [List.mem_filter, List.mem_range'_1, beq_iff_eq, h, true_and]
    constructor
    · rintro ⟨⟨a, b⟩, c⟩
      exact ⟨⟨a, by omega⟩, c⟩
    · rintro ⟨⟨a, b⟩, c⟩
      exact ⟨⟨a, by omega⟩, c⟩
  · rename_i h
    simp [h]

theorem warnChecked_nodup (s : State) : (warnChecked s).Nodup := by
  unfold warnChecked jointPositions
  split
  · exact (List.nodup_range' (step := 1)).filter _
  · exact List.nodup_nil

/-- What the warn checks write into a record (R116). -/
theorem tower_warnChecks (s : State) (p : Nat) :
    (warnChecks s).tower p
      = if p ∈ warnChecked s then (warnCheck (warnLimitInUse s) p s).tower p else s.tower p :=
  tower_foldl_warnCheck _ _ (warnChecked_nodup s) s p

theorem warnChecks_raises {s : State} {p : Nat} (m : p ∈ warnChecked s) (h : warnLimitInUse s < (s.tower p).error.natAbs)
    (k : (s.tower p).alignWarn = false) : (warnChecks s).ev.isSet .alignWarn = true :=
  foldl_warnCheck_raises _ (warnChecked_nodup s) s m h k

/-- The checks read the same in states that differ in the commands and the engine's flags alone. -/
theorem misaligned_sameLine {s t : State} (h : SameLine s t) : misaligned t = misaligned s := by
  obtain ⟨h1, h2, h3, -, -, -, h4⟩ := h
  have e1 : jointPositions t = jointPositions s := by unfold jointPositions; rw [h3]
  have e2 : misalignChecked t = misalignChecked s := by
    unfold misalignChecked warnChecked
    rw [e1, h1]
    have a : (fun p => (t.tower p).state == .driving) = fun p => (s.tower p).state == .driving := by
      funext p; rw [(h4 p).1]
    have b : ∀ j : Jog, (fun p => (t.tower p).fresh && !nextToJog j.position p)
        = fun p => (s.tower p).fresh && !nextToJog j.position p := by
      intro j; funext p; rw [(h4 p).2.2.1]
    rw [a]
    simp only [b]
  unfold misaligned
  rw [e2, h2]
  congr 1
  funext p
  rw [(h4 p).2.1]

theorem swungOut_sameLine {s t : State} (h : SameLine s t) (w : Option Nat) : swungOut t w = swungOut s w := by
  obtain ⟨h1, h2, h3, -, -, -, h4⟩ := h
  unfold swungOut swingChecked swingError
  rw [h1, h2, h3, (h4 Config.cornerPos).1, (h4 Config.cornerPos).2.2.1, (h4 Config.cornerPos).2.2.2]

theorem jogMet_sameLine {s t : State} (h : SameLine s t) (w : Option Nat) : jogMet t w = jogMet s w := by
  obtain ⟨h1, h2, h3, -, -, -, h4⟩ := h
  have e : ∀ p, jointStraight t p = jointStraight s p := by
    intro p
    unfold jointStraight
    rw [h2, (h4 p).2.1, (h4 p).2.2.1]
  unfold jogMet swingError
  simp only [e]
  rw [h1, h2, h3, (h4 Config.cornerPos).2.2.1, (h4 Config.cornerPos).2.2.2]

/-- The warn checks leave the commands, so that rest is read off the commands just written. -/
theorem warnChecks_applied (s : State) (p : Nat) : ((warnChecks s).tower p).applied = (s.tower p).applied := by
  rw [tower_warnChecks]
  split
  · rw [tower_warnCheck]
    (repeat' split) <;> rfl
  · rfl

theorem atRest_warnChecks (s : State) : atRest (warnChecks s) = atRest s := by
  unfold atRest
  rw [(warnChecks_sameLine s).2.2.1]
  congr 1
  funext p
  rw [warnChecks_applied]

/-- The computation in terms of the checks as they read before it (R106, R119). -/
theorem computation_eq (s : State) :
    computation s = refreshSnapshot s.tracker.pace
      (makeReports (misaligned s) (swungOut s (swingTarget s)) (jogMet s (swingTarget s)) (atRest (writeTowers (swingTarget s) s))
        (warnChecks (writeTowers (swingTarget s) s))) := by
  have k := (writeTowers_sameLine (swingTarget s) s).trans (warnChecks_sameLine (writeTowers (swingTarget s) s))
  unfold computation
  simp only
  rw [misaligned_sameLine k, swungOut_sameLine k, jogMet_sameLine k, atRest_warnChecks]

theorem computation_sup (s : State) :
    (computation s).sup = (makeReports (misaligned s) (swungOut s (swingTarget s)) (jogMet s (swingTarget s))
      (atRest (writeTowers (swingTarget s) s)) (warnChecks (writeTowers (swingTarget s) s))).sup := by
  rw [computation_eq]
  rfl

/-! ### Requests and reports -/

theorem takeJogMet_trip (s : State) : (takeJogMet s).sup.trip = s.sup.trip := by
  unfold takeJogMet
  split
  · exact changeState_trip _ _
  · rfl

theorem takeRest_trip (b : Bool) (s : State) : (takeRest b s).sup.trip = s.sup.trip := by
  unfold takeRest countJogRound
  simp only
  (repeat' split) <;> first | rfl | exact changeState_trip _ _

/-- A tripped machine takes no report (R119, R144). -/
theorem reports_tripped {s : State} (h : s.sup.machine = .tripped) (met rest : Bool) :
    takeRest rest (if met then takeJogMet s else s) = s := by
  have e : (if met then takeJogMet s else s) = s := by
    cases met
    · rfl
    · show takeJogMet s = s
      unfold takeJogMet
      rw [if_neg (by rw [h]; decide)]
  rw [e]
  unfold takeRest
  rw [h]

/-! ### The view through requests and reports -/

@[simp] theorem completeRetirement_view (s : State) : (completeRetirement s).tracker.view = s.tracker.view := by
  unfold completeRetirement
  split <;> rfl

@[simp] theorem changeState_view (m : MachineState) (s : State) : (changeState m s).tracker.view = s.tracker.view := by
  cases m <;> simp [changeState, entryEffects, enterStanding, releaseTowers]

@[simp] theorem takeTrip_view (c : TripCause) (p : Option Nat) (s : State) : (takeTrip c p s).tracker.view = s.tracker.view := by
  simp [takeTrip, requestBreak_tracker]

@[simp] theorem tripRequest_view (c : TripCause) (p : Option Nat) (s : State) :
    (tripRequest c p s).tracker.view = s.tracker.view := by
  unfold tripRequest
  split <;> simp

theorem takeJogMet_tracker (s : State) : (takeJogMet s).tracker = s.tracker := by
  unfold takeJogMet
  split
  · exact changeState_tracker_moving rfl s
  · rfl

theorem takeRest_view (b : Bool) (s : State) :
    (takeRest b s).tracker.view = s.tracker.view ∧ (takeRest b s).tracker.angleUsed = s.tracker.angleUsed
      ∧ (takeRest b s).tracker.held = s.tracker.held := by
  have k : ∀ (m : MachineState) (u : State), u.tracker = s.tracker → (changeState m u).tracker.view = s.tracker.view
      ∧ (changeState m u).tracker.angleUsed = s.tracker.angleUsed ∧ (changeState m u).tracker.held = s.tracker.held :=
    fun m u h => ⟨by rw [changeState_view, h], by rw [(changeState_angle m u).angleUsed, h], by rw [(changeState_angle m u).held, h]⟩
  unfold takeRest countJogRound
  simp only
  (repeat' split) <;> first | exact ⟨rfl, rfl, rfl⟩ | exact k _ _ rfl

/-- What the snapshot takes is the same before and after the requests and reports, the supervisor's part aside (R123). -/
theorem makeReports_view (m : Option Nat) (w j r : Bool) (s : State) :
    (makeReports m w j r s).tracker.view = s.tracker.view ∧ (makeReports m w j r s).tracker.angleUsed = s.tracker.angleUsed
      ∧ (makeReports m w j r s).tracker.held = s.tracker.held := by
  generalize hu : (match m with | some p => tripRequest .misalign (some p) s | none => s) = u
  have e1 : u.tracker.view = s.tracker.view ∧ u.tracker.angleUsed = s.tracker.angleUsed ∧ u.tracker.held = s.tracker.held := by
    subst hu
    split
    · exact ⟨by simp, (tripRequest_angle _ _ s).angleUsed, (tripRequest_angle _ _ s).held⟩
    · exact ⟨rfl, rfl, rfl⟩
  generalize hv : (if w = true then tripRequest .swing (some Config.cornerPos) u else u) = v
  have e2 : v.tracker.view = u.tracker.view ∧ v.tracker.angleUsed = u.tracker.angleUsed ∧ v.tracker.held = u.tracker.held := by
    subst hv
    split
    · exact ⟨by simp, (tripRequest_angle _ _ u).angleUsed, (tripRequest_angle _ _ u).held⟩
    · exact ⟨rfl, rfl, rfl⟩
  have e3 : (if j = true then takeJogMet v else v).tracker = v.tracker := by
    split
    · exact takeJogMet_tracker v
    · rfl
  obtain ⟨a, b, c⟩ := takeRest_view r (if j = true then takeJogMet v else v)
  have k : (takeRest r (if j = true then takeJogMet v else v)).tracker.view = s.tracker.view
      ∧ (takeRest r (if j = true then takeJogMet v else v)).tracker.angleUsed = s.tracker.angleUsed
      ∧ (takeRest r (if j = true then takeJogMet v else v)).tracker.held = s.tracker.held :=
    ⟨by rw [a, e3, e2.1, e1.1], by rw [b, e3, e2.2.1, e1.2.1], by rw [c, e3, e2.2.2, e1.2.2]⟩
  subst hv
  subst hu
  exact k

end Sys2Proof.Machine
end

