-- ==== Sys2Proof/Laws/Retiring.lean ====
section
/-! SUPPORT. The third law of the plan (R21): no operation leaves a RETIRING record that is not the covering record of the last
good angle of a machine in motion. -/

namespace Sys2Proof.Machine

/-- What an operation does to the third law of the plan: it keeps it. -/
abbrev Retires (s t : State) : Prop := s.RetiringLawful → t.RetiringLawful

theorem Retires.after {s t u : State} (k : Retires t u) (h : Retires s t) : Retires s u := fun l => k (h l)

/-- An operation that changes neither the plan nor the last good angle nor the machine state keeps the law. -/
theorem Retires.of {s t : State} (hp : t.plan = s.plan) (ha : t.tracker.lastGood = s.tracker.lastGood)
    (hm : t.sup.machine = s.sup.machine) : Retires s t := by
  intro h r hr e
  obtain ⟨m, c⟩ := h r (hp ▸ hr) e
  exact ⟨by unfold State.inMotion at *; rw [hm]; exact m, by unfold State.coveringRecord at *; rw [hp, ha]; exact c⟩

/-- A plan without a RETIRING record. -/
abbrev AllLive (plan : List Sector) : Prop := ∀ r ∈ plan, r.state ≠ .retiring

theorem RetiringLawful.of_live {s : State} (h : AllLive s.plan) : s.RetiringLawful := fun r hr e => absurd e (h r hr)

theorem AllLive.sublist {p q : List Sector} (h : AllLive p) (k : q.Sublist p) : AllLive q := fun r hr => h r (k.subset hr)

/-- Outside the motion states a lawful plan has no RETIRING record. -/
theorem RetiringLawful.live {s : State} (h : s.RetiringLawful) (m : s.inMotion = false) : AllLive s.plan := by
  intro r hr e
  rw [(h r hr e).1] at m
  exact Bool.noConfusion m

/-- The completion of a retirement leaves no RETIRING record where all of them are one and the same. -/
theorem completeRetirement_live {s : State} {c : Option Sector} (h : ∀ r ∈ s.plan, r.state = .retiring → c = some r) :
    AllLive (completeRetirement s).plan := by
  intro r hr e
  have mem := (completeRetirement_shrinks s).subset hr
  unfold completeRetirement at hr
  split at hr
  · rename_i q hq
    have hqs : q.state = .retiring := by simpa using List.find?_some hq
    have e1 := h q (List.mem_of_find?_eq_some hq) hqs
    have e2 := h r mem e
    rw [e1] at e2
    obtain rfl := Option.some.inj e2
    simp [removeRecord, removeKey] at hr
  · rename_i hn
    have := List.find?_eq_none.mp hn r mem
    simp [e] at this

/-! ### Changes of machine state -/

theorem entryEffects_live {m : MachineState} (k : m.isMotion = false) {s : State} {c : Option Sector}
    (h : ∀ r ∈ s.plan, r.state = .retiring → c = some r) : AllLive (entryEffects m s).plan := by
  cases m <;> simp [MachineState.isMotion] at k
  all_goals exact completeRetirement_live (c := c) h

theorem changeState_live {m : MachineState} (k : m.isMotion = false) {s : State} (h : s.RetiringLawful) :
    AllLive (changeState m s).plan :=
  entryEffects_live k (c := s.coveringRecord) fun r hr e => (h r hr e).2

theorem changeState_retiring (m : MachineState) (s : State) : Retires s (changeState m s) := by
  cases k : m.isMotion
  · exact fun h => RetiringLawful.of_live (changeState_live k h)
  · intro h r hr e
    rw [changeState_plan_moving k] at hr
    refine ⟨by rw [changeState_motion k]; exact k, ?_⟩
    unfold State.coveringRecord
    rw [changeState_plan_moving k, changeState_tracker_moving k]
    exact (h r hr e).2

/-! ### What leaves the tracker's last good angle alone -/

@[simp] theorem serviceOutcome_tracker (n : Nat) (o : LineOutcome) (s : State) : (serviceOutcome n o s).tracker = s.tracker := by
  unfold serviceOutcome
  (repeat' split) <;> rfl

@[simp] theorem resetOutcome_tracker (p : Nat) (o : LineOutcome) (s : State) : (resetOutcome p o s).tracker = s.tracker := by
  unfold resetOutcome
  (repeat' split) <;> simp

@[simp] theorem refresh_lastGood (s : State) : (refresh s).tracker.lastGood = s.tracker.lastGood := (refresh_angle s).lastGood

@[simp] theorem handOver_lastGood (s : State) : (handOver s).tracker.lastGood = s.tracker.lastGood := by
  unfold handOver captureSwing
  dsimp only
  split <;> rfl

@[simp] theorem warnCheck_tracker (n p : Nat) (s : State) : (warnCheck n p s).tracker = s.tracker := by
  unfold warnCheck
  (repeat' split) <;> simp

@[simp] theorem warnChecks_tracker (s : State) : (warnChecks s).tracker = s.tracker := (warnChecks_sameLine s).2.2.2.1

theorem ageRequests_retiring (s : State) : Retires s (ageRequests s) := by
  unfold ageRequests
  dsimp only
  split <;> exact Retires.of rfl rfl rfl

theorem startRound_retiring (s : State) : Retires s (startRound s) :=
  (ageRequests_retiring _).after (Retires.of rfl rfl rfl)

theorem resetBegins_retiring (s : State) : Retires s (resetBegins s) := by
  unfold resetBegins
  (repeat' split) <;> exact Retires.of rfl rfl rfl

theorem serviceBegins_retiring (s : State) : Retires s (serviceBegins s) := by
  unfold serviceBegins
  (repeat' split) <;> exact Retires.of rfl rfl rfl

theorem changeDirection_retiring (d : Direction) (s : State) : Retires s (changeDirection d s) :=
  Retires.of (by simp) (refresh_angle { s with sup := { s.sup with direction := d } }).lastGood (by simp)

theorem faceStart_retiring (d : Direction) (e : Option Nat) (s : State) : Retires s (faceStart d e s) :=
  Retires.of (by simp) (faceStart_tracker d e s).2.1 (by rw [(faceStart_sup d e s)])

/-! ### Holds, arrivals and trips -/

theorem dwellExpires_retiring (s : State) : Retires s (dwellExpires s) := by
  unfold dwellExpires
  split
  · exact changeState_retiring _ s
  · exact Retires.of rfl rfl rfl

theorem startDwell_retiring (n : Nat) (s : State) : Retires s (startDwell n s) := by
  unfold startDwell
  split
  · exact dwellExpires_retiring s
  · exact Retires.of rfl rfl rfl

theorem arriveAtHold_retiring (r : Sector) (s : State) : Retires s (arriveAtHold r s) := by
  unfold arriveAtHold
  exact (startDwell_retiring _ _).after (changeState_retiring .holding s)

theorem beginReversal_retiring (s : State) : Retires s (beginReversal s) := changeState_retiring .reversing s

theorem arriveAtBarrier_retiring (r : Sector) (s : State) : Retires s (arriveAtBarrier r s) := by
  unfold arriveAtBarrier
  split
  · exact changeState_retiring _ s
  · exact beginReversal_retiring s

theorem requestBreak_retiring (s : State) : Retires s (requestBreak s) :=
  Retires.of (by simp) (by rw [requestBreak_tracker]) (by simp)

theorem takeTrip_retiring (c : TripCause) (p : Option Nat) (s : State) : Retires s (takeTrip c p s) := by
  unfold takeTrip
  dsimp only
  refine (requestBreak_retiring _).after (Retires.after (t := changeState .tripped s) ?_ (changeState_retiring _ s))
  exact Retires.of rfl rfl rfl

theorem tripRequest_retiring (c : TripCause) (p : Option Nat) (s : State) : Retires s (tripRequest c p s) := by
  unfold tripRequest
  split
  all_goals first | exact takeTrip_retiring c p s | exact Retires.of rfl rfl rfl

theorem arriveHold_retiring (r : Sector) (a : Nat) (s : State) : Retires s (arriveHold r a s) :=
  arriveAtHold_retiring r (raise .arrival (markServed r.start a s))

theorem arrivalCheck_retiring (s : State) : Retires s (arrivalCheck s) := by
  unfold arrivalCheck
  repeat' split
  all_goals
    first
    | exact Retires.of rfl rfl rfl
    | exact arriveHold_retiring _ _ s
    | exact arriveAtBarrier_retiring _ (raise .arrival s)

theorem arrivalCheckIf_retiring (b : Bool) (s : State) : Retires s (arrivalCheckIf b s) := by
  unfold arrivalCheckIf
  split
  · exact arrivalCheck_retiring s
  · exact Retires.of rfl rfl rfl

/-! ### Samples -/

theorem badSample_retiring (s : State) : Retires s (badSample s) := by
  intro h
  cases m : s.inMotion
  · exact RetiringLawful.of_live ((RetiringLawful.live h m).sublist (badSample_shrinks s))
  · refine Retires.after (s := s) ?_ id h
    unfold badSample
    dsimp only
    split
    · exact Retires.of rfl rfl rfl
    · rw [m]
      unfold angleLost
      rename_i a _
      have k : Retires s (refresh { raise .angle { s with tracker := { s.tracker with
          badCount := min Config.badCountTop (s.tracker.badCount + 1) } } with tracker := { (raise .angle { s with
          tracker := { s.tracker with badCount := min Config.badCountTop (s.tracker.badCount + 1) } }).tracker with
          angleUsed := some a, held := true } }) := Retires.of (by simp) (by simp) (by simp)
      split
      · exact (tripRequest_retiring _ _ _).after ((arrivalCheckIf_retiring _ _).after k)
      · exact (arrivalCheckIf_retiring _ _).after k

theorem passedOver_retiring (a : Arc) (r : Sector) (b : Bool) (s : State) : Retires s ((passedOver a r b s).1) := by
  unfold passedOver
  split
  · exact tripRequest_retiring _ _ s
  · dsimp only
    have k : Retires s (match holdMet a r b s with | some h => arriveHold h r.start s | none => s) := by
      split
      · exact arriveHold_retiring _ _ s
      · exact Retires.of rfl rfl rfl
    split
    · exact (tripRequest_retiring _ _ _).after k
    · exact k

theorem passageChecks_retiring (b : Bool) (a : Option Arc) (r : Option Sector) (c : Bool) (s : State) : Retires s ((passageChecks b a r c s).1) := by
  unfold passageChecks
  split
  · split
    · exact passedOver_retiring _ _ _ s
    · exact Retires.of rfl rfl rfl
  · exact Retires.of rfl rfl rfl

/-- In a lawful plan a start angle names one record. -/
theorem PlanLawful.eq_of_start {p : List Sector} (h : PlanLawful p) {q r : Sector} (hq : q ∈ p) (hr : r ∈ p)
    (e : q.start = r.start) : q = r := by
  have k := h.2.1
  clear h
  induction p with
  | nil => simp at hq
  | cons a l ih =>
    rw [List.pairwise_cons] at k
    rcases List.mem_cons.mp hq with rfl | hq' <;> rcases List.mem_cons.mp hr with rfl | hr'
    · rfl
    · have := (k.1 r hr').1
      simp only [Config.minWidth] at this
      omega
    · have := (k.1 q hq').1
      simp only [Config.minWidth] at this
      omega
    · exact ih hq' hr' k.2

theorem covering_mem {p : List Sector} {a : Nat} {c : Sector} (h : covering p a = some c) : c ∈ p := by
  unfold covering at h
  cases k : (p.filter (·.start ≤ a)).getLast? with
  | some d =>
    rw [k] at h
    obtain rfl : d = c := by simpa using h
    exact (List.mem_filter.mp (List.mem_of_getLast? k)).1
  | none =>
    rw [k] at h
    exact List.mem_of_getLast? (by simpa using h)

/-- Where step 1 of R32 stores an angle, step 2 leaves no RETIRING record but the covering one (R21). -/
theorem leaveRetiring_lawful_at {s : State} {angle : Nat} (p : PlanLawful s.plan) (h : s.RetiringLawful) {u : State}
    (hp : u.plan = s.plan) (ha : u.tracker.lastGood = some angle) (hm : u.sup.machine = s.sup.machine) :
    (leaveRetiring (covering s.plan angle) u).RetiringLawful := by
  have moving : ∀ r ∈ s.plan, r.state = .retiring → u.inMotion = true := by
    intro r hr e
    unfold State.inMotion
    rw [hm]
    exact (h r hr e).1
  have one : ∀ r ∈ s.plan, r.state = .retiring → ∀ q ∈ s.plan, q.state = .retiring → q = r := by
    intro r hr e q hq f
    have := (h r hr e).2.symm.trans (h q hq f).2
    exact (Option.some.inj this).symm
  have cu : u.coveringRecord = covering s.plan angle := by
    unfold State.coveringRecord
    rw [ha, hp]; rfl
  unfold leaveRetiring
  cases hr : retiringRecord u.plan with
  | none =>
    refine RetiringLawful.of_live fun q hq e => ?_
    have := List.find?_eq_none.mp hr q hq
    simp [e] at this
  | some r =>
    have hrm : r ∈ s.plan := hp ▸ List.mem_of_find?_eq_some hr
    have hre : r.state = .retiring := by simpa using List.find?_some hr
    cases hc : covering s.plan angle with
    | none =>
      exfalso
      unfold covering at hc
      rw [Option.or_eq_none_iff] at hc
      rw [List.getLast?_eq_none_iff.mp hc.2] at hrm
      simp at hrm
    | some c =>
      dsimp only
      split
      · rename_i e
        obtain rfl := p.eq_of_start hrm (covering_mem hc) e
        intro q hq f
        obtain rfl := one r hrm hre q (hp ▸ hq) f
        exact ⟨moving q hrm hre, cu.trans hc⟩
      · exact RetiringLawful.of_live (completeRetirement_live (c := some r) fun q hq f => by
          rw [one r hrm hre q (hp ▸ hq) f])

theorem goodSample_retiring (a : Nat) {s : State} (p : PlanLawful s.plan) : Retires s (goodSample a s) := by
  intro h
  unfold goodSample
  dsimp only
  refine (arrivalCheckIf_retiring _ _) ?_
  refine Retires.of (t := findView _ _) rfl rfl rfl ?_
  refine (passageChecks_retiring _ _ _ _ _) ?_
  refine Retires.of (by simp) (((leaveEscape_angle _ _).trans (clearServed_angle _ _)).lastGood) (by simp) ?_
  have k := leaveRetiring_lawful_at (angle := a) p h (u := { s with tracker := { s.tracker with
    lastGood := some a, angleUsed := some a, held := false, badCount := 0
    capturePending := s.tracker.capturePending || s.tracker.lastGood.isNone } }) rfl rfl rfl
  split
  · exact Retires.of rfl rfl rfl k
  · exact k

theorem takeAnswer_retiring (a : Nat) (v : Bool) {s : State} (p : PlanLawful s.plan) : Retires s (takeAnswer a v s) := by
  unfold takeAnswer
  dsimp only
  split
  · split
    · exact goodSample_retiring a (s := { s with tracker := { s.tracker with awaiting := false } }) p
    · exact badSample_retiring { s with tracker := { s.tracker with awaiting := false } }
  · exact Retires.of rfl rfl rfl

theorem missingSample_retiring (s : State) : Retires s (missingSample s) := by
  unfold missingSample
  split
  · exact badSample_retiring { s with tracker := { s.tracker with awaiting := false } }
  · exact Retires.of rfl rfl rfl

/-! ### Towers, the engine, the line and the timers -/

theorem tripIfMoving_retiring (c : TripCause) (p : Nat) (s : State) : Retires s (tripIfMoving c p s) := by
  unfold tripIfMoving
  split
  · exact tripRequest_retiring _ _ s
  · exact Retires.of rfl rfl rfl

theorem enterFaulted_retiring (p : Nat) (r : FaultReason) (s : State) : Retires s (enterFaulted p r s) := by
  refine (tripIfMoving_retiring _ _ _).after ?_
  exact Retires.of (by simp) (by simp) (by simp)

theorem enterUnrequested_retiring (p : Nat) (s : State) : Retires s (enterUnrequested p s) := by
  refine (tripIfMoving_retiring _ _ _).after ?_
  exact Retires.of (by simp) (by simp) (by simp)

theorem missLimit_retiring (p : Nat) (s : State) : Retires s (missLimit p s) := by
  refine (tripIfMoving_retiring _ _ _).after ?_
  exact Retires.of (by simp) (by simp) (by simp)

theorem pollMissed_retiring (p : Nat) (s : State) : Retires s (pollMissed p s) := by
  unfold pollMissed
  split
  · exact missLimit_retiring p s
  · split
    all_goals first | exact Retires.of rfl rfl rfl | exact Retires.of (by simp) (by simp) (by simp)

theorem judgeUndriven_retiring (p : Nat) (b : BitVec 5) (s : State) : Retires s (judgeUndriven p b s) := by
  unfold judgeUndriven
  split
  · exact enterFaulted_retiring _ _ s
  split
  · exact enterFaulted_retiring _ _ s
  split
  · exact enterUnrequested_retiring p s
  · exact Retires.of (by simp) (by simp) (by simp)

theorem judgeDriven_retiring (p : Nat) (t : Tower) (b : BitVec 5) (n : Nat) (s : State) : Retires s (judgeDriven p t b n s) := by
  unfold judgeDriven
  split
  · exact enterFaulted_retiring _ _ s
  split
  · exact enterFaulted_retiring _ _ s
  split
  · exact enterUnrequested_retiring p s
  split
  · split
    · exact enterFaulted_retiring _ _ s
    · exact Retires.of (by simp) (by simp) (by simp)
  · dsimp only
    split
    · exact enterFaulted_retiring _ _ s
    · exact Retires.of (by simp) (by simp) (by simp)

theorem judgeResetting_retiring (p : Nat) (g : ResetStage) (b : BitVec 5) (s : State) : Retires s (judgeResetting p g b s) := by
  unfold judgeResetting
  split
  · exact Retires.of rfl rfl rfl
  · exact Retires.of rfl rfl rfl
  all_goals
    split
    · exact Retires.of rfl rfl rfl
    split
    · exact enterFaulted_retiring _ _ s
    split
    · exact enterFaulted_retiring _ _ s
    · exact Retires.of (by simp) (by simp) (by simp)

theorem pollGood_retiring (p : Nat) (r : Reading) (s : State) : Retires s (pollGood p r s) := by
  have k : Retires s (s.modTower p fun t => t.store p (s.isEnd p) s.link.round r) := Retires.of (by simp) (by simp) (by simp)
  unfold pollGood
  dsimp only
  split
  · refine (judgeUndriven_retiring _ _ _).after ?_
    exact Retires.after (Retires.of (by simp) (by simp) (by simp)) k
  · exact (judgeUndriven_retiring _ _ _).after k
  · exact (judgeDriven_retiring _ _ _ _ _).after k
  · exact (judgeDriven_retiring _ _ _ _ _).after k
  · exact (judgeResetting_retiring _ _ _ _).after k
  · exact k
  · exact k

theorem pollOutcome_retiring (p : Nat) (o : LineOutcome) (s : State) : Retires s (pollOutcome p o s) := by
  unfold pollOutcome
  split
  · split
    · exact pollGood_retiring _ _ s
    · exact Retires.of rfl rfl rfl
  all_goals first | exact pollMissed_retiring p s | exact Retires.of rfl rfl rfl

theorem takeJogMet_retiring (s : State) : Retires s (takeJogMet s) := by
  unfold takeJogMet
  split
  · exact changeState_retiring _ s
  · exact Retires.of rfl rfl rfl

theorem countJogRound_retiring (j : Jog) (s : State) : Retires s (countJogRound j s) := by
  unfold countJogRound
  dsimp only
  split
  · exact (changeState_retiring _ _).after (Retires.of rfl rfl rfl)
  · exact Retires.of rfl rfl rfl

theorem takeRest_retiring (b : Bool) (s : State) : Retires s (takeRest b s) := by
  unfold takeRest
  split
  · split
    · exact changeState_retiring _ s
    · exact Retires.of rfl rfl rfl
  · split
    · exact Retires.of rfl rfl rfl
    · exact Retires.of rfl rfl rfl
  · split
    · exact countJogRound_retiring _ s
    · exact Retires.of rfl rfl rfl
  all_goals exact Retires.of rfl rfl rfl

theorem makeReports_retiring (m : Option Nat) (w j r : Bool) (s : State) : Retires s (makeReports m w j r s) := by
  have a : Retires s (match m with | some p => tripRequest .misalign (some p) s | none => s) := by
    split
    · exact tripRequest_retiring _ _ s
    · exact Retires.of rfl rfl rfl
  unfold makeReports
  dsimp only
  refine (takeRest_retiring _ _).after ?_
  split
  · refine (takeJogMet_retiring _).after ?_
    split
    · exact (tripRequest_retiring _ _ _).after a
    · exact a
  · split
    · exact (tripRequest_retiring _ _ _).after a
    · exact a

theorem computation_retiring (s : State) : Retires s (computation s) := by
  have k : Retires s (warnChecks (writeTowers (swingTarget s) s)) := Retires.of (by simp) (by simp; rfl) (by simp)
  unfold computation
  exact Retires.after (Retires.of rfl rfl rfl) ((makeReports_retiring _ _ _ _ _).after k)

theorem pollComplete_retiring (s : State) : Retires s (pollComplete s) := by
  unfold pollComplete trackerCompletes
  refine (computation_retiring _).after ?_
  refine Retires.after (t := missingSample { s with link := { s.link with phase := .service } })
    (Retires.of (by simp) (handOver_lastGood _) (by simp)) ?_
  exact missingSample_retiring { s with link := { s.link with phase := .service } }

theorem settlePoll_retiring (s : State) : Retires s (settlePoll s) := by
  unfold settlePoll
  split
  · exact pollComplete_retiring s
  · exact Retires.of rfl rfl rfl

theorem foldl_retiring {α : Type} (g : State → α → State) (h : ∀ s a, Retires s (g s a)) (l : List α) (s : State) :
    Retires s (l.foldl g s) := by
  induction l generalizing s with
  | nil => exact Retires.of rfl rfl rfl
  | cons a l ih => exact (ih (g s a)).after (h s a)

theorem skipPolls_retiring (p : Nat) (s : State) : Retires s (skipPolls p s) := by
  unfold skipPolls
  dsimp only
  exact (pollComplete_retiring _).after (foldl_retiring _ (fun s q => pollOutcome_retiring q .skipped s) _ s)

theorem pollBegins_retiring (s : State) : Retires s (pollBegins s) := by
  unfold pollBegins
  repeat' split
  all_goals first | exact skipPolls_retiring _ s | exact Retires.of rfl rfl rfl

theorem deliver_retiring (x : Exchange) (o : LineOutcome) (s : State) : Retires s (deliver x o s) := by
  unfold deliver
  split
  · exact Retires.of rfl rfl rfl
  · split
    · exact pollOutcome_retiring _ _ s
    · exact Retires.of (by simp) (by simp) (by simp)
    · exact Retires.of (by simp) (by simp) (by simp)

theorem endExchange_retiring (x : Exchange) (o : LineOutcome) (s : State) : Retires s (endExchange x o s) := by
  have k := deliver_retiring x o { s with link := { s.link with exchange := none } }
  unfold endExchange
  dsimp only
  split
  · exact (pollComplete_retiring _).after k
  · exact k

theorem windowCloses_retiring (x : Exchange) (s : State) : Retires s (windowCloses x s) := endExchange_retiring x _ s

theorem reservationEnds_retiring (x : Exchange) (s : State) : Retires s (reservationEnds x s) := endExchange_retiring x _ s

theorem replyArrives_retiring (b : List Byte) (x : Exchange) (s : State) : Retires s (replyArrives b x s) :=
  endExchange_retiring x _ s

theorem replyBreaksOff_retiring (s : State) : Retires s (replyBreaksOff s) := by
  unfold replyBreaksOff
  split
  · exact endExchange_retiring _ _ s
  · exact Retires.of rfl rfl rfl

theorem breakBegins_retiring (s : State) : Retires s (breakBegins s) := by
  unfold breakBegins
  split
  · exact settlePoll_retiring { s with link := s.link.breakOnFree }
  · split
    · exact Retires.of rfl rfl rfl
    · exact Retires.of rfl rfl rfl
  · exact Retires.of rfl rfl rfl
  · exact Retires.of rfl rfl rfl

theorem breakEnds_retiring (s : State) : Retires s (breakEnds s) := by
  unfold breakEnds
  exact settlePoll_retiring { s with link := { s.link with brk := .none } }

theorem endRound_retiring (s : State) : Retires s (endRound s) := by
  unfold endRound
  repeat' split
  all_goals first | exact skipPolls_retiring _ s | exact Retires.of rfl rfl rfl

theorem startTimerStarts_retiring (s : State) : Retires s (startTimerStarts s) := by
  unfold startTimerStarts
  split
  · exact changeState_retiring _ s
  · exact Retires.of rfl rfl rfl

theorem acceptStart_retiring (d : Direction) (e : Option Nat) (s : State) : Retires s (acceptStart d e s) := by
  unfold acceptStart
  refine (startTimerStarts_retiring _).after ?_
  refine Retires.after (t := changeState .starting (faceStart d e s)) (Retires.of rfl rfl rfl) ?_
  exact (changeState_retiring _ _).after (faceStart_retiring d e s)

theorem acceptJog_retiring (j : Jog) (s : State) : Retires s (acceptJog j s) := by
  unfold acceptJog
  dsimp only
  exact Retires.after (Retires.of (by simp) (by simp) (by simp)) (changeState_retiring .jogging s)

theorem reversalExpires_retiring (s : State) : Retires s (reversalExpires s) := by
  unfold reversalExpires
  refine (changeState_retiring _ _).after ?_
  exact changeDirection_retiring _ s

theorem loopChanges_retiring (b : Bool) (s : State) : Retires s (loopChanges b s) := by
  unfold loopChanges
  dsimp only
  split
  · exact tripRequest_retiring _ _ { s with sup := { s.sup with loopClosed := b } }
  · exact Retires.of rfl rfl rfl

theorem goOnline_retiring (s : State) : Retires s (goOnline s) := by
  unfold goOnline
  dsimp only
  exact (startRound_retiring _).after (changeState_retiring .standby s)

theorem goOffline_retiring (s : State) : Retires s (goOffline s) := fun h =>
  RetiringLawful.of_live (changeState_live rfl h)

theorem stepStart_retiring (s : State) : Retires s (stepStart s) := by
  unfold stepStart
  repeat' split
  all_goals first | exact changeState_retiring _ s | exact Retires.of rfl rfl rfl

theorem stepDwell_retiring (s : State) : Retires s (stepDwell s) := by
  unfold stepDwell
  repeat' split
  all_goals first | exact dwellExpires_retiring s | exact Retires.of rfl rfl rfl

theorem stepReversal_retiring (s : State) : Retires s (stepReversal s) := by
  unfold stepReversal
  repeat' split
  all_goals first | exact reversalExpires_retiring s | exact Retires.of rfl rfl rfl

theorem stepReset_retiring (p : Nat) (s : State) : Retires s (stepReset p s) := by
  unfold stepReset
  split
  · exact Retires.of rfl rfl rfl
  · split
    · exact enterFaulted_retiring _ _ s
    · exact Retires.of (by simp) (by simp) (by simp)

theorem stepTimers_retiring (s : State) : Retires s (stepTimers s) := by
  unfold stepTimers
  exact (foldl_retiring _ (fun s p => stepReset_retiring p s) _ _).after
    ((stepReversal_retiring _).after ((stepDwell_retiring _).after (stepStart_retiring s)))

theorem lineRuns_retiring (n : Nat) (s : State) : Retires s (lineRuns n s) := by
  unfold lineRuns
  split <;> exact Retires.of rfl rfl rfl

theorem runSteps_retiring (going : State → Bool) (k n : Nat) (s : State) : Retires s (runSteps going k n s) := by
  induction k generalizing n s with
  | zero => exact lineRuns_retiring _ _
  | succ k ih =>
    have t : Retires s (stepTimers (lineRuns s.link.toStep s)) := (stepTimers_retiring _).after (lineRuns_retiring _ s)
    unfold runSteps
    dsimp only
    split
    · exact lineRuns_retiring _ _
    · split
      · exact (ih _ _).after t
      · exact t

theorem timePasses_retiring (n : Nat) (s : State) : Retires s (timePasses n s) := runSteps_retiring _ _ _ _

theorem timePassesWhile_retiring (going : State → Bool) (n : Nat) (s : State) : Retires s (timePassesWhile going n s) :=
  runSteps_retiring _ _ _ _

theorem lineFallsIdle_retiring (s : State) : Retires s (lineFallsIdle s) := by
  unfold lineFallsIdle
  split <;> exact Retires.of rfl rfl rfl

theorem breakDue_retiring (s : State) : Retires s (breakDue s) := by
  unfold breakDue
  repeat' split
  all_goals first | exact breakBegins_retiring s | exact breakEnds_retiring s | exact Retires.of rfl rfl rfl

theorem atMoment_retiring {act : Exchange → State → State} (k : ∀ x s, Retires s (act x s)) (st : ExStep)
    (moment : Exchange → Nat) (s : State) : Retires s (atMoment st moment act s) := by
  unfold atMoment
  split
  · dsimp only
    split
    · exact (k _ _).after (timePassesWhile_retiring _ _ s)
    · exact (breakDue_retiring _).after (timePassesWhile_retiring _ _ s)
  · exact Retires.of rfl rfl rfl

theorem breakSent_retiring (s : State) : Retires s (breakSent s) := by
  unfold breakSent
  split
  · exact (breakEnds_retiring _).after (timePasses_retiring _ s)
  all_goals exact Retires.of rfl rfl rfl

theorem roundPasses_retiring (s : State) : Retires s (roundPasses s) := by
  have t := timePassesWhile_retiring (fun u => u.link.free) s.link.remaining s
  unfold roundPasses
  dsimp only
  split
  · exact t
  · exact (timePasses_retiring _ _).after ((breakSent_retiring _).after t)

theorem exchangeDue_retiring (s : State) : Retires s (exchangeDue s) := by
  unfold exchangeDue
  split
  · exact Retires.of rfl rfl rfl
  · split
    all_goals split
    all_goals
      first
      | exact windowCloses_retiring _ s
      | exact reservationEnds_retiring _ s
      | exact Retires.of rfl rfl rfl

theorem characterTime_retiring (s : State) : Retires s (characterTime s) :=
  (breakDue_retiring _).after ((exchangeDue_retiring _).after (timePasses_retiring 1 s))

/-! ### The covering record of a changed plan -/

/-- The covering record stands at the greatest start angle not above the angle, or, where there is none, at the greatest of
all (R7). -/
theorem covering_greatest {p : List Sector} (h : PlanLawful p) {a : Nat} {c : Sector} (k : covering p a = some c) :
    (c.start ≤ a ∧ ∀ q ∈ p, q.start ≤ a → q.start ≤ c.start)
      ∨ ((∀ q ∈ p, a < q.start) ∧ ∀ q ∈ p, q.start ≤ c.start) := by
  unfold covering at k
  cases hl : (p.filter (·.start ≤ a)).getLast? with
  | some d =>
    rw [hl] at k
    obtain rfl : d = c := by simpa using k
    have m := (List.mem_filter.mp (List.mem_of_getLast? hl)).2
    exact Or.inl ⟨by simpa using m, fun q hq hle => getLast?_filter_le h.2.1 hl hq (by simpa using hle)⟩
  | none =>
    rw [hl] at k
    have e := List.getLast?_eq_none_iff.mp hl
    refine Or.inr ⟨fun q hq => ?_, fun q hq => getLast?_filter_le (f := fun _ => true) h.2.1 (by simpa using k) hq rfl⟩
    by_contra n
    have : q ∈ p.filter (·.start ≤ a) := List.mem_filter.mpr ⟨hq, by simpa using n⟩
    rw [e] at this
    simp at this

theorem covering_of_greatest {p : List Sector} (h : PlanLawful p) {a : Nat} {c : Sector} (hc : c ∈ p)
    (k : (c.start ≤ a ∧ ∀ q ∈ p, q.start ≤ a → q.start ≤ c.start)
      ∨ ((∀ q ∈ p, a < q.start) ∧ ∀ q ∈ p, q.start ≤ c.start)) : covering p a = some c := by
  cases e : covering p a with
  | none =>
    exfalso
    unfold covering at e
    rw [Option.or_eq_none_iff] at e
    rw [List.getLast?_eq_none_iff.mp e.2] at hc
    simp at hc
  | some d =>
    have hd := covering_mem e
    have g := covering_greatest h e
    refine congrArg some (h.eq_of_start hd hc ?_)
    rcases g with ⟨g1, g2⟩ | ⟨g1, g2⟩ <;> rcases k with ⟨k1, k2⟩ | ⟨k1, k2⟩
    · have := g2 c hc k1
      have := k2 d hd g1
      omega
    · have := k1 d hd
      omega
    · have := g1 c hc
      omega
    · have := g2 c hc
      have := k2 d hd
      omega

/-- A covering record still covers its angle when other records leave. -/
theorem covering_sublist {p q : List Sector} (h : PlanLawful p) (k : q.Sublist p) {a : Nat} {c : Sector}
    (hc : covering p a = some c) (m : c ∈ q) : covering q a = some c := by
  refine covering_of_greatest (h.sublist k) m ?_
  rcases covering_greatest h hc with ⟨g1, g2⟩ | ⟨g1, g2⟩
  · exact Or.inl ⟨g1, fun x hx => g2 x (k.subset hx)⟩
  · exact Or.inr ⟨fun x hx => g1 x (k.subset hx), fun x hx => g2 x (k.subset hx)⟩

theorem insertRecord_subset (r : Sector) (p : List Sector) : r ∈ insertRecord r p ∧ ∀ q ∈ p, q ∈ insertRecord r p := by
  induction p with
  | nil => exact ⟨List.mem_cons_self, by simp⟩
  | cons b l ih =>
    unfold insertRecord
    split
    · exact ⟨List.mem_cons_self, fun q hq => List.mem_cons_of_mem _ hq⟩
    · refine ⟨List.mem_cons_of_mem _ ih.1, fun q hq => ?_⟩
      rcases List.mem_cons.mp hq with rfl | hq'
      · exact List.mem_cons_self
      · exact List.mem_cons_of_mem _ (ih.2 q hq')

/-- A covering record still covers its angle when a record is put that splits another one. -/
theorem covering_insertRecord {p : List Sector} {r : Sector} (h : PlanLawful p) (hi : PlanLawful (insertRecord r p)) {a : Nat}
    {c : Sector} (hc : covering p a = some c) (n : covering p r.start ≠ some c) : covering (insertRecord r p) a = some c := by
  have m := covering_mem hc
  refine covering_of_greatest hi ((insertRecord_subset r p).2 c m) ?_
  rcases covering_greatest h hc with ⟨g1, g2⟩ | ⟨g1, g2⟩
  · refine Or.inl ⟨g1, fun q hq hle => ?_⟩
    rcases mem_insertRecord hq with rfl | hq'
    · by_contra lt
      exact n (covering_of_greatest h m (Or.inl ⟨by omega, fun x hx hxle => g2 x hx (by omega)⟩))
    · exact g2 q hq' hle
  · have lt : a < r.start := by
      by_contra ge
      exact n (covering_of_greatest h m (Or.inr ⟨fun x hx => by have := g1 x hx; omega, g2⟩))
    have le : r.start ≤ c.start := by
      by_contra gt
      exact n (covering_of_greatest h m (Or.inl ⟨by omega, fun x hx _ => g2 x hx⟩))
    refine Or.inr ⟨fun q hq => ?_, fun q hq => ?_⟩
    · rcases mem_insertRecord hq with rfl | hq'
      · exact lt
      · exact g1 q hq'
    · rcases mem_insertRecord hq with rfl | hq'
      · exact le
      · exact g2 q hq'

/-- A record replaced in its place covers what the record before it covered. -/
theorem covering_replaceRecord (r : Sector) (p : List Sector) (a : Nat) :
    covering (replaceRecord r p) a = (covering p a).map fun q => if q.start = r.start then r else q := by
  have e : ((fun q : Sector => decide (q.start ≤ a)) ∘ fun q : Sector => if q.start = r.start then r else q)
      = fun q => decide (q.start ≤ a) := by
    funext q
    show decide ((if q.start = r.start then r else q).start ≤ a) = _
    split
    · rename_i h; rw [h]
    · rfl
  unfold covering replaceRecord
  rw [List.filter_map, e, List.getLast?_map, List.getLast?_map]
  cases (p.filter (·.start ≤ a)).getLast? <;> simp

/-! ### The commands -/

/-- What a command does to the third law of the plan, given the first. -/
abbrev RetiringKept (s t : State) : Prop := PlanLawful s.plan → Retires s t

theorem RetiringKept.refl (s : State) : RetiringKept s s := fun _ => id

theorem RetiringKept.of {s t : State} (hp : t.plan = s.plan) (ha : t.tracker.lastGood = s.tracker.lastGood)
    (hm : t.sup.machine = s.sup.machine) : RetiringKept s t := fun _ => Retires.of hp ha hm

theorem sectorPut_retiring (r : Sector) (l : r.state = .live) (s : State) : RetiringKept s (sectorPut r s).1 := by
  intro p h
  have new := sectorPut_plan r s p
  unfold sectorPut at *
  (repeat' split) <;> try exact h
  rename_i hv hk hl hi hw hu
  simp only [hv, hk, hl, hi, hw, hu, if_false] at new
  intro q hq e
  rcases mem_insertRecord hq with rfl | hq'
  · rw [l] at e; cases e
  · obtain ⟨m, c⟩ := h q hq' e
    refine ⟨m, ?_⟩
    unfold State.coveringRecord at *
    cases ha : s.tracker.lastGood with
    | none => rw [ha] at c; cases c
    | some a =>
      rw [ha] at c
      refine covering_insertRecord p new c fun x => hi ?_
      unfold insideRetiring
      rw [x]
      simp [Sector.isRetiring, e]

theorem heldAmended_retiring (r : Sector) (cs : List Change) (s : State) : Retires s (heldAmended r cs s) := by
  unfold heldAmended
  repeat' split
  all_goals
    first
    | exact startDwell_retiring _ s
    | exact changeState_retiring _ s
    | exact Retires.of rfl rfl rfl

theorem amended_state (r : Sector) (cs : List Change) : (r.amended cs).state = r.state := by
  have one : ∀ (q : Sector) (c : Change), (q.applyChange c).state = q.state := by intro q c; cases c <;> rfl
  have all : ∀ (cs : List Change) (q : Sector), (cs.foldl Sector.applyChange q).state = q.state := by
    intro cs
    induction cs with
    | nil => intro q; rfl
    | cons c cs ih => intro q; rw [List.foldl_cons, ih, one]
  unfold Sector.amended
  simp only
  split
  · exact all cs r
  · unfold Sector.dropDisallowed
    split <;> exact all cs r

/-- A LIVE record put in the place of another keeps the law. -/
theorem replaceRecord_retiring {r : Sector} (l : r.state = .live) (s : State) :
    Retires s { s with plan := replaceRecord r s.plan } := by
  intro h q hq e
  obtain ⟨x, hx, rfl⟩ := List.mem_map.mp hq
  by_cases k : x.start = r.start
  · rw [if_pos k, l] at e; cases e
  · rw [if_neg k] at e ⊢
    obtain ⟨m, c⟩ := h x hx e
    refine ⟨m, ?_⟩
    unfold State.coveringRecord at *
    cases ha : s.tracker.lastGood with
    | none => rw [ha] at c; cases c
    | some a =>
      rw [ha] at c
      show covering (replaceRecord r s.plan) a = some x
      rw [covering_replaceRecord, show covering s.plan a = some x from c]
      exact congrArg some (if_neg k)

theorem sectorAmend_retiring (a : Amendment) (s : State) : RetiringKept s (sectorAmend a s).1 := by
  intro _
  unfold sectorAmend
  split
  · exact id
  split
  · exact id
  rename_i r _
  unfold amendRecord
  (repeat' split) <;> try exact id
  rename_i hr _ _ _
  have l : r.state = .live := by
    unfold Sector.isRetiring at hr
    cases k : r.state
    · rfl
    · rw [k] at hr; exact absurd rfl hr
  have k := replaceRecord_retiring (r := { r.amended a.changes with revision := (r.revision + 1) % 256 })
    ((amended_state r a.changes).trans l) s
  unfold acceptAmendment
  dsimp only
  split
  · exact (heldAmended_retiring _ _ _).after k
  · exact k

theorem removeRecord_retiring (key : Nat) (s : State) : RetiringKept s (removeRecord key s) := by
  intro p h q hq e
  have hq' := (removeRecord_shrinks key s).subset hq
  obtain ⟨m, c⟩ := h q hq' e
  refine ⟨m, ?_⟩
  unfold State.coveringRecord at *
  cases ha : s.tracker.lastGood with
  | none => rw [ha] at c; cases c
  | some a =>
    rw [ha] at c
    show s.tracker.lastGood.bind (covering (removeRecord key s).plan) = some q
    rw [ha]
    exact covering_sublist p (removeRecord_shrinks key s) c hq

theorem sectorRetire_retiring (key : Nat) (s : State) : RetiringKept s (sectorRetire key s).1 := by
  intro p
  unfold sectorRetire
  split
  · exact id
  split
  · exact id
  rename_i r hr
  unfold retireRecord
  (repeat' split) <;> try exact id
  · rename_i hu
    simp only [Bool.and_eq_true] at hu
    intro h q hq e
    obtain ⟨x, hx, rfl⟩ := List.mem_map.mp hq
    refine ⟨hu.1, ?_⟩
    have act := hu.2
    unfold State.isActive State.coveringRecord at act
    unfold State.coveringRecord
    cases ha : s.tracker.lastGood with
    | none => rw [ha] at act; simp at act
    | some a =>
      rw [ha] at act
      simp only [Option.bind_some] at act
      show s.tracker.lastGood.bind (covering (replaceRecord { r with state := .retiring } s.plan)) = _
      rw [ha]
      show covering (replaceRecord { r with state := .retiring } s.plan) a = _
      rw [covering_replaceRecord]
      cases hc : covering s.plan a with
      | none => rw [hc] at act; simp at act
      | some c =>
        rw [hc] at act
        have ce : c.start = r.start := by simpa using act
        by_cases k : x.start = r.start
        · simp [k, ce]
        · exfalso
          simp only [k, if_false] at e
          have := (h x hx e).2
          unfold State.coveringRecord at this
          rw [ha] at this
          have : covering s.plan a = some x := this
          rw [hc] at this
          obtain rfl := Option.some.inj this
          exact k ce
  · exact removeRecord_retiring _ s p

theorem sectorClear_retiring (s : State) : RetiringKept s (sectorClear s).1 := by
  unfold sectorClear
  split
  · exact RetiringKept.refl s
  · exact fun _ _ => RetiringLawful.of_live fun _ h => absurd h List.not_mem_nil

theorem restartBlocks_retiring (s : State) : RetiringKept s (restartBlocks s) := fun _ _ =>
  RetiringLawful.of_live fun r hr e => by
    have := (List.mem_filter.mp (show r ∈ livePlan s.plan from hr)).2
    simp [Sector.isRetiring, e] at this

theorem motionSetup_retiring (m : MotionSettings) (s : State) : RetiringKept s (motionSetup m s).1 := by
  unfold motionSetup
  split <;> exact RetiringKept.of rfl rfl rfl

theorem towerSet_retiring (c : TowerSetting) (s : State) : RetiringKept s (towerSet c s).1 := by
  unfold towerSet
  (repeat' split) <;> exact RetiringKept.of (by simp) (by simp) (by simp)

theorem towerTrim_retiring (c : Nat × Int) (s : State) : RetiringKept s (towerTrim c s).1 := by
  unfold towerTrim
  (repeat' split) <;> exact RetiringKept.of (by simp) (by simp) (by simp)

theorem towerGet_retiring (p : Nat) (s : State) : RetiringKept s (towerGet p s).1 := by
  unfold towerGet
  (repeat' split) <;> exact RetiringKept.of rfl rfl rfl

theorem towerAck_retiring (c : Nat × BitVec 5) (s : State) : RetiringKept s (towerAck c s).1 := by
  unfold towerAck
  (repeat' split) <;> exact RetiringKept.of (by simp) (by simp) (by simp)

theorem towerReset_retiring (p : Nat) (s : State) : RetiringKept s (towerReset p s).1 := by
  unfold towerReset
  (repeat' split) <;> exact RetiringKept.of (by simp) (by simp) (by simp)

theorem linkSetup_retiring (l : LinkSettings) (s : State) : RetiringKept s (linkSetup l s).1 := by
  unfold linkSetup
  (repeat' split) <;> exact RetiringKept.of rfl rfl rfl

theorem alignTune_retiring (t : Tune) (s : State) : RetiringKept s (alignTune t s).1 := by
  unfold alignTune
  split <;> exact RetiringKept.of rfl rfl rfl

theorem svcSubmit_retiring (c : Submission) (s : State) : RetiringKept s (svcSubmit c s).1 := by
  unfold svcSubmit
  (repeat' split) <;> exact RetiringKept.of rfl rfl rfl

theorem svcResult_retiring (n : Nat) (s : State) : RetiringKept s (svcResult n s).1 := by
  unfold svcResult
  (repeat' split) <;> exact RetiringKept.of rfl rfl rfl

theorem svcCancel_retiring (n : Nat) (s : State) : RetiringKept s (svcCancel n s).1 := by
  unfold svcCancel
  (repeat' split) <;> exact RetiringKept.of rfl rfl rfl

theorem timingSetup_retiring (c : Nat × Nat) (s : State) : RetiringKept s (timingSetup c s).1 := by
  unfold timingSetup
  split <;> exact RetiringKept.of rfl rfl rfl

theorem online_retiring (s : State) : RetiringKept s (online s).1 := by
  intro _
  unfold online
  (repeat' split) <;> first | exact id | exact goOnline_retiring s

theorem offline_retiring (s : State) : RetiringKept s (offline s).1 := by
  intro _
  unfold offline
  (repeat' split) <;> first | exact id | exact goOffline_retiring s

theorem start_retiring (d : Direction) (s : State) : RetiringKept s (start d s).1 := by
  intro _
  unfold start startAt
  (repeat' split) <;> first | exact id | exact acceptStart_retiring d _ s

theorem stop_retiring (s : State) : RetiringKept s (stop s).1 := by
  intro _
  unfold stop
  split <;> first | exact id | exact changeState_retiring _ s

theorem pause_retiring (s : State) : RetiringKept s (pause s).1 := by
  intro _
  unfold pause
  split
  · exact Retires.after (Retires.of rfl rfl rfl) (changeState_retiring .holding s)
  · exact Retires.of rfl rfl rfl
  all_goals exact id

theorem continueRun_retiring (s : State) : RetiringKept s (continueRun s).1 := by
  intro _
  unfold continueRun
  split <;> first | exact id | exact changeState_retiring _ s

theorem reverse_retiring (s : State) : RetiringKept s (reverse s).1 := by
  intro _
  unfold reverse
  split <;> first | exact id | exact beginReversal_retiring s

theorem jog_retiring (j : Jog) (s : State) : RetiringKept s (jog j s).1 := by
  intro _
  unfold jog
  (repeat' split) <;> first | exact id | exact acceptJog_retiring j s

theorem estop_retiring (s : State) : RetiringKept s (estop s).1 := by
  intro _
  unfold estop
  split
  · exact id
  · exact requestBreak_retiring s
  all_goals exact tripRequest_retiring _ _ s

theorem clearTrip_retiring (s : State) : RetiringKept s (clearTrip s).1 := by
  intro _
  unfold clearTrip
  split
  · exact changeState_retiring .standby { s with sup := { s.sup with trip := none } }
  · exact id

/-- SECTOR_PUT's payload gives a LIVE record (R13). -/
theorem decodeSector_live {payload : List Byte} {r : Sector} (h : decodeSector payload = some r) : r.state = .live := by
  unfold decodeSector at h
  split at h
  · split at h
    · cases h
    · split at h
      · rw [← Option.some.inj h]
      · cases h
  · cases h

theorem sectorPutHandler_retiring : sectorPutHandler.Relates RetiringKept := by
  intro payload s
  unfold sectorPutHandler decodedHandler
  split
  · rename_i r hr
    exact sectorPut_retiring r (decodeSector_live hr) s
  · exact RetiringKept.refl s

/-- No command breaks the third law of the plan. -/
theorem handlerOf_retiring {code : Byte} {h : Handler} (k : handlerOf code = some h) : h.Relates RetiringKept :=
  handlerOf_induct (P := fun h => h.Relates RetiringKept)
    (plainHandler_relates RetiringKept.refl fun s => RetiringKept.refl s)
    (plainHandler_relates RetiringKept.refl fun s => RetiringKept.refl s)
    (plainHandler_relates RetiringKept.refl restartBlocks_retiring)
    sectorPutHandler_retiring
    (decodedHandler_relates RetiringKept.refl sectorAmend_retiring)
    (decodedHandler_relates RetiringKept.refl sectorRetire_retiring)
    (decodedHandler_relates RetiringKept.refl fun _ s => RetiringKept.refl s)
    (decodedHandler_relates RetiringKept.refl fun _ s => RetiringKept.refl s)
    (decodedHandler_relates RetiringKept.refl fun _ s => RetiringKept.refl s)
    (plainHandler_relates RetiringKept.refl sectorClear_retiring)
    (decodedHandler_relates RetiringKept.refl motionSetup_retiring)
    (decodedHandler_relates RetiringKept.refl towerSet_retiring)
    (decodedHandler_relates RetiringKept.refl towerTrim_retiring)
    (decodedHandler_relates RetiringKept.refl towerGet_retiring)
    (decodedHandler_relates RetiringKept.refl towerAck_retiring)
    (decodedHandler_relates RetiringKept.refl towerReset_retiring)
    (decodedHandler_relates RetiringKept.refl linkSetup_retiring)
    (decodedHandler_relates RetiringKept.refl alignTune_retiring)
    (plainHandler_relates RetiringKept.refl online_retiring)
    (plainHandler_relates RetiringKept.refl offline_retiring)
    (decodedHandler_relates RetiringKept.refl start_retiring)
    (plainHandler_relates RetiringKept.refl stop_retiring)
    (plainHandler_relates RetiringKept.refl pause_retiring)
    (plainHandler_relates RetiringKept.refl continueRun_retiring)
    (plainHandler_relates RetiringKept.refl reverse_retiring)
    (decodedHandler_relates RetiringKept.refl jog_retiring)
    (plainHandler_relates RetiringKept.refl estop_retiring)
    (plainHandler_relates RetiringKept.refl clearTrip_retiring)
    (decodedHandler_relates RetiringKept.refl timingSetup_retiring)
    (plainHandler_relates RetiringKept.refl fun s => RetiringKept.refl s)
    (decodedHandler_relates RetiringKept.refl svcSubmit_retiring)
    (decodedHandler_relates RetiringKept.refl svcResult_retiring)
    (decodedHandler_relates RetiringKept.refl svcCancel_retiring)
    (plainHandler_relates RetiringKept.refl fun s => RetiringKept.refl s)
    (decodedHandler_relates RetiringKept.refl fun _ _ => RetiringKept.of rfl rfl rfl)
    (decodedHandler_relates RetiringKept.refl fun _ _ => RetiringKept.of rfl rfl rfl)
    (decodedHandler_relates RetiringKept.refl fun _ _ => RetiringKept.of rfl rfl rfl) k

/-- Carrying out a command keeps the third law of a lawful plan. -/
theorem carryOut_retiring {code : Byte} {h : Handler} (r : h.Relates RetiringKept) (payload : List Byte) {s : State}
    (p : PlanLawful s.plan) (l : s.RetiringLawful) : (carryOut code h payload s).RetiringLawful :=
  carryOut_induct (P := fun t => t.RetiringLawful) l fun q _ _ => Retires.of rfl rfl rfl (r q s p l)

end Sys2Proof.Machine
end

