-- ==== Sys2Proof/Laws/Samples.lean ====
section
/-! SUPPORT. A good sample step by step (R32): the state before the checks of step 6, what those checks and the arrival check
make of it, and the view it ends with. -/

namespace Sys2Proof.Machine

/-- Step 1 of R32: the state with a good angle stored. -/
abbrev State.atAngle (s : State) (angle : Nat) : State :=
  { s with tracker := { s.tracker with
    lastGood := some angle, angleUsed := some angle, held := false, badCount := 0
    capturePending := s.tracker.capturePending || s.tracker.lastGood.isNone } }

/-- Steps 1 to 5 of R32, with no record RETIRING: what the checks of step 6 see. -/
abbrev State.beforeChecks (s : State) (angle : Nat) : State :=
  let c := covering s.plan angle
  clearServed c (leaveEscape c
    (if crossedAt s.tracker.activeKey c (s.tracker.lastGood.map fun a => arcBetween a angle) then noteCrossing (s.atAngle angle)
     else s.atAngle angle))

theorem leaveRetiring_of_live {s : State} (h : ∀ q ∈ s.plan, q.state = .live) (c : Option Sector) : leaveRetiring c s = s := by
  unfold leaveRetiring
  have : retiringRecord s.plan = none := List.find?_eq_none.mpr fun x hx => by simp [h x hx]
  rw [this]

/-- A good sample with no record RETIRING. -/
theorem goodSample_eq {angle : Nat} {s : State} (hl : ∀ q ∈ s.plan, q.state = .live) :
    let c := covering s.plan angle
    let arc := s.tracker.lastGood.map fun a => arcBetween a angle
    let checked := passageChecks (s.sup.machine == .running) arc c (changedRecord s.tracker.activeKey c) (s.beforeChecks angle)
    goodSample angle s = arrivalCheckIf ((s.sup.machine == .running) && !checked.2) (findView c checked.1) := by
  unfold goodSample
  simp only
  rw [leaveRetiring_of_live (by exact hl)]

/-- An answer of the angle port that is a good sample. -/
theorem next_angleSample {angle : BitVec 16} {valid : Bool} {s : State} (ha : s.tracker.awaiting = true)
    (hg : goodSample? s.tracker angle.toNat valid = true) :
    exec (.angleSample angle valid) s
      = .next (goodSample angle.toNat { s with tracker := { s.tracker with awaiting := false } }) := by
  show Host.Outcome.next (takeAnswer _ _ _) = _
  unfold takeAnswer
  rw [if_pos ha]
  dsimp only
  rw [if_pos (by exact hg)]

/-- The hold-served mark clears at a covering record that is neither of its two (R45). -/
theorem clearServed_eq (c : Sector) (s : State) :
    clearServed (some c) s = { s with tracker := { s.tracker with
      served := s.tracker.served.filter fun m => c.start = m.1 ∨ c.start = m.2 } } := by
  unfold clearServed
  rcases hs : s.tracker.served with _ | ⟨a, b⟩
  · simp only [Option.filter_none]
    cases s with | mk p t => cases t; simp_all
  · simp only
    by_cases k : c.start = a ∨ c.start = b
    · rw [if_pos k]
      simp only [Option.filter, k, decide_true, if_true]
      cases s with | mk p t => cases t; simp_all
    · rw [if_neg k]
      simp [Option.filter, k]

/-- The view found at an angle, a covering record and the record beyond it (R35, R38 to R40). -/
theorem findView_at {r n : Sector} {u : State} {angle : Nat} (ha : u.tracker.lastGood = some angle)
    (hc : covering u.plan angle = some r) (hn : nextRecord u.plan u.sup.direction r.start = some n) :
    findView (some r) u
      = { u with tracker := { u.tracker with view := some (u.viewToward u.tracker.served angle r n) } } := by
  unfold findView
  rw [ha, Option.bind_some, viewAt_eq hc hn]
  rfl

theorem findView_empty {u : State} (h : u.plan = []) : findView none u = { u with tracker := { u.tracker with view := none } } := by
  unfold findView viewAt
  rw [h]
  cases u.tracker.lastGood <;> simp [covering]

/-! ### Before the checks -/

theorem leaveEscape_arrives (c : Option Sector) (s : State) : Arrives s (leaveEscape c s) := by
  unfold leaveEscape markServed
  (repeat' split) <;> exact ⟨⟨rfl, rfl, rfl, rfl, rfl, rfl⟩, rfl, rfl, rfl, rfl, rfl, rfl, rfl, id, fun _ => id⟩

theorem clearServed_arrives (c : Option Sector) (s : State) : Arrives s (clearServed c s) := by
  unfold clearServed
  (repeat' split) <;> exact ⟨⟨rfl, rfl, rfl, rfl, rfl, rfl⟩, rfl, rfl, rfl, rfl, rfl, rfl, rfl, id, fun _ => id⟩

/-- Steps 3 to 5 touch the marks of the tracker alone. -/
theorem beforeChecks_arrives (angle : Nat) (s : State) : Arrives (s.atAngle angle) (s.beforeChecks angle) := by
  refine Arrives.trans ?_ ((leaveEscape_arrives _ _).trans (clearServed_arrives _ _))
  split
  · exact ⟨⟨rfl, rfl, rfl, rfl, rfl, rfl⟩, rfl, rfl, rfl, rfl, rfl, rfl, rfl, id, fun g => isSet_raise_mono .sectorCrossed g _⟩
  · exact Arrives.refl _

@[simp] theorem beforeChecks_sup (angle : Nat) (s : State) : (s.beforeChecks angle).sup = s.sup := by
  simp only [State.beforeChecks, clearServed_sup, leaveEscape_sup]
  split <;> rfl

@[simp] theorem beforeChecks_tune (angle : Nat) (s : State) : (s.beforeChecks angle).tune = s.tune := by
  simp only [State.beforeChecks, clearServed_tune, leaveEscape_tune]
  split <;> rfl

@[simp] theorem beforeChecks_free (angle : Nat) (s : State) : (s.beforeChecks angle).free = s.free := by
  simp only [State.beforeChecks, clearServed_free, leaveEscape_free]
  split <;> rfl

/-- The escape and hold-served marks before the checks, without escape (R45). -/
theorem beforeChecks_marks {angle : Nat} {s : State} (h : s.tracker.escape = none) :
    (s.beforeChecks angle).tracker.escape = none
      ∧ (s.beforeChecks angle).tracker.served = (clearServed (covering s.plan angle) s).tracker.served := by
  have e : ∀ (c : Option Sector) (u : State), u.tracker.escape = none → leaveEscape c u = u := by
    intro c u k; unfold leaveEscape; rw [k]
  have k : ∀ (c : Option Sector) (u : State), (clearServed c u).tracker.escape = u.tracker.escape := by
    intro c u; unfold clearServed; (repeat' split) <;> rfl
  have m : ∀ (c : Option Sector) (u : State), u.tracker.served = s.tracker.served →
      (clearServed c u).tracker.served = (clearServed c s).tracker.served := by
    intro c u x; unfold clearServed; rw [x]; (repeat' split) <;> first | rfl | exact x
  unfold State.beforeChecks
  dsimp only
  split <;> (rw [e _ _ (by exact h)]; exact ⟨(k _ _).trans h, m _ _ rfl⟩)

/-- Inside the BARRIER that is being left, escape stays (R49). -/
theorem beforeChecks_inside {angle b : Nat} {c : Sector} {s : State} (h : s.tracker.escape = some b)
    (hc : covering s.plan angle = some c) (e : c.start = b) : (s.beforeChecks angle).tracker.escape = some b := by
  have k : ∀ (c : Option Sector) (u : State), (clearServed c u).tracker.escape = u.tracker.escape := by
    intro c u; unfold clearServed; (repeat' split) <;> rfl
  unfold State.beforeChecks
  dsimp only
  rw [k, hc]
  split <;> (unfold leaveEscape; dsimp only [noteCrossing, raise]; rw [h]; simp [e, h])

/-- At the first good sample outside it, escape is clear, and a HOLD found there is served (R49). -/
theorem beforeChecks_outside {angle b : Nat} {c : Sector} {s : State} (h : s.tracker.escape = some b)
    (hc : covering s.plan angle = some c) (e : c.start ≠ b) :
    (s.beforeChecks angle).tracker.escape = none
      ∧ (c.kind = .hold → (s.beforeChecks angle).tracker.served = some (c.start, c.start)) := by
  have k : ∀ (c : Option Sector) (u : State), (clearServed c u).tracker.escape = u.tracker.escape := by
    intro c u; unfold clearServed; (repeat' split) <;> rfl
  unfold State.beforeChecks
  dsimp only
  rw [k, hc]
  refine ⟨?_, fun hk => ?_⟩
  · split <;> (unfold leaveEscape markServed; dsimp only [noteCrossing, raise]; rw [h]; simp only [e, if_false]; split <;> rfl)
  · rw [clearServed_eq]
    split <;> (unfold leaveEscape markServed; dsimp only [noteCrossing, raise]; rw [h]; simp [e, hk, Option.filter])

/-! ### Arrivals and trips of step 6 -/

/-- Each record of a lawful plan is found by its own start angle. -/
theorem findRecord_of_mem {p : List Sector} (h : PlanLawful p) {r : Sector} (m : r ∈ p) : findRecord p r.start = some r := by
  cases k : findRecord p r.start with
  | none => exact absurd (List.find?_eq_none.mp k r m) (by simp)
  | some q => exact congrArg some (h.eq_of_start (List.mem_of_find?_eq_some k) m (by simpa using List.find?_some k))

/-- A dwell that expires at a record with resume AUTO returns the machine to RUNNING (R137). -/
theorem dwellExpires_auto {s : State} {k : Nat} {r : Sector} (h : s.sup.hold.held = some k)
    (f : findRecord s.plan k = some r) (a : r.resume = some .auto) : dwellExpires s = changeState .running s := by
  unfold dwellExpires
  rw [h, Option.bind_some, f, Option.bind_some, a]

/-- A dwell that expires at a record with resume MANUAL leaves the machine in the hold (R137). -/
theorem dwellExpires_manual {s : State} {k : Nat} {r : Sector} (h : s.sup.hold.held = some k)
    (f : findRecord s.plan k = some r) (a : r.resume = some .manual) :
    dwellExpires s = { s with sup := { s.sup with hold := { s.sup.hold with dwell := .expired } } } := by
  unfold dwellExpires
  rw [h, Option.bind_some, f, Option.bind_some, a]

/-- The dwell timer started from the value of the held record (R136, R137). -/
theorem startDwell_held {u : State} {r : Sector} (h : u.sup.hold.held = some r.start) (f : findRecord u.plan r.start = some r)
    (hm : u.sup.machine = .holding) :
    (∀ v, r.dwell = some v → 0 < v → (startDwell (r.dwell.getD 0) u).sup = { u.sup with
      hold := { u.sup.hold with dwell := .running (10 * v) } })
    ∧ (r.dwell = some 0 → r.resume = some .auto → (startDwell (r.dwell.getD 0) u).sup = { u.sup with
      machine := .running, hold := .cleared })
    ∧ (r.dwell = some 0 → r.resume = some .manual → (startDwell (r.dwell.getD 0) u).sup = { u.sup with
      hold := { u.sup.hold with dwell := .expired } }) := by
  refine ⟨fun v hv pos => ?_, fun hz hr => ?_, fun hz hr => ?_⟩
  · rw [hv]
    simp [startDwell, Nat.pos_iff_ne_zero.mp pos]
  · rw [hz, Option.getD_some, startDwell, if_pos rfl, dwellExpires_auto h f hr, changeState_motion rfl, raise_sup]
    simp [Supervisor.moveTo, Supervisor.depart, permitAfter, MachineState.isMotion, hm]
  · rw [hz, Option.getD_some, startDwell, if_pos rfl, dwellExpires_manual h f hr]

/-- What an arrival at a HOLD record makes of a lawful RUNNING machine (R43, R136, R137). -/
theorem arriveHold_heldAt {r : Sector} {a : Nat} {s : State} (l : s.sup.Lawful) (hm : s.sup.machine = .running)
    (p : PlanLawful s.plan) (m : r ∈ s.plan) : (arriveHold r a s).HeldAt s r a := by
  have mv : s.sup.moveTo .holding = { s.sup with machine := .holding } := by
    simp [Supervisor.moveTo, Supervisor.depart, hm, permitAfter, MachineState.isMotion]
  have hc : s.sup.hold = .cleared := by
    by_contra k; have := l.2.2.2.1 k; rw [hm] at this; cases this
  have e : arriveAtHold r (raise .arrival (markServed r.start a s)) =
      startDwell (r.dwell.getD 0) { raise .machineState { raise .arrival (markServed r.start a s) with
        sup := { s.sup with machine := .holding } } with
        sup := { s.sup with machine := .holding, hold := { held := some r.start, dwell := .stopped } } } := by
    unfold arriveAtHold
    rw [changeState_motion rfl]
    simp only [raise_sup, markServed_sup, mv]
  have flag : ∀ {t : State} {n : Nat}, t.ev.isSet .arrival = true → t.ev.isSet .machineState = true →
      t.tracker.served = some (r.start, a) →
      (startDwell n t).tracker.served = some (r.start, a) ∧ (startDwell n t).ev.isSet .arrival = true
        ∧ (startDwell n t).ev.isSet .machineState = true := by
    intro t n f1 f2 f3
    refine ⟨?_, (startDwell_arrives n t).flags _ f1, (startDwell_arrives n t).flags _ f2⟩
    unfold startDwell dwellExpires
    (repeat' split) <;> exact f3
  unfold State.HeldAt arriveHold
  rw [e]
  obtain ⟨f1, f2, f3⟩ := flag (n := r.dwell.getD 0)
    (t := { raise .machineState { raise .arrival (markServed r.start a s) with
        sup := { s.sup with machine := .holding } } with
        sup := { s.sup with machine := .holding, hold := { held := some r.start, dwell := .stopped } } })
    (isSet_raise_mono _ _ _ (isSet_raise_self _ _)) (isSet_raise_self _ _) rfl
  obtain ⟨k1, k2, k3⟩ := startDwell_held (r := r)
    (u := { raise .machineState { raise .arrival (markServed r.start a s) with
        sup := { s.sup with machine := .holding } } with
        sup := { s.sup with machine := .holding, hold := { held := some r.start, dwell := .stopped } } }) rfl
    (findRecord_of_mem p m) rfl
  refine ⟨f1, f2, f3, fun v hv pos => (k1 v hv pos).trans rfl, fun hz hr => (k2 hz hr).trans ?_, fun hz hr => (k3 hz hr).trans rfl⟩
  simp [Hold.cleared, hm]

/-- The OVERRUN trip of R46 and R47, from the state before the checks or after an arrival in it. -/
theorem overrun_trippedBy {s w u : State} (h : Arrives w u) (hm : u.inMotion = true) (l : u.sup.Lawful) (t : u.TowersLawful)
    (ht : u.tune = w.tune) (hf : u.free = w.free) (k : Arrives s w) (kt : w.tune = s.tune) (kf : w.free = s.free) :
    (tripRequest .overrun none u).TrippedBy s .overrun none := by
  have a := k.trans h
  exact trippedBy .overrun none hm l t a.link a.angle.lastGood a.angle.settings a.direction a.startDelay a.reversalDelay
    (by rw [a.plan]) (ht.trans kt) (hf.trans kf) fun p _ _ => tower_congr a.roster p

/-! ### Records met, the active key and escape after the checks -/

theorem nextRecord_mem {p : List Sector} {d : Direction} {k : Nat} {n : Sector} (h : nextRecord p d k = some n) : n ∈ p := by
  unfold nextRecord successor predecessor at h
  split at h <;> (rw [Option.or_eq_some_iff] at h; rcases h with h | ⟨-, h⟩)
  · exact List.mem_of_find?_eq_some h
  · exact List.mem_of_head? h
  · exact (List.mem_filter.mp (List.mem_of_getLast? h)).1
  · exact List.mem_of_getLast? h

theorem firstMet_mem {p : List Sector} {arc : Arc} {rs : List Sector} {b : Sector} (h : firstMet p arc rs = some b) : b ∈ rs := by
  have gen : ∀ (l : List Sector) (o : Option Sector), l.foldl (fun best r =>
      match best with
      | none => some r
      | some b => if arc.along (entryBoundary p arc r) < arc.along (entryBoundary p arc b) then some r else best) o = some b →
      b ∈ l ∨ o = some b := by
    intro l
    induction l with
    | nil => exact fun o k => Or.inr k
    | cons x xs ih =>
      intro o k
      rcases ih _ k with k | k
      · exact Or.inl (List.mem_cons_of_mem _ k)
      · cases o with
        | none => exact Or.inl (Option.some.inj k ▸ List.mem_cons_self)
        | some y =>
          dsimp only at k
          split at k
          · exact Or.inl (Option.some.inj k ▸ List.mem_cons_self)
          · exact Or.inr k
  rcases gen rs none h with k | k
  · exact k
  · cases k

/-- The record that checks 2 and 3 of R46 act on is one of the table, or the covering one. -/
theorem holdMet_mem {arc : Arc} {c h : Sector} {ch : Bool} {s : State} (k : holdMet arc c ch s = some h) : h ∈ s.plan ∨ h = c := by
  unfold holdMet at k
  rw [Option.or_eq_some_iff] at k
  rcases k with k | ⟨-, k⟩
  · exact Or.inl (List.mem_filter.mp (firstMet_mem k)).1
  · split at k
    · exact Or.inr (Option.some.inj k).symm
    · cases k

theorem findView_activeKey {c d : Sector} {angle : Nat} {u : State} (ha : u.tracker.lastGood = some angle)
    (hc : covering u.plan angle = some d) : (findView (some c) u).tracker.activeKey = some c.start := by
  unfold findView viewAt Tracker.activeKey
  rw [ha]
  simp [hc]

/-- An arrival at a HOLD record leaves the view and escape. -/
theorem arriveHold_view (r : Sector) (a : Nat) (s : State) :
    (arriveHold r a s).tracker.view = s.tracker.view ∧ (arriveHold r a s).tracker.escape = s.tracker.escape := by
  unfold arriveHold arriveAtHold startDwell dwellExpires
  simp only
  rw [changeState_motion rfl]
  (repeat' split) <;> exact ⟨rfl, rfl⟩

theorem arriveAtBarrier_tracker (r : Sector) (s : State) : (arriveAtBarrier r s).tracker = s.tracker := by
  unfold arriveAtBarrier beginReversal
  split <;> rw [changeState_motion rfl] <;> rfl

/-- The arrival check leaves the view and escape. -/
theorem arrivalCheckIf_view (b : Bool) (s : State) :
    (arrivalCheckIf b s).tracker.view = s.tracker.view ∧ (arrivalCheckIf b s).tracker.escape = s.tracker.escape := by
  unfold arrivalCheckIf arrivalCheck
  (repeat' split) <;> first | exact ⟨rfl, rfl⟩ | exact arriveHold_view _ _ _ | (rw [arriveAtBarrier_tracker]; exact ⟨rfl, rfl⟩)

theorem passedOver_escape (a : Arc) (r : Sector) (c : Bool) {s : State} (h : s.tracker.escape = none) :
    (passedOver a r c s).1.tracker.escape = none := by
  have trip : ∀ (x : TripCause) (p : Option Nat) (u : State), u.tracker.escape = none → (tripRequest x p u).tracker.escape = none := by
    intro x p u k
    unfold tripRequest
    split <;> first | exact k | exact (takeTrip_tracker x p u).1
  unfold passedOver
  split
  · exact trip _ _ _ h
  · cases holdMet a r c s <;> dsimp only <;> split
    · exact trip _ _ _ h
    · exact h
    · exact trip _ _ _ ((arriveHold_view _ _ _).2.trans h)
    · exact (arriveHold_view _ _ _).2.trans h

/-! ### The completion of a retirement (R21) -/

/-- What stands once the record with a key has left the table by a deferred retirement: the plan, RETIRE_DONE, and no hold and
no hold-served mark on it. -/
abbrev State.Retired (t : State) (plan : List Sector) (key : Nat) : Prop :=
  t.plan = plan ∧ t.ev.isSet .retireDone = true ∧ t.sup.hold.held ≠ some key ∧ t.tracker.served.map Prod.fst ≠ some key

/-- A retirement that completes. -/
theorem completeRetirement_retired {s : State} {r : Sector} (h : retiringRecord s.plan = some r) :
    (completeRetirement s).Retired (s.plan.filter fun q => q.start != r.start) r.start := by
  unfold completeRetirement
  rw [h]
  refine ⟨rfl, isSet_raise_self _ _, ?_, ?_⟩
  · show (if s.sup.hold.held = some r.start then Hold.cleared else s.sup.hold).held ≠ some r.start
    split
    · simp [Hold.cleared]
    · assumption
  · show (if s.tracker.served.map Prod.fst = some r.start then none else s.tracker.served).map Prod.fst ≠ some r.start
    split
    · simp
    · assumption

/-- Entry to a standing state completes a deferred retirement. -/
theorem changeState_retired {m : MachineState} (k : m.isMotion = false) {s : State} {r : Sector}
    (h : retiringRecord s.plan = some r) :
    (changeState m s).Retired (s.plan.filter fun q => q.start != r.start) r.start := by
  have e : ∀ u : State, retiringRecord u.plan = some r → (enterStanding u).Retired (u.plan.filter fun q => q.start != r.start) r.start := by
    intro u hu
    exact completeRetirement_retired (s := { u with tracker := { u.tracker with escape := none, pace := 0 } }) hu
  have q : (entryEffects m { s with sup := s.sup.moveTo m }).Retired (s.plan.filter fun q => q.start != r.start) r.start := by
    cases m <;> simp only [MachineState.isMotion, Bool.true_eq_false] at k
    · exact e { s with sup := s.sup.moveTo .setup } h
    · obtain ⟨a, b, c, -⟩ := e (releaseTowers { s with sup := s.sup.moveTo .standby }) h
      exact ⟨a, b, c, by simp [entryEffects]⟩
    · exact e (releaseTowers { s with sup := s.sup.moveTo .tripped }) h
  obtain ⟨a, b, c, d⟩ := q
  exact ⟨a, isSet_raise_mono _ _ _ b, c, d⟩

/-- A trip request keeps a retirement that has completed. -/
theorem tripRequest_retired (c : TripCause) (p : Option Nat) {s : State} {plan : List Sector} {k : Nat} (l : AllLive plan)
    (h : s.Retired plan k) : (tripRequest c p s).Retired plan k := by
  have cr : ∀ u : State, u.Retired plan k → (completeRetirement u).Retired plan k := by
    intro u hu
    have : retiringRecord u.plan = none := List.find?_eq_none.mpr fun x hx => by
      have := l x (hu.1 ▸ hx); simpa using this
    unfold completeRetirement
    rw [this]
    exact hu
  have e : (changeState .tripped s).Retired plan k := by
    have held : (s.sup.moveTo .tripped).hold.held ≠ some k := by
      unfold Supervisor.moveTo Supervisor.depart
      split <;> first | exact h.2.2.1 | (simp [Hold.cleared])
    obtain ⟨a, b, c, d⟩ := cr { releaseTowers { s with sup := s.sup.moveTo .tripped } with
      tracker := { s.tracker with escape := none, pace := 0 } } ⟨h.1, h.2.1, held, h.2.2.2⟩
    exact ⟨a, isSet_raise_mono _ _ _ b, c, d⟩
  have t : (takeTrip c p s).Retired plan k := by
    obtain ⟨a, b, cc, d⟩ := e
    refine ⟨by simpa [takeTrip] using a, requestBreak_isSet _ _ (isSet_raise_mono _ _ _ b), by simpa [takeTrip] using cc, ?_⟩
    simpa [takeTrip, requestBreak_tracker] using d
  unfold tripRequest
  split <;> first | exact t | exact h

/-- An arrival at another HOLD record keeps a retirement that has completed. -/
theorem arriveHold_retired {r : Sector} (a : Nat) {s : State} {plan : List Sector} {k : Nat} (n : r.start ≠ k)
    (h : s.Retired plan k) : (arriveHold r a s).Retired plan k := by
  have ar := arriveHold_arrives r a s
  refine ⟨ar.plan.trans h.1, ar.flags _ h.2.1, ?_, ?_⟩
  · unfold arriveHold arriveAtHold startDwell dwellExpires
    simp only
    rw [changeState_motion rfl]
    (repeat' split) <;> first
      | (simp only [ne_eq, Option.some.injEq]; exact n)
      | (rw [changeState_motion rfl]; simp [Supervisor.moveTo, Supervisor.depart, Hold.cleared])
  · unfold arriveHold arriveAtHold startDwell dwellExpires
    simp only
    rw [changeState_motion rfl]
    (repeat' split) <;> first
      | (simpa [markServed] using n)
      | (rw [changeState_motion rfl]; simpa [markServed] using n)

/-- The arrival check keeps a retirement that has completed. -/
theorem arrivalCheckIf_retired (b : Bool) {s : State} {plan : List Sector} {k : Nat} (n : ∀ q ∈ plan, q.start ≠ k)
    (h : s.Retired plan k) : (arrivalCheckIf b s).Retired plan k := by
  have bar : ∀ (r : Sector) (u : State), u.Retired plan k → (arriveAtBarrier r u).Retired plan k := by
    intro r u hu
    have ar := arriveAtBarrier_arrives r u
    refine ⟨ar.plan.trans hu.1, ar.flags _ hu.2.1, ?_, by rw [arriveAtBarrier_tracker]; exact hu.2.2.2⟩
    unfold arriveAtBarrier beginReversal
    split <;> rw [changeState_motion rfl] <;> (simp only [raise_sup, Supervisor.moveTo, Supervisor.depart]; split <;> first | exact hu.2.2.1 | simp [Hold.cleared])
  unfold arrivalCheckIf arrivalCheck
  (repeat' split) <;> first
    | exact h
    | exact arriveHold_retired _ (n _ (h.1 ▸ List.mem_of_find?_eq_some ‹_›)) h
    | exact bar _ _ ⟨h.1, isSet_raise_mono _ _ _ h.2.1, h.2.2.1, h.2.2.2⟩

end Sys2Proof.Machine
end

