-- ==== Sys2Proof/WellFormed.lean ====
section
/-! DEFINITION. Which commands and events can be sent at all: a payload fits its frame (R168), a position is one of the
roster's 21 (R55), a slot one of eight (R153), a reply has the length of some reply (R92). The machine is total and
gives an ill-formed one a meaning all the same. -/

namespace Sys2Proof

/-- A frame holds 4 to 64 bytes, four of which are no payload (R168). -/
def payloadFits (p : List Byte) : Bool := p.length ≤ 60

/-- A position of the roster (R55). -/
def isPosition (p : Nat) : Bool := 1 ≤ p && p ≤ Config.positions

/-- A slot of the service table (R153). -/
def isSlot (n : Nat) : Bool := 1 ≤ n && n ≤ Config.slots

/-- The check on every operand of a command. -/
def Instr.wf : Instr → Bool
  | .powerOnReset _ | .transactionStart | .transactionEnd _ => true
  | .nop p | .status p | .restart p => payloadFits p
  | .sectorPut p | .sectorAmend p | .sectorRetire p | .sectorGet p | .sectorFind p | .sectorWalk p
  | .sectorClear p => payloadFits p
  | .motionSetup p => payloadFits p
  | .towerSet p | .towerTrim p | .towerGet p | .towerAck p | .towerReset p => payloadFits p
  | .linkSetup p | .alignTune p => payloadFits p
  | .online p | .offline p | .start p | .stop p | .pause p | .continueRun p | .reverse p | .jog p | .estop p
  | .clearTrip p | .timingSetup p | .machineGet p => payloadFits p
  | .svcSubmit p | .svcResult p | .svcCancel p => payloadFits p
  | .evtRead p | .evtAck p | .evtEnable p | .evtDisable p => payloadFits p
  | .attnHighEnd | .attnGapEnd | .roundStart => true
  | .unreachable n => isSlot n
  | .angleSample _ _ | .angleLoss => true
  | .pollBegin | .resetExchangeBegin | .serviceExchangeBegin | .requestSent | .noReply | .replyGapTimeout
  | .reservationUsedUp | .replyFramingError => true
  | .replyComplete r => r.length == 10 || r.length == 7 || r.length == 4
  | .missLimitReached p | .followLimitReached p | .stall p => isPosition p
  | .jogRoundsExpired | .startTimerExpiry | .dwellTimerExpiry | .reversalTimerExpiry => true
  | .resetTimerExpiry p => isPosition p
  | .safetyLoopChange _ | .breakBegin | .breakEnd | .replyBegun => true

end Sys2Proof
end

