-- ==== Sys2Proof/Tests/Slice0.lean ====
section
/-! SUPPORT. The model's own tests: the ill-formed terms the check refuses, and one step of each kind against the manual's
worked figures. -/

namespace Sys2Proof.Tests

open Sys2Proof.Machine

set_option Elab.async false

/-! ### Ill-formed terms -/

/-- A payload one byte too long for any frame. -/
def longPayload : List Byte := List.replicate 61 0

theorem test_wf_payload_fits : (Instr.nop longPayload).wf = false := by decide
theorem test_wf_payload_fits_plan : (Instr.sectorPut longPayload).wf = false := by decide
theorem test_wf_payload_fits_motion : (Instr.motionSetup longPayload).wf = false := by decide
theorem test_wf_payload_fits_roster : (Instr.towerSet longPayload).wf = false := by decide
theorem test_wf_payload_fits_settings : (Instr.linkSetup longPayload).wf = false := by decide
theorem test_wf_payload_fits_supervisor : (Instr.start longPayload).wf = false := by decide
theorem test_wf_payload_fits_service : (Instr.svcSubmit longPayload).wf = false := by decide
theorem test_wf_payload_fits_events : (Instr.evtAck longPayload).wf = false := by decide
theorem test_wf_slot : (Instr.unreachable 9).wf = false := by decide
theorem test_wf_reply_length : (Instr.replyComplete [1, 2, 3]).wf = false := by decide
theorem test_wf_position : (Instr.missLimitReached 0).wf = false := by decide
theorem test_wf_reset_position : (Instr.resetTimerExpiry 22).wf = false := by decide
theorem test_wf_accepts : (Instr.start [0]).wf = true := by decide

/-! ### Small states -/

/-- The state a command leads to. -/
def after (i : Instr) (s : State) : State :=
  match exec i s with
  | .next t => t
  | .fault _ => s
  | .refused _ => s

/-- The answer waiting in the response slot: status, echoed code and payload. -/
def answered (s : State) : List Byte := ((s.port.response.getD []).drop 1).dropLast.dropLast

/-- A RUN record. -/
def runRecord (start pace : Nat) : Sector :=
  { start := start, kind := .run, pace := pace, reversePace := none, lead := none, warnLimit := none, swing := none,
    dwell := none, resume := none, action := none, revision := 0, state := .live }

/-- The five records of the manual's worked plan. -/
def workedPlan : List Sector :=
  [ runRecord 0 700
  , { runRecord 9000 600 with lead := some 500, swing := some (2000, 6000) }
  , { runRecord 13500 600 with kind := .hold, dwell := some 3600, resume := some .auto }
  , { runRecord 14000 800 with reversePace := some 500 }
  , { runRecord 31500 300 with kind := .barrier, action := some .reverse } ]

/-- A main-line tower: address, radius, full speed, trim. -/
def mainTower (a r v : Nat) (trim : Int) (st : TowerState) : Tower :=
  Tower.cleared (some (.mainLine a r v .normal trim)) st

/-- The corner tower of the worked machine. -/
def cornerTower (st : TowerState) : Tower := Tower.cleared (some (.corner 21 .normal 1150 30)) st

/-- The machine of the worked computation, every tower in one state. -/
def workedTowers (st : TowerState) (s : State) : State :=
  [(1, mainTower 11 550 40 0 st), (2, mainTower 12 1100 40 (-5) st), (3, mainTower 13 1650 40 10 st),
    (4, mainTower 14 2475 60 0 st), (5, mainTower 15 3300 45 0 st), (6, mainTower 16 4120 45 0 st),
    (21, cornerTower st)].foldl (fun s c => s.setTower c.1 c.2) s

/-- Six main-line towers and a corner tower. -/
def workedLink : Link := { Link.powerOn with settings := { LinkSettings.powerOn with towers := 6, corner := true } }

/-- The worked machine configured in SETUP. -/
def setupMachine : State := { workedTowers .silent { State.reset with link := workedLink } with plan := workedPlan }

/-- The supervisor in a state, its permit as the state asks. -/
def supIn (m : MachineState) : Supervisor := { Supervisor.powerOn true with machine := m, permit := m.isMotion }

/-- The worked machine with rounds running, in a machine state, its towers in one state, in the service phase. -/
def onlineMachine (m : MachineState) (st : TowerState) : State :=
  { workedTowers st State.reset with
    plan := workedPlan, sup := supIn m
    link := { workedLink with running := true, round := 1, remaining := 900, phase := .service } }

/-- The tracker at an angle, its view as a refresh finds it. -/
def atAngle (angle : Nat) (s : State) : State :=
  updateView { s with tracker := { s.tracker with lastGood := some angle, angleUsed := some angle } }

/-- The worked machine RUNNING FORWARD at an angle, its angle sample awaited. -/
def runningAt (angle : Nat) : State :=
  let s := atAngle angle (onlineMachine .running .driving)
  { s with tracker := { s.tracker with awaiting := true } }

/-! ### The check sequence (R184) -/

theorem test_check_worked_value : checkOf [0x31, 0x32, 0x33, 0x34, 0x35, 0x36, 0x37, 0x38, 0x39] = 0x29B1 := by
  decide +kernel

/-! ### The command link (08 "A short conversation") -/

/-- A whole command frame. -/
def frame (code : Byte) (payload : List Byte) : List Byte := withCheck ([byte (payload.length + 4), code] ++ payload)

theorem test_transaction_start_empty : (after .transactionStart State.reset).port.transaction =
    some { busy := false, miso := [0xE5] } := by decide

theorem test_transaction_takes_command :
    (after (.transactionEnd (frame 0x52 [0])) (after .transactionStart State.reset)).port.command =
      some { code := 0x52, payload := [0] } := by decide +kernel

theorem test_transaction_bad_frame :
    answered (after (.transactionEnd [4, 1, 0, 0]) (after .transactionStart State.reset)) = [0x02, 0x01] := by
  decide +kernel

theorem test_transaction_unknown :
    answered (after (.transactionEnd (frame 0x04 [])) (after .transactionStart State.reset)) = [0x03, 0x04] := by
  decide +kernel

theorem test_transaction_dropped :
    (after (.transactionEnd (frame 0x01 [])) (after .transactionStart
      { State.reset with port := { Port.powerOn with command := some { code := 0x10, payload := [] } } })).ev.flags
      = 0x200 := by decide +kernel

/-- Reset in force, a fall of SEL in it, and its end with SEL still low. -/
def inReset : State := after (.powerOnReset none) State.reset
def selectedInReset : State := after .transactionStart inReset
def ignoredSelect : State := after (.powerOnReset (some true)) selectedInReset

theorem test_select_in_reset :
    (inReset.port.mask, selectedInReset.port.mask, ignoredSelect.port.mask,
      (after (.transactionEnd (frame 0x01 [])) ignoredSelect).port.mask) =
      (.inReset, .inResetSelected, .ignored, .clear) ∧
    (selectedInReset.port.transaction, selectedInReset.port.misoByte 0, ignoredSelect.port.misoByte 0) =
      (none, some 0xFF, some 0xFF) ∧
    (after (.transactionEnd (frame 0x01 [])) ignoredSelect).port.command = none := by decide +kernel

theorem test_restart_keeps_dropped :
    (after (.restart []) (after (.transactionEnd (frame 0x01 []))
      { State.reset with port := { Port.powerOn with
          command := some { code := 0x03, payload := [] }, transaction := some { busy := true, miso := [0xB5] } } })).ev.flags
      = 0x200 := by decide +kernel

theorem test_start_in_setup : answered (after (.start [0]) State.reset) = [0x05, 0x52] := by decide +kernel
theorem test_start_bad_direction : answered (after (.start [2]) State.reset) = [0x04, 0x52] := by decide +kernel
theorem test_nop : answered (after (.nop []) State.reset) = [0x00, 0x01] := by decide +kernel
theorem test_status_length : (answered (after (.status []) State.reset)).length = 20 := by decide +kernel

theorem test_idle_completes_command :
    answered (idle { State.reset with port := { Port.powerOn with command := some { code := 0x01, payload := [] } } })
      = [0x00, 0x01] := by decide +kernel

/-! ### The field plan (01 "Worked example") -/

theorem test_widths : workedPlan.map (width workedPlan) = [9000, 4500, 500, 17500, 4500] := by decide
theorem test_covering_35000 : (covering workedPlan 35000).map Sector.start = some 31500 := by decide
theorem test_covering_10125 : (covering workedPlan 10125).map Sector.start = some 9000 := by decide

/-- SECTOR_PUT's payload for a RUN record. -/
def putRun (start pace : Nat) : List Byte := word start ++ [0, 0] ++ word pace ++ List.replicate 14 0

theorem test_put_narrow_new : answered (after (.sectorPut (putRun 13495 400)) setupMachine) = [0x09, 0x10] := by
  decide +kernel
theorem test_put_narrow_split : answered (after (.sectorPut (putRun 9005 400)) setupMachine) = [0x09, 0x10] := by
  decide +kernel
theorem test_put_exists : answered (after (.sectorPut (putRun 31500 400)) setupMachine) = [0x06, 0x10] := by
  decide +kernel
theorem test_put_accepted : answered (after (.sectorPut (putRun 13490 400)) setupMachine) = [0x00, 0x10, 6] := by
  decide +kernel

/-- SECTOR_AMEND's payload: start, expected revision, changes. -/
def amendment (start : Nat) (given rev : Byte) (changes : List Byte) : List Byte := word start ++ [given, rev] ++ changes

theorem test_amend_pace :
    answered (after (.sectorAmend (amendment 14000 1 0 ([2, 0] ++ word 750 ++ [0, 0]))) (runningAt 20000))
      = [0x00, 0x11, 1] := by decide +kernel
theorem test_amend_stale :
    answered (after (.sectorAmend (amendment 14000 1 3 ([4, 0] ++ word 800 ++ [0, 0]))) (runningAt 20000))
      = [0x08, 0x11] := by decide +kernel
theorem test_amend_active_kind :
    answered (after (.sectorAmend (amendment 14000 0 0 ([1, 0] ++ word 1 ++ [0, 0] ++ [7, 0] ++ word 600 ++ [0, 0] ++
      [8, 0] ++ word 1 ++ [0, 0]))) (runningAt 20000)) = [0x0C, 0x11] := by decide +kernel

theorem test_retire_deferred : answered (after (.sectorRetire (word 14000)) (runningAt 20000)) = [0x01, 0x12] := by
  decide +kernel
theorem test_put_in_retire :
    answered (after (.sectorPut (putRun 24000 500)) (after (.sectorRetire (word 14000)) (runningAt 20000)))
      = [0x0D, 0x10] := by decide +kernel
/-- The worked machine RUNNING, or in another state, at 20000 cd with its active record RETIRING. -/
def retiring : State := after (.sectorRetire (word 14000)) (runningAt 20000)
def retiringIn (m : MachineState) : State := { retiring with sup := supIn m, port := { retiring.port with response := none } }

theorem test_retire_completes :
    ((changeState .standby (after (.sectorRetire (word 14000)) (runningAt 20000))).plan.map Sector.start,
      (changeState .standby (after (.sectorRetire (word 14000)) (runningAt 20000))).ev.isSet .retireDone)
      = ([0, 9000, 13500, 31500], true) := by decide +kernel

theorem test_walk_past_last : answered (after (.sectorWalk ([0] ++ word 31500)) setupMachine) = [0x07, 0x15, 5] := by
  decide +kernel
theorem test_get : (answered (after (.sectorGet (word 9000)) setupMachine)).drop 2 =
    word 9000 ++ [0, 0x0A] ++ word 600 ++ [0, 0] ++ word 500 ++ [0, 0] ++ word 2000 ++ word 6000 ++ [0, 0, 0, 0] ++
      [0, 0] ++ word 4500 := by decide +kernel

/-! ### Following the field (02 "Worked cases of the effective pace", "Following a run") -/

/-- The pace handed over in RUNNING at an angle. -/
def paceAt (angle : Nat) : Nat := effectivePace (runningAt angle)

theorem test_pace_into_hold : paceAt 13380 = 240 := by decide +kernel
theorem test_pace_to_faster : paceAt 8700 = 660 := by decide +kernel
theorem test_pace_last_step : paceAt 8999 = 601 := by decide +kernel
theorem test_pace_creeping : paceAt 13479 = 42 := by decide +kernel
theorem test_swing_target : swingTarget (runningAt 10125) = some 3000 := by decide +kernel
theorem test_swing_target_end : swingTarget (runningAt 13499) = some 5999 := by decide +kernel

theorem test_sample_jump :
    let t := after (.angleSample 13720 true) (runningAt 13380)
    (t.tracker.lastGood, t.tracker.badCount, t.tracker.held, t.ev.isSet .angle) = (some 13380, 1, true, true) := by
  decide +kernel
theorem test_sample_arrival :
    let t := after (.angleSample 13482 true) (runningAt 13470)
    (t.tracker.served, t.sup.machine, t.sup.hold) =
      (some (13500, 9000), .holding, { held := some 13500, dwell := .running 36000 }) := by decide +kernel
theorem test_sample_into_hold :
    let t := after (.angleSample 13510 true) (runningAt 13380)
    (t.tracker.served, t.sup.machine, t.ev.isSet .sectorCrossed) = (some (13500, 13500), .holding, true) := by
  decide +kernel
theorem test_barrier_arrival :
    let t := after (.angleSample 31490 true) (runningAt 31400)
    (t.sup.machine, t.sup.reversal, t.ev.isSet .arrival) = (.reversing, .awaitingRest, true) := by decide +kernel
theorem test_overrun :
    let t := after (.angleSample 31510 true) (runningAt 31400)
    (t.sup.machine, t.sup.trip.map Trip.cause, t.link.brk) = (.tripped, some .overrun, .sending 0) := by
  decide +kernel
theorem test_angle_loss :
    let s := runningAt 13384
    let t := after .angleLoss { s with tracker := { s.tracker with badCount := 1 } }
    (t.sup.trip.map Trip.cause, t.sup.trip.bind Trip.angle) = (some .angleLoss, some 13384) := by decide +kernel

/-! ### The roster (03 "A tower through a bad stretch", "A stalled tower", "A requested reset") -/

/-- A clean reading. -/
def cleanReading (joint : Int) (track : Nat) : Reading := { status := statusReady, joint := joint, track := track }

theorem test_miss_follows :
    ((pollOutcome 5 .noReply (runningAt 20000)).tower 5).state = .following := by decide +kernel
theorem test_miss_limit :
    let s := (runningAt 20000).modTower 5 fun t => { t with miss := 2, state := .following }
    let t := after (.missLimitReached 5) s
    ((t.tower 5).state, (t.tower 5).miss, t.sup.trip.map Trip.cause, t.sup.trip.bind Trip.position, (t.tower 1).state)
      = (.silent, 3, some .linkLoss, some 5, .online) := by decide +kernel
theorem test_sensor_invalid :
    let t := pollGood 5 { cleanReading 0 7 with status := statusReady ||| statusSensorInvalid } (runningAt 20000)
    ((t.tower 5).state, (t.tower 5).follow) = (.following, 1) := by decide +kernel
theorem test_follow_limit :
    let s := (runningAt 20000).modTower 5 fun t => { t with follow := 3 }
    let t := after (.followLimitReached 5) s
    ((t.tower 5).state, (t.tower 5).reason) = (.faulted, .sensor) := by decide +kernel
theorem test_stall_count :
    let s := (runningAt 20000).modTower 2 fun t => { t with applied := 260, track := 4410 }
    (((pollGood 2 (cleanReading 0 4410) s).tower 2).stall, ((pollGood 2 (cleanReading 0 4411) s).tower 2).stall)
      = (1, 0) := by decide +kernel
theorem test_stall :
    let s := (runningAt 20000).modTower 2 fun t => { t with applied := 260, stall := 11 }
    ((after (.stall 2) s).tower 2).reason = .stall := by decide +kernel
theorem test_reset_ends :
    let s := (onlineMachine .standby .online).modTower 5 fun t =>
      { t with state := .resetting, stage := .acknowledged, resetTimer := some 80 }
    let t := pollGood 5 (cleanReading 0 0) s
    ((t.tower 5).state, (t.tower 5).stage, (t.tower 5).hasChange .resetDone) = (.online, .none, true) := by
  decide +kernel
theorem test_reset_timer :
    let s := (onlineMachine .standby .online).modTower 5 fun t => { t.resetRequested 100 with resetTimer := some 1 }
    ((after (.resetTimerExpiry 5) s).tower 5).reason = .resetTimeout := by decide +kernel

/-! ### Rounds and the span link (04 "A round in STANDBY", "A trip in the middle of the poll phase") -/

theorem test_budget : LinkSettings.powerOn.budget = 960 := by decide
theorem test_round_check_fails :
    ({ LinkSettings.powerOn with rate := .r9600, roundMs := 590, towers := 20, corner := true }).roundCheck = false := by
  decide
theorem test_round_check_passes :
    ({ LinkSettings.powerOn with rate := .r9600, roundMs := 600, towers := 20, corner := true }).roundCheck = true := by
  decide

theorem test_online_starts_round :
    let t := after (.online []) setupMachine
    (t.sup.machine, t.link.running, t.link.round, t.link.remaining, t.link.nextPos, t.tracker.awaiting)
      = (.standby, true, 1, 960, some 1, true) := by decide +kernel

/-- The poll phase of the worked machine, at its last position. -/
def pollingLast (m : MachineState) (st : TowerState) : State :=
  let s := onlineMachine m st
  { s with link := { s.link with phase := .poll, nextPos := some 21 } }

theorem test_poll_begin :
    let t := after .pollBegin (pollingLast .running .driving)
    (t.link.nextPos, t.link.exchange.map Exchange.request) =
      (none, some (withCheck [21, 0x31, 0x01, 0, 0, 1])) := by decide +kernel

/-- The last poll of the worked machine on the line, its reply arriving. -/
def receivingLast (m : MachineState) (st : TowerState) : State :=
  let s := after .replyBegun (after .requestSent (after .pollBegin (pollingLast m st)))
  { s with tracker := { s.tracker with awaiting := false } }

theorem test_last_poll_completes :
    let t := after (.replyComplete (withCheck [21, 0xB1, 1, 0x0B, 0xB8, 0, 5, 1])) (receivingLast .standby .silent)
    ((t.tower 21).state, (t.tower 21).joint, t.link.phase, t.port.snapshot.round, t.link.remaining)
      = (.online, 3000, .service, 1, 882) := by decide +kernel
theorem test_late_reply :
    let t := after (.replyComplete (withCheck [21, 0xB1, 1, 0x0B, 0xB8, 0, 5, 9])) (receivingLast .standby .online)
    ((t.tower 21).miss, (t.tower 21).state) = (1, .online) := by decide +kernel

theorem test_trip_abandons :
    let t := after (.safetyLoopChange false) (receivingLast .running .driving)
    (t.sup.trip.map Trip.cause, t.link.exchange, t.link.brk, (t.tower 1).state) =
      (some .safetyLoop, none, .waiting 18 12, .online) := by decide +kernel

/-- The manual's trip in the middle of the poll phase: the poll of tower 5 begins at 884, its reply at 9, and 3 characters
later the safety loop opens. -/
def tripMidPoll : State :=
  let s := onlineMachine .running .driving
  let s := { s with link := { s.link with phase := .poll, nextPos := some 5, remaining := 884, round := 5021 } }
  let s := after .replyBegun (timePasses 1 (after .requestSent (after .pollBegin s)))
  after (.safetyLoopChange false) (timePasses 2 s)

theorem test_break_after_quiet_line :
    let t := after .breakBegin tripMidPoll
    (tripMidPoll.link.remaining, t.link.brk, t.link.remaining, (after .breakEnd t).link.remaining,
      (after .breakEnd t).link.nextPos) = (873, .sending 0, 863, 859, some 6) := by decide +kernel

theorem test_idle_ends_round_at_its_budget :
    let s := onlineMachine .standby .online
    let t := idle { s with link := { s.link with remaining := 0, phase := .closed } }
    (t.link.round, t.link.remaining) = (2, 960) := by decide +kernel

theorem test_span_tx_bits :
    let s := after .pollBegin (pollingLast .standby .online)
    (List.range 10).map s.link.spanTx = [false, true, false, true, false, true, false, false, false, true] := by
  decide +kernel

theorem test_round_short :
    let s := pollingLast .standby .online
    let t := after .pollBegin { s with link := { s.link with remaining := 25 } }
    (t.ev.isSet .roundShort, t.link.nextPos, t.link.phase) = (true, none, .service) := by decide +kernel

/-! ### The computation (05 "A computation worked through") -/

/-- Joint, applied command and state of a tower at the worked computation. -/
def workedInput (p : Nat) (joint : Int) (applied : Nat) (st : TowerState) (s : State) : State :=
  s.modTower p fun t => { t with joint := joint, applied := applied, fresh := st == .driving, state := st }

/-- The worked machine at its computation: P 240, swing target 3000, warn limit 120. -/
def workedComputation : State :=
  let s := runningAt 10125
  let s := { s with tracker := { s.tracker with pace := 240, view := s.tracker.view.map fun v =>
    { v with warnLimit := some 120 } } }
  workedInput 1 12 40 .driving <| workedInput 2 (-30) 70 .driving <| workedInput 3 85 150 .driving <|
    workedInput 4 (-140) 120 .driving <| workedInput 5 0 190 .following <| workedInput 6 0 236 .driving <|
    workedInput 21 3130 330 .driving s

theorem test_computation_commands :
    [1, 2, 3, 4, 5, 6, 21].map (fun p => ((computation workedComputation).tower p).applied)
      = [36, 57, 198, 40, 192, 240, 376] := by decide +kernel
theorem test_computation_flags :
    let t := computation workedComputation
    ([1, 2, 3, 4, 5, 6, 21].map (fun p => (t.tower p).flagByte), (t.tower 4).hasChange .warn, t.ev.isSet .alignWarn,
      t.port.snapshot.pace) = ([0, 0, 0, 3, 4, 0, 0], true, true, 240) := by decide +kernel

theorem test_computation_misalign :
    let t := computation (workedInput 4 (-720) 120 .driving workedComputation)
    (t.sup.trip.map Trip.cause, t.sup.trip.bind Trip.position, t.port.snapshot.machine, t.port.snapshot.pace,
      (t.tower 3).applied) = (some .misalign, some 4, .tripped, 240, 0) := by decide +kernel

/-- The worked machine in STOPPING with one applied command left. -/
def stoppingWith (applied : Nat) : State := (onlineMachine .stopping .driving).modTower 21 fun t =>
  { t with applied := applied }

theorem test_stopping_rest :
    ((computation (stoppingWith 56)).sup.machine, (computation (stoppingWith 136)).sup.machine,
      ((computation (stoppingWith 136)).tower 21).applied) = (.standby, .stopping, 56) := by decide +kernel

/-! ### The supervisor (06) -/

theorem test_start_accepted :
    let t := after (.start [0]) (atAngle 20000 (onlineMachine .standby .online))
    (t.sup.machine, t.sup.permit, t.sup.startTimer, (t.tower 3).state) = (.starting, true, some 100, .driving) := by
  decide +kernel
theorem test_start_escape :
    let t := after (.start [1]) (atAngle 31600 (onlineMachine .standby .online))
    (t.sup.machine, t.sup.direction, t.tracker.escape) = (.starting, .reverse, some 31500) := by decide +kernel
theorem test_start_inside_barrier :
    answered (after (.start [0]) (atAngle 31600 (onlineMachine .standby .online))) = [0x0E, 0x52, 5] := by
  decide +kernel
theorem test_two_causes :
    let s := { runningAt 22140 with ev := Events.reset }
    let t := after (.estop []) (makeReports (some 6) true false false s)
    t.sup.trip = some { cause := .misalign, position := some 6, round := 1, angle := some 22140, further := 0x102 } := by
  decide +kernel

/-- A hold at 13500 whose dwell has expired. -/
def expiredHold : State :=
  let s := atAngle 13482 (onlineMachine .holding .driving)
  { s with sup := { s.sup with hold := { held := some 13500, dwell := .expired } } }

theorem test_hold_amended_auto :
    (after (.sectorAmend (amendment 13500 0 0 [8, 0, 0, 0, 0, 0])) expiredHold).sup.machine = .running := by
  decide +kernel
theorem test_hold_dwell_restarts :
    (after (.sectorAmend (amendment 13500 0 0 ([7, 0] ++ word 600 ++ [0, 0]))) expiredHold).sup.hold =
      { held := some 13500, dwell := .running 6000 } := by decide +kernel

theorem test_jog_rounds :
    let s := onlineMachine .jogging .online
    let j : Jog := { position := 3, direction := .forward, speed := 200, roundsLeft := 1, mode := .fixed }
    let t := after .jogRoundsExpired { s with sup := { s.sup with jog := some j } }
    (t.sup.machine, t.sup.jog.map Jog.roundsLeft) = (.stopping, some 0) := by decide +kernel

/-! ### Service requests (07 "A table through forty-odd rounds") -/

/-- The table after its first three submissions: slot 1 DONE, slot 2 QUEUED for tower 5, slot 3 SENT. -/
def servicing : State :=
  let s := after (.svcSubmit [5, 1, 40, 7, 8]) (after (.svcSubmit [3, 0, 12]) (onlineMachine .standby .online))
  { s with port := { s.port with response := none, rdy := false } }

theorem test_submit : answered (after (.svcSubmit [5, 0, 7]) servicing) = [0x00, 0x60, 3, 0, 3] := by decide +kernel
theorem test_service_begins :
    let t := after .serviceExchangeBegin servicing
    (t.link.exchange.map Exchange.request, t.svc.order, (t.svc.slot 1).map Request.state) =
      (some (withCheck [13, 0x32, 12, 0, 0]), [2], some .sent) := by decide +kernel
theorem test_service_done :
    let s := after .replyBegun (after .requestSent (after .serviceExchangeBegin servicing))
    let t := after (.replyComplete (withCheck [13, 0xB2, 0, 1, 0x5E])) s
    ((t.svc.slot 1).map Request.state, (t.svc.slot 1).bind Request.result, t.ev.isSet .serviceDone)
      = (some .done, some 350, true) := by decide +kernel
theorem test_cancel_sent :
    let t := after (.svcCancel [1]) (after .serviceExchangeBegin servicing)
    (answered t, (t.svc.slot 1).map Request.state) = ([0x01, 0x62], some .cancelling) := by decide +kernel
theorem test_unreachable :
    let old := (servicing.svc.slot 2).map fun r => { r with age := 40 }
    let s := { servicing with svc := servicing.svc.setSlot 2 old }
    let t := after (.unreachable 2) s
    ((t.svc.slot 2).map Request.code, (t.svc.slot 2).map Request.age, t.svc.order) =
      (some .unreachable, some 41, [1]) := by decide +kernel

/-! ### Events (09 "An attention sequence") -/

/-- The unit after the enables of the attention sequence. -/
def attentive : Events := Events.reset.enable 0x025 true

theorem test_disabled_flag_no_pulse : (attentive.raise .sectorCrossed).attn = false := by decide
theorem test_first_pending_pulses : (attentive.raise .towerChange).attn = true := by decide
theorem test_second_pending_no_pulse : ((attentive.raise .towerChange).raise .serviceDone).owed = false := by decide
theorem test_ack_owes_pulse :
    let e := (((attentive.raise .towerChange).raise .serviceDone).highEnd.acknowledge 0x001)
    (e.phase, e.owed, e.gapEnd.phase) = (.gap, true, .high) := by decide
theorem test_owed_pulse_dropped :
    let e := (((attentive.raise .towerChange).raise .serviceDone).highEnd.acknowledge 0x001).acknowledge 0x028
    (e.gapEnd.phase, e.gapEnd.owed) = (.low, false) := by decide

theorem test_evt_enable_answer : answered (after (.evtEnable [0, 0x25, 1]) State.reset) = [0x00, 0x72, 0, 0, 0, 0x25, 1] := by
  decide +kernel

/-! ### Witnesses: for each statement of Certificates, a state and operands that meet the hypotheses of each clause -/

theorem test_meets_step_runs_front : ({ State.reset with pending := [.nop [], .attnGapEnd] }).pending = [.nop [], .attnGapEnd] :=
  rfl

/-- A part that is executing NOP. -/
def executing : State := { State.reset with port := { Port.powerOn with command := some { code := 0x01, payload := [] } } }

theorem test_meets_empty_queue : executing.pending = [] ∧ executing.port.command = some { code := 0x01, payload := [] } ∧
    handlerOf 0x01 = some nopHandler := ⟨rfl, rfl, rfl⟩

theorem test_meets_reset : State.reset.port.mask = .clear ∧ inReset.port.mask = .inReset ∧
    inReset.port.transaction = none ∧ selectedInReset.port.mask = .inResetSelected ∧
    selectedInReset.port.transaction = none ∧ ignoredSelect.port.mask = .ignored ∧ ignoredSelect.port.transaction = none := by
  decide

theorem test_meets_restart : State.reset.takes 0x03 [] ∧ State.reset.link.brk = .none ∧
    State.reset.link.exchange = none := by decide

theorem test_meets_supervisor_laws : (runningAt 20000).sup.Lawful ∧ (supIn .standby).Lawful := by decide +kernel
theorem test_meets_slot_laws : executing.port.Lawful ∧ step executing = .next (idle executing) := ⟨by decide, rfl⟩
theorem test_meets_tower_laws : (runningAt 20000).TowersLawful ∧ ((runningAt 20000).tower 1).isDriven = true := by
  decide +kernel
theorem test_meets_plan_law : PlanLawful workedPlan := by decide +kernel
theorem test_meets_third_plan_law : PlanLawful retiring.plan ∧ retiring.RetiringLawful ∧
    (retiringRecord retiring.plan).map Sector.start = some 14000 := by decide +kernel
theorem test_meets_every_angle : PlanLawful workedPlan ∧ workedPlan ≠ [] ∧ 35999 < 36000 := by decide +kernel

theorem test_meets_refused_command : commandOf (.start [0]) = some (0x52, [0]) ∧ State.reset.takes 0x52 [0] ∧
    commandOf (.stop [0]) = some (0x53, [0]) ∧ State.reset.takes 0x53 [0] ∧ ([0] : List Byte) ≠ [] := by decide

/-- A transaction in progress, begun with BUSY or not. -/
def inTransaction (busy : Bool) : State :=
  { State.reset with port := { Port.powerOn with transaction := some { busy := busy, miso := [] } } }

theorem test_meets_transaction_start : State.reset.port.transaction = none := rfl
theorem test_meets_transaction_end : (inTransaction true).port.transaction = some { busy := true, miso := [] } ∧
    ([4] : List Byte).head? ≠ some 0 ∧ frameGood [4, 1, 0, 0] = false ∧ frameGood [3, 1, 0, 0] = false ∧
    frameGood (64 :: List.replicate 62 0) = false := by decide +kernel
theorem test_meets_framed : (inTransaction false).port.transaction = some { busy := false, miso := [] } ∧
    (List.replicate 60 (0 : Byte)).length ≤ 60 ∧ (handlerOf 0x73).isSome = true ∧ (handlerOf 0x74).isNone = true := by
  decide +kernel

/-- A state with a command in its command slot. -/
def commanded (code : Byte) (payload : List Byte) (s : State) : State :=
  { s with port := { s.port with command := some { code := code, payload := payload } } }

theorem test_meets_reading : executing.executes 0x01 [] ∧ (commanded 0x02 [] State.reset).executes 0x02 [] ∧
    (commanded 0x5B [] State.reset).executes 0x5B [] ∧ (commanded 0x70 [] State.reset).executes 0x70 [] ∧
    (commanded 0x01 [0] State.reset).executes 0x01 [0] ∧ ([0] : List Byte) ≠ [] := by decide

theorem test_meets_put : setupMachine.takes 0x10 (putRun 35999 1000) ∧
    decodeSector (putRun 35999 1000) = some (runRecord 35999 1000) ∧ (runRecord 35999 1000).valid = true ∧
    (runRecord 36000 0).valid = false := by decide +kernel

theorem test_meets_amend : (runningAt 20000).takes 0x11 (amendment 14000 1 0 ([2, 0] ++ word 1000 ++ [0, 0])) ∧
    decodeAmendment (amendment 14000 1 0 ([2, 0] ++ word 1000 ++ [0, 0])) =
      some { start := 14000, expected := some 0, changes := [.pace 1000] } ∧
    changesOk [.pace 1000] = true ∧ (findRecord workedPlan 14000).map Sector.state = some .live ∧
    (findRecord workedPlan 14000).map (fun r => (r.amended [.pace 1000]).valid) = some true ∧
    (runningAt 20000).sup.hold.held = none := by decide +kernel

theorem test_meets_amend_held : expiredHold.takes 0x11 (amendment 13500 0 0 [8, 0, 0, 0, 0, 0]) ∧
    decodeAmendment (amendment 13500 0 0 [8, 0, 0, 0, 0, 0]) =
      some { start := 13500, expected := none, changes := [.resume (some .auto)] } ∧
    decodeAmendment (amendment 13500 0 0 ([7, 0] ++ word 1 ++ [0, 0])) =
      some { start := 13500, expected := none, changes := [.dwell (some 1)] } ∧
    decodeAmendment (amendment 13500 0 0 ([1, 0] ++ word 0 ++ [0, 0])) =
      some { start := 13500, expected := none, changes := [.kind .run] } ∧
    (findRecord workedPlan 13500).map (fun r => [(r.amended [.resume (some .auto)]).valid, (r.amended [.dwell (some 1)]).valid,
      (r.amended [.kind .run]).valid]) = some [true, true, true] ∧
    expiredHold.sup.machine = .holding ∧ expiredHold.sup.hold = { held := some 13500, dwell := .expired } ∧
    expiredHold.isActive 13500 = false := by decide +kernel
theorem test_meets_amend_held_zero :
    decodeAmendment (amendment 13500 0 0 ([7, 0] ++ word 0 ++ [0, 0])) =
      some { start := 13500, expected := none, changes := [.dwell (some 0)] } ∧
    newDwell [.dwell (some 0)] = some 0 ∧
    (findRecord workedPlan 13500).map (fun r => [r, { r with resume := some .manual }].map fun q =>
      let n := q.amended [.dwell (some 0)]
      (n.valid, n.kind, n.resume)) = some [(true, .hold, some .auto), (true, .hold, some .manual)] ∧
    newDwell [.pace 500] = none ∧ setsAuto [.pace 500] = false ∧
    (findRecord workedPlan 13500).map (fun r => ((r.amended [.pace 500]).valid, (r.amended [.pace 500]).kind)) =
      some (true, .hold) := by decide +kernel

theorem test_meets_retire : (runningAt 20000).takes 0x12 (word 14000) ∧ decodeWord (word 14000) = some 14000 ∧
    otherLive workedPlan 14000 = true ∧ (runningAt 20000).inMotion = true ∧ (runningAt 20000).isActive 14000 = true ∧
    (runningAt 20000).isActive 0 = false ∧ decodeWord (word 0) = some 0 := by decide +kernel

theorem test_meets_deferred_sample :
    let s : State := { retiringIn .holding with tracker := { retiring.tracker with lastGood := some 31400 } }
    s.tracker.awaiting = true ∧ s.RetiringLawful ∧ (retiringRecord s.plan).map Sector.start = some 14000 ∧
    goodSample? s.tracker 31500 true = true ∧ (covering s.plan 31500).map Sector.start = some 31500 ∧
    goodSample? s.tracker 31499 true = true ∧ (covering s.plan 31499).map Sector.start = some 14000 := by decide +kernel
theorem test_meets_deferred_state : (retiringIn .starting).takes 0x53 [] ∧ (retiringIn .starting).sup.machine = .starting ∧
    (retiringIn .jogging).takes 0x58 [] ∧ (retiringIn .jogging).inMotion = true ∧
    (retiringRecord (retiringIn .jogging).plan).isSome = true ∧ MachineState.standby.isMotion = false := by decide +kernel

theorem test_meets_sector_reads : decodeWord (word 36000) = some 36000 ∧ decodeWord (word 35999) = some 35999 ∧
    (∀ r ∈ workedPlan, r.start ≠ 35999) ∧ (∀ q ∈ workedPlan, q.start = 0 → q = runRecord 0 700) ∧
    decodeWalk [0, 0, 0] = some (some 0) ∧ decodeWalk [1, 0xFF, 0xFF] = some none ∧
    (commanded 0x15 [1, 0xFF, 0xFF] setupMachine).executes 0x15 [1, 0xFF, 0xFF] ∧
    (commanded 0x13 (word 0) setupMachine).executes 0x13 (word 0) ∧ (commanded 0x13 (word 0) setupMachine).plan = workedPlan := by
  decide +kernel

theorem test_meets_clear : setupMachine.inMotion = false ∧ (runningAt 20000).inMotion = true ∧
    (runningAt 20000).takes 0x16 [] := by decide +kernel

theorem test_meets_settings :
    decodeMotion (word 200 ++ word 3000 ++ word 300 ++ word 1000) =
      some { arrivalWindow := 200, defaultLead := 3000, escapePace := 300, jumpLimit := 1000 } ∧
    (decodeTune (24 :: 15 :: word 80 ++ word 300 ++ word 700 ++ [16] ++ word 1500 ++ [4] ++ word 200 ++ [12]))
      = some Tune.powerOn ∧ Tune.powerOn.inRange = true ∧
    State.reset.takes 0x5A [60, 120] ∧ ((60 : Byte).toNat ≤ 60 ∧ 2 ≤ (120 : Byte).toNat) := by decide +kernel

/-- The worked machine RUNNING with one bad sample behind it. -/
def oneBad (m : MachineState) : State :=
  let s := atAngle 13384 (onlineMachine m (if m.isMotion then .driving else .online))
  { s with tracker := { s.tracker with awaiting := true, badCount := 1 } }

theorem test_meets_sample : State.reset.tracker.awaiting = false ∧ (runningAt 20000).tracker.awaiting = true ∧
    goodSample? (runningAt 20000).tracker 20200 true = true ∧ goodSample? (runningAt 20000).tracker 20201 true = false ∧
    (runningAt 20000).tracker.badCount = 0 ∧ (runningAt 20000).tracker.lastGood = some 20000 ∧
    goodSample? { State.reset.tracker with awaiting := true } 36000 true = false ∧ State.reset.tracker.lastGood = none := by
  decide +kernel
theorem test_meets_second_bad_moving : (oneBad .running).TowersLawful ∧ (oneBad .running).sup.Lawful ∧
    (oneBad .running).inMotion = true ∧ (oneBad .running).tracker.lastGood = some 13384 := by decide +kernel
theorem test_meets_second_bad_standing : (oneBad .standby).TowersLawful ∧ (oneBad .standby).sup.Lawful ∧
    (oneBad .standby).inMotion = false ∧ (oneBad .standby).tracker.badCount = 1 := by decide +kernel

/-- A bad sample for the worked machine RUNNING at an angle. -/
def heldAt (angle : Nat) : State := after (.angleSample 36000 true) (runningAt angle)

theorem test_meets_held_sample : goodSample? (runningAt 13490).tracker 36000 true = false ∧
    (runningAt 13490).tracker.badCount = 0 ∧ (covering workedPlan 13490).map Sector.start = some 9000 ∧
    (nextRecord workedPlan .forward 9000).map (fun n => (n.start, n.kind)) = some (13500, .hold) ∧
    (nextRecord workedPlan .forward 14000).map (fun n => (n.start, n.kind, n.action)) =
      some (31500, .barrier, some .reverse) ∧
    (nextRecord workedPlan .forward 0).map (fun n => (n.start, n.kind)) = some (9000, .run) ∧
    (runningAt 13490).sup.Lawful ∧ (runningAt 13490).tracker.escape = none ∧ (runningAt 13490).tracker.served = none ∧
    (runningAt 13490).tracker.settings.arrivalWindow = 20 ∧ 13500 - 13490 ≤ 20 ∧ 20 < 13500 - 13479 := by decide +kernel
theorem test_held_sample_arrives :
    ([13479, 13480, 31479, 31480].map fun a => ((heldAt a).sup.machine, (heldAt a).tracker.served, (heldAt a).tracker.held)) =
      [(.running, none, true), (.holding, some (13500, 9000), true), (.running, none, true), (.reversing, none, true)] := by
  decide +kernel
theorem test_held_sample_refreshes :
    let s := runningAt 20000
    let t := after (.angleSample 36000 true) { s with plan := s.plan.map fun r => if r.start = 14000 then { r with pace := 650 } else r }
    (t.tracker.view.map View.currentPace, t.tracker.lastGood, t.ev.isSet .sectorCrossed) = (some 650, some 20000, false) := by
  decide +kernel

/-- The worked machine in STANDBY at an angle, its sample awaited. -/
def standingAt (angle : Nat) : State :=
  let s := atAngle angle (onlineMachine .standby .online)
  { s with tracker := { s.tracker with awaiting := true } }

/-- An awaited sample that is good, of a machine not RUNNING and not escaping, with no record RETIRING. -/
def standing? (angle : Nat) (s : State) : Bool :=
  s.tracker.awaiting && goodSample? s.tracker angle true && s.sup.machine != .running && s.tracker.escape.isNone &&
    s.plan.all (fun q => q.state == .live)

theorem test_meets_standing_sample :
    standing? 35999 { State.reset with tracker := { State.reset.tracker with awaiting := true } } = true ∧
    standing? 14000 (standingAt 13999) = true ∧ (standingAt 13999).tracker.view.map View.activeKey = some 13500 ∧
    (covering workedPlan 14000).map Sector.start = some 14000 ∧
    (nextRecord workedPlan .forward 14000).map Sector.start = some 31500 ∧
    standing? 13999 (standingAt 13900) = true ∧ (arcBetween 13900 13999).contains 13500 = false ∧
    standing? 0 { onlineMachine .standby .online with tracker := { State.reset.tracker with awaiting := true } } = true := by
  decide +kernel
theorem test_meets_standing_own_start :
    let s := standingAt 35900
    let s := atAngle 35900 { s with plan := [runRecord 0 700] }
    standing? 0 s = true ∧ s.tracker.view.map View.activeKey = some 0 ∧ (covering s.plan 0).map Sector.start = some 0 ∧
    (arcBetween 35900 0).contains 0 = true ∧ (nextRecord s.plan .forward 0).map Sector.start = some 0 := by decide +kernel

/-- The worked machine RUNNING at an angle over a plan, escaping or not. -/
def runningOver (plan : List Sector) (escape : Option Nat) (angle : Nat) : State :=
  let s := runningAt angle
  let s := atAngle angle { s with plan := plan }
  { s with tracker := { s.tracker with escape := escape } }

/-- An awaited sample that is good, of a machine RUNNING with a last good angle and no record RETIRING: the records that cover
it and come next. -/
def runningSample (angle : Nat) (s : State) : Option (Nat × Nat) :=
  if s.tracker.awaiting && goodSample? s.tracker angle true && s.sup.machine == .running && s.tracker.lastGood.isSome
      && s.plan.all (fun q => q.state == .live) then
    (covering s.plan angle).bind fun c => (nextRecord s.plan s.sup.direction c.start).map fun n => (c.start, n.start)
  else none

/-- The HOLD that a sample meets on its way. -/
def metAt (angle : Nat) (s : State) : Option Nat :=
  (covering s.plan angle).bind fun c =>
    (holdMet (arcBetween (s.tracker.lastGood.getD 0) angle) c (changedRecord s.tracker.activeKey (some c))
      (clearServed (some c) s)).map Sector.start

theorem test_meets_running_laws : (runningAt 31400).sup.Lawful ∧ (runningAt 31400).TowersLawful ∧
    PlanLawful (runningAt 31400).plan ∧ (runningAt 31400).tracker.escape = none := by decide +kernel
theorem test_meets_running_overrun : runningSample 31500 (runningAt 31400) = some (31500, 0) ∧
    barrierPassed workedPlan (arcBetween 31400 31500) = true := by decide +kernel
theorem test_meets_running_met : runningSample 13500 (runningAt 13380) = some (13500, 14000) ∧
    metAt 13500 (runningAt 13380) = some 13500 ∧ barrierPassed workedPlan (arcBetween 13380 13500) = false := by
  decide +kernel
theorem test_meets_running_far : runningSample 20100 (runningAt 20000) = some (14000, 31500) ∧
    metAt 20100 (runningAt 20000) = none ∧ (covering workedPlan 20100).map (fun c => distAhead workedPlan c .forward 20100)
      = some 11400 ∧ runningSample 8990 (runningAt 8900) = some (0, 9000) := by decide +kernel
theorem test_meets_running_arrival : runningSample 13480 (runningAt 13470) = some (9000, 13500) ∧
    metAt 13480 (runningAt 13470) = none ∧ (covering workedPlan 13480).map (fun c => distAhead workedPlan c .forward 13480)
      = some 20 ∧ (runningAt 13470).tracker.isServed 13500 = false ∧
    (after (.angleSample 13480 true) (runningAt 13470)).tracker.isServed 13500 = true := by decide +kernel
theorem test_meets_running_barrier : runningSample 31480 (runningAt 31400) = some (14000, 31500) ∧
    (findRecord workedPlan 31500).map (fun n => (n.kind, n.action, ({ n with action := some .stop }).valid)) =
      some (.barrier, some .reverse, true) := by decide +kernel

/-- A plan with two BARRIER records side by side and one with a HOLD after its BARRIER. -/
def barrierRecord (start : Nat) : Sector := { runRecord start 300 with kind := .barrier, action := some .stop }
def twoBarriers : List Sector := [runRecord 0 700, barrierRecord 10000, barrierRecord 10050]
def barrierHold : List Sector :=
  [runRecord 0 700, barrierRecord 10000, { runRecord 12000 600 with kind := .hold, dwell := some 0, resume := some .auto }]

theorem test_meets_held_sample_stop :
    let s := runningOver twoBarriers none 9990
    goodSample? s.tracker 36000 true = false ∧ s.tracker.lastGood = some 9990 ∧ PlanLawful twoBarriers ∧
    (nextRecord twoBarriers .forward 0).map (fun n => (n.start, n.kind, n.action)) = some (10000, .barrier, some .stop) ∧
    (after (.angleSample 36000 true) s).sup.machine = .stopping := by decide +kernel

theorem test_meets_running_escape :
    PlanLawful twoBarriers ∧ PlanLawful barrierHold ∧
    runningSample 10049 (runningOver twoBarriers (some 10000) 10040) = some (10000, 10050) ∧
    runningSample 10050 (runningOver twoBarriers (some 10000) 10040) = some (10050, 0) ∧
    runningSample 12000 (runningOver barrierHold (some 10000) 11990) = some (12000, 0) ∧
    barrierPassed barrierHold (arcBetween 11990 12000) = false ∧
    ((covering barrierHold 12000).bind fun c => holdPassed
      { runningOver barrierHold (some 10000) 11990 with tracker :=
        { (runningOver barrierHold (some 10000) 11990).tracker with served := some (12000, 12000) } }
      (arcBetween 11990 12000) c) = none := by decide +kernel

theorem test_meets_pace : (viewAt (runningAt 8700) 8700).map (fun v => (v.lead, v.dist, v.into, v.width)) =
      some (500, 300, 8700, 9000) ∧
    (viewAt (runningAt 8500) 8500).map (fun v => (v.lead, v.dist)) = some (500, 500) := by decide +kernel

/-- The worked machine RUNNING out of the BARRIER at 31500. -/
def escaping : State :=
  { runningAt 31600 with tracker := { (runningAt 31600).tracker with escape := some 31500 } }

theorem test_meets_hand_over : escaping.sup.machine = .running ∧ escaping.tracker.escape = some 31500 ∧
    (onlineMachine .standby .online).sup.machine ≠ .running ∧
    (runningAt 20000).sup.machine = .running ∧ (runningAt 20000).tracker.escape = none ∧
    (runningAt 20000).tracker.view.isSome = true := by decide +kernel

/-- The worked machine at its computation, at an angle whose record has no swing pair, a capture of the held swing pending. -/
def capturing : State :=
  { workedComputation with tracker := { (runningAt 20000).tracker with capturePending := true } }

theorem test_meets_capture : capturing.tracker.capturePending = true ∧ capturing.link.settings.corner = true ∧
    (capturing.tower 21).fresh = true ∧ (capturing.tower 21).geometry = some (.corner 21 .normal 1150 30) ∧
    (runningAt 20000).tracker.capturePending = false ∧ capturing.tracker.view.map View.swing = some none ∧
    State.reset.link.settings.corner = false ∧ State.reset.tracker.view = none ∧
    (runningAt 10125).tracker.view.map View.swing = some (some (2000, 6000)) := by decide +kernel
theorem test_capture :
    let at' (joint : Int) := handOver (capturing.modTower 21 fun t => { t with joint := joint })
    ([3130, 29, 9000, 9300].map fun j => ((at' j).tracker.heldSwing, swingTarget (at' j), (at' j).tracker.capturePending)) =
      [(some 3100, some 3100, false), (some 0, some 0, false), (some 8970, some 8970, false),
        (some 9000, some 9000, false)] := by decide +kernel

theorem test_meets_tower_set :
    decodeTowerSet ([1, 1, 62] ++ word 8000 ++ [250, 0] ++ word 300 ++ [0]) =
      some { position := 1, geometry := some (.mainLine 62 8000 250 .normal 300) } ∧
    (Geometry.mainLine 62 8000 250 .normal 300).valid 1 = true ∧
    decodeTowerSet ([21, 0] ++ List.replicate 8 0) = some { position := 21, geometry := none } ∧
    setupMachine.sup.machine = .setup ∧ (runningAt 20000).sup.machine ≠ .setup := by decide +kernel

theorem test_meets_tower_commands : decodeTrim ([1] ++ word 300) = some (1, 300) ∧
    decodeTrim [21, 0xFE, 0xD4] = some (21, -300) ∧ (setupMachine.tower 1).geometry.isSome = true ∧
    (setupMachine.tower 21).geometry.isSome = true ∧ decodeTowerAck [21, 31] = some (21, 31) ∧
    setupMachine.takes 0x34 [1] := by decide +kernel

theorem test_meets_tower_get : State.reset.takes 0x32 [21] ∧ (State.reset.tower 21).geometry = none ∧
    (setupMachine.tower 21).geometry = some (.corner 21 .normal 1150 30) ∧ (21 : Byte).toNat = 21 := by decide +kernel

/-- What the manual's tests of a good reply ask of a status: drive fault, local stop and initialising, sensor invalid. -/
def seen (r : Reading) : Bool × Bool × Bool × Bool :=
  (shows (r.storedStatus 2) statusDriveFault, shows (r.storedStatus 2) statusLocalStop,
    shows (r.storedStatus 2) statusInitialising, shows (r.storedStatus 2) statusSensorInvalid)

/-- A reading with status bits. -/
def readingWith (bits : BitVec 5) : Reading := { cleanReading 0 7 with status := statusReady ||| bits }

theorem test_meets_poll_reading : readingOf (withCheck ([12, 0xB1, 0x01] ++ word 0 ++ word 7 ++ [1])) = some (cleanReading 0 7) ∧
    [0, statusDriveFault, statusLocalStop, statusInitialising, statusSensorInvalid].map (fun b => seen (readingWith b)) =
      [(false, false, false, false), (true, false, false, false), (false, true, false, false), (false, false, true, false),
       (false, false, false, true)] := by decide +kernel
theorem test_meets_poll_standing :
    ((onlineMachine .standby .silent).tower 2).state = .silent ∧ (onlineMachine .standby .silent).inMotion = false ∧
    ((onlineMachine .standby .online).tower 2).state = .online ∧
    ((onlineMachine .standby .faulted).tower 2).state = .faulted := by decide +kernel
theorem test_meets_poll_moving (st : TowerState) (h : st ∈ [TowerState.silent, .online, .resetting, .following]) :
    let s := (runningAt 20000).modTower 2 fun t => { t with state := st, stage := if st = .resetting then .acknowledged else .none }
    s.TowersLawful ∧ (s.tower 2).state = st := by
  revert st; decide +kernel
theorem test_meets_poll_driven :
    let s := (runningAt 20000).modTower 2 fun t => { t with applied := 200, track := 7, stall := 11, follow := 2 }
    let u := s.modTower 2 fun t => { t with stall := 10, follow := 3 }
    s.isEnd 2 = false ∧ (s.tower 2).follow + 1 < s.tune.follow ∧ s.tune.follow ≤ (u.tower 2).follow + 1 ∧
    s.tune.stallThreshold ≤ (s.tower 2).applied ∧ s.tune.stallRounds ≤ (s.tower 2).stall + 1 ∧
    (u.tower 2).stall + 1 < s.tune.stallRounds := by decide +kernel
theorem test_meets_poll_resetting :
    let s (st : ResetStage) := (onlineMachine .standby .online).modTower 2 fun t => { t with state := .resetting, stage := st }
    [ResetStage.requested, .acknowledged, .unrequested].map (fun st => (((s st).tower 2).state, ((s st).tower 2).stage)) =
      [(.resetting, .requested), (.resetting, .acknowledged), (.resetting, .unrequested)] ∧
    (s .requested).inMotion = false := by decide +kernel

/-- The worked machine RUNNING with tower 2 one step from a limit. -/
def nearLimit (f : Tower → Tower) : State := (runningAt 20000).modTower 2 f

theorem test_meets_driven :
    (nearLimit fun t => { t with miss := 2 }).TowersLawful ∧
    (nearLimit fun t => { t with miss := 2 }).link.settings.missLimit ≤ ((nearLimit fun t => { t with miss := 2 }).tower 2).miss + 1 ∧
    (runningAt 20000).tune.follow ≤ ((nearLimit fun t => { t with follow := 3 }).tower 2).follow + 1 ∧
    (runningAt 20000).isEnd 2 = false ∧
    (runningAt 20000).tune.stallThreshold ≤ ((nearLimit fun t => { t with applied := 200, stall := 11 }).tower 2).applied ∧
    (runningAt 20000).tune.stallRounds ≤ ((nearLimit fun t => { t with applied := 200, stall := 11 }).tower 2).stall + 1 := by
  decide +kernel

theorem test_meets_standing :
    let s := (onlineMachine .standby .online).modTower 2 fun t => { t with miss := 2 }
    let u := (onlineMachine .standby .online).modTower 21 fun t => t.resetRequested 100
    s.inMotion = false ∧ (s.tower 2).state = .online ∧ s.link.settings.missLimit ≤ (s.tower 2).miss + 1 ∧
    u.inMotion = false ∧ (u.tower 21).resetTimer = some 100 ∧ (u.tower 21).isDriven = false := by decide +kernel

theorem test_meets_slew : (runningAt 20000).isConfigured 1 = true ∧ ((runningAt 20000).tower 1).isDriven = true ∧
    (runningAt 20000).isConfigured 20 = false ∧ (runningAt 20000).sup.machine = .running ∧
    (onlineMachine .stopping .driving).sup.machine ≠ .running ∧ slewed 0 80 80 = 80 ∧ slewed 80 0 80 = 0 := by
  decide +kernel

theorem test_meets_targets :
    [1, 2, 4, 5].map (fun p => ((workedComputation.tower p).state, (workedComputation.tower p).error)) =
      [(.driving, 12), (.driving, -25), (.driving, -140), (.following, 0)] ∧
    (workedComputation.tower 3).error = 75 ∧ workedComputation.isEnd 6 = true ∧ workedComputation.tune.deadband = 15 ∧
    (workedComputation.tower 21).geometry = some (.corner 21 .normal 1150 30) ∧
    swingTarget workedComputation = some 3000 ∧ workedComputation.sup.machine = .running := by decide +kernel

/-- The worked machine in JOGGING, one tower jogged. -/
def jogging (p rounds : Nat) (mode : JogMode) (st : TowerState) : State :=
  let s := onlineMachine .jogging st
  { s with sup := { s.sup with
      jog := some { position := p, direction := .forward, speed := 200, roundsLeft := rounds, mode := mode } } }

theorem test_meets_targets_elsewhere :
    ((jogging 2 3 .fixed .driving).tower 2).isDriven = true ∧ (jogging 2 3 .fixed .driving).sup.machine = .jogging ∧
    (onlineMachine .stopping .driving).sup.machine ≠ .running ∧
    swingTarget (onlineMachine .running .driving) = none := by decide +kernel

/-- Tower 4 of the worked computation beyond the trip limit, the corner tower beyond its own, and both. -/
def misalignedOnly : State := workedInput 4 (-701) 120 .driving workedComputation
def swungOnly : State := workedInput 21 4531 330 .driving workedComputation
def misalignedAndSwung : State := workedInput 21 4531 330 .driving misalignedOnly

theorem test_meets_warn_checks :
    let s := workedComputation
    (s.sup.machine = .running ∧ (s.tower 4).state = .driving ∧ 4 < s.link.settings.towers) ∧
    s.tracker.view.bind View.warnLimit = some 120 ∧ (s.tower 4).error.natAbs = 140 ∧ (s.tower 3).error.natAbs = 75 ∧
    (s.tower 4).alignWarn = false ∧ ((computation s).tower 4).alignWarn = true ∧
    (runningAt 20000).tracker.view.bind View.warnLimit = none := by decide +kernel
theorem test_meets_trip_checks : misalignedOnly.sup.Lawful ∧
    (misaligned misalignedOnly, swungOut misalignedOnly (swingTarget misalignedOnly)) = (some 4, false) ∧
    (misaligned swungOnly, swungOut swungOnly (swingTarget swungOnly)) = (none, true) ∧
    (misaligned misalignedAndSwung, swungOut misalignedAndSwung (swingTarget misalignedAndSwung)) = (some 4, true) ∧
    (misaligned workedComputation, swungOut workedComputation (swingTarget workedComputation)) = (none, false) := by
  decide +kernel
theorem test_meets_jog_checks :
    let s := workedInput 4 (-701) 0 .driving (jogging 2 3 .fixed .driving)
    let u := workedInput 4 (-701) 0 .driving (jogging 4 3 .fixed .driving)
    (misaligned s, misaligned u, (s.tower 4).fresh) = (some 4, none, true) := by decide +kernel

theorem test_jog_align_ends :
    let s := workedInput 2 (-700) 56 .driving (jogging 2 3 .fixed .driving)
    ((computation s).sup.machine, (computation s).sup.jog.map Jog.roundsLeft) = (.jogging, some 2) := by decide +kernel
theorem test_meets_reports :
    (stoppingWith 80).sup.machine = .stopping ∧
    (∀ p ∈ (stoppingWith 80).link.settings.positions, ((writeTowers none (stoppingWith 80)).tower p).applied = 0) ∧
    ((writeTowers none (stoppingWith 81)).tower 21).applied = 1 ∧
    ({ supIn .reversing with reversal := .awaitingRest }).machine = .reversing ∧
    (let s := jogging 2 2 .fixed .driving
     misaligned s = none ∧ swungOut s (swingTarget s) = false ∧ jogMet s (swingTarget s) = false) ∧
    (let s := workedInput 2 (-5) 56 .driving (jogging 2 3 .align .driving)
     jogMet s (swingTarget s) = true ∧ misaligned s = none ∧
     (s.link.settings.positions.all fun p => ((writeTowers (swingTarget s) s).tower p).applied == 0) = false) := by
  decide +kernel

/-- LINK_SETUP's payload. -/
def linkPayload (ms : Nat) (towers corner : Byte) : List Byte := [1] ++ word ms ++ [towers, corner, 3, 10, 40]

theorem test_meets_link_setup :
    (decodeLink (linkPayload 250 1 0)).map LinkSettings.inRange = some true ∧
    (decodeLink (linkPayload 2000 20 1)).map LinkSettings.inRange = some true ∧
    (decodeLink (linkPayload 240 20 1)).map LinkSettings.inRange = some false ∧
    (decodeLink (linkPayload 250 1 0)).map (fun l => (l.isConfigured 1, l.isConfigured 21)) = some (true, false) ∧
    setupMachine.isConfigured 1 = true ∧ setupMachine.isConfigured 21 = true ∧
    setupMachine.takes 0x40 (linkPayload 250 1 0) := by decide +kernel

/-- The worked service table with slot 2 at an age. -/
def agedSlot (age : Nat) : State :=
  { servicing with svc := servicing.svc.setSlot 2 ((servicing.svc.slot 2).map fun r => { r with age := age }) }

theorem test_meets_round_start : servicing.link.running = true ∧ servicing.link.free = true ∧
    ((agedSlot 39).svc.slot 2).map (fun r => (r.state, r.age + 1)) = some (.queued, 40) ∧
    ((agedSlot 40).svc.slot 2).map (fun r => (r.state, r.age + 1)) = some (.queued, 41) ∧
    servicing.link.settings.ageLimit = 40 ∧ servicing.svc.slot 3 = none := by decide +kernel

theorem test_meets_round_start_polls : (pollingLast .standby .online).link.running = true ∧
    (timePasses 900 (pollingLast .standby .online)).link.phase = .poll ∧
    (timePasses 900 (pollingLast .standby .online)).link.nextPos = some 21 ∧
    (let s : State := { servicing with link := { servicing.link with remaining := 191 } }
     s.link.clock + s.link.remaining < s.link.settings.rate.perStep) ∧
    ({ servicing.link with brk := .pending }).free = true := by decide +kernel

theorem test_meets_time :
    State.reset.link.clock + 191 < State.reset.link.settings.rate.perStep ∧
    State.reset.link.clock + 192 = State.reset.link.settings.rate.perStep := by decide +kernel
theorem test_meets_steps :
    [100, 2, 1].map (fun n => (Supervisor.mk .starting .forward true true (some n) .cleared .none none none 10 8).startTimer) =
      [some 100, some 2, some 1] ∧
    [2, 1].map (fun n => ({ supIn .holding with hold := { held := none, dwell := .running n } }).hold.dwell) =
      [.running 2, .running 1] ∧
    [2, 1].map (fun n => ({ supIn .reversing with reversal := .delay n }).reversal) = [.delay 2, .delay 1] ∧
    [2, 1].map (fun n => (((onlineMachine .standby .online).modTower 2 fun t => t.resetRequested n).tower 2).resetTimer) =
      [some 2, some 1] := by decide +kernel
theorem test_timers_follow_the_line :
    let s := (onlineMachine .standby .online).modTower 2 fun t => t.resetRequested 5
    let t := timePasses 384 s
    ((t.tower 2).resetTimer, t.link.remaining, t.link.clock) = (some 3, 516, 0) := by decide +kernel

/-- A machine in JOGGING whose reset timer of tower 5 expires some character times from now, at the end of a step of 100 ms. -/
def expiring (chars : Nat) (s : State) : State :=
  let s := s.modTower 5 fun t => t.resetRequested 1
  { s with sup := supIn .jogging, link := { s.link with clock := 192 - chars } }

theorem test_meets_round_start_break :
    let s := expiring 92 (onlineMachine .jogging .online)
    s.link.remaining = 900 ∧ (timePasses 91 s).link.free = true ∧ (timePasses 92 s).link.brk = .sending 0 ∧
    (timePasses 4 (timePasses 92 s)).link.phase = .service := by decide +kernel
theorem test_break_begins_in_round :
    let s := expiring 92 (onlineMachine .jogging .online)
    let t := roundPasses s
    (t.sup.machine, t.link.brk, t.link.remaining, t.ev.phase, (after .roundStart s).link.remaining) =
      (.tripped, .none, 0, .low, 960) := by decide +kernel
theorem test_break_pends_late :
    let s := onlineMachine .jogging .online
    (roundPasses (expiring 3 { s with link := { s.link with remaining := 6 } })).link.brk = .pending := by decide +kernel

/-- A pulse that an expiry on the way gives is over when more character times have passed (R180). -/
theorem test_pulse_in_interval_is_over :
    let s := expiring 10 (onlineMachine .jogging .online)
    let s := { s with ev := attentive }
    ((timePasses 10 s).ev.attn, (timePasses 11 s).ev.phase) = (true, .low) := by decide +kernel

/-- The present step of 100 ms keeps its length in time over a change of rate (R77). -/
theorem test_rate_change_keeps_the_step :
    let s := { setupMachine with link := { setupMachine.link with clock := 191 } }
    ((after (.linkSetup ([0] ++ word 600 ++ [6, 1, 3, 10, 40])) s).link.clock,
      (after (.linkSetup ([2] ++ word 600 ++ [6, 1, 3, 10, 40])) s).link.clock) = (95, 382) := by decide +kernel

/-- The worked machine in STANDBY in a phase of a round with some character times left. -/
def lateIn (ph : Phase) (next : Option Nat) (left : Nat) : State :=
  let s := onlineMachine .standby .online
  { s with link := { s.link with phase := ph, nextPos := next, remaining := left } }

theorem test_meets_idle : (lateIn .closed none 0).pending = [] ∧ (lateIn .closed none 0).port.command = none ∧
    (lateIn .closed none 0).link.running = true ∧ (lateIn .closed none 0).link.free = true ∧
    (lateIn .poll (some 21) 25).link.nextPos = some 21 ∧ (lateIn .poll (some 21) 0).link.nextPos = some 21 ∧
    State.reset.link.running = false ∧ (lateIn .closed none 1).link.remaining ≠ 0 := by decide +kernel

theorem test_meets_poll_begin : (pollingLast .standby .online).link.running = true ∧
    (pollingLast .standby .online).link.free = true ∧ (pollingLast .standby .online).link.phase = .poll ∧
    (pollingLast .standby .online).link.nextPos = some 21 ∧ 26 ≤ (pollingLast .standby .online).link.remaining ∧
    ({ (pollingLast .standby .online).link with remaining := 25 }).mayBegin .poll = true := by decide +kernel

/-- The worked machine in STANDBY with a requested reset of tower 2. -/
def resetWaits : State := (onlineMachine .standby .online).modTower 2 fun t => t.resetRequested 100

theorem test_meets_service_phase : resetWaits.link.running = true ∧ resetWaits.link.free = true ∧
    resetWaits.link.phase = .service ∧ resetCandidate resetWaits = some 2 ∧ resetCandidate servicing = none ∧
    serviceCandidate servicing = some 1 ∧ (servicing.svc.slot 1).isSome = true ∧ servicing.link.phase = .service ∧
    22 ≤ servicing.link.remaining ∧ 16 ≤ resetWaits.link.remaining ∧
    ({ servicing.link with remaining := 21 }).mayBegin .service = true ∧
    ({ resetWaits.link with remaining := 15 }).mayBegin .service = true := by
  decide +kernel

/-- The worked machine with its first service request on the line, sent, or its reply arriving. -/
def serviceSending : State := after .serviceExchangeBegin servicing
def serviceAwaiting : State := after .requestSent serviceSending
def serviceReceiving : State := after .replyBegun serviceAwaiting

theorem test_meets_exchange_steps : serviceSending.link.exchange.map Exchange.step = some .sending ∧
    serviceAwaiting.link.exchange.map Exchange.step = some .awaiting := by decide +kernel

theorem test_meets_request_cut :
    let s := after .pollBegin (expiring 5 (pollingLast .jogging .online))
    s.link.exchange.map Exchange.step = some .sending ∧
    (timePasses 4 s).link.exchange.map Exchange.step = some .sending ∧ (timePasses 5 s).link.exchange = none ∧
    (after .requestSent s).link.brk = .sending 0 ∧ (after .requestSent s).link.remaining = 895 := by decide +kernel
/-- A reply cut by an expiry at the end of its reservation: the BREAK begins at once (R96). -/
theorem test_break_at_end_of_reservation :
    let s := expiring 18 (receivingLast .jogging .online)
    (s.link.exchange.map Exchange.used, (after .reservationUsedUp s).link.brk, (after .reservationUsedUp s).link.remaining) =
      (some 8, .sending 0, 874) := by decide +kernel

theorem test_meets_failed_exchange :
    serviceAwaiting.link.exchange.map (fun x => (x.owner, x.discard, x.used)) = some (.service 1, false, 7) ∧
    serviceReceiving.link.exchange.map Exchange.step = some .receiving ∧
    (serviceAwaiting.svc.slot 1).map Request.state = some .sent ∧ serviceAwaiting.link.phase = .service ∧
    (let s := after .requestSent (after .pollBegin { pollingLast .standby .online with
        link := { (pollingLast .standby .online).link with nextPos := some 1 } })
     s.link.exchange.map (fun x => (x.owner, x.step, x.discard)) = some (.poll 1, .awaiting, false) ∧
     s.link.nextPos = some 2 ∧ (s.tower 1).state = .online ∧ (s.tower 1).miss + 1 < s.link.settings.missLimit) := by
  decide +kernel

theorem test_meets_restart_exchange : serviceSending.takes 0x03 [] ∧ serviceSending.link.brk = .none ∧
    serviceReceiving.takes 0x03 [] ∧ serviceReceiving.link.brk = .none ∧
    (restartBlocks serviceReceiving).link.brk = .waiting 15 9 := by decide +kernel

/-- The worked machine with the first service request cancelled while it is on the line. -/
def cancelledAwaiting : State := after (.svcCancel [1]) serviceAwaiting

theorem test_meets_cancelled_exchange :
    (let t := timePasses 8 cancelledAwaiting
     t.link.exchange.map (fun y => (y.owner, y.step, y.discard, y.used)) = some (.service 1, .awaiting, false, 15) ∧
     t.link.phase = .service ∧ (t.svc.slot 1).map Request.state = some .cancelling) ∧
    (let t := timePasses 15 serviceReceiving
     t.link.exchange.map (fun y => (y.owner, y.step, y.discard, y.used)) = some (.service 1, .receiving, false, 22) ∧
     t.link.phase = .service ∧ (t.svc.slot 1).map Request.state = some .sent) ∧
    (let t := timePasses 7 (after .replyBegun cancelledAwaiting)
     t.link.exchange.map (fun y => (judgeReply y 1 (withCheck [14, 0xB2, 0, 1, 0x5E]), y.step)) =
       some (.wrongAddress, .receiving) ∧ (t.svc.slot 1).map Request.state = some .cancelling) := by decide +kernel

/-- The worked machine with a RESET exchange of tower 2 on the line. -/
def resetAwaiting : State :=
  after .requestSent (after .resetExchangeBegin ((onlineMachine .standby .online).modTower 2 fun t => t.resetRequested 100))

theorem test_meets_failed_reset :
    (let t := timePasses 8 resetAwaiting
     t.link.exchange.map (fun y => (y.owner, y.step, y.used)) = some (.reset 2, .awaiting, 12) ∧ t.link.phase = .service) ∧
    (let t := timePasses 4 (after .replyBegun resetAwaiting)
     t.link.exchange.map (fun y => judgeReply y 1 (withCheck [13, 0xB4])) = some .wrongAddress ∧ t.link.phase = .service) := by
  decide +kernel
theorem test_reset_no_reply : (((after .noReply resetAwaiting).tower 2).resetPending,
    ((after .noReply resetAwaiting).tower 2).stage, (after .noReply resetAwaiting).link.exchange) =
      (true, .requested, none) := by decide +kernel

/-- A POLL reply, a RESET reply and a SERVICE reply of the tower with address 11. -/
def pollReply (round : Byte) : List Byte := withCheck ([11, 0xB1, 0x01] ++ word 0 ++ word 5 ++ [round])
def resetReply : List Byte := withCheck [11, 0xB4]
def serviceReply : List Byte := withCheck [11, 0xB2, 0, 1, 2]

theorem test_meets_reply_tests : checkHolds [11, 0xB4, 0, 0] = false ∧ checkHolds (pollReply 1) = true ∧
    (pollReply 1)[0]? = some 11 ∧ (pollReply 1)[1]? = some 0xB1 ∧ (pollReply 1)[7]? = some 1 ∧ (pollReply 2)[7]? ≠ some 1 ∧
    checkHolds resetReply = true ∧ resetReply[1]? = some 0xB4 ∧ checkHolds serviceReply = true ∧
    serviceReply[1]? = some 0xB2 ∧ (Owner.reset 1).replyKind = 0xB4 := by decide +kernel

/-- The worked machine in STANDBY with an exchange of tower 1 whose reply is arriving. -/
def replying (o : Owner) (ph : Phase) (s : State) : State :=
  { s with link := { s.link with
      phase := ph, nextPos := if ph = .poll then some 2 else none
      exchange := some { owner := o, address := 11, request := [], step := .receiving, used := 8, replyAt := 8,
                         discard := false } } }

theorem test_meets_poll_miss :
    let s := replying (.poll 1) .poll (onlineMachine .standby .online)
    let t := timePasses 10 s
    t.link.exchange.map (fun y => (y.step, y.discard, y.used)) = some (.receiving, false, 18) ∧ t.link.nextPos = some 2 ∧
    (t.tower 1).state = .online ∧ (t.tower 1).miss + 1 < t.link.settings.missLimit ∧
    t.link.exchange.map (fun y => [judgeReply y 1 (pollReply 2), judgeReply y 1 (withCheck [12, 0xB1, 1, 0, 0, 0, 5, 1]),
      judgeReply y 1 [11, 0xB1, 1, 0, 0, 0, 5, 1, 0, 0]]) = some [.late, .wrongAddress, .check] := by decide +kernel

/-- The worked machine with a poll of tower 1 on the line, the tower in a state with a miss count. -/
def missing (st : TowerState) (miss : Nat) : State :=
  replying (.poll 1) .poll ((onlineMachine .running .driving).modTower 1 fun t => { t with state := st, miss := miss })

theorem test_meets_miss_by_state :
    ([(.driving, 1), (.following, 1), (.online, 1), (.silent, 3), (.driving, 2), (.faulted, 0)].map fun c =>
      let t := timePasses 10 (missing c.1 c.2)
      (t.link.exchange.map (fun y => (y.owner, y.step, y.discard)), (t.tower 1).state, (t.tower 1).miss,
        t.link.settings.missLimit)) =
      [(.driving, 1), (.following, 1), (.online, 1), (.silent, 3), (.driving, 2), (.faulted, 0)].map fun c =>
        (some (.poll 1, .receiving, false), c.1, c.2, 3) := by decide +kernel
theorem test_miss_by_state :
    ([(TowerState.driving, 1), (.following, 1), (.online, 1), (.silent, 1), (.silent, 3), (.driving, 2), (.faulted, 0)].map
      fun c => let t := (after (.replyComplete (pollReply 2)) (missing c.1 c.2)).tower 1; (t.state, t.miss)) =
      [(.following, 2), (.following, 2), (.online, 2), (.silent, 2), (.silent, 3), (.silent, 3), (.faulted, 0)] := by
  decide +kernel

theorem test_meets_last_good_reply :
    let t := timePasses 10 (receivingLast .standby .online)
    t.link.exchange.map (fun y => (y.owner, y.step, y.discard)) = some (.poll 21, .receiving, false) ∧
    t.link.running = true ∧ t.link.phase = .poll ∧ t.link.nextPos = none := by decide +kernel
theorem test_meets_unit_refused :
    let s := timePasses 7 serviceReceiving
    s.link.exchange.map (fun y => judgeReply y 1 (withCheck [13, 0xB2, 3, 0, 0])) =
      some (.good (withCheck [13, 0xB2, 3, 0, 0])) ∧ (s.svc.slot 1).map Request.state = some .sent := by decide +kernel

theorem test_meets_good_reply :
    (let s := replying (.poll 1) .poll (onlineMachine .standby .online)
     s.link.exchange.map (fun x => judgeReply x s.link.round (pollReply 1)) = some (.good (pollReply 1)) ∧
     (s.link.phase ≠ .poll ∨ s.link.nextPos ≠ none) ∧ (s.tower 1).state = .online ∧
     readingOf (pollReply 1) = some { status := 0x01, joint := 0, track := 5 }) ∧
    (let s := replying (.reset 1) .service ((onlineMachine .standby .online).modTower 1 fun t => t.resetRequested 100)
     s.link.exchange.map (fun x => judgeReply x s.link.round resetReply) = some (.good resetReply) ∧
     (s.link.phase ≠ .poll ∨ s.link.nextPos ≠ none) ∧ (s.tower 1).stage = .requested) ∧
    (serviceReceiving.link.exchange.map (fun x => judgeReply x 1 (withCheck [13, 0xB2, 0, 1, 0x5E]))
       = some (.good (withCheck [13, 0xB2, 0, 1, 0x5E])) ∧ serviceReceiving.link.phase ≠ .poll) := by decide +kernel

theorem test_meets_break :
    (onlineMachine .standby .online).link.brk = .none ∧ (onlineMachine .standby .online).link.exchange = none ∧
    (after .pollBegin (pollingLast .standby .online)).link.exchange.map (fun x => (x.owner, x.step)) = some (.poll 21, .sending) ∧
    (receivingLast .standby .online).link.exchange.map (fun x => (x.owner, x.step)) = some (.poll 21, .receiving) ∧
    (receivingLast .standby .online).link.brk = .none ∧ (receivingLast .standby .online).link.running = true ∧
    (requestBreak { onlineMachine .standby .online with
      link := { (onlineMachine .standby .online).link with remaining := 3 } }).link.brk = .pending ∧
    (requestBreak { onlineMachine .standby .online with
      link := { (onlineMachine .standby .online).link with remaining := 4 } }).link.brk = .sending 0 ∧
    (requestBreak { onlineMachine .standby .online with
      link := { (onlineMachine .standby .online).link with remaining := 4 } }).link.phase = .service := by decide +kernel

theorem test_meets_break_waits : tripMidPoll.link.brk = .waiting 15 10 ∧ tripMidPoll.link.exchange = none ∧
    tripMidPoll.link.running = true ∧ tripMidPoll.link.nextPos = some 6 ∧
    (timePasses 10 tripMidPoll).link.brk = .waiting 5 0 ∧
    (timePasses 4 (after .breakBegin tripMidPoll)).link.brk = .sending 4 := by decide +kernel

theorem test_meets_break_cuts : serviceSending.link.running = true ∧ serviceSending.link.brk = .none ∧
    serviceSending.link.exchange.map (fun x => (x.owner, x.discard, x.step)) = some (.service 1, false, .sending) ∧
    (serviceSending.svc.slot 1).map Request.state = some .sent ∧ serviceReceiving.link.brk = .none ∧
    (serviceReceiving.svc.slot 1).map Request.state = some .sent ∧ State.reset.link.running = false := by decide +kernel
theorem test_meets_break_cuts_others : (cancelledAwaiting.svc.slot 1).map Request.state = some .cancelling ∧
    cancelledAwaiting.link.brk = .none ∧
    cancelledAwaiting.link.exchange.map (fun x => (x.owner, x.discard)) = some (.service 1, false) ∧
    resetAwaiting.link.exchange.map Exchange.owner = some (.reset 2) ∧ resetAwaiting.link.brk = .none ∧
    resetAwaiting.link.running = true := by decide +kernel

theorem test_break_cuts_service :
    let t := requestBreak serviceReceiving
    ((t.svc.slot 1).map fun r => (r.state, r.code, r.result), t.ev.isSet .serviceDone, t.link.exchange, t.link.brk,
      (requestBreak cancelledAwaiting).svc.slot 1) =
      (some (.failed, .abandoned, none), true, none, .waiting 15 9, none) := by decide +kernel
theorem test_break_cuts_reset :
    let t := requestBreak resetAwaiting
    ((t.tower 2).resetPending, (t.tower 2).stage, t.link.brk, (requestBreak (after .replyBegun resetAwaiting)).link.brk) =
      (true, .requested, .sending 0, .waiting 12 6) := by decide +kernel

theorem test_meets_online : setupMachine.takes 0x50 [] ∧ setupMachine.sup.machine = .setup ∧
    setupMachine.link.settings.towers ≠ 0 ∧ firstGeometryFailure setupMachine = none ∧
    setupMachine.link.settings.roundCheck = true ∧ State.reset.link.settings.towers = 0 ∧
    firstGeometryFailure (setupMachine.modTower 3 fun t => { t with geometry := none }) = some 3 ∧
    retiringRecord setupMachine.plan = none ∧ ({ LinkSettings.powerOn with roundMs := 250, towers := 20 }).roundCheck = false := by
  decide +kernel

theorem test_meets_offline : (onlineMachine .standby .online).takes 0x51 [] ∧
    (onlineMachine .standby .online).sup.machine = .standby ∧ retiringRecord workedPlan = none ∧
    (runningAt 20000).sup.machine = .running := by decide +kernel

/-- The worked machine ready to START at an angle. -/
def ready (angle : Nat) : State := atAngle angle (onlineMachine .standby .online)

theorem test_meets_start : (ready 20000).takes 0x52 [0] ∧ decodeStart [0] = some .forward ∧
    (ready 20000).sup.machine = .standby ∧ (ready 20000).sup.loopClosed = true ∧
    (ready 20000).tracker.lastGood = some 20000 ∧
    (∀ p ∈ (ready 20000).link.settings.positions, ((ready 20000).tower p).state = .online) ∧
    (covering workedPlan 20000).map Sector.kind = some .run ∧ (ready 20000).sup.startDelay = 10 := by decide +kernel

theorem test_meets_start_checks : (runningAt 20000).sup.machine ≠ .standby ∧
    (ready 20000).plan ≠ [] ∧ (onlineMachine .standby .online).tracker.lastGood = none ∧
    firstNotOnline (atAngle 20000 (onlineMachine .standby .silent)) = some 1 ∧ firstNotOnline (ready 31600) = none ∧
    (covering workedPlan 31600).map (fun r => (r.kind, escapeAllowed workedPlan r 31600 .forward,
      escapeAllowed workedPlan r 31600 .reverse)) = some (.barrier, false, true) ∧
    (covering workedPlan 33750).map (fun r => (escapeAllowed workedPlan r 33750 .forward,
      escapeAllowed workedPlan r 33750 .reverse)) = some (false, false) := by decide +kernel

theorem test_meets_start_turns : (ready 20000).sup.direction ≠ .reverse ∧ decodeStart [1] = some .reverse ∧
    (nextRecord workedPlan .reverse 14000).map Sector.start = some 13500 ∧
    (nextRecord workedPlan .reverse 31500).map Sector.start = some 14000 := by decide +kernel
theorem test_start_turns_the_view :
    let t := after (.start [1]) (ready 20000)
    ((ready 20000).tracker.view.map fun v => (v.nextKey, v.dist, v.currentPace),
      t.tracker.view.map fun v => (v.nextKey, v.dist, v.currentPace, v.nextPace), t.ev.isSet .sectorCrossed) =
      (some (31500, 11500, 800), some (13500, 6000, 500, 0), false) := by decide +kernel
theorem test_start_crosses :
    let s := ready 20000
    let t := after (.start [1]) { s with tracker := { s.tracker with view := s.tracker.view.map fun v =>
      { v with activeKey := 9000 } } }
    (t.tracker.activeKey, t.tracker.capturePending, t.ev.isSet .sectorCrossed) = (some 14000, true, true) := by decide +kernel

theorem test_meets_stop : (commanded 0x53 [] setupMachine).executes 0x53 [] ∧
    (commanded 0x53 [1] setupMachine).executes 0x53 [1] ∧
    (commanded 0x53 [] (onlineMachine .starting .driving)).sup.machine = .starting ∧ expiredHold.sup.machine = .holding ∧
    (onlineMachine .stopping .driving).sup.machine = .stopping := by decide +kernel

theorem test_meets_pause_continue : (commanded 0x54 [] (runningAt 20000)).executes 0x54 [] ∧
    (commanded 0x55 [] expiredHold).executes 0x55 [] ∧ expiredHold.sup.machine = .holding ∧ setupMachine.sup.machine ≠ .running := by decide +kernel

theorem test_meets_reverse : (runningAt 20000).takes 0x56 [] ∧ (runningAt 20000).tracker.escape = none ∧
    expiredHold.tracker.escape = none ∧
    ¬((setupMachine.sup.machine = .running ∨ setupMachine.sup.machine = .holding) ∧ setupMachine.tracker.escape = none) := by
  decide +kernel

theorem test_meets_jog :
    decodeJog ([1, 0] ++ word 1 ++ [1, 0]) =
      some { position := 1, direction := .forward, speed := 1, roundsLeft := 1, mode := .fixed } ∧
    decodeJog ([21, 1] ++ word 300 ++ [120, 1]) =
      some { position := 21, direction := .reverse, speed := 300, roundsLeft := 120, mode := .align } ∧
    (ready 20000).takes 0x57 ([1, 0] ++ word 1 ++ [1, 0]) ∧ (ready 20000).isConfigured 21 = true ∧
    (onlineMachine .jogging .online).sup.machine = .jogging ∧ 300 < wordOf 1 0x2D ∧
    (ready 20000).takes 0x57 [1, 0, 1, 0x2D, 1, 0] := by decide +kernel

/-- The worked machine TRIPPED by the panel. -/
def trippedMachine : State := after (.estop []) { runningAt 20000 with ev := Events.reset }

theorem test_meets_estop : setupMachine.takes 0x58 [] ∧ (ready 20000).takes 0x58 [] ∧
    (runningAt 20000).inMotion = true ∧ (runningAt 20000).TowersLawful ∧ (runningAt 20000).sup.Lawful ∧
    trippedMachine.sup.machine = .tripped := by decide +kernel

theorem test_meets_loop : (runningAt 20000).sup.loopClosed = true ∧ (ready 20000).inMotion = false ∧
    ({ supIn .standby with loopClosed := false }).loopClosed = false := by decide +kernel

theorem test_meets_clear_trip : trippedMachine.takes 0x59 [] ∧ (ready 20000).sup.machine ≠ .tripped ∧
    (trippedMachine.tower 1).isDriven = false ∧ retiringRecord trippedMachine.plan = none := by decide +kernel

theorem test_meets_timers :
    (after (.start [0]) (ready 20000)).sup.startTimer = some 100 ∧
    (after (.start [0]) (ready 20000)).sup.machine = .starting ∧
    (after (.angleSample 13482 true) (runningAt 13470)).sup.hold = { held := some 13500, dwell := .running 36000 } ∧
    (findRecord workedPlan 13500).bind Sector.resume = some .auto ∧
    ((findRecord workedPlan 13500).map fun r => ({ r with resume := some .manual }).valid) = some true ∧
    ({ supIn .reversing with reversal := .delay 80 }).reversal = .delay 80 := by decide +kernel

/-- The worked machine at 31490 cd, its reversal timer running. -/
def turning : State :=
  { runningAt 31490 with sup := { supIn .reversing with reversal := .delay 1 } }

theorem test_meets_reversal : turning.sup.machine = .reversing ∧ turning.tracker.lastGood = some 31490 ∧
    (covering workedPlan 31490).map Sector.start = some 14000 ∧
    (nextRecord workedPlan turning.sup.direction.flip 14000).map Sector.start = some 13500 := by decide +kernel
theorem test_reversal_turns_the_view :
    let t := after .reversalTimerExpiry turning
    (t.sup.machine, t.sup.direction, t.tracker.view.map fun v => (v.nextKey, v.dist, v.currentPace, v.nextPace)) =
      (.running, .reverse, some (13500, 17490, 500, 0)) := by decide +kernel

theorem test_meets_submit : decodeSubmit [21, 1, 40, 7, 8] =
      some { position := 21, operation := .write, index := 40, value := 1800 } ∧
    decodeSubmit [1, 0, 40] = some { position := 1, operation := .read, index := 40, value := 0 } ∧
    servicing.takes 0x60 [1, 0, 40] ∧ servicing.sup.machine ≠ .setup ∧ servicing.isConfigured 21 = true ∧
    servicing.svc.slot 3 = none ∧ servicing.svc.slot 1 ≠ none ∧ servicing.svc.slot 2 ≠ none := by decide +kernel

/-- A request that a slot of a full table holds. -/
def anyRequest (st : SlotState) : Request :=
  { state := st, position := 1, operation := .read, index := 0, value := 0, submission := 1, age := 0, code := .none,
    result := none }

theorem test_meets_submit_full : ∀ m, 1 ≤ m → m ≤ 8 →
    ({ Service.empty with slots := Vector.replicate 8 (some (anyRequest .done)) } : Service).slot m ≠ none := by
  intro m a b
  have h : ∀ m ≤ 8, 1 ≤ m →
    ({ Service.empty with slots := Vector.replicate 8 (some (anyRequest .done)) } : Service).slot m ≠ none := by decide +kernel
  exact h m b a

theorem test_meets_result_cancel : servicing.takes 0x61 [1] ∧ servicing.takes 0x62 [8] ∧ (0 : Byte).toNat < 1 ∧
    8 < (9 : Byte).toNat ∧ servicing.svc.slot 8 = none ∧ (servicing.svc.slot 1).map Request.state = some .queued ∧
    (serviceSending.svc.slot 1).map Request.state = some .sent ∧
    ((after (.svcCancel [1]) serviceSending).svc.slot 1).map Request.state = some .cancelling ∧
    (Service.setSlot Service.empty 8 (some (anyRequest .done))).slot 8 = some (anyRequest .done) := by decide +kernel

theorem test_meets_too_old : ((agedSlot 40).svc.slot 2).map Request.state = some .queued ∧
    (agedSlot 40).link.settings.ageLimit < 40 + 1 := by decide +kernel

theorem test_meets_enables : decodeEvtSet [0x07, 0xFF, 1] = some (0x7FF, true) ∧ State.reset.takes 0x72 [0x07, 0xFF, 1] ∧
    (State.reset.ev.enable 0x7FF true).anyPending = false ∧ State.reset.ev.anyPending = false ∧
    ((State.reset.ev.raise .trip).enable 0x7FF true).anyPending = true ∧ (State.reset.ev.raise .trip).anyPending = false := by
  decide

theorem test_meets_acknowledge : decodeEvtAck [0x07, 0xFF] = some 0x7FF ∧ State.reset.takes 0x71 [0x07, 0xFF] ∧
    (State.reset.ev.acknowledge 0x7FF).anyPending = false ∧
    ({ attentive.raise .towerChange with flags := 0x020 }).anyPending = true ∧ attentive.phase = .low ∧
    (attentive.raise .towerChange).phase = .high := by decide

theorem test_meets_attn : (attentive.raise .towerChange).phase = .high ∧
    (attentive.raise .towerChange).highEnd.phase = .gap ∧ (attentive.raise .towerChange).highEnd.owed = false ∧
    (attentive.raise .towerChange).highEnd.pulse.owed = true ∧
    (attentive.raise .towerChange).highEnd.pulse.anyPending = true := by decide

theorem test_meets_raise : attentive.pendingCount = 0 ∧ (attentive.raise .towerChange).pendingCount = 1 ∧
    attentive.phase = .low ∧ (attentive.raise .sectorCrossed).pendingCount = 0 ∧
    (let e := { attentive with phase := .gap }
     e.pendingCount = 0 ∧ (e.raise .trip).pendingCount = 1 ∧ (e.raise .trip).owed = true ∧ (e.raise .trip).phase = .gap) ∧
    ((attentive.raise .towerChange).raise .trip).pendingCount = 2 := by decide

end Sys2Proof.Tests
end

/-! PROOFS. What one step does to the field plan, and the two laws of the plan it keeps (O10, O11). -/

namespace Sys2Proof.Machine

/-! ### An invariant of the step -/

/-- A step takes a command of the queue or an event, or the part goes on by itself (log 3): a predicate that each of these keeps
is kept by the step. -/
theorem step_keeps {P : State → Prop} (queue : ∀ (q : List Instr) (s : State), P s → P { s with pending := q })
    (command : ∀ (code : Byte) (h : Handler) (payload : List Byte) (s : State), handlerOf code = some h → P s →
      P (carryOut code h payload s))
    (unknown : ∀ (c : Command) (s : State), s.port.command = some c → P s → P (answerUnknown c.code s))
    (event : ∀ (i : Instr) (s : State), commandOf i = none → P s → ∃ t, exec i s = .next t ∧ P t)
    (round : ∀ s : State, P s → P (startRound s)) (time : ∀ s : State, P s → P (characterTime s))
    {s t : State} (h : P s) (k : step s = .next t) : P t := by
  have happens : ∀ {i : Instr} {u v : State}, commandOf i = none → exec i u = .next v → P u → P v := by
    intro i u v e k hu
    obtain ⟨w, hw, pw⟩ := event i u e hu
    exact Host.Outcome.next.inj (hw.symm.trans k) ▸ pw
  have idles : P (idle s) := by
    unfold idle
    split
    · rename_i c hc
      unfold completeCommand
      split
      · rename_i f hf
        have := command c.code f c.payload s hf h
        rwa [carryOut_of_takes f (Or.inl hc)] at this
      · exact unknown c s hc h
    · split
      · exact happens (i := .pollBegin) rfl rfl h
      split
      · exact round s h
      split
      · split
        · exact happens (i := .resetExchangeBegin) rfl rfl h
        · exact happens (i := .serviceExchangeBegin) rfl rfl h
      · exact time s h
  unfold step at k
  split at k
  · exact Host.Outcome.next.inj k ▸ idles
  · rename_i i rest _
    have hq := queue rest s h
    cases e : commandOf i with
    | none => exact happens e k hq
    | some c =>
      obtain ⟨f, hf, he⟩ := exec_command i c.1 c.2 { s with pending := rest } e
      exact Host.Outcome.next.inj (he.symm.trans k) ▸ command c.1 f c.2 _ hf hq

/-! ### What an event does to the plan -/

/-- `t`'s plan is `s`'s with records left out, and the third law of the plan (R21) is kept. -/
abbrev KeepsTable (s t : State) : Prop := Shrinks s t ∧ Retires s t

theorem Shrinks.of_plan {s t : State} (h : t.plan = s.plan) : Shrinks s t := by rw [Shrinks, h]

theorem KeepsTable.of {s t : State} (hp : t.plan = s.plan) (ha : t.tracker.lastGood = s.tracker.lastGood)
    (hm : t.sup.machine = s.sup.machine) : KeepsTable s t := ⟨Shrinks.of_plan hp, Retires.of hp ha hm⟩

theorem KeepsTable.trans {s t u : State} (h : KeepsTable s t) (k : KeepsTable t u) : KeepsTable s u :=
  ⟨k.1.trans h.1, k.2.after h.2⟩

/-- An event that does not happen in a state leaves it as it is (log 5). -/
theorem KeepsTable.ite {s t : State} {c : Prop} [Decidable c] (h : KeepsTable s t) : KeepsTable s (if c then t else s) := by
  split
  · exact h
  · exact .of rfl rfl rfl

theorem atMoment_table {act : Exchange → State → State} (k : ∀ x s, KeepsTable s (act x s)) (st : ExStep)
    (moment : Exchange → Nat) (s : State) : KeepsTable s (atMoment st moment act s) :=
  ⟨atMoment_shrinks (fun x s => (k x s).1) st moment s, atMoment_retiring (fun x s => (k x s).2) st moment s⟩

theorem timePasses_table (n : Nat) (s : State) : KeepsTable s (timePasses n s) :=
  ⟨timePasses_shrinks n s, timePasses_retiring n s⟩

theorem breakBegins_table (s : State) : KeepsTable s (breakBegins s) := ⟨breakBegins_shrinks s, breakBegins_retiring s⟩

theorem replyBreaksOff_table (s : State) : KeepsTable s (replyBreaksOff s) :=
  ⟨replyBreaksOff_shrinks s, replyBreaksOff_retiring s⟩

theorem enterFaulted_table (p : Nat) (r : FaultReason) (s : State) : KeepsTable s (enterFaulted p r s) :=
  ⟨enterFaulted_shrinks p r s, enterFaulted_retiring p r s⟩

theorem startRound_table (s : State) : KeepsTable s (startRound s) :=
  ⟨Shrinks.of_plan (startRound_plan s), startRound_retiring s⟩

/-- The judgement of the bytes received changes the port and the event flags alone. -/
theorem judgeReceived_table (busy : Bool) (received : List Byte) (s : State) : KeepsTable s (judgeReceived busy received s) := by
  unfold judgeReceived takeCommand
  (repeat' split) <;> exact .of rfl rfl rfl

/-- A reply that was cut short is over: the line falls idle, and the BREAK that waits for a quiet line may fall due (R96). -/
theorem fallsIdle_table (n : Nat) (s : State) : KeepsTable s (breakDue (lineFallsIdle (timePasses n s))) :=
  (timePasses_table n s).trans (.trans (t := lineFallsIdle (timePasses n s))
    ⟨Shrinks.of_plan (lineFallsIdle_plan _), lineFallsIdle_retiring _⟩ ⟨breakDue_shrinks _, breakDue_retiring _⟩)

/-- Every event happens, and none adds a record or breaks the third law of a lawful plan (R6, R21). -/
theorem event_table {i : Instr} {s : State} (e : commandOf i = none) (p : PlanLawful s.plan) :
    ∃ t, exec i s = .next t ∧ KeepsTable s t := by
  cases i with
  | powerOnReset ended =>
    exact ⟨_, rfl, List.nil_sublist _, fun _ => RetiringLawful.of_live fun _ h => absurd h List.not_mem_nil⟩
  | transactionStart =>
    refine ⟨_, rfl, ?_⟩
    (repeat' split) <;> exact .of rfl rfl rfl
  | transactionEnd received =>
    refine ⟨_, rfl, ?_⟩
    split
    · exact .trans (.of rfl rfl rfl) (judgeReceived_table _ received _)
    · exact .of rfl rfl rfl
  | attnHighEnd => exact ⟨_, rfl, .of rfl rfl rfl⟩
  | attnGapEnd => exact ⟨_, rfl, .of rfl rfl rfl⟩
  | roundStart =>
    refine ⟨_, rfl, .ite (.trans (t := roundPasses s) ⟨roundPasses_shrinks s, roundPasses_retiring s⟩ ?_)⟩
    exact .trans (t := endRound _) ⟨endRound_shrinks _, endRound_retiring _⟩ (startRound_table _)
  | unreachable n => exact ⟨_, rfl, .ite (.of rfl rfl rfl)⟩
  | angleSample a v => exact ⟨_, rfl, takeAnswer_shrinks _ v s, takeAnswer_retiring _ v p⟩
  | angleLoss => exact ⟨_, rfl, .ite ⟨missingSample_shrinks s, missingSample_retiring s⟩⟩
  | pollBegin => exact ⟨_, rfl, pollBegins_shrinks s, pollBegins_retiring s⟩
  | resetExchangeBegin => exact ⟨_, rfl, Shrinks.of_plan (resetBegins_plan s), resetBegins_retiring s⟩
  | serviceExchangeBegin => exact ⟨_, rfl, Shrinks.of_plan (serviceBegins_plan s), serviceBegins_retiring s⟩
  | requestSent => exact ⟨_, rfl, atMoment_table (act := requestEnds) (fun _ _ => .of rfl rfl rfl) _ _ s⟩
  | noReply =>
    exact ⟨_, rfl, atMoment_table (fun x s => ⟨windowCloses_shrinks x s, windowCloses_retiring x s⟩) _ _ s⟩
  | replyGapTimeout =>
    refine ⟨_, rfl, ?_⟩
    split
    · exact replyBreaksOff_table s
    · exact breakBegins_table s
    · exact .of rfl rfl rfl
  | reservationUsedUp =>
    refine ⟨_, rfl, ?_⟩
    split
    · exact atMoment_table (fun x s => ⟨reservationEnds_shrinks x s, reservationEnds_retiring x s⟩) _ _ s
    · exact (timePasses_table _ s).trans (breakBegins_table _)
    · exact .of rfl rfl rfl
  | replyFramingError => exact ⟨_, rfl, replyBreaksOff_table s⟩
  | replyComplete reply =>
    refine ⟨_, rfl, ?_⟩
    split
    · exact .ite (atMoment_table (fun x s => ⟨replyArrives_shrinks reply x s, replyArrives_retiring reply x s⟩) _ _ s)
    · exact fallsIdle_table _ s
    · exact .of rfl rfl rfl
  | missLimitReached n => exact ⟨_, rfl, .ite ⟨missLimit_shrinks n s, missLimit_retiring n s⟩⟩
  | followLimitReached n => exact ⟨_, rfl, .ite (enterFaulted_table n .sensor s)⟩
  | stall n => exact ⟨_, rfl, .ite (enterFaulted_table n .stall s)⟩
  | jogRoundsExpired =>
    refine ⟨_, rfl, ?_⟩
    split
    · exact .ite ⟨countJogRound_shrinks _ s, countJogRound_retiring _ s⟩
    · exact .of rfl rfl rfl
  | startTimerExpiry => exact ⟨_, rfl, .ite ⟨changeState_shrinks .running s, changeState_retiring .running s⟩⟩
  | dwellTimerExpiry => exact ⟨_, rfl, .ite ⟨dwellExpires_shrinks s, dwellExpires_retiring s⟩⟩
  | reversalTimerExpiry => exact ⟨_, rfl, .ite ⟨reversalExpires_shrinks s, reversalExpires_retiring s⟩⟩
  | resetTimerExpiry n => exact ⟨_, rfl, .ite (enterFaulted_table n .resetTimeout s)⟩
  | safetyLoopChange closed =>
    refine ⟨_, rfl, ?_⟩
    split
    · exact .of rfl rfl rfl
    · exact ⟨loopChanges_shrinks closed s, loopChanges_retiring closed s⟩
  | breakBegin =>
    refine ⟨_, rfl, ?_⟩
    split
    · exact (timePasses_table _ s).trans (breakBegins_table _)
    all_goals exact breakBegins_table s
  | breakEnd => exact ⟨_, rfl, breakSent_shrinks s, breakSent_retiring s⟩
  | replyBegun =>
    refine ⟨_, rfl, ?_⟩
    split <;> exact .of rfl rfl rfl
  | _ => cases e

/-! ### The laws of the plan over a step -/

/-- The two laws a step keeps together: the third leans on the first at a good sample, which looks its record up by its start
angle, and at the edits of the table. -/
abbrev State.PlanLaws (s : State) : Prop := PlanLawful s.plan ∧ s.RetiringLawful

theorem KeepsTable.laws {s t : State} (k : KeepsTable s t) (h : s.PlanLaws) : t.PlanLaws := ⟨h.1.sublist k.1, k.2 h.2⟩

/-- Settles O10: every event leaves records out at most, and every command keeps a lawful plan lawful. -/
theorem stepKeepsPlanLaw : Obligations.StepKeepsPlanLaw := by
  intro s t h k
  refine step_keeps (P := fun s => PlanLawful s.plan) (fun _ _ => id) ?command (fun _ _ _ => id) ?event
    (fun s l => l.sublist (startRound_table s).1) (fun s l => l.sublist (characterTime_shrinks s)) h k
  case command => exact fun _ _ payload _ hf l => carryOut_plan_lawful (handlerOf_plan hf) payload l
  case event =>
    intro _ _ e l
    obtain ⟨t, k, table⟩ := event_table e l
    exact ⟨t, k, l.sublist table.1⟩

/-- The two laws of the plan are an invariant of the step. -/
theorem step_keeps_planLaws {s t : State} (h : s.PlanLaws) (k : step s = .next t) : t.PlanLaws := by
  refine step_keeps (P := State.PlanLaws) (fun _ _ l => ⟨l.1, Retires.of rfl rfl rfl l.2⟩) ?command
    (fun _ _ _ l => ⟨l.1, Retires.of rfl rfl rfl l.2⟩) ?event (fun s => (startRound_table s).laws) ?time h k
  case command =>
    exact fun _ _ payload _ hf l => ⟨carryOut_plan_lawful (handlerOf_plan hf) payload l.1,
      carryOut_retiring (handlerOf_retiring hf) payload l.1 l.2⟩
  case event =>
    intro _ _ e l
    obtain ⟨t, k, table⟩ := event_table e l.1
    exact ⟨t, k, table.laws l⟩
  case time => exact fun s => KeepsTable.laws ⟨characterTime_shrinks s, characterTime_retiring s⟩

/-- Records that stand apart from one another and are all the same are one at most. -/
theorem length_le_one_of_apart {l : List Sector} (h : l.Pairwise Sector.apart) (one : ∀ a ∈ l, ∀ b ∈ l, a = b) :
    l.length ≤ 1 := by
  match l with
  | [] => simp
  | [a] => simp
  | a :: b :: l =>
    have hab : a.apart b := List.rel_of_pairwise_cons h List.mem_cons_self
    rw [one b (by simp) a (by simp)] at hab
    simp [Sector.apart, Config.minWidth] at hab

/-- By the first and the third law of the plan at most one record is RETIRING: all are the covering record of the last good
angle. -/
theorem State.PlanLaws.one_retiring {s : State} (h : s.PlanLaws) :
    (s.plan.filter fun r => r.state == .retiring).length ≤ 1 := by
  refine length_le_one_of_apart (h.1.2.1.sublist List.filter_sublist) fun a ha b hb => ?_
  have covers : ∀ r ∈ s.plan.filter (fun r => r.state == .retiring), s.coveringRecord = some r := by
    intro r hr
    obtain ⟨mem, state⟩ := List.mem_filter.mp hr
    exact (h.2 r mem (by simpa using state)).2
  exact Option.some.inj ((covers a ha).symm.trans (covers b hb))

/-- Settles O11, by the invariant of both laws. -/
theorem stepKeepsThirdPlanLaw : Obligations.StepKeepsThirdPlanLaw := by
  intro s t p h k
  have laws := step_keeps_planLaws ⟨p, h⟩ k
  exact ⟨laws.2, laws.one_retiring⟩

end Sys2Proof.Machine

/-! PROOFS. A lawful plan covers the circle (O12), and the seven commands of the Field Plan Table (O17 to O20, O22, O23). -/

namespace Sys2Proof.Machine

/-! ### Covering and width (R7, R8) -/

theorem covering_of_ne_nil {plan : List Sector} (h : plan ≠ []) (angle : Nat) : ∃ r, covering plan angle = some r := by
  cases k : covering plan angle with
  | some r => exact ⟨r, rfl⟩
  | none =>
    unfold covering at k
    exact absurd (List.getLast?_eq_none_iff.mp (Option.or_eq_none_iff.mp k).2) h

/-- The width of a record up to its successor: the next record above it, or, for the greatest, the first record a turn on (R8). -/
theorem width_eq {plan : List Sector} (h : PlanLawful plan) {r : Sector} (hr : r ∈ plan) :
    (∃ n ∈ plan, r.start < n.start ∧ (∀ q ∈ plan, r.start < q.start → n.start ≤ q.start)
        ∧ width plan r = n.start - r.start)
      ∨ (∃ n ∈ plan, (∀ q ∈ plan, n.start ≤ q.start ∧ q.start ≤ r.start) ∧ width plan r = n.start + 36000 - r.start) := by
  have hr36 := h.start_lt hr
  unfold width widthFrom successor
  cases hf : plan.find? (fun q => r.start < q.start) with
  | some n =>
    have hn := List.mem_of_find?_eq_some hf
    have lt : r.start < n.start := by simpa using List.find?_some hf
    have e : upDist r.start n.start = n.start - r.start := by
      rw [upDist_eq hr36 (h.start_lt hn), if_pos lt.le]
    refine Or.inl ⟨n, hn, lt, fun q hq hlt => find?_le h.2.1 hf hq (by simpa using hlt), ?_⟩
    rw [Option.some_or, ← e]
    exact if_neg (by omega)
  | none =>
    have greatest : ∀ q ∈ plan, q.start ≤ r.start := fun q hq => by simpa using List.find?_eq_none.mp hf q hq
    cases hh : plan.head? with
    | none => rw [List.head?_eq_none_iff.mp hh] at hr; cases hr
    | some n =>
      have hn := List.mem_of_head? hh
      have le := greatest n hn
      refine Or.inr ⟨n, hn, fun q hq => ⟨head_least h.2.1 hh hq, greatest q hq⟩, ?_⟩
      rw [Option.none_or]
      dsimp only
      split
      · simp only [Config.circle]; omega
      · rw [upDist_eq hr36 (h.start_lt hn), if_neg (by omega)]

/-- Every width of a lawful plan is at least the least width and at most a turn. -/
theorem width_bounds {plan : List Sector} (h : PlanLawful plan) {r : Sector} (hr : r ∈ plan) :
    10 ≤ width plan r ∧ width plan r ≤ 36000 := by
  have := h.start_lt hr
  rcases width_eq h hr with ⟨n, hn, lt, -, e⟩ | ⟨n, hn, least, e⟩
  · have := records_apart h.2.1 hr hn lt
    have := h.start_lt hn
    omega
  · have le := (least r hr).1
    rcases Nat.lt_or_eq_of_le le with lt | eq
    · have := records_apart h.2.1 hn hr lt
      omega
    · omega

/-- An angle stands into its covering record by less than the record's width. -/
theorem into_lt_width {plan : List Sector} (h : PlanLawful plan) {angle : Nat} (ha : angle < 36000) {r : Sector}
    (hc : covering plan angle = some r) : r.into angle < width plan r := by
  have hr := covering_mem hc
  have hi : r.into angle = _ := upDist_eq (h.start_lt hr) ha
  have hw := width_eq h hr
  rw [hi]
  rcases covering_greatest h hc with ⟨le, above⟩ | ⟨below, greatest⟩
  · rw [if_pos le]
    rcases hw with ⟨n, hn, lt, -, e⟩ | ⟨n, hn, -, e⟩
    · have : angle < n.start := by
        by_contra k
        have := above n hn (by omega)
        omega
      omega
    · omega
  · rw [if_neg (by have := below r hr; omega)]
    rcases hw with ⟨n, hn, lt, -, -⟩ | ⟨n, hn, -, e⟩
    · have := greatest n hn
      omega
    · have := below n hn
      have := h.start_lt hr
      omega

/-- Settles O12, by the width of a record up to its successor. -/
theorem everyAngleHasACoveringRecord : Obligations.EveryAngleHasACoveringRecord := by
  intro plan angle h ne ha
  obtain ⟨r, hc⟩ := covering_of_ne_nil ne angle
  exact ⟨r, hc, covering_mem hc, into_lt_width h ha hc, width_bounds h (covering_mem hc)⟩

/-! ### Commands that are taken -/

/-- What a command leaves: its handler's effect, with the answer in the response slot. -/
def answered (code : Byte) (c : State × Answer) : State := c.1.answer code c.2

@[simp] theorem answered_mk (code : Byte) (t : State) (a : Answer) : answered code (t, a) = t.answer code a := rfl

@[simp] theorem answered_ite (code : Byte) (c : Prop) [Decidable c] (x y : State × Answer) :
    answered code (if c then x else y) = if c then answered code x else answered code y := apply_ite _ _ _ _

/-! ### SECTOR_PUT (R12, R13) -/

theorem exec_sectorPut {payload : List Byte} {r : Sector} {s : State} (k : s.takes 0x10 payload)
    (e : decodeSector payload = some r) : exec (.sectorPut payload) s = .next (answered 0x10 (sectorPut r s)) :=
  next_decoded k e

/-- Settles O17: the handler makes the checks of R12 in the manual's order. -/
theorem sectorPutChecksAndInserts : Obligations.SectorPutChecksAndInserts := by
  intro payload r s k e
  rw [exec_sectorPut k e]
  simp only [sectorPut, answered_ite, answered_mk, countByte, length_insertRecord, Config.planSize]

/-! ### SECTOR_AMEND (R14 to R17, R138) -/

theorem exec_sectorAmend {payload : List Byte} {a : Amendment} {s : State} (k : s.takes 0x11 payload)
    (e : decodeAmendment payload = some a) : exec (.sectorAmend payload) s = .next (answered 0x11 (sectorAmend a s)) :=
  next_decoded k e

theorem not_retiring_of_live {r : Sector} (h : r.state = .live) : r.isRetiring = false := by simp [Sector.isRetiring, h]

/-- An amendment that passes the checks of R14 and R15 is accepted. -/
theorem sectorAmend_accepted {a : Amendment} {r : Sector} {s : State} (ha : a.start < 36000)
    (hc : changesOk a.changes = true) (hf : findRecord s.plan a.start = some r) (hl : r.state = .live)
    (he : ∀ v, a.expected = some v → v = r.revision) (hv : (r.amended a.changes).valid = true)
    (hk : ¬(s.inMotion = true ∧ s.isActive r.start = true ∧ (r.amended a.changes).kind ≠ r.kind)) :
    sectorAmend a s = acceptAmendment r a.changes s := by
  have form : ¬(isAngle a.start = false ∨ changesOk a.changes = false) := by simp [isAngle, Config.circle, ha, hc]
  have fresh : ¬a.expected.any (· != r.revision) = true := by
    cases hx : a.expected with
    | none => simp
    | some v => simp [he v hx]
  have kept : ¬(s.inMotion && s.isActive r.start && (r.amended a.changes).kind != r.kind) = true := by
    simpa [and_assoc] using hk
  simp only [sectorAmend, if_neg form, hf, amendRecord, not_retiring_of_live hl, Bool.false_eq_true, if_false, if_neg fresh,
    hv, reduceCtorEq, if_neg kept]

/-- The record that an accepted amendment puts in the place of another (R5, R16). -/
abbrev Sector.replacement (r : Sector) (cs : List Change) : Sector :=
  { r.amended cs with revision := (r.revision + 1) % 256 }

/-- The part with the amended record in its place. -/
abbrev State.amending (s : State) (r : Sector) (cs : List Change) : State :=
  { s with plan := replaceRecord (r.replacement cs) s.plan }

theorem acceptAmendment_eq (r : Sector) (cs : List Change) (s : State) :
    acceptAmendment r cs s =
      (if s.sup.hold.held = some r.start then heldAmended (r.replacement cs) cs (s.amending r cs) else s.amending r cs,
        .okWith [byte ((r.revision + 1) % 256)]) := rfl

/-- Settles O18: of a record that is not held, the replacement in the table is all that is done. -/
theorem sectorAmendReplacesTheRecord : Obligations.SectorAmendReplacesTheRecord := by
  intro payload a r s k e ha hc hf hl he hv hk hh
  rw [exec_sectorAmend k e, sectorAmend_accepted ha hc hf hl he hv hk, acceptAmendment_eq, if_neg hh, answered_mk]

theorem findRecord_start {plan : List Sector} {key : Nat} {r : Sector} (h : findRecord plan key = some r) : r.start = key := by
  simpa using List.find?_some h

/-- A record put in the place of another is found there. -/
theorem findRecord_replaceRecord {plan : List Sector} {r new : Sector} (h : findRecord plan r.start = some r)
    (e : new.start = r.start) : findRecord (replaceRecord new plan) r.start = some new := by
  have same : ((fun q : Sector => q.start == new.start) ∘ fun q => if q.start = new.start then new else q)
      = fun q => q.start == new.start := by
    funext q
    by_cases hq : q.start = new.start <;> simp [hq]
  unfold findRecord replaceRecord at *
  rw [← e] at h ⊢
  rw [List.find?_map, same, h, Option.map_some, if_pos e.symm]

/-- A machine that leaves HOLDING for RUNNING drops its hold and changes nothing else but MACHINE_STATE (R127, R128). -/
theorem leaveHolding (s : State) (h : s.sup.machine = .holding) :
    changeState .running s
      = raise .machineState { s with sup := { s.sup with machine := .running, hold := { held := none, dwell := .stopped } } } := by
  rw [changeState_motion rfl]
  simp [Supervisor.moveTo, Supervisor.depart, permitAfter, h, MachineState.isMotion, Hold.cleared]

/-- Settles O19, by the cases of R138. -/
theorem amendmentOfHeldRecordActsOnTheHold : Obligations.AmendmentOfHeldRecordActsOnTheHold := by
  intro payload a r s k e ha hc hf hl he hv hk hm hh new done ok
  have exe : exec (.sectorAmend payload) s = .next (State.answer (heldAmended new a.changes done) 0x11 ok) := by
    rw [exec_sectorAmend k e, sectorAmend_accepted ha hc hf hl he hv hk, acceptAmendment_eq, if_pos hh, answered_mk]
  have found : findRecord done.plan r.start = some new := by
    rw [← findRecord_start hf] at hf
    exact findRecord_replaceRecord hf (amended_start r a.changes)
  have kept : new.kind = .hold → heldAmended new a.changes done = match newDwell a.changes with
      | some v => startDwell v done
      | none => if setsAuto a.changes = true ∧ s.sup.hold.dwell = .expired then changeState .running done else done :=
    fun hn => if_neg (by simp [hn])
  rw [exe]
  refine ⟨fun hn => ?_, fun v hn hd pos => ?_, fun hn hd auto exp => ?_, fun hn hd auto => ?_, fun hn hd man => ?_,
    fun hn hd no => ?_⟩
  · rw [heldAmended, if_pos hn]; rfl
  · rw [kept hn, hd]
    simp only [startDwell, if_neg pos.ne', done, hh]
  · rw [kept hn, hd]
    dsimp only
    rw [if_pos ⟨auto, exp⟩, leaveHolding done hm]
  · rw [kept hn, hd]
    dsimp only
    rw [startDwell, if_pos rfl, dwellExpires_auto (s := done) hh found auto, leaveHolding done hm]
  · rw [kept hn, hd]
    dsimp only
    rw [startDwell, if_pos rfl, dwellExpires_manual (s := done) hh found man]
    simp only [done, hh]
  · rw [kept hn, hd]
    dsimp only
    rw [if_neg no]

/-! ### SECTOR_RETIRE (R18 to R20) -/

theorem exec_sectorRetire {payload : List Byte} {key : Nat} {s : State} (k : s.takes 0x12 payload)
    (e : decodeWord payload = some key) : exec (.sectorRetire payload) s = .next (answered 0x12 (sectorRetire key s)) :=
  next_decoded k e

/-- A retirement that passes the checks of R18 is deferred for the active record under way and completes otherwise. -/
theorem sectorRetire_accepted {key : Nat} {r : Sector} {s : State} (hk : key < 36000)
    (hf : findRecord s.plan key = some r) (hl : r.state = .live) (ho : otherLive s.plan r.start = true) :
    sectorRetire key s = if s.inMotion = true ∧ s.isActive r.start = true then (markRetiring r s, .deferred)
      else (removeRecord r.start s, .okWith (countByte (removeKey r.start s.plan))) := by
  simp [sectorRetire, isAngle, Config.circle, hk, hf, retireRecord, not_retiring_of_live hl, ho]

/-- Settles O20, by R20's test for the active record under way. -/
theorem sectorRetireRemovesOrDefers : Obligations.SectorRetireRemovesOrDefers := by
  intro payload key r s k e hk hf hl ho
  rw [exec_sectorRetire k e, sectorRetire_accepted hk hf hl ho]
  exact ⟨fun act => by rw [if_pos act]; rfl, fun rest => by rw [if_neg rest]; rfl⟩

/-! ### SECTOR_GET, SECTOR_FIND, SECTOR_WALK and SECTOR_CLEAR (R23 to R26) -/

theorem isAngle_iff (n : Nat) : isAngle n = true ↔ ¬36000 ≤ n :=
  decide_eq_true_iff.trans Nat.not_le.symm

theorem findRecord_eq_none {plan : List Sector} {key : Nat} (h : ∀ r ∈ plan, r.start ≠ key) : findRecord plan key = none :=
  List.find?_eq_none.mpr fun r hr => by simpa using h r hr

/-- The one record with a start angle is found by it. -/
theorem findRecord_of_unique {plan : List Sector} {key : Nat} {r : Sector} (hr : r ∈ plan) (e : r.start = key)
    (one : ∀ q ∈ plan, q.start = key → q = r) : findRecord plan key = some r := by
  cases k : findRecord plan key with
  | none => exact absurd e (by simpa using List.find?_eq_none.mp k r hr)
  | some q => rw [one q (findRecord_mem k) (findRecord_start k)]

theorem exec_sectorGet {payload : List Byte} {key : Nat} {s : State} (k : s.executes 0x13 payload)
    (e : decodeWord payload = some key) : exec (.sectorGet payload) s = .next (answered 0x13 (sectorGet key s)) :=
  next_decoded (Or.inl k) e

theorem exec_sectorFind {payload : List Byte} {angle : Nat} {s : State} (k : s.executes 0x14 payload)
    (e : decodeWord payload = some angle) : exec (.sectorFind payload) s = .next (answered 0x14 (sectorFind angle s)) :=
  next_decoded (Or.inl k) e

theorem exec_sectorWalk {payload : List Byte} {w : Option Nat} {s : State} (k : s.executes 0x15 payload)
    (e : decodeWalk payload = some w) : exec (.sectorWalk payload) s = .next (answered 0x15 (sectorWalk w s)) :=
  next_decoded (Or.inl k) e

/-- Settles O22: each of the three answers from the lookup it makes in the table. -/
theorem sectorReadsChangeNothing : Obligations.SectorReadsChangeNothing := by
  intro payload s
  refine ⟨fun key k e => ?_, fun angle k e => ?_, fun key k e => ?_, fun k e => ?_⟩
  · rw [exec_sectorGet k e, sectorGet, answered_mk]
    refine ⟨fun out => ?_, fun hk no => ?_, fun hk r hr hs one => ?_⟩
    · rw [if_neg (by simpa [isAngle_iff] using out)]
    · rw [if_pos (by simpa [isAngle_iff] using hk), findRecord_eq_none no]
      rfl
    · rw [if_pos (by simpa [isAngle_iff] using hk), findRecord_of_unique hr hs one]
      rfl
  · simp only [exec_sectorFind k e, sectorFind, answered_mk, isAngle_iff, ite_not]
    cases covering s.plan angle <;> rfl
  · simp only [exec_sectorWalk k e, sectorWalk, answered_mk, isAngle_iff, ite_not]
    cases s.plan.find? (key < ·.start) <;> rfl
  · rw [exec_sectorWalk k e, sectorWalk, answered_mk]
    cases s.plan.head? <;> rfl

theorem exec_sectorClear {s : State} (k : s.takes 0x16 []) :
    exec (.sectorClear []) s = .next (answered 0x16 (sectorClear s)) := next_plain k

/-- Settles O23, by whether the machine is in a motion state. -/
theorem sectorClearEmptiesTheTable : Obligations.SectorClearEmptiesTheTable := by
  intro s k
  rw [exec_sectorClear k]
  exact ⟨fun rest => by simp [sectorClear, rest], fun moving => by simp [sectorClear, moving]⟩

end Sys2Proof.Machine

/-! PROOFS. Power-on reset and RESTART (O4 to O6). -/

namespace Sys2Proof.Machine

/-! ### Power-on reset (R28, R54, R78, R105, R124, R125, R145, R150, R152, R164, R176, R183) -/

@[simp] theorem slot_empty (n : Nat) : Service.empty.slot n = none := by
  unfold Service.slot Service.empty
  split
  · exact Vector.getElem_replicate _
  · rfl

theorem powerOn_tower (closed : Bool) (p : Nat) : (State.powerOn closed).tower p = vacantTower := by
  unfold State.tower State.powerOn
  split
  · exact Vector.getElem_replicate _
  · rfl

/-- What the power-on state leaves open, the loop's level, the select mask, the free values and the queue, does not touch the
manual's power-on values. -/
theorem atPowerOn_of_powerOn (closed : Bool) (m : SelectMask) (free : Nat) (pending : List Instr) :
    State.AtPowerOn { State.powerOn closed with port := { Port.powerOn with mask := m }, free := free, pending := pending } := by
  have towers : ∀ p, State.tower { State.powerOn closed with
      port := { Port.powerOn with mask := m }, free := free, pending := pending } p = vacantTower := powerOn_tower closed
  refine ⟨rfl, rfl, rfl, rfl, rfl, rfl, rfl, rfl, rfl, rfl, rfl, rfl, fun p _ => ⟨congrArg _ (towers p), towers p⟩, rfl, rfl, rfl,
    rfl, rfl, rfl, rfl, rfl, rfl, rfl, rfl, rfl, rfl, rfl, rfl, rfl, rfl, fun n _ => slot_empty n, rfl, rfl, rfl, rfl, rfl, rfl,
    rfl⟩

/-- POWER_ON_RESET leaves the power-on values, the loop at the level of its input, and no transaction (R145, R152). -/
theorem exec_powerOnReset (ended : Option Bool) (s : State) : exec (.powerOnReset ended) s =
    .next { State.powerOn (ended.getD s.sup.loopClosed) with
      port := { Port.powerOn with mask := s.port.mask.afterReset ended.isNone }, free := s.free, pending := s.pending } := rfl

/-- SEL that falls while reset keeps the port off starts no transaction, and MISO carries filler (R176). -/
theorem exec_transactionStart_masked {s : State} (h : s.port.transaction = none) (hm : s.port.mask ≠ .clear) :
    exec .transactionStart s = .next { s with port := { s.port with mask := s.port.mask.selected } } := by
  show Host.Outcome.next (if s.port.transaction.isSome then _ else _) = _
  rw [h, if_neg (by simp), if_neg hm]

theorem misoByte_selected {s : State} (h : s.port.transaction = none) (k : Nat) :
    ({ s.port with mask := s.port.mask.selected } : Port).misoByte k = some 0xFF := by
  unfold Port.misoByte
  rw [h]
  cases s.port.mask <;> rfl

/-- SEL that rises without a transaction ends an ignored fall, and outside one leaves the reset in force (R176). -/
theorem exec_transactionEnd_masked (received : List Byte) {s : State} (h : s.port.transaction = none)
    (hm : s.port.mask ≠ .clear) : exec (.transactionEnd received) s = .next { s with port := { s.port with
        mask := if s.port.mask = .ignored then .clear else .inReset } } := by
  have e : s.port.mask.deselected = if s.port.mask = .ignored then .clear else .inReset := by
    revert hm
    cases s.port.mask <;> simp [SelectMask.deselected]
  show Host.Outcome.next (match s.port.transaction with | some t => _ | none => _) = _
  rw [h, ← e]

/-- Settles O4: the power-on values, then the select mask by what SEL did before the reset step. -/
theorem resetLeavesPowerOnValues : Obligations.ResetLeavesPowerOnValues := by
  refine ⟨⟨atPowerOn_of_powerOn true .clear 0 [], rfl⟩, fun ended s => ?_, fun received s h hm => ⟨?_, ?_⟩⟩
  · refine ⟨_, exec_powerOnReset ended s, atPowerOn_of_powerOn _ _ _ _, ?_, rfl, rfl, ?_, ?_, ?_⟩
    · rintro closed rfl; rfl
    · rintro rfl hm
      simp [hm, SelectMask.afterReset]
    · rintro he hm
      cases ended with
      | none => exact absurd rfl he
      | some closed => rcases hm with hm | hm <;> simp [hm, SelectMask.afterReset]
    · rintro he hm
      cases ended with
      | none => exact absurd rfl he
      | some closed => simp [hm, SelectMask.afterReset]
  · refine ⟨_, exec_transactionStart_masked h hm, h, ?_, rfl, misoByte_selected h⟩
    revert hm
    cases s.port.mask <;> simp [SelectMask.selected]
  · exact exec_transactionEnd_masked received h hm

/-- Settles O5: at power-on nothing moves, nothing is driven, and the table is empty. -/
theorem resetMeetsTheLaws : Obligations.ResetMeetsTheLaws := by
  refine ⟨by decide, by decide, fun p _ => ?_, by decide, RetiringLawful.of_live fun _ h => absurd h List.not_mem_nil⟩
  rw [State.reset, powerOn_tower]
  decide

/-! ### RESTART (R29, R54, R78, R96, R104, R124, R152, R164, R175, R183) -/

theorem exec_restart {s : State} (k : s.takes 0x03 []) :
    exec (.restart []) s = .next ((restartBlocks s).answer 0x03 .ok) := next_plain k

/-- The towers after RESTART (R78). -/
theorem restartBlocks_tower (s : State) {p : Nat} (h1 : 1 ≤ p) (h2 : p ≤ 21) : (restartBlocks s).tower p =
    Tower.cleared (s.tower p).geometry (if s.isConfigured p then .silent else .vacant) := by
  unfold restartBlocks clearRoster
  rw [tower_mapTowers, if_pos ⟨h1, h2⟩]
  rfl

theorem restartBreak_of_none {l : Link} (h : l.brk = .none) (he : ∀ x, l.exchange = some x → x.step ≠ .receiving) :
    l.restartBreak = .sending 0 := by
  unfold Link.restartBreak
  rw [h, exchangeAt_eq_none he]

/-- The BREAK of a RESTART that cuts a reply short waits for a quiet line (R96). -/
theorem restartBreak_of_receiving {l : Link} {x : Exchange} (h : l.brk = .none) (he : l.exchange = some x)
    (hs : x.step = .receiving) : l.restartBreak = x.quietWait := by
  unfold Link.restartBreak
  rw [h, exchangeAt_of he hs]

/-- The event flags after RESTART: clear, but for the CMD_DROPPED of a frame dropped while it was executing (R175, R183). -/
theorem restartEvents_eq (p : Port) : p.restartEvents =
    { flags := if p.command ≠ none ∧ p.dropped = true then 0x200 else 0, enables := 0, master := false, phase := .low,
      owed := false } := by
  unfold Port.restartEvents
  by_cases h : p.command ≠ none ∧ p.dropped = true
  · rw [if_pos h, if_pos (by simpa [Option.isSome_iff_ne_none] using h)]
    decide
  · rw [if_neg h, if_neg (by simpa [Option.isSome_iff_ne_none] using h)]
    rfl

/-- Settles O6, block by block. -/
theorem restartKeepsPlanGeometryAndSettings : Obligations.RestartKeepsPlanGeometryAndSettings := by
  intro s k
  refine ⟨_, exec_restart k, rfl, rfl, fun p => restartBlocks_tower s, rfl, rfl, rfl, rfl, rfl, fun hb he => ?_,
    fun x hb he hs => ?_, fun x hb he hs => restartBreak_of_receiving hb he hs, rfl, rfl, rfl, rfl, rfl, rfl, rfl, rfl,
    restartEvents_eq s.port, rfl⟩
  · exact restartBreak_of_none hb fun x hx => by rw [he] at hx; cases hx
  · exact restartBreak_of_none hb fun y hy => by rw [he] at hy; exact Option.some.inj hy ▸ hs

end Sys2Proof.Machine

/-! PROOFS. The completion of a deferred retirement (O21, R21): at a good sample outside its record, and at an end of motion. -/

namespace Sys2Proof.Machine

/-! ### A good sample outside the RETIRING record -/

/-- By the third law the RETIRING records are one record, so the table without it has none. -/
theorem RetiringLawful.allLive_without {s : State} (h : s.RetiringLawful) {r : Sector} (hr : retiringRecord s.plan = some r) :
    AllLive (s.plan.filter fun q => q.start != r.start) := by
  have covers : s.coveringRecord = some r :=
    (h r (List.mem_of_find?_eq_some hr) (by simpa using List.find?_some hr)).2
  intro q hq state
  obtain ⟨mem, other⟩ := List.mem_filter.mp hq
  obtain rfl := Option.some.inj ((h q mem state).2.symm.trans covers)
  simp at other

/-- Step 2 of R32 completes the retirement of a record that is not the covering one. -/
theorem leaveRetiring_outside {s : State} {r c : Sector} (hr : retiringRecord s.plan = some r) (n : c.start ≠ r.start) :
    leaveRetiring (some c) s = completeRetirement s := by
  simp [leaveRetiring, hr, Ne.symm n]

/-- Inside the RETIRING record step 2 of R32 does nothing. -/
theorem leaveRetiring_inside {s : State} {r c : Sector} (hr : retiringRecord s.plan = some r) (e : c.start = r.start) :
    leaveRetiring (some c) s = s := by
  simp [leaveRetiring, hr, e]

/-- A mark set on another record keeps a retirement that has completed. -/
theorem leaveEscape_retired {c : Sector} {s : State} {plan : List Sector} {k : Nat} (n : c.start ≠ k) (h : s.Retired plan k) :
    (leaveEscape (some c) s).Retired plan k := by
  unfold leaveEscape
  cases s.tracker.escape with
  | none => exact h
  | some b =>
    dsimp only
    split
    · exact h
    · split
      · exact ⟨h.1, h.2.1, h.2.2.1, by simpa [markServed] using n⟩
      · exact h

/-- The clearing of the hold-served mark keeps a retirement that has completed. -/
theorem clearServed_retired (c : Option Sector) {s : State} {plan : List Sector} {k : Nat} (h : s.Retired plan k) :
    (clearServed c s).Retired plan k := by
  unfold clearServed
  split
  · split
    · exact h
    · exact ⟨h.1, h.2.1, h.2.2.1, by simp⟩
  · exact h

theorem noteCrossing_retired {s : State} {plan : List Sector} {k : Nat} (h : s.Retired plan k) :
    (noteCrossing s).Retired plan k := ⟨h.1, isSet_raise_mono _ _ _ h.2.1, h.2.2⟩

/-- The checks for records passed over keep a retirement that has completed: they hold at no record that has left the table. -/
theorem passedOver_retired (arc : Arc) {c : Sector} (changed : Bool) {s : State} {plan : List Sector} {k : Nat}
    (l : AllLive plan) (n : ∀ q ∈ plan, q.start ≠ k) (nc : c.start ≠ k) (h : s.Retired plan k) :
    (passedOver arc c changed s).1.Retired plan k := by
  unfold passedOver
  split
  · exact tripRequest_retired _ _ l h
  · cases met : holdMet arc c changed s with
    | none =>
      dsimp only
      split
      · exact tripRequest_retired _ _ l h
      · exact h
    | some q =>
      have other : q.start ≠ k := by
        rcases holdMet_mem met with mem | rfl
        · exact n q (h.1 ▸ mem)
        · exact nc
      have held := arriveHold_retired c.start other h
      dsimp only
      split
      · exact tripRequest_retired _ _ l held
      · exact held

theorem passageChecks_retired (b : Bool) (arc : Option Arc) {c : Sector} (changed : Bool) {s : State} {plan : List Sector}
    {k : Nat} (l : AllLive plan) (n : ∀ q ∈ plan, q.start ≠ k) (nc : c.start ≠ k) (h : s.Retired plan k) :
    (passageChecks b arc (some c) changed s).1.Retired plan k := by
  unfold passageChecks
  cases arc with
  | none => exact h
  | some a =>
    dsimp only
    split
    · exact passedOver_retired a changed l n nc h
    · exact h

/-- A good sample in another record completes a deferred retirement (R21, step 2 of R32). -/
theorem goodSample_retired {angle : Nat} {r c : Sector} {s : State} (h : s.RetiringLawful)
    (hr : retiringRecord s.plan = some r) (hc : covering s.plan angle = some c) (n : c.start ≠ r.start) :
    (goodSample angle s).Retired (s.plan.filter fun q => q.start != r.start) r.start := by
  have others : ∀ q ∈ s.plan.filter (fun q => q.start != r.start), q.start ≠ r.start :=
    fun q hq => by simpa using (List.mem_filter.mp hq).2
  have left : (leaveRetiring (some c) (s.atAngle angle)).Retired (s.plan.filter fun q => q.start != r.start) r.start := by
    rw [leaveRetiring_outside (by exact hr) n]
    exact completeRetirement_retired (s := s.atAngle angle) hr
  unfold goodSample
  dsimp only
  rw [hc]
  refine arrivalCheckIf_retired _ others ?_
  refine passageChecks_retired _ _ _ (RetiringLawful.allLive_without h hr) others n (clearServed_retired _ (leaveEscape_retired n ?_))
  split
  · exact noteCrossing_retired left
  · exact left

/-- Outside RUNNING a good sample inside the RETIRING record leaves the table alone (R21). -/
theorem goodSample_inside_plan {angle : Nat} {r c : Sector} {s : State} (hr : retiringRecord s.plan = some r)
    (hc : covering s.plan angle = some c) (e : c.start = r.start) (hm : s.sup.machine ≠ .running) :
    (goodSample angle s).plan = s.plan := by
  have stays : leaveRetiring (some c) (s.atAngle angle) = s.atAngle angle := leaveRetiring_inside (by exact hr) e
  have unchecked : ∀ (arc : Option Arc) (ch : Bool) (u : State), (passageChecks false arc (some c) ch u).1 = u := by
    intro arc ch u
    cases arc <;> rfl
  unfold goodSample
  dsimp only
  rw [hc, stays, show (s.sup.machine == .running) = false by simpa using hm]
  simp only [Bool.false_and, arrivalCheckIf, Bool.false_eq_true, if_false, findView_plan, unchecked, clearServed_plan,
    leaveEscape_plan]
  split <;> rfl

/-! ### An end of motion -/

/-- STOP in STARTING returns the machine to STANDBY (R134). -/
theorem exec_stop_starting {s : State} (k : s.takes 0x53 []) (h : s.sup.machine = .starting) :
    exec (.stop []) s = .next ((changeState .standby s).answer 0x53 .ok) := by
  have e : stop s = (changeState .standby s, .ok) := by simp [stop, h]
  exact (next_plain (f := stop) k).trans (by rw [e])

/-- ESTOP of a moving machine is a trip request with cause PANEL_STOP (R148). -/
theorem exec_estop_moving {s : State} (k : s.takes 0x58 []) (h : s.inMotion = true) :
    exec (.estop []) s = .next ((takeTrip .panelStop none s).answer 0x58 .ok) := by
  have e : estop s = (takeTrip .panelStop none s, .ok) := by
    rw [← tripRequest_moving _ _ h]
    unfold State.inMotion at h
    unfold estop
    cases hm : s.sup.machine <;> first | rfl | (rw [hm] at h; cases h)
  exact (next_plain (f := estop) k).trans (by rw [e])

/-- A trip completes a deferred retirement: it enters TRIPPED (R146). -/
theorem takeTrip_retired (cause : TripCause) (p : Option Nat) {s : State} {r : Sector} (h : retiringRecord s.plan = some r) :
    (takeTrip cause p s).plan = s.plan.filter (fun q => q.start != r.start)
      ∧ (takeTrip cause p s).ev.isSet .retireDone = true := by
  obtain ⟨hp, he, -, -⟩ := changeState_retired (m := .tripped) rfl h
  exact ⟨by simpa [takeTrip] using hp, requestBreak_isSet _ _ (isSet_raise_mono _ _ _ he)⟩

/-- Settles O21: at a good sample step 2 of R32 completes the retirement and no later step undoes it, and a change to a standing
state completes it on entry. -/
theorem deferredRetirementCompletes : Obligations.DeferredRetirementCompletes := by
  refine ⟨fun angle valid r c s ha hg h hr hc => ⟨fun n => ?_, fun e hm => ?_⟩, fun m r s hm hr => ?_, fun r s k hm hr => ?_,
    fun r s k hm hr => ?_⟩
  · exact ⟨_, next_angleSample ha hg, goodSample_retired h hr hc n⟩
  · exact ⟨_, next_angleSample ha hg, goodSample_inside_plan hr hc e hm⟩
  · obtain ⟨hp, he, hh, hs⟩ := changeState_retired hm hr
    exact ⟨hp, he, changeState_machine m s, hh, hs⟩
  · obtain ⟨hp, he, -, -⟩ := changeState_retired (m := .standby) rfl hr
    exact ⟨_, exec_stop_starting k hm, hp, he⟩
  · exact ⟨_, exec_estop_moving k hm, takeTrip_retired .panelStop none hr⟩

end Sys2Proof.Machine

/-! PROOFS. The settings of the tracker, the engine and the supervisor (O24, R53, R126, R150): replaced together or not at
all. -/

namespace Sys2Proof.Machine

theorem exec_motionSetup {payload : List Byte} {m : MotionSettings} {s : State} (k : s.takes 0x20 payload)
    (e : decodeMotion payload = some m) : exec (.motionSetup payload) s = .next (answered 0x20 (motionSetup m s)) :=
  next_decoded k e

theorem exec_alignTune {payload : List Byte} {u : Tune} {s : State} (k : s.takes 0x48 payload)
    (e : decodeTune payload = some u) : exec (.alignTune payload) s = .next (answered 0x48 (alignTune u s)) :=
  next_decoded k e

theorem exec_timingSetup {start reversal : Byte} {s : State} (k : s.takes 0x5A [start, reversal]) :
    exec (.timingSetup [start, reversal]) s = .next (answered 0x5A (timingSetup (start.toNat, reversal.toNat) s)) :=
  next_decoded (d := decodeTiming) k rfl

theorem MotionSettings.inRange_iff (m : MotionSettings) : m.inRange = true ↔
    m.arrivalWindow ≤ 200 ∧ m.defaultLead ≤ 3000 ∧ (10 ≤ m.escapePace ∧ m.escapePace ≤ 300)
      ∧ (5 ≤ m.jumpLimit ∧ m.jumpLimit ≤ 1000) := by
  simp [MotionSettings.inRange, and_assoc]

/-- Settles O24: each of the three handlers checks all its values before it writes any. -/
theorem settingsReplacedTogetherOrNotAtAll : Obligations.SettingsReplacedTogetherOrNotAtAll := by
  refine ⟨fun payload m s k e => ?_, fun payload u s k e => ?_, fun start reversal s k => ?_⟩
  · rw [exec_motionSetup k e]
    simp only [motionSetup, answered_ite, answered_mk, m.inRange_iff]
  · rw [exec_alignTune k e]
    simp only [alignTune, answered_ite, answered_mk]
  · rw [exec_timingSetup k]
    simp only [timingSetup, answered_ite, answered_mk]

end Sys2Proof.Machine

/-! PROOFS. The expiries of the start, dwell and reversal timers (O56, R133, R137, R142). -/

namespace Sys2Proof.Machine

/-- The start timer's expiry (R133): the machine leaves STARTING for RUNNING, and the timer is done. -/
theorem leaveStarting {s : State} (h : s.sup.machine = .starting) :
    changeState .running s = raise .machineState { s with sup := { s.sup with machine := .running, startTimer := none } } := by
  rw [changeState_motion rfl]
  simp [Supervisor.moveTo, Supervisor.depart, permitAfter, h, MachineState.isMotion]

/-- The reversal timer's expiry (R142): the machine leaves REVERSING for RUNNING, and the turn is done. -/
theorem leaveReversing {s : State} (h : s.sup.machine = .reversing) :
    changeState .running s = raise .machineState { s with sup := { s.sup with machine := .running, reversal := .none } } := by
  rw [changeState_motion rfl]
  simp [Supervisor.moveTo, Supervisor.depart, permitAfter, h, MachineState.isMotion]

theorem exec_startTimerExpiry {n : Nat} {s : State} (h : s.sup.machine = .starting) (t : s.sup.startTimer = some n) :
    exec .startTimerExpiry s = .next (changeState .running s) :=
  congrArg Host.Outcome.next (if_pos ⟨h, by simp [t]⟩)

theorem exec_dwellTimerExpiry {n : Nat} {s : State} (h : s.sup.machine = .holding) (t : s.sup.hold.dwell = .running n) :
    exec .dwellTimerExpiry s = .next (dwellExpires s) :=
  congrArg Host.Outcome.next (if_pos ⟨h, by simp [t, Dwell.isRunning]⟩)

theorem exec_reversalTimerExpiry {n : Nat} {s : State} (h : s.sup.machine = .reversing) (t : s.sup.reversal = .delay n) :
    exec .reversalTimerExpiry s = .next (reversalExpires s) :=
  congrArg Host.Outcome.next (if_pos ⟨h, by simp [t, ReversalWait.isDelay]⟩)

/-- The machine RUNNING the other way, as the reversal timer's expiry leaves it (R142). -/
abbrev State.turned (s u : State) : State :=
  raise .machineState { u with sup := { s.sup with
    machine := .running, reversal := .none, direction := s.sup.direction.flip } }

/-- The reversal timer's expiry turns the view before the machine enters RUNNING (R37, R142). -/
theorem reversalExpires_eq {s : State} (h : s.sup.machine = .reversing) :
    reversalExpires s = s.turned (refresh (s.facing s.sup.direction.flip)) := by
  have turns : (refresh (s.facing s.sup.direction.flip)).sup = { s.sup with direction := s.sup.direction.flip } := refresh_sup _
  have rev : (refresh (s.facing s.sup.direction.flip)).sup.machine = .reversing := by rw [turns]; exact h
  show changeState .running (refresh (s.facing s.sup.direction.flip)) = _
  rw [leaveReversing rev, turns]

/-- Settles O56: each expiry leaves its state by the state's own departure, and the reversal's turns the view first. -/
theorem timerExpiriesMoveTheMachine : Obligations.TimerExpiriesMoveTheMachine := by
  intro s
  refine ⟨fun n h t => ?_, fun n key r h t f a => ?_, fun n key r h t f a => ?_, fun n h t => ?_, fun n h t => ⟨?_, ?_⟩⟩
  · rw [exec_startTimerExpiry h t, leaveStarting h]
  · rw [exec_dwellTimerExpiry (n := n) h (by rw [t]), dwellExpires_auto (by rw [t]) f a, leaveHolding s h]
  · rw [exec_dwellTimerExpiry (n := n) h (by rw [t]), dwellExpires_manual (by rw [t]) f a, t]
  · have keeps := refresh_arrives (s.facing s.sup.direction.flip)
    have frame := refresh_kept (s.facing s.sup.direction.flip)
    refine ⟨_, exec_reversalTimerExpiry h t, ?_⟩
    rw [reversalExpires_eq h]
    exact ⟨rfl, keeps.roster, keeps.plan, keeps.link, keeps.angle.lastGood, keeps.angle.settings, frame.tune,
      (refresh_motion _).2, frame.port, frame.free⟩
  · intro a r m ha hc hn
    rw [exec_reversalTimerExpiry h t, reversalExpires_eq h, refresh_eq (s := s.facing s.sup.direction.flip) ha hc hn]
  · intro blank
    rw [exec_reversalTimerExpiry h t, reversalExpires_eq h, refresh_blank (s := s.facing s.sup.direction.flip) blank]

end Sys2Proof.Machine

/-! PROOFS. What the tracker hands over to the Alignment Engine (O29, R41, R50, R51). -/

namespace Sys2Proof.Machine

/-! ### The effective pace and the swing target -/

theorem rampPace_outside {v : View} (h : v.lead = 0 ∨ v.lead ≤ v.dist) : v.rampPace = v.currentPace := if_pos h

/-- On the ramp the pace lies between the current and the next (R41). -/
theorem rampPace_between (v : View) :
    min v.currentPace v.nextPace ≤ v.rampPace ∧ v.rampPace ≤ max v.currentPace v.nextPace := by
  by_cases h : v.lead = 0 ∨ v.lead ≤ v.dist
  · rw [rampPace_outside h]
    omega
  · have ramp := truncRatio_between ((v.nextPace : Int) - v.currentPace) ((v.lead : Int) - v.dist) v.lead
      (by omega) (by omega) (by omega)
    rw [View.rampPace, if_neg h]
    omega

/-- The swing target of a pair lies between its two angles (R50). -/
theorem swingBetween_between (first last : Nat) {into width : Nat} (h : into < width) :
    min first last ≤ swingBetween first last into width ∧ swingBetween first last into width ≤ max first last := by
  have ramp := truncRatio_between ((last : Int) - first) into width (by omega) (by omega) (by omega)
  unfold swingBetween
  omega

theorem swingTarget_without_corner {s : State} (h : s.link.settings.corner = false) : swingTarget s = none := by
  simp [swingTarget, h]

/-! ### The capture of the held swing (R51) -/

/-- Whether a poll-phase completion captures the measured swing as the held swing. -/
abbrev State.captures (s : State) : Prop :=
  s.tracker.capturePending = true ∧ s.link.settings.corner = true ∧ (s.tower 21).fresh = true

theorem captureSwing_of_captures {s : State} (h : s.captures) : captureSwing s = { s with tracker := { s.tracker with
    heldSwing := some (max 0 (min 9000 (s.tower 21).measuredSwing)).toNat, capturePending := false } } := by
  obtain ⟨pending, corner, fresh⟩ := h
  exact if_pos (by simp [pending, corner, Config.cornerPos, fresh])

theorem captureSwing_of_not {s : State} (h : ¬s.captures) : captureSwing s = s := by
  refine if_neg fun k => h ?_
  simpa [and_assoc, Config.cornerPos] using k

theorem measuredSwing_corner {t : Tower} {a : Nat} {m : Mount} {k : Nat} {o : Int} (h : t.geometry = some (.corner a m k o)) :
    t.measuredSwing = t.joint - o := by
  simp [Tower.measuredSwing, Tower.swingOffset, h]

/-- Without the corner form of geometry the swing offset is 0 (log 18). -/
theorem measuredSwing_other {t : Tower} {a b c : Nat} {d : Mount} {e : Int}
    (h : t.geometry = none ∨ t.geometry = some (.mainLine a b c d e)) : t.measuredSwing = t.joint := by
  rcases h with h | h <;> simp [Tower.measuredSwing, Tower.swingOffset, h]

/-! ### The hand-over -/

theorem effectivePace_captureSwing (s : State) : effectivePace (captureSwing s) = effectivePace s := by
  by_cases h : s.captures
  · rw [captureSwing_of_captures h]; rfl
  · rw [captureSwing_of_not h]

/-- The hand-over writes the effective pace into what the capture leaves (R41, R51, R52). -/
theorem handOver_eq (s : State) : handOver s = { captureSwing s with tracker := { (captureSwing s).tracker with
    pace := effectivePace s } } := by
  rw [← effectivePace_captureSwing s]
  rfl

theorem handOver_pace (s : State) : (handOver s).tracker.pace = effectivePace s := by rw [handOver_eq]

/-- Settles O29: the ramps lie between their ends, the pace is read before and after the capture alike, and the capture writes
the held swing and its mark alone. -/
theorem paceAndSwingTargetLieBetween : Obligations.PaceAndSwingTargetLieBetween := by
  refine ⟨⟨fun v => ⟨rampPace_outside, rampPace_between v⟩, fun first last into width h => ?_⟩, fun s => ⟨?_, ?_, ?_, ?_, ?_,
    swingTarget_without_corner, ?_, ?_, ?_⟩⟩
  · obtain ⟨lower, upper⟩ := swingBetween_between first last h
    exact ⟨lower, upper, rfl⟩
  · intro rest
    rw [handOver_pace, effectivePace, if_neg rest]
  · intro b run esc
    simp [handOver_pace, effectivePace, run, esc]
  · intro v run esc view
    simp [handOver_pace, effectivePace, run, esc, view]
  · intro run esc view
    simp [handOver_pace, effectivePace, run, esc, view]
  · simp only [handOver_pace]
    refine ⟨fun a m k o h g => ?_, fun a b c d e h g => ?_, fun h => ?_⟩
    · rw [handOver_eq, captureSwing_of_captures h, measuredSwing_corner g]
    · rw [handOver_eq, captureSwing_of_captures h, measuredSwing_other g]
    · rw [handOver_eq, captureSwing_of_not h]
  · intro v first last corner view pair
    simp [swingTarget, corner, view, pair]
  · intro v corner view pair
    simp [swingTarget, corner, view, pair]
  · intro corner view
    simp [swingTarget, corner, view]

end Sys2Proof.Machine

/-! PROOFS. A second bad sample in a row (O28, R34). -/

namespace Sys2Proof.Machine

/-- The round's request has been used up (R30). -/
abbrev State.requestUsed (s : State) : State := { s with tracker := { s.tracker with awaiting := false } }

/-- The row ANGLE_LOSS is a bad sample of a round that still waits for one, and not the first in a row (log 8). -/
theorem exec_angleLoss {s : State} (ha : s.tracker.awaiting = true) (hb : 1 ≤ s.tracker.badCount) :
    exec .angleLoss s = .next (badSample s.requestUsed) := by
  show Host.Outcome.next (if 1 ≤ s.tracker.badCount then missingSample s else s) = _
  rw [if_pos hb, missingSample, if_pos ha]

/-- What a bad sample makes of the angle held, before a second one in a row acts: the refresh and the arrival check (R33). -/
abbrev State.heldThrough (s : State) (a : Nat) : State :=
  arrivalCheckIf (s.sup.machine == .running) (refresh (s.holdingAt a))

theorem heldThrough_arrives (s : State) (a : Nat) : Arrives (s.holdingAt a) (s.heldThrough a) :=
  (refresh_arrives _).trans (arrivalCheckIf_arrives _ _)

theorem heldThrough_kept (s : State) (a : Nat) : Kept (s.holdingAt a) (s.heldThrough a) :=
  (refresh_kept _).trans (arrivalCheckIf_kept _ _)

theorem heldThrough_lawful {s : State} (h : s.sup.Lawful) (a : Nat) : (s.heldThrough a).sup.Lawful :=
  arrivalCheckIf_lawful _ _ (by simpa using h) (by simp)

/-- Outside RUNNING a bad sample makes no arrival check (R33). -/
theorem heldThrough_of_rest {s : State} {a : Nat} (h : s.sup.machine ≠ .running) :
    s.heldThrough a = refresh (s.holdingAt a) :=
  if_neg (by simp [h])

/-- A bad sample that is not the first in a row goes on to R34's step. -/
theorem badSample_lost {s : State} {a : Nat} (hb : 1 ≤ s.tracker.badCount) (h : s.tracker.lastGood = some a) :
    badSample s = if s.inMotion then tripRequest .angleLoss none (s.heldThrough a) else giveUpAngle (s.heldThrough a) := by
  have count : 2 ≤ (s.heldThrough a).tracker.badCount := by
    rw [(heldThrough_arrives s a).angle.badCount]
    show 2 ≤ min Config.badCountTop (s.tracker.badCount + 1)
    simp only [Config.badCountTop]
    omega
  rw [badSample_held h, angleLost, if_pos count]

/-- The trip of R34 is taken in the state that R33 leaves. -/
theorem heldThrough_trips {s : State} (a : Nat) (moving : s.inMotion = true) (h : s.sup.Lawful) (ht : s.TowersLawful) :
    (tripRequest .angleLoss none (s.heldThrough a)).TrippedBy s .angleLoss none := by
  have held := heldThrough_arrives s a
  have kept := heldThrough_kept s a
  exact trippedBy .angleLoss none (held.moving moving) (heldThrough_lawful h a)
    (arrivalCheckIf_towers _ (refresh_towers ht)) held.link held.angle.lastGood held.angle.settings held.direction
    held.startDelay held.reversalDelay (Shrinks.of_plan (s := s) held.plan) kept.tune kept.free
    fun p _ _ => tower_congr held.roster p

/-- Settles O28: of a moving machine the trip is taken in the state that R33 leaves, and of a standing one the angle is given up
in it. -/
theorem secondBadSampleTripsOrGivesUp : Obligations.SecondBadSampleTripsOrGivesUp := by
  intro a s ht hs ha hb hg
  rw [exec_angleLoss ha hb, badSample_lost (s := s.requestUsed) hb hg]
  refine ⟨fun moving => ⟨_, congrArg _ (if_pos moving), heldThrough_trips a moving hs ht, ?_⟩,
    fun rest => ⟨_, congrArg _ (if_neg (by simpa [State.inMotion] using rest)), rfl, rfl, rfl, rfl, rfl, ?_⟩⟩
  · exact (tripRequest_angle _ _ _).lastGood.trans ((heldThrough_arrives s.requestUsed a).angle.lastGood.trans hg)
  · have still : s.sup.machine ≠ .running := fun k => by simp [State.inMotion, k, MachineState.isMotion] at rest
    have held := refresh_arrives (s.requestUsed.holdingAt a)
    have kept := refresh_kept (s.requestUsed.holdingAt a)
    rw [heldThrough_of_rest (s := s.requestUsed) still]
    exact ⟨refresh_sup _, held.plan, held.roster, held.link, kept.tune, (refresh_motion _).2, kept.port, kept.free⟩

end Sys2Proof.Machine

/-! PROOFS. OFFLINE (O49, R103, R131). -/

namespace Sys2Proof.Machine

theorem exec_offline {s : State} (k : s.takes 0x51 []) : exec (.offline []) s = .next (answered 0x51 (offline s)) :=
  next_plain k

theorem completeRetirement_of_none {s : State} (h : retiringRecord s.plan = none) : completeRetirement s = s := by
  unfold completeRetirement
  rw [h]

/-- Entry to SETUP from a standing state, with no record RETIRING (R54, R127, R128). -/
theorem toSetup_eq {s : State} (hm : s.sup.machine = .standby ∨ s.sup.machine = .tripped)
    (hr : retiringRecord s.plan = none) : changeState .setup s = raise .machineState { s with
      sup := { s.sup with machine := .setup }, tracker := { s.tracker with escape := none, pace := 0 } } := by
  have moves : s.sup.moveTo .setup = { s.sup with machine := .setup } := by
    rcases hm with hm | hm <;> simp [Supervisor.moveTo, Supervisor.depart, permitAfter, hm, MachineState.isMotion]
  unfold changeState
  rw [moves]
  exact congrArg _ (completeRetirement_of_none (by exact hr))

/-- The rounds end on the line (R103): the exchange goes on with its outcome discarded. -/
theorem endRounds_eq (l : Link) : ∃ b, l.endRounds = { l with
    running := false, exchange := l.exchange.map fun x => { x with discard := true }, brk := b } := by
  unfold Link.endRounds
  dsimp only
  split <;> exact ⟨_, rfl⟩

/-- The towers with their live fields cleared (R78). -/
theorem tower_clearRoster (s : State) {p : Nat} (h1 : 1 ≤ p) (h2 : p ≤ 21) : (clearRoster s).tower p =
    Tower.cleared (s.tower p).geometry (if s.isConfigured p then .silent else .vacant) := by
  unfold clearRoster
  rw [tower_mapTowers, if_pos ⟨h1, h2⟩]
  rfl

/-- What OFFLINE leaves of a standing machine, before the roster is cleared. -/
abbrev State.afterOffline (s : State) (brk : BreakState) : State :=
  raise .machineState { s with
    sup := { s.sup with machine := .setup, trip := none }, tracker := .cleared s.tracker.settings
    link := { s.link with running := false, exchange := s.link.exchange.map fun x => { x with discard := true }, brk := brk }
    svc := .empty, port := { s.port with snapshot := .reset s.port.snapshot.round } }

theorem goOffline_eq {s : State} (hm : s.sup.machine = .standby ∨ s.sup.machine = .tripped)
    (hr : retiringRecord s.plan = none) : ∃ brk, goOffline s = clearRoster (s.afterOffline brk) := by
  obtain ⟨brk, ends⟩ := endRounds_eq s.link
  refine ⟨brk, ?_⟩
  unfold goOffline
  rw [toSetup_eq hm hr]
  dsimp only [raise_link]
  rw [ends]
  rfl

/-- Settles O49: SETUP is entered from a standing state, and then each block is cleared. -/
theorem offlineReturnsToSetup : Obligations.OfflineReturnsToSetup := by
  intro s k
  rw [exec_offline k]
  refine ⟨fun hm hr => ?_, fun ns nt => ?_⟩
  · obtain ⟨brk, e⟩ := goOffline_eq hm hr
    rw [offline, if_pos hm, e]
    refine ⟨_, rfl, rfl, rfl, rfl, rfl, rfl, rfl, rfl, rfl, rfl, rfl, rfl, fun p h1 h2 => ?_, rfl, rfl, rfl, rfl, rfl, ?_, rfl⟩
    · exact tower_clearRoster (s.afterOffline brk) h1 h2
    · exact isSet_raise_self _ _
  · rw [offline, if_neg (by simp [ns, nt])]
    rfl

end Sys2Proof.Machine

/-! PROOFS. START (O50, R37, R48, R132, R133). -/

namespace Sys2Proof.Machine

theorem exec_start {payload : List Byte} {d : Direction} {s : State} (k : s.takes 0x52 payload)
    (e : decodeStart payload = some d) : exec (.start payload) s = .next (answered 0x52 (start d s)) := next_decoded k e

theorem plan_ne_nil_of_covering {plan : List Sector} {angle : Nat} {r : Sector} (h : covering plan angle = some r) :
    plan ≠ [] := by
  rintro rfl
  cases h

/-- The first five checks of R132 pass. -/
theorem start_checked {d : Direction} {angle : Nat} {s : State} (hm : s.sup.machine = .standby)
    (hl : s.sup.loopClosed = true) (hp : s.plan ≠ []) (ha : s.tracker.lastGood = some angle)
    (ht : firstNotOnline s = none) : start d s = startAt d angle s := by
  simp [start, hm, hl, hp, ha, ht]

/-- What START does to the direction and the view (R37). -/
theorem faceStart_none (d : Direction) (s : State) :
    faceStart d none s = if d = s.sup.direction then s else refresh (s.facing d) := rfl

theorem faceStart_some (d : Direction) (b : Nat) (s : State) : faceStart d (some b) s =
    { faceStart d none s with tracker := { (faceStart d none s).tracker with escape := some b } } := rfl

theorem faceStart_same {d : Direction} {s : State} (h : d = s.sup.direction) : faceStart d none s = s := if_pos h

theorem faceStart_turned {d : Direction} {angle : Nat} {r n : Sector} {s : State} (h : d ≠ s.sup.direction)
    (ha : s.tracker.lastGood = some angle) (hc : covering s.plan angle = some r)
    (hn : nextRecord s.plan d r.start = some n) : faceStart d none s = (s.facing d).refreshedTo angle r n := by
  rw [faceStart_none, if_neg h, refresh_eq (s := s.facing d) ha hc hn]

/-- START drives the ONLINE towers and leaves the others (R69). -/
theorem driveOnline_tower (s : State) (p : Nat) :
    ((s.tower p).state = .online →
      (driveOnline s).tower p = { s.tower p with state := .driving, follow := 0, stall := 0 })
    ∧ ((s.tower p).state ≠ .online → (driveOnline s).tower p = s.tower p) := by
  unfold driveOnline
  rw [tower_mapTowers]
  by_cases hp : 1 ≤ p ∧ p ≤ Config.positions
  · rw [if_pos hp]
    exact ⟨fun h => if_pos h, fun h => if_neg h⟩
  · rw [if_neg hp, tower_outside hp]
    exact ⟨fun h => absurd h (by decide), fun _ => rfl⟩

section
variable {d : Direction} {angle : Nat} {r : Sector} {s : State}

/-- Check 6 of R132 outside a BARRIER. -/
theorem start_outside (hm : s.sup.machine = .standby) (hl : s.sup.loopClosed = true) (ha : s.tracker.lastGood = some angle)
    (ht : firstNotOnline s = none) (hc : covering s.plan angle = some r) (hb : r.kind ≠ .barrier) :
    start d s = (acceptStart d none s, .ok) := by
  rw [start_checked hm hl (plan_ne_nil_of_covering hc) ha ht]
  simp [startAt, hc, hb]

/-- Check 6 of R132 inside a BARRIER (R48). -/
theorem start_inside (hm : s.sup.machine = .standby) (hl : s.sup.loopClosed = true) (ha : s.tracker.lastGood = some angle)
    (ht : firstNotOnline s = none) (hc : covering s.plan angle = some r) (hb : r.kind = .barrier) :
    start d s = if escapeAllowed s.plan r angle d then (acceptStart d (some r.start) s, .ok)
      else (s, .notReady .insideBarrier) := by
  rw [start_checked hm hl (plan_ne_nil_of_covering hc) ha ht]
  simp [startAt, hc, hb]

theorem acceptStart_tower (d : Direction) (e : Option Nat) (hm : s.sup.machine = .standby) (p : Nat) :
    ((s.tower p).state = .online →
      (acceptStart d e s).tower p = { s.tower p with state := .driving, follow := 0, stall := 0 })
    ∧ ((s.tower p).state ≠ .online → (acceptStart d e s).tower p = s.tower p) := by
  obtain ⟨-, -, -, -, roster, -⟩ := acceptStart_spec d e s hm
  rw [tower_congr (s := driveOnline s) roster]
  exact driveOnline_tower s p

end

/-- Settles O50: an accepted START by what it does from STANDBY, and each refusal by the first check that fails. -/
theorem startChecksAndDrivesTheTowers : Obligations.StartChecksAndDrivesTheTowers := by
  refine ⟨fun payload d angle r s k e hm hl ha ht hc hb => ?_, fun payload d s k e => ?_⟩
  · obtain ⟨permit, direction, machine, timer, -, tracker, plan, link, tune, svc, free, flag⟩ := acceptStart_spec d none s hm
    obtain ⟨escape, lastGood, settings, -⟩ := faceStart_tracker d none s
    have flags := acceptStart_ev d none s
    have towers := acceptStart_tower d none hm
    rw [exec_start k e, start_outside hm hl ha (firstNotOnline_none.mpr ht) hc hb]
    refine ⟨_, rfl, permit, direction, machine, timer, fun p => (towers p).1, fun p => (towers p).2,
      (congrArg _ tracker).trans escape, (congrArg _ tracker).trans lastGood, (congrArg _ tracker).trans settings, plan, link,
      tune, svc, free, rfl, flag, fun same => ?_, fun n turn hn => ?_⟩
    · rw [faceStart_same same] at tracker flags
      exact ⟨tracker, flags⟩
    · rw [faceStart_turned turn ha hc hn] at tracker flags
      exact ⟨tracker, flags⟩
  · rw [exec_start k e]
    refine ⟨fun hm => ?_, fun hm hl => ?_, fun hm hl hp => ?_, fun hm hl hp ha => ?_, fun a p hm hl hp ha ht => ?_,
      fun a r hm hl ha ht hc hb no => ?_, fun a r hm hl ha ht hc hb ok => ?_⟩
    · simp [start, hm]
    · simp [start, hm, hl]
    · simp [start, hm, hl, hp]
    · simp [start, hm, hl, hp, ha]
    · simp [start, hm, hl, hp, ha, ht]
    · simp [start_inside hm hl ha ht hc hb, no]
    · obtain ⟨permit, direction, machine, -, -, tracker, plan, link, tune, svc, free, -⟩ :=
        acceptStart_spec d (some r.start) s hm
      have flags := acceptStart_ev d (some r.start) s
      have towers := acceptStart_tower d (some r.start) hm
      rw [start_inside hm hl ha ht hc hb, if_pos ok]
      refine ⟨_, rfl, (congrArg _ tracker).trans (faceStart_tracker d (some r.start) s).1, permit, direction, machine,
        fun p => (towers p).1, plan, link, tune, svc, free, rfl, fun same => ?_, fun n turn hn => ?_⟩
      · rw [faceStart_some, faceStart_same same] at tracker flags
        exact ⟨tracker, flags⟩
      · rw [faceStart_some, faceStart_turned turn ha hc hn] at tracker flags
        exact ⟨tracker, flags⟩

end Sys2Proof.Machine

/-! PROOFS. A good sample of a machine that is not RUNNING (O26, R32, R35, R36, R45). -/

namespace Sys2Proof.Machine

/-! ### The crossing (R36) -/

/-- A good sample notes a crossing at a change of record, and at the record's own start angle in the arc traversed. -/
theorem crossedAt_iff {t : Tracker} {v : View} (hv : t.view = some v) (r : Sector) (angle : Nat) :
    crossedAt t.activeKey (some r) (t.lastGood.map fun a => arcBetween a angle) = true ↔
      r.start ≠ v.activeKey ∨ ∃ a, t.lastGood = some a ∧ (arcBetween a angle).contains r.start = true := by
  cases h : t.lastGood <;> simp [crossedAt, Tracker.activeKey, hv]

/-- A tracker that held no active record notes no crossing. -/
theorem crossedAt_of_no_view {t : Tracker} (hv : t.view = none) (c : Option Sector) (arc : Option Arc) :
    crossedAt t.activeKey c arc = false := by
  simp [crossedAt, Tracker.activeKey, hv]

/-! ### Steps 1 to 5 and 7 of R32 without escape -/

theorem leaveEscape_of_none {s : State} (h : s.tracker.escape = none) (c : Option Sector) : leaveEscape c s = s := by
  unfold leaveEscape
  rw [h]

/-- The state before the checks of step 6, without escape. -/
theorem beforeChecks_of_no_escape {s : State} (h : s.tracker.escape = none) (angle : Nat) : s.beforeChecks angle =
    clearServed (covering s.plan angle)
      (if crossedAt s.tracker.activeKey (covering s.plan angle) (s.tracker.lastGood.map fun a => arcBetween a angle)
        then noteCrossing (s.atAngle angle) else s.atAngle angle) := by
  refine congrArg (clearServed _) (leaveEscape_of_none ?_ _)
  split <;> exact h

/-- Outside RUNNING a good sample makes no check of step 6 and no arrival check (R32). -/
theorem goodSample_of_rest {angle : Nat} {s : State} (hl : ∀ q ∈ s.plan, q.state = .live)
    (hm : s.sup.machine ≠ .running) : goodSample angle s = findView (covering s.plan angle) (s.beforeChecks angle) := by
  have unchecked : ∀ (arc : Option Arc) (c : Option Sector) (ch : Bool) (u : State),
      passageChecks false arc c ch u = (u, false) := by
    intro arc c ch u
    cases arc <;> cases c <;> rfl
  rw [goodSample_eq hl, show (s.sup.machine == .running) = false by simpa using hm, unchecked]
  rfl

/-- The hold-served mark that a sample in a record leaves (R45). -/
abbrev Tracker.servedIn (t : Tracker) (r : Sector) : Option (Nat × Nat) :=
  t.served.filter fun m => r.start = m.1 ∨ r.start = m.2

/-- Steps 5 and 7 of R32 together (R35, R45). -/
theorem findView_clearServed {u : State} {angle : Nat} {r n : Sector} (ha : u.tracker.lastGood = some angle)
    (hc : covering u.plan angle = some r) (hn : nextRecord u.plan u.sup.direction r.start = some n) :
    findView (some r) (clearServed (some r) u) = { u with tracker := { u.tracker with
      served := u.tracker.servedIn r, view := some (u.viewToward (u.tracker.servedIn r) angle r n) } } := by
  rw [clearServed_eq]
  exact findView_at ha hc hn

section
variable {angle : Nat} {r n : Sector} {s : State}

/-- What a good sample of a standing machine makes of the tracker. -/
abbrev State.seenFrom (s : State) (angle : Nat) (r n : Sector) (pending : Bool) : State :=
  { s.atAngle angle with tracker := { (s.atAngle angle).tracker with
    served := s.tracker.servedIn r, capturePending := pending
    view := some (s.viewToward (s.tracker.servedIn r) angle r n) } }

/-- A good sample of a machine that is not RUNNING and not escaping, with a crossing (R32, R36). -/
theorem goodSample_crossing (hl : ∀ q ∈ s.plan, q.state = .live) (hm : s.sup.machine ≠ .running)
    (he : s.tracker.escape = none) (hc : covering s.plan angle = some r)
    (hn : nextRecord s.plan s.sup.direction r.start = some n)
    (hx : crossedAt s.tracker.activeKey (some r) (s.tracker.lastGood.map fun a => arcBetween a angle) = true) :
    goodSample angle s = raise .sectorCrossed (s.seenFrom angle r n true) := by
  rw [goodSample_of_rest hl hm, beforeChecks_of_no_escape he, hc, if_pos hx]
  exact findView_clearServed (u := noteCrossing (s.atAngle angle)) rfl hc hn

/-- A good sample of a machine that is not RUNNING and not escaping, without a crossing (R32). -/
theorem goodSample_uncrossed (hl : ∀ q ∈ s.plan, q.state = .live) (hm : s.sup.machine ≠ .running)
    (he : s.tracker.escape = none) (hc : covering s.plan angle = some r)
    (hn : nextRecord s.plan s.sup.direction r.start = some n)
    (hx : ¬crossedAt s.tracker.activeKey (some r) (s.tracker.lastGood.map fun a => arcBetween a angle) = true) :
    goodSample angle s = s.seenFrom angle r n (s.tracker.capturePending || s.tracker.lastGood.isNone) := by
  rw [goodSample_of_rest hl hm, beforeChecks_of_no_escape he, hc, if_neg hx]
  exact findView_clearServed (u := s.atAngle angle) rfl hc hn

/-- With an empty table nothing is found. -/
theorem goodSample_empty (hp : s.plan = []) (hm : s.sup.machine ≠ .running) (he : s.tracker.escape = none) :
    goodSample angle s = { s.atAngle angle with tracker := { (s.atAngle angle).tracker with view := none } } := by
  have hc : covering s.plan angle = none := by rw [hp]; rfl
  have uncrossed : ∀ (k : Option Nat) (arc : Option Arc), crossedAt k none arc = false := by
    intro k _
    cases k <;> rfl
  have unserved : ∀ u : State, clearServed none u = u := by
    intro u
    unfold clearServed
    cases u.tracker.served <;> rfl
  rw [goodSample_of_rest (by simp [hp]) hm, beforeChecks_of_no_escape he, hc, uncrossed, unserved]
  exact findView_empty hp

end

/-- Settles O26: a crossing is noted or not by R36's two cases. -/
theorem standingSampleFindsTheView : Obligations.StandingSampleFindsTheView := by
  intro angle valid s ha hg hm he hl
  rw [next_angleSample ha hg]
  refine ⟨fun hp => ?_, fun r n hc hn => ⟨fun v hv crossing => ?_, fun v hv same outside => ?_, fun hv => ?_⟩⟩
  · exact congrArg _ (goodSample_empty (s := s.requestUsed) hp hm he)
  · have crossed := (crossedAt_iff (t := s.requestUsed.tracker) hv r angle.toNat).mpr crossing
    exact congrArg _ (goodSample_crossing (s := s.requestUsed) hl hm he hc hn crossed)
  · refine congrArg _ (goodSample_uncrossed (s := s.requestUsed) hl hm he hc hn ?_)
    rw [crossedAt_iff (t := s.requestUsed.tracker) hv]
    rintro (other | ⟨a, last, within⟩)
    · exact other same
    · simp [outside a last] at within
  · refine congrArg _ (goodSample_uncrossed (s := s.requestUsed) hl hm he hc hn ?_)
    simp [crossedAt_of_no_view (t := s.requestUsed.tracker) hv]

end Sys2Proof.Machine

/-! PROOFS. The arrival check (R42 to R44), and the round's sample stored or held (O25, R30 to R33). -/

namespace Sys2Proof.Machine

/-! ### The arrival check -/

theorem isServed_iff {t : Tracker} {key : Nat} : t.isServed key = true ↔ t.served.map Prod.fst = some key := beq_iff_eq

theorem isServed_eq_false {t : Tracker} {key : Nat} : t.isServed key = false ↔ ¬t.served.map Prod.fst = some key := by
  rw [← isServed_iff, Bool.not_eq_true]

section
variable {u : State} {v : View} {r : Sector}

theorem arrivalCheck_of_no_view (hv : u.tracker.view = none) : arrivalCheck u = u := by
  unfold arrivalCheck
  rw [hv]

theorem arrivalCheck_far (hv : u.tracker.view = some v) (far : ¬v.dist ≤ u.tracker.settings.arrivalWindow) :
    arrivalCheck u = u := by
  simp only [arrivalCheck, hv, if_neg far]

/-- Neither a RUN record nor a served HOLD is arrived at (R42). -/
theorem arrivalCheck_passes (hv : u.tracker.view = some v) (hf : findRecord u.plan v.nextKey = some r)
    (h : r.kind = .run ∨ r.kind = .hold ∧ u.tracker.isServed r.start = true) : arrivalCheck u = u := by
  simp only [arrivalCheck, hv, hf]
  rcases h with run | ⟨hold, served⟩
  · simp [run]
  · simp [hold, served]

theorem arrivalCheck_hold (hv : u.tracker.view = some v) (near : v.dist ≤ u.tracker.settings.arrivalWindow)
    (hf : findRecord u.plan v.nextKey = some r) (hk : r.kind = .hold) (hs : u.tracker.isServed r.start = false) :
    arrivalCheck u = arriveHold r v.activeKey u := by
  simp [arrivalCheck, hv, near, hf, hk, hs]

theorem arrivalCheck_barrier (hv : u.tracker.view = some v) (near : v.dist ≤ u.tracker.settings.arrivalWindow)
    (hf : findRecord u.plan v.nextKey = some r) (hk : r.kind = .barrier) :
    arrivalCheck u = arriveAtBarrier r (raise .arrival u) := by
  simp [arrivalCheck, hv, near, hf, hk]

end

theorem arrivalCheckIf_of {b : Bool} {s : State} (hb : b = true) (he : s.tracker.escape = none) :
    arrivalCheckIf b s = arrivalCheck s := if_pos (by simp [hb, he])

/-- No arrival check is made outside RUNNING and while escaping (R42, R49). -/
theorem arrivalCheckIf_of_not {b : Bool} {s : State} (h : b = false ∨ s.tracker.escape ≠ none) :
    arrivalCheckIf b s = s := by
  refine if_neg ?_
  rcases h with h | h <;> simp [h]

/-! ### What an arrival does from RUNNING -/

theorem arriveHold_tracker (r : Sector) (active : Nat) (s : State) :
    (arriveHold r active s).tracker = { s.tracker with served := some (r.start, active) } := by
  unfold arriveHold arriveAtHold startDwell dwellExpires
  simp only
  rw [changeState_motion rfl]
  (repeat' split) <;> rfl

/-- An arrival at a BARRIER with action STOP (R44). -/
theorem arriveAtBarrier_stop {r : Sector} {s : State} (hm : s.sup.machine = .running) (ha : r.action = some .stop) :
    arriveAtBarrier r s = raise .machineState { s with sup := { s.sup with machine := .stopping } } := by
  unfold arriveAtBarrier
  rw [ha]
  dsimp only
  rw [changeState_motion rfl]
  simp [Supervisor.moveTo, Supervisor.depart, permitAfter, hm, MachineState.isMotion]

/-- An arrival at a BARRIER with action REVERSE (R44, R141). -/
theorem arriveAtBarrier_reverse {r : Sector} {s : State} (hm : s.sup.machine = .running) (ha : r.action = some .reverse) :
    arriveAtBarrier r s
      = raise .machineState { s with sup := { s.sup with machine := .reversing, reversal := .awaitingRest } } := by
  unfold arriveAtBarrier beginReversal
  rw [ha]
  dsimp only
  rw [changeState_motion rfl]
  simp [Supervisor.moveTo, Supervisor.depart, permitAfter, hm, MachineState.isMotion, raise]

/-! ### A first bad sample (R33) -/

/-- The row ANGLE_SAMPLE with a bad sample. -/
theorem next_badSample {angle : BitVec 16} {valid : Bool} {s : State} (ha : s.tracker.awaiting = true)
    (hg : goodSample? s.tracker angle.toNat valid = false) :
    exec (.angleSample angle valid) s = .next (badSample s.requestUsed) := by
  show Host.Outcome.next (takeAnswer _ _ _) = _
  unfold takeAnswer
  rw [if_pos ha]
  exact congrArg _ (if_neg (ne_true_of_eq_false hg))

/-- A bad sample without a last good angle only counts (R33). -/
theorem badSample_blank {s : State} (h : s.tracker.lastGood = none) : badSample s = raise .angle { s with
    tracker := { s.tracker with badCount := min Config.badCountTop (s.tracker.badCount + 1) } } := by
  unfold badSample
  dsimp only
  split
  · rfl
  · rename_i k
    exact absurd (h.symm.trans k) (by simp)

/-- The state in which a first bad sample holds the angle. -/
theorem holdingAt_first {s : State} (hb : s.tracker.badCount = 0) (a : Nat) : s.holdingAt a = raise .angle { s with
    tracker := { s.tracker with badCount := 1, angleUsed := some a, held := true } } := by
  rw [State.holdingAt, hb]
  rfl

/-- A first bad sample holds the last good angle, and R34 is not reached. -/
theorem badSample_first {s : State} {a : Nat} (hb : s.tracker.badCount = 0) (h : s.tracker.lastGood = some a) :
    badSample s = s.heldThrough a := by
  have count : ¬2 ≤ (s.heldThrough a).tracker.badCount := by
    rw [(heldThrough_arrives s a).angle.badCount, holdingAt_first hb]
    exact Nat.not_le.mpr one_lt_two
  rw [badSample_held h, angleLost, if_neg count]

theorem heldThrough_escape (s : State) (a : Nat) : (s.heldThrough a).tracker.escape = s.tracker.escape :=
  (arrivalCheckIf_view _ _).2.trans (refresh_motion _).1

/-! ### The refresh from the held angle -/

/-- What a refresh leaves as it was, and the view it ends with. -/
theorem refreshedTo_leaves (s : State) (a : Nat) (r n : Sector) :
    (s.refreshedTo a r n).sup = s.sup ∧ (s.refreshedTo a r n).plan = s.plan
      ∧ (s.refreshedTo a r n).tracker.settings = s.tracker.settings
      ∧ (s.refreshedTo a r n).tracker.escape = s.tracker.escape
      ∧ (s.refreshedTo a r n).tracker.served = s.tracker.served
      ∧ (s.refreshedTo a r n).tracker.view = some (s.viewToward s.tracker.served a r n) := by
  obtain ⟨b, e, eq⟩ := refreshedTo_frame s a r n
  rw [eq]
  exact ⟨rfl, rfl, rfl, rfl, rfl, rfl⟩

section
variable {w : State} {a : Nat} {r n : Sector}

/-- After a refresh nothing is arrived at (R33, R42): the machine is not RUNNING, or escaping, or the boundary is farther off, or
the record beyond it is none to arrive at. -/
theorem refreshed_stays (hn : nextRecord w.plan w.sup.direction r.start = some n)
    (h : w.sup.machine ≠ .running ∨ w.tracker.escape ≠ none
      ∨ ¬distAhead w.plan r w.sup.direction a ≤ w.tracker.settings.arrivalWindow
      ∨ PlanLawful w.plan ∧ (n.kind = .run ∨ n.kind = .hold ∧ w.tracker.served.map Prod.fst = some n.start)) :
    arrivalCheckIf (w.sup.machine == .running) (w.refreshedTo a r n) = w.refreshedTo a r n := by
  obtain ⟨-, plan, settings, escape, served, view⟩ := refreshedTo_leaves w a r n
  by_cases going : w.sup.machine ≠ .running ∨ w.tracker.escape ≠ none
  · exact arrivalCheckIf_of_not (by simpa [escape] using going)
  · obtain ⟨run, esc⟩ := not_or.mp going
    rw [arrivalCheckIf_of (by simpa using run) (by simpa [escape] using esc)]
    rcases h with h | h | far | ⟨lawful, kind⟩
    · exact absurd h run
    · exact absurd h esc
    · exact arrivalCheck_far view (by rw [settings]; exact far)
    · refine arrivalCheck_passes view (r := n) ?_ ?_
      · rw [plan]
        exact findRecord_of_mem lawful (nextRecord_mem hn)
      · rwa [isServed_iff, served]

/-- After a refresh a machine in RUNNING arrives at an unserved HOLD or a BARRIER within the window (R42). -/
theorem refreshed_arrives (hn : nextRecord w.plan w.sup.direction r.start = some n) (run : w.sup.machine = .running)
    (esc : w.tracker.escape = none) (near : distAhead w.plan r w.sup.direction a ≤ w.tracker.settings.arrivalWindow)
    (lawful : PlanLawful w.plan) :
    (n.kind = .hold → ¬w.tracker.served.map Prod.fst = some n.start →
      arrivalCheckIf (w.sup.machine == .running) (w.refreshedTo a r n) = arriveHold n r.start (w.refreshedTo a r n))
    ∧ (n.kind = .barrier →
      arrivalCheckIf (w.sup.machine == .running) (w.refreshedTo a r n)
        = arriveAtBarrier n (raise .arrival (w.refreshedTo a r n))) := by
  obtain ⟨-, plan, settings, escape, served, view⟩ := refreshedTo_leaves w a r n
  have found : findRecord (w.refreshedTo a r n).plan n.start = some n := by
    rw [plan]
    exact findRecord_of_mem lawful (nextRecord_mem hn)
  have within : (w.viewToward w.tracker.served a r n).dist ≤ (w.refreshedTo a r n).tracker.settings.arrivalWindow := by
    rw [settings]
    exact near
  rw [arrivalCheckIf_of (by simpa using run) (escape.trans esc)]
  refine ⟨fun hold unserved => ?_, fun barrier => arrivalCheck_barrier view within found barrier⟩
  exact arrivalCheck_hold view within found hold (by rwa [isServed_eq_false, served])

end

/-- Settles O25: of a good sample, its first step stores the angle and no later one touches it; of a first bad one, the refresh
from the held angle and the arrival check are all that follows. -/
theorem sampleIsStoredOrHeld : Obligations.SampleIsStoredOrHeld := by
  intro angle valid s
  refine ⟨fun ha => congrArg _ (if_neg (by simp [ha])), fun ha hg => ?_, fun ha hb hg hl => ?_, fun a ha hb hg hl => ?_,
    fun a ha hb hg hl => ?_⟩
  · have stored := goodSample_angle angle.toNat s.requestUsed
    have kept := goodSample_kept angle.toNat s.requestUsed
    exact ⟨_, next_angleSample ha hg, stored.lastGood, stored.angleUsed, stored.held, stored.badCount, stored.awaiting,
      stored.settings, kept.settings, kept.tune, kept.free, kept.port⟩
  · rw [next_badSample ha hg, badSample_blank (s := s.requestUsed) hl, hb]
    rfl
  · have arrives := heldThrough_arrives s.requestUsed a
    have kept := heldThrough_kept s.requestUsed a
    rw [next_badSample ha hg, badSample_first (s := s.requestUsed) hb hl]
    refine ⟨_, rfl, arrives.angle.lastGood.trans hl, arrives.angle.angleUsed, arrives.angle.held, ?_, arrives.angle.awaiting,
      arrives.flags _ (isSet_raise_self _ _), arrives.trip, heldThrough_escape _ a, arrives.plan, kept.tune, kept.free,
      kept.port⟩
    exact arrives.angle.badCount.trans (by rw [holdingAt_first (s := s.requestUsed) hb]; rfl)
  · intro held
    have sample : exec (.angleSample angle valid) s = .next (arrivalCheckIf (held.sup.machine == .running) (refresh held)) := by
      rw [next_badSample ha hg, badSample_first (s := s.requestUsed) hb hl, State.heldThrough,
        holdingAt_first (s := s.requestUsed) hb]
      rfl
    refine ⟨fun blank => ?_, fun r n hc hn => ?_⟩
    · rw [sample, refresh_blank (s := held) (.inr blank)]
      unfold arrivalCheckIf
      split
      · exact congrArg _ (arrivalCheck_of_no_view rfl)
      · rfl
    · intro seen near served
      have view : exec (.angleSample angle valid) s = .next (arrivalCheckIf (held.sup.machine == .running) seen) := by
        rw [sample, refresh_eq (s := held) hl hc hn]
      obtain ⟨sup, plan, -⟩ : seen.sup = s.sup ∧ seen.plan = s.plan ∧ _ := refreshedTo_leaves held a r n
      refine ⟨fun still => view.trans (congrArg _ (refreshed_stays (w := held) hn still)),
        fun run esc close lawful table => ?_⟩
      obtain ⟨hold, barrier⟩ := refreshed_arrives (w := held) hn run esc close table
      have running : seen.sup.machine = .running := by rw [sup]; exact run
      refine ⟨fun kind unserved => ?_, fun kind stop => ?_, fun kind reverse => ?_⟩
      · refine ⟨_, view.trans (congrArg _ (hold kind unserved)), ?_, arriveHold_tracker n r.start seen⟩
        have arrived := arriveHold_heldAt (r := n) (a := r.start) (s := seen) (by rw [sup]; exact lawful) running
          (by rw [plan]; exact table) (by rw [plan]; exact nextRecord_mem hn)
        unfold State.HeldAt at arrived ⊢
        rwa [sup] at arrived
      · rw [view, barrier kind, arriveAtBarrier_stop (s := raise .arrival seen) running stop, ← sup]
        rfl
      · rw [view, barrier kind, arriveAtBarrier_reverse (s := raise .arrival seen) running reverse, ← sup]
        rfl

end Sys2Proof.Machine

/-! PROOFS. A good sample in RUNNING (O27, R42 to R49). -/

namespace Sys2Proof.Machine

/-! ### The checks of step 6 (R46, R47) -/

section
variable {arc : Arc} {c : Sector} {changed : Bool} {s : State}

theorem passedOver_entered (h : barrierPassed s.plan arc = true) :
    passedOver arc c changed s = (tripRequest .overrun none s, true) := by
  simp [passedOver, h]

theorem passedOver_meets {q : Sector} (h : barrierPassed s.plan arc = false) (k : c.kind ≠ .barrier)
    (m : holdMet arc c changed s = some q) : passedOver arc c changed s = (arriveHold q c.start s, true) := by
  simp [passedOver, h, k, m]

theorem passedOver_none (h : barrierPassed s.plan arc = false) (k : c.kind ≠ .barrier)
    (m : holdMet arc c changed s = none) : passedOver arc c changed s = (s, false) := by
  simp [passedOver, h, k, m]

/-- The state in which a sample inside a BARRIER trips: a HOLD met on the way is arrived at first (R46, R47). -/
abbrev State.afterMet (s : State) (arc : Arc) (c : Sector) (changed : Bool) : State :=
  (holdMet arc c changed s).elim s fun q => arriveHold q c.start s

theorem passedOver_inside (h : barrierPassed s.plan arc = false) (k : c.kind = .barrier) :
    passedOver arc c changed s = (tripRequest .overrun none (s.afterMet arc c changed), true) := by
  cases m : holdMet arc c changed s <;> simp [passedOver, h, k, m, State.afterMet]

theorem holdMet_congr {t : State} (hp : t.plan = s.plan) (hs : t.tracker.served = s.tracker.served) :
    holdMet arc c changed t = holdMet arc c changed s := by
  have served : t.tracker.isServed = s.tracker.isServed := by
    funext key
    rw [Tracker.isServed, hs, Tracker.isServed]
  have passed : holdPassed t arc c = holdPassed s arc c := by
    unfold holdPassed
    rw [hp, served]
  unfold holdMet
  rw [passed, served]

/-- At a BARRIER entered or stood in, the checks trip a lawful RUNNING machine with OVERRUN. -/
theorem passedOver_overrun (run : s.sup.machine = .running) (lawful : s.sup.Lawful) (towers : s.TowersLawful)
    (h : barrierPassed s.plan arc = true ∨ c.kind = .barrier) {before : State} (k : Arrives before s)
    (kt : s.tune = before.tune) (kf : s.free = before.free) :
    (passedOver arc c changed s).1.TrippedBy before .overrun none ∧ (passedOver arc c changed s).2 = true := by
  have moving : s.inMotion = true := by rw [State.inMotion, run]; rfl
  by_cases entered : barrierPassed s.plan arc = true
  · rw [passedOver_entered entered]
    exact ⟨overrun_trippedBy (Arrives.refl s) moving lawful towers rfl rfl k kt kf, rfl⟩
  · rw [passedOver_inside (by simpa using entered) (h.resolve_left entered)]
    refine ⟨?_, rfl⟩
    unfold State.afterMet
    cases holdMet arc c changed s with
    | none => exact overrun_trippedBy (Arrives.refl s) moving lawful towers rfl rfl k kt kf
    | some q =>
      have arrives := arriveHold_arrives q c.start s
      have kept := arriveHold_kept q c.start s
      exact overrun_trippedBy arrives (arrives.moving moving) (arriveHold_lawful q c.start s lawful (by simp [run]))
        (arriveHold_towers q c.start towers) kept.tune kept.free k kt kf

end

/-! ### The active record after a sample -/

theorem retiringRecord_of_live {plan : List Sector} (hl : ∀ q ∈ plan, q.state = .live) : retiringRecord plan = none :=
  List.find?_eq_none.mpr fun q hq => by simp [hl q hq]

/-- Entry to a standing state leaves a table without a RETIRING record (R21, R128). -/
theorem enterStanding_plan_of_live {s : State} (hl : ∀ q ∈ s.plan, q.state = .live) : (enterStanding s).plan = s.plan := by
  unfold enterStanding
  rw [completeRetirement_of_none (by exact retiringRecord_of_live hl)]

theorem tripRequest_plan_of_live (cause : TripCause) (p : Option Nat) {s : State} (hl : ∀ q ∈ s.plan, q.state = .live) :
    (tripRequest cause p s).plan = s.plan := by
  have enters : (changeState .tripped s).plan = s.plan :=
    enterStanding_plan_of_live (s := releaseTowers { s with sup := s.sup.moveTo .tripped }) hl
  have trips : (takeTrip cause p s).plan = s.plan := by simpa [takeTrip] using enters
  unfold tripRequest
  cases s.sup.machine <;> first | exact trips | rfl

theorem afterMet_plan (arc : Arc) (c : Sector) (changed : Bool) (s : State) : (s.afterMet arc c changed).plan = s.plan := by
  unfold State.afterMet
  cases holdMet arc c changed s with
  | none => rfl
  | some q => exact (arriveHold_arrives q c.start s).plan

theorem passedOver_plan_of_live (arc : Arc) (c : Sector) (changed : Bool) {s : State} (hl : ∀ q ∈ s.plan, q.state = .live) :
    (passedOver arc c changed s).1.plan = s.plan := by
  cases out : barrierPassed s.plan arc with
  | true =>
    rw [passedOver_entered out]
    exact tripRequest_plan_of_live _ _ hl
  | false =>
    by_cases k : c.kind = .barrier
    · rw [passedOver_inside out k]
      exact (tripRequest_plan_of_live _ _ (by rwa [afterMet_plan])).trans (afterMet_plan arc c changed s)
    · cases met : holdMet arc c changed s with
      | none => rw [passedOver_none out k met]
      | some q =>
        rw [passedOver_meets out k met]
        exact (arriveHold_arrives q c.start s).plan

theorem passageChecks_plan_of_live (b : Bool) (arc : Option Arc) (c : Option Sector) (changed : Bool) {s : State}
    (hl : ∀ q ∈ s.plan, q.state = .live) : (passageChecks b arc c changed s).1.plan = s.plan := by
  unfold passageChecks
  split
  · split
    · exact passedOver_plan_of_live _ _ _ hl
    · rfl
  · rfl

/-- With no record RETIRING the view takes the covering record's key at every good sample (R35). -/
theorem goodSample_activeKey {angle : Nat} {c : Sector} {s : State} (hl : ∀ q ∈ s.plan, q.state = .live)
    (hc : covering s.plan angle = some c) : (goodSample angle s).tracker.activeKey = some c.start := by
  have before := beforeChecks_arrives angle s
  rw [goodSample_eq hl]
  unfold Tracker.activeKey
  rw [(arrivalCheckIf_view _ _).1, hc]
  refine findView_activeKey (angle := angle) (d := c) ?_ ?_
  · exact (passageChecks_angle _ _ _ _ _).lastGood.trans before.angle.lastGood
  · rw [passageChecks_plan_of_live _ _ _ _ (by rw [before.plan]; exact hl), before.plan]
    exact hc

/-! ### A good sample in RUNNING -/

section
variable {angle a : Nat} {c n : Sector} {s : State}

/-- Whether a good sample finds the covering record to be another than the active one (R36). -/
abbrev State.changedTo (s : State) (c : Sector) : Bool := changedRecord s.tracker.activeKey (some c)

/-- With escape clear before the checks, the checks of step 6 are made, and the arrival check if they did nothing (R32). -/
theorem goodSample_checked (hl : ∀ q ∈ s.plan, q.state = .live) (run : s.sup.machine = .running)
    (hg : s.tracker.lastGood = some a) (hc : covering s.plan angle = some c)
    (clear : (s.beforeChecks angle).tracker.escape = none) :
    goodSample angle s =
      arrivalCheckIf (!(passedOver (arcBetween a angle) c (s.changedTo c) (s.beforeChecks angle)).2)
        (findView (some c) (passedOver (arcBetween a angle) c (s.changedTo c) (s.beforeChecks angle)).1) := by
  have made : ∀ arc changed u, u.tracker.escape = none →
      passageChecks true (some arc) (some c) changed u = passedOver arc c changed u := fun _ _ u h => if_pos (by simp [h])
  rw [goodSample_eq hl, hc, hg, run]
  exact congrArg (fun x : State × Bool => arrivalCheckIf (!x.2) (findView (some c) x.1)) (made _ _ _ clear)

/-- While escaping, a sample in RUNNING makes no check and no arrival check (R49). -/
theorem goodSample_escaping (hl : ∀ q ∈ s.plan, q.state = .live) (hc : covering s.plan angle = some c)
    (esc : (s.beforeChecks angle).tracker.escape ≠ none) :
    goodSample angle s = findView (some c) (s.beforeChecks angle) := by
  have unmade : ∀ b arc changed u, u.tracker.escape ≠ none → passageChecks b arc (some c) changed u = (u, false) := by
    intro b arc changed u h
    unfold passageChecks
    split
    · exact if_neg (by simp [h])
    · rfl
  rw [goodSample_eq hl, hc]
  refine (congrArg (fun x : State × Bool => arrivalCheckIf ((s.sup.machine == .running) && !x.2) (findView (some c) x.1))
    (unmade _ _ _ _ esc)).trans ?_
  exact arrivalCheckIf_of_not (.inr esc)

theorem goodSample_overrun (hl : ∀ q ∈ s.plan, q.state = .live) (run : s.sup.machine = .running) (lawful : s.sup.Lawful)
    (towers : s.TowersLawful) (hg : s.tracker.lastGood = some a) (hc : covering s.plan angle = some c)
    (clear : (s.beforeChecks angle).tracker.escape = none)
    (h : barrierPassed s.plan (arcBetween a angle) = true ∨ c.kind = .barrier) :
    (goodSample angle s).TrippedBy (s.atAngle angle) .overrun none := by
  have before := beforeChecks_arrives angle s
  obtain ⟨trips, acted⟩ := passedOver_overrun (s := s.beforeChecks angle) (arc := arcBetween a angle) (c := c)
    (changed := s.changedTo c) (by rw [beforeChecks_sup, run]) (by rw [beforeChecks_sup]; exact lawful)
    (towers.congr before.roster (by rw [State.inMotion, beforeChecks_sup]; rfl)) (by rw [before.plan]; exact h) before
    (beforeChecks_tune _ _) (beforeChecks_free _ _)
  rw [goodSample_checked hl run hg hc clear, acted]
  exact trips

theorem goodSample_meets {q : Sector} (hl : ∀ q ∈ s.plan, q.state = .live) (run : s.sup.machine = .running)
    (lawful : s.sup.Lawful) (table : PlanLawful s.plan) (hg : s.tracker.lastGood = some a)
    (hc : covering s.plan angle = some c) (clear : (s.beforeChecks angle).tracker.escape = none)
    (outside : barrierPassed s.plan (arcBetween a angle) = false) (k : c.kind ≠ .barrier)
    (met : holdMet (arcBetween a angle) c (s.changedTo c) (s.beforeChecks angle) = some q) :
    (goodSample angle s).HeldAt s q c.start := by
  have plan := (beforeChecks_arrives angle s).plan
  have mem : q ∈ s.plan := by
    rcases holdMet_mem met with mem | rfl
    · exact plan ▸ mem
    · exact covering_mem hc
  have arrived := arriveHold_heldAt (r := q) (a := c.start) (s := s.beforeChecks angle) (by rw [beforeChecks_sup]; exact lawful)
    (by rw [beforeChecks_sup, run]) (by rw [plan]; exact table) (by rw [plan]; exact mem)
  rw [goodSample_checked hl run hg hc clear, passedOver_meets (by rw [plan]; exact outside) k met]
  unfold State.HeldAt at arrived ⊢
  rwa [beforeChecks_sup] at arrived

/-- Where the checks of step 6 find nothing, the arrival check is made (R32). -/
theorem goodSample_unmet (hl : ∀ q ∈ s.plan, q.state = .live) (run : s.sup.machine = .running)
    (hg : s.tracker.lastGood = some a) (hc : covering s.plan angle = some c)
    (clear : (s.beforeChecks angle).tracker.escape = none)
    (outside : barrierPassed s.plan (arcBetween a angle) = false) (k : c.kind ≠ .barrier)
    (unmet : holdMet (arcBetween a angle) c (s.changedTo c) (s.beforeChecks angle) = none) :
    goodSample angle s = arrivalCheck (findView (some c) (s.beforeChecks angle)) := by
  have plan := (beforeChecks_arrives angle s).plan
  rw [goodSample_checked hl run hg hc clear, passedOver_none (by rw [plan]; exact outside) k unmet]
  exact arrivalCheckIf_of rfl clear

/-- Outside the BARRIER left, escape is clear when the sample is done (R49). -/
theorem goodSample_escape (hl : ∀ q ∈ s.plan, q.state = .live) (run : s.sup.machine = .running)
    (hg : s.tracker.lastGood = some a) (hc : covering s.plan angle = some c)
    (clear : (s.beforeChecks angle).tracker.escape = none) : (goodSample angle s).tracker.escape = none := by
  rw [goodSample_checked hl run hg hc clear, (arrivalCheckIf_view _ _).2]
  exact passedOver_escape _ _ _ clear

end

/-! ### The arrival check from the view of a sample (R42 to R44) -/

section
variable {angle : Nat} {c n : Sector} {u : State}

theorem sampled_view (ha : u.tracker.lastGood = some angle) (hc : covering u.plan angle = some c)
    (hn : nextRecord u.plan u.sup.direction c.start = some n) :
    (findView (some c) u).tracker.view = some (u.viewToward u.tracker.served angle c n) := by
  rw [findView_at ha hc hn]

theorem sampled_stays (ha : u.tracker.lastGood = some angle) (hc : covering u.plan angle = some c)
    (hn : nextRecord u.plan u.sup.direction c.start = some n) (table : PlanLawful u.plan)
    (h : u.tracker.settings.arrivalWindow < distAhead u.plan c u.sup.direction angle ∨ n.kind = .run
      ∨ n.kind = .hold ∧ u.tracker.isServed n.start = true) :
    arrivalCheck (findView (some c) u) = findView (some c) u := by
  rcases h with far | kind
  · exact arrivalCheck_far (sampled_view ha hc hn) (Nat.not_le.mpr far)
  · exact arrivalCheck_passes (sampled_view ha hc hn) (findRecord_of_mem table (nextRecord_mem hn)) kind

theorem sampled_holds (ha : u.tracker.lastGood = some angle) (hc : covering u.plan angle = some c)
    (hn : nextRecord u.plan u.sup.direction c.start = some n) (lawful : u.sup.Lawful) (run : u.sup.machine = .running)
    (table : PlanLawful u.plan) (near : distAhead u.plan c u.sup.direction angle ≤ u.tracker.settings.arrivalWindow)
    (hold : n.kind = .hold) (unserved : u.tracker.isServed n.start = false) :
    (arrivalCheck (findView (some c) u)).HeldAt u n c.start := by
  rw [arrivalCheck_hold (sampled_view ha hc hn) near (findRecord_of_mem table (nextRecord_mem hn)) hold unserved]
  exact arriveHold_heldAt (s := findView (some c) u) lawful run table (nextRecord_mem hn)

/-- An arrival at a BARRIER raises ARRIVAL and leaves the hold-served mark (R44). -/
theorem sampled_barrier (ha : u.tracker.lastGood = some angle) (hc : covering u.plan angle = some c)
    (hn : nextRecord u.plan u.sup.direction c.start = some n) (table : PlanLawful u.plan)
    (near : distAhead u.plan c u.sup.direction angle ≤ u.tracker.settings.arrivalWindow) (barrier : n.kind = .barrier) :
    arrivalCheck (findView (some c) u) = arriveAtBarrier n (raise .arrival (findView (some c) u))
      ∧ (arrivalCheck (findView (some c) u)).ev.isSet .arrival = true
      ∧ (arrivalCheck (findView (some c) u)).tracker.served = u.tracker.served := by
  have arrives := arrivalCheck_barrier (sampled_view ha hc hn) near
    (findRecord_of_mem (p := (findView (some c) u).plan) table (nextRecord_mem hn)) barrier
  rw [arrives]
  exact ⟨rfl, (arriveAtBarrier_arrives n _).flags _ (isSet_raise_self _ _), by rw [arriveAtBarrier_tracker]; rfl⟩

end

/-! ### The hold-served mark before the checks (R45) -/

theorem clearServed_served (c : Sector) (s : State) :
    (clearServed (some c) s).tracker.served = s.tracker.servedIn c := by rw [clearServed_eq]

theorem beforeChecks_served {angle : Nat} {c : Sector} {s : State} (h : s.tracker.escape = none)
    (hc : covering s.plan angle = some c) : (s.beforeChecks angle).tracker.served = s.tracker.servedIn c := by
  rw [(beforeChecks_marks h).2, hc, clearServed_served]

/-- With the covering record served, checks 2 and 3 of R46 act on records passed through alone. -/
theorem holdMet_served {arc : Arc} {c : Sector} {changed : Bool} {s : State} (h : s.tracker.isServed c.start = true) :
    holdMet arc c changed s = holdPassed s arc c := by
  simp [holdMet, h]

theorem isServed_congr {t u : Tracker} (h : t.served = u.served) (key : Nat) : t.isServed key = u.isServed key := by
  rw [Tracker.isServed, h, Tracker.isServed]

/-! ### The sample of the round in RUNNING, case by case -/

section
variable {angle : Nat} {c n : Sector} {s b : State}

/-- What the checks of step 6 see of a RUNNING machine `s`, with the new angle in the record `c` and `n` beyond it. -/
structure SampledAt (s b : State) (angle : Nat) (c n : Sector) : Prop where
  last : b.tracker.lastGood = some angle
  settings : b.tracker.settings = s.tracker.settings
  sup : b.sup = s.sup
  plan : b.plan = s.plan
  running : s.sup.machine = .running
  lawful : s.sup.Lawful
  table : PlanLawful s.plan
  cover : covering s.plan angle = some c
  next : nextRecord s.plan s.sup.direction c.start = some n

theorem beforeChecks_sampledAt (run : s.sup.machine = .running) (lawful : s.sup.Lawful) (table : PlanLawful s.plan)
    (hc : covering s.plan angle = some c) (hn : nextRecord s.plan s.sup.direction c.start = some n) :
    SampledAt s (s.beforeChecks angle) angle c n where
  last := (beforeChecks_arrives angle s).angle.lastGood
  settings := (beforeChecks_arrives angle s).angle.settings
  sup := beforeChecks_sup angle s
  plan := (beforeChecks_arrives angle s).plan
  running := run
  lawful := lawful
  table := table
  cover := hc
  next := hn

theorem SampledAt.covers (h : SampledAt s b angle c n) : covering b.plan angle = some c := by rw [h.plan, h.cover]

theorem SampledAt.follows (h : SampledAt s b angle c n) : nextRecord b.plan b.sup.direction c.start = some n := by
  rw [h.plan, h.sup, h.next]

theorem SampledAt.lawfulPlan (h : SampledAt s b angle c n) : PlanLawful b.plan := by rw [h.plan]; exact h.table

theorem SampledAt.dist (h : SampledAt s b angle c n) :
    distAhead b.plan c b.sup.direction angle = distAhead s.plan c s.sup.direction angle := by rw [h.plan, h.sup]

/-- Nothing is arrived at: the boundary is farther off, or the record beyond it none to arrive at. -/
theorem SampledAt.stays (h : SampledAt s b angle c n)
    (k : s.tracker.settings.arrivalWindow < distAhead s.plan c s.sup.direction angle ∨ n.kind = .run
      ∨ n.kind = .hold ∧ b.tracker.isServed n.start = true) :
    (arrivalCheck (findView (some c) b)).sup = s.sup
      ∧ (arrivalCheck (findView (some c) b)).tracker.served = b.tracker.served := by
  rw [sampled_stays h.last h.covers h.follows h.lawfulPlan (by rwa [h.settings, h.dist])]
  exact ⟨h.sup, rfl⟩

theorem SampledAt.holds (h : SampledAt s b angle c n)
    (near : distAhead s.plan c s.sup.direction angle ≤ s.tracker.settings.arrivalWindow) (hold : n.kind = .hold)
    (unserved : b.tracker.isServed n.start = false) : (arrivalCheck (findView (some c) b)).HeldAt s n c.start := by
  have held := sampled_holds h.last h.covers h.follows (by rw [h.sup]; exact h.lawful) (by rw [h.sup, h.running]) h.lawfulPlan
    (by rwa [h.settings, h.dist]) hold unserved
  unfold State.HeldAt at held ⊢
  rwa [h.sup] at held

/-- A BARRIER is arrived at, and the machine stops or turns back by its action. -/
theorem SampledAt.barrier (h : SampledAt s b angle c n)
    (near : distAhead s.plan c s.sup.direction angle ≤ s.tracker.settings.arrivalWindow) (barrier : n.kind = .barrier) :
    (n.action = some .stop → (arrivalCheck (findView (some c) b)).sup = { s.sup with machine := .stopping })
    ∧ (n.action = some .reverse →
        (arrivalCheck (findView (some c) b)).sup = { s.sup with machine := .reversing, reversal := .awaitingRest })
    ∧ (arrivalCheck (findView (some c) b)).ev.isSet .arrival = true
    ∧ (arrivalCheck (findView (some c) b)).tracker.served = b.tracker.served := by
  obtain ⟨arrives, flag, served⟩ := sampled_barrier h.last h.covers h.follows h.lawfulPlan (by rwa [h.settings, h.dist]) barrier
  have running : (raise .arrival (findView (some c) b)).sup.machine = .running := by
    show b.sup.machine = _
    rw [h.sup, h.running]
  refine ⟨fun stop => ?_, fun reverse => ?_, flag, served⟩
  · rw [arrives, arriveAtBarrier_stop running stop, ← h.sup]
    rfl
  · rw [arrives, arriveAtBarrier_reverse running reverse, ← h.sup]
    rfl

end

/-- Settles O27, by the escape mark before the checks: clear, of the covering record, or of another one. -/
theorem runningSampleArrivesPassesOrTrips : Obligations.RunningSampleArrivesPassesOrTrips := by
  intro angle valid a c n s ha good run lawful towers table hl hg hc hn arc u met now
  have sees : SampledAt s (s.requestUsed.beforeChecks angle.toNat) angle.toNat c n :=
    { beforeChecks_sampledAt (s := s.requestUsed) run lawful table hc hn with }
  refine ⟨_, next_angleSample ha good, goodSample_activeKey (s := s.requestUsed) hl hc, fun esc => ?_, fun b esc inside => ?_,
    fun b esc outside => ?_⟩
  · have clear := (beforeChecks_marks (s := s.requestUsed) (angle := angle.toNat) esc).1
    have served : (s.requestUsed.beforeChecks angle.toNat).tracker.served = u.tracker.served :=
      (beforeChecks_served (s := s.requestUsed) esc hc).trans (clearServed_served c s).symm
    have meets : holdMet arc c (s.requestUsed.changedTo c) (s.requestUsed.beforeChecks angle.toNat) = met :=
      holdMet_congr (sees.plan.trans (clearServed_plan _ s).symm) served
    refine ⟨goodSample_overrun (s := s.requestUsed) hl run lawful towers hg hc clear, fun h out k m => ?_, fun out k m => ?_⟩
    · exact goodSample_meets (s := s.requestUsed) hl run lawful table hg hc clear out k (meets.trans m)
    · rw [goodSample_unmet (s := s.requestUsed) hl run hg hc clear out k (meets.trans m), ← served,
        ← isServed_congr served n.start]
      refine ⟨sees.stays, fun near => ⟨sees.holds near, fun barrier stop => ?_, fun barrier reverse => ?_⟩⟩
      · obtain ⟨stops, -, arrived⟩ := sees.barrier near barrier
        exact ⟨stops stop, arrived⟩
      · obtain ⟨-, reverses, arrived⟩ := sees.barrier near barrier
        exact ⟨reverses reverse, arrived⟩
  · have escaping := beforeChecks_inside (s := s.requestUsed) esc hc inside
    rw [goodSample_escaping (s := s.requestUsed) hl hc (by simp [escaping])]
    exact ⟨sees.sup, escaping⟩
  · obtain ⟨clear, marks⟩ := beforeChecks_outside (s := s.requestUsed) esc hc outside
    refine ⟨goodSample_escape (s := s.requestUsed) hl run hg hc clear, fun barrier => ?_, fun hold out unmet far => ?_⟩
    · exact goodSample_overrun (s := s.requestUsed) hl run lawful towers hg hc clear (.inr barrier)
    · have served := marks hold
      have covered : (s.requestUsed.beforeChecks angle.toNat).tracker.isServed c.start = true := by
        rw [isServed_iff, served]
        rfl
      have unmetHere : holdMet arc c (s.requestUsed.changedTo c) (s.requestUsed.beforeChecks angle.toNat) = none := by
        rw [holdMet_congr (s := { s with tracker := { s.tracker with served := some (c.start, c.start) } }) sees.plan served,
          holdMet_served (by simp [isServed_iff]), unmet]
      rw [goodSample_unmet (s := s.requestUsed) hl run hg hc clear out (by simp [hold]) unmetHere, ← served]
      exact sees.stays (.inl far)

end Sys2Proof.Machine

/-! PROOFS. ROUND_START (O38, R81, R85, R95, R96, R159). -/

namespace Sys2Proof.Machine

theorem exec_roundStart {s : State} (running : s.link.running = true) (free : s.link.free = true) :
    exec .roundStart s = .next (startRound (endRound (roundPasses s))) :=
  congrArg Host.Outcome.next (if_pos ⟨running, free⟩)

/-! ### The rest of the round (R82, R85) -/

/-- Polls that have begun, or a phase that is over, leave nothing to skip. -/
theorem endRound_done {s : State} (h : s.link.phase ≠ .poll ∨ s.link.nextPos = none) : endRound s = s := by
  unfold endRound
  cases k : s.link.nextPos with
  | none => rfl
  | some p => exact if_neg (h.resolve_right (by simp [k]))

/-- Polls that have not begun are skipped, and the poll phase completes (R85, R88). -/
theorem endRound_skips {s : State} {p : Nat} (h : s.link.phase = .poll) (k : s.link.nextPos = some p) : endRound s =
    pollComplete { raise .roundShort s with link := { s.link with nextPos := none } } := by
  unfold endRound
  rw [k, ← skipPolls_eq p]
  exact if_pos h

/-- On a line that stays free the rest of the round passes at once. -/
theorem roundPasses_on {s : State} (h : ∀ m ≤ s.link.remaining, (timePasses m s).link.free = true) :
    roundPasses s = timePasses s.link.remaining s := by
  unfold roundPasses
  rw [timePassesWhile_on h]
  exact if_pos (h _ le_rfl)

theorem roundPasses_within {s : State} (free : s.link.free = true)
    (h : s.link.clock + s.link.remaining < s.link.settings.rate.perStep) : roundPasses s = { s with
      link := s.link.pass s.link.remaining, ev := if s.link.remaining = 0 then s.ev else settleLine s.ev } := by
  rw [roundPasses_on fun m hm => ?_, timePasses_within h]
  have short : m < s.link.toStep := by
    rw [Link.toStep, Nat.mod_eq_of_lt (by omega)]
    omega
  rw [timePasses_short short, free_lineRuns, free]

/-- A BREAK that begins on the free line meanwhile is sent to its end before the rest of the round passes (R95, R96). -/
theorem roundPasses_break {s : State} {k : Nat} (hk : k ≤ s.link.remaining)
    (before : ∀ j < k, (timePasses j s).link.free = true) (free : s.link.free = true)
    (sent : (timePasses k s).link.brk = .sending 0) :
    let w := timePasses 4 (timePasses k s)
    (w.link.phase ≠ .poll ∨ w.link.nextPos ≠ none) →
      roundPasses s = timePasses w.link.remaining { w with link := { w.link with brk := .none } } := by
  intro w goes
  have taken : (timePasses k s).link.free = false := by simp [Link.free, sent]
  have pos : 0 < k := by
    rcases Nat.eq_zero_or_pos k with rfl | pos
    · rw [show timePasses 0 s = s from rfl, free] at taken
      cases taken
    · exact pos
  have stops : timePassesWhile (fun u => u.link.free) s.link.remaining s = timePasses k s :=
    timePassesWhile_cut free_lineRuns hk taken before pos
  have ends : breakSent (timePasses k s) = { w with link := { w.link with brk := .none } } := by
    unfold breakSent
    rw [sent]
    exact settlePoll_id goes
  unfold roundPasses
  rw [stops]
  dsimp only
  rw [if_neg (by simp [taken]), ends]

/-! ### The start of a round (R81) -/

theorem startRound_tracker (s : State) : (startRound s).tracker = { s.tracker with awaiting := true } := by
  unfold startRound
  rw [ageRequests_track]
  rfl

theorem startRound_order (s : State) :
    (startRound s).svc.order = s.svc.order.filter (fun n => !slotOutlives s n)
      ∧ (startRound s).svc.counter = s.svc.counter := ageRequests_order _

theorem startRound_ev (s : State) : (startRound s).ev =
    if (List.range' 1 Config.slots).any (slotOutlives s) then s.ev.raise .serviceDone else s.ev := ageRequests_ev _

/-- Every configured reading becomes STALE, and no other record changes (R61). -/
theorem startRound_towers_at (s : State) (p : Nat) :
    (s.isConfigured p = true → p ≤ 21 → (startRound s).tower p = { s.tower p with fresh := false })
      ∧ (s.isConfigured p = false → (startRound s).tower p = s.tower p) := by
  rw [startRound_tower]
  refine ⟨fun conf le => ?_, fun vacant => ?_⟩
  · have pos : 1 ≤ p := by
      simp only [State.isConfigured, LinkSettings.isConfigured, Config.cornerPos, Bool.or_eq_true, Bool.and_eq_true,
        decide_eq_true_eq, beq_iff_eq] at conf
      omega
    rw [if_pos ⟨pos, le⟩, if_pos conf]
  · split
    · rw [if_neg (by simp [vacant])]
    · rename_i outside
      exact (tower_outside outside s).symm

/-! ### The ageing of requests (R159) -/

theorem aged_of_queued {limit : Nat} {r : Request} (h : r.state = .queued) (k : r.age + 1 ≤ limit) :
    r.aged limit = { r with age := r.age + 1 } := by
  simp [Request.aged, h, Nat.not_lt.mpr k]

theorem aged_too_old {limit : Nat} {r : Request} (h : r.state = .queued) (k : limit < r.age + 1) :
    r.aged limit = { r with age := r.age + 1, state := .failed, code := .unreachable, result := none } := by
  simp [Request.aged, h, k]

theorem aged_of_not_queued {limit : Nat} {r : Request} (h : r.state ≠ .queued) : r.aged limit = r := by
  unfold Request.aged
  split
  · exact absurd ‹_› h
  all_goals rfl

theorem startRound_slot_of {s : State} {n : Nat} {r : Request} (h : s.svc.slot n = some r) :
    (startRound s).svc.slot n = some (r.aged s.link.settings.ageLimit) := by rw [startRound_slot, h, Option.map_some]

theorem slotOutlives_iff {s : State} {n : Nat} : slotOutlives s n = true ↔
    ∃ r, s.svc.slot n = some r ∧ r.state = .queued ∧ s.link.settings.ageLimit < r.age + 1 := by
  unfold slotOutlives
  cases s.svc.slot n <;> simp [Request.outlives]

/-- With no request too old, ageing leaves the submission order and the flags. -/
theorem startRound_none_old {s : State}
    (h : ∀ n r, s.svc.slot n = some r → r.state = .queued → r.age + 1 ≤ s.link.settings.ageLimit) :
    (startRound s).svc.order = s.svc.order ∧ (startRound s).ev = s.ev := by
  have young : ∀ n, slotOutlives s n = false := by
    refine fun n => Bool.eq_false_iff.mpr fun k => ?_
    obtain ⟨r, slot, queued, old⟩ := slotOutlives_iff.mp k
    exact absurd (h n r slot queued) (Nat.not_le.mpr old)
  rw [(startRound_order s).1, startRound_ev]
  simp [young]

/-- A request too old leaves the submission order, and SERVICE_DONE is raised (R159). -/
theorem startRound_old {s : State} {n : Nat} {r : Request} (h : s.svc.slot n = some r) (queued : r.state = .queued)
    (old : s.link.settings.ageLimit < r.age + 1) :
    n ∉ (startRound s).svc.order ∧ (startRound s).ev = s.ev.raise .serviceDone := by
  have outlives : slotOutlives s n = true := slotOutlives_iff.mpr ⟨r, h, queued, old⟩
  have slot : n ∈ List.range' 1 Config.slots := by
    obtain ⟨low, high⟩ := slot_range h
    exact List.mem_range'_1.mpr ⟨low, Nat.lt_succ_of_le high⟩
  rw [(startRound_order s).1, startRound_ev]
  exact ⟨by simp [outlives], if_pos (List.any_eq_true.mpr ⟨n, slot, outlives⟩)⟩

/-- A PENDING BREAK is sent next, and any other state of the line stands (R96). -/
theorem startRound_brk (s : State) :
    (s.link.brk = .pending → (startRound s).link.brk = .sending 0)
      ∧ (s.link.brk ≠ .pending → (startRound s).link.brk = s.link.brk) := by
  rw [startRound_link, Link.startRound]
  cases s.link.brk <;> simp

/-- Settles O38: the rest of the round passes, what it leaves undone is skipped, and each block takes its part of R81. -/
theorem roundStartPreparesTheRound : Obligations.RoundStartPreparesTheRound := by
  intro s running free v
  obtain ⟨u, hu⟩ : ∃ u, u = endRound v := ⟨_, rfl⟩
  have kept : KeptSlots s u := hu ▸ (roundPasses_kept s).trans (endRound_kept v)
  have link : (startRound u).link = u.link.startRound := startRound_link u
  have rest := startRound_kept u
  refine ⟨u, startRound u, hu ▸ exec_roundStart running free, fun done => hu.trans (endRound_done done),
    fun p phase next => hu.trans (endRound_skips phase next), roundPasses_within free,
    fun k hk before sent => roundPasses_break hk before free sent, congrArg Link.round link, congrArg Link.remaining link,
    congrArg Link.offered link, congrArg Link.phase link, congrArg Link.nextPos link, (congrArg Link.exchange link).trans rfl,
    (startRound_brk u).1, (startRound_brk u).2, startRound_tracker u, fun p => (startRound_towers_at u p).1,
    fun p => (startRound_towers_at u p).2, fun n r slot queued young => ?_, fun n r slot queued old => ?_,
    fun n other => ?_, startRound_none_old, fun n r => startRound_old, (startRound_order u).2,
    rest.settings.trans kept.settings, (congrArg Link.running link).trans rfl, startRound_plan u, startRound_sup u,
    rest.tune.trans kept.tune, rest.port, rest.free.trans kept.free⟩
  · rw [startRound_slot_of slot, aged_of_queued queued young]
  · rw [startRound_slot_of slot, aged_too_old queued old]
  · cases slot : u.svc.slot n with
    | none => rw [startRound_slot, slot, Option.map_none]
    | some r => rw [startRound_slot_of slot, aged_of_not_queued (other r slot)]

end Sys2Proof.Machine

/-! PROOFS. The law of driven towers and of the applied command over a step (O9, R69, R111, R113). -/

namespace Sys2Proof.Machine

/-- An event that does not happen in a state leaves it as it is (log 5). -/
theorem TowersKept.ite {s t : State} {c : Prop} [Decidable c] (h : TowersKept s t) : TowersKept s (if c then t else s) := by
  split
  · exact h
  · exact id

/-- The bytes received are judged in the port and the event flags alone. -/
theorem judgeReceived_towers (busy : Bool) (received : List Byte) (s : State) :
    TowersKept s (judgeReceived busy received s) := by
  unfold judgeReceived takeCommand
  (repeat' split) <;> exact id

theorem powerOn_towers (closed : Bool) : (State.powerOn closed).TowersLawful := by
  intro p _
  rw [powerOn_tower]
  exact vacantTower_lawful _

/-- Every event happens, and keeps the roster lawful. -/
theorem event_towers {i : Instr} {s : State} (e : commandOf i = none) (h : s.TowersLawful) :
    ∃ t, exec i s = .next t ∧ t.TowersLawful := by
  cases i with
  | powerOnReset ended => exact ⟨_, rfl, powerOn_towers _⟩
  | transactionStart =>
    refine ⟨_, rfl, ?_⟩
    (repeat' split) <;> exact h
  | transactionEnd received =>
    refine ⟨_, rfl, ?_⟩
    split
    · exact judgeReceived_towers _ received _ h
    · exact h
  | attnHighEnd => exact ⟨_, rfl, h⟩
  | attnGapEnd => exact ⟨_, rfl, h⟩
  | roundStart => exact ⟨_, rfl, TowersKept.ite (fun l => startRound_towers (endRound_towers (roundPasses_towers l))) h⟩
  | unreachable n => exact ⟨_, rfl, TowersKept.ite (t := unreachableSlot n s) id h⟩
  | angleSample a v => exact ⟨_, rfl, takeAnswer_towers _ v h⟩
  | angleLoss => exact ⟨_, rfl, TowersKept.ite missingSample_towers h⟩
  | pollBegin => exact ⟨_, rfl, pollBegins_towers h⟩
  | resetExchangeBegin => exact ⟨_, rfl, resetBegins_towers h⟩
  | serviceExchangeBegin => exact ⟨_, rfl, serviceBegins_towers h⟩
  | requestSent => exact ⟨_, rfl, atMoment_towers (act := requestEnds) (fun _ _ => id) _ _ h⟩
  | noReply => exact ⟨_, rfl, atMoment_towers (fun x _ => windowCloses_towers x) _ _ h⟩
  | replyGapTimeout =>
    refine ⟨_, rfl, ?_⟩
    split
    · exact replyBreaksOff_towers h
    · exact breakBegins_towers h
    · exact h
  | reservationUsedUp =>
    refine ⟨_, rfl, ?_⟩
    split
    · exact atMoment_towers (fun x _ => reservationEnds_towers x) _ _ h
    · exact breakBegins_towers (timePasses_towers _ h)
    · exact h
  | replyFramingError => exact ⟨_, rfl, replyBreaksOff_towers h⟩
  | replyComplete reply =>
    refine ⟨_, rfl, ?_⟩
    split
    · exact TowersKept.ite (atMoment_towers (fun x _ => replyArrives_towers reply x) _ _) h
    · exact breakDue_towers (lineFallsIdle_towers (timePasses_towers _ h))
    · exact h
  | missLimitReached n => exact ⟨_, rfl, TowersKept.ite (missLimit_towers n) h⟩
  | followLimitReached n => exact ⟨_, rfl, TowersKept.ite (enterFaulted_towers n .sensor) h⟩
  | stall n => exact ⟨_, rfl, TowersKept.ite (enterFaulted_towers n .stall) h⟩
  | jogRoundsExpired =>
    refine ⟨_, rfl, ?_⟩
    split
    · exact TowersKept.ite (countJogRound_towers _) h
    · exact h
  | startTimerExpiry => exact ⟨_, rfl, TowersKept.ite startExpires_towers h⟩
  | dwellTimerExpiry => exact ⟨_, rfl, TowersKept.ite dwellExpires_towers h⟩
  | reversalTimerExpiry => exact ⟨_, rfl, TowersKept.ite reversalExpires_towers h⟩
  | resetTimerExpiry n => exact ⟨_, rfl, TowersKept.ite (enterFaulted_towers n .resetTimeout) h⟩
  | safetyLoopChange closed =>
    refine ⟨_, rfl, ?_⟩
    split
    · exact h
    · exact loopChanges_towers closed h
  | breakBegin =>
    refine ⟨_, rfl, ?_⟩
    split
    · exact breakBegins_towers (timePasses_towers _ h)
    all_goals exact breakBegins_towers h
  | breakEnd => exact ⟨_, rfl, breakSent_towers h⟩
  | replyBegun =>
    refine ⟨_, rfl, ?_⟩
    split <;> exact h
  | _ => cases e

/-- Settles O9: every command, every event and the part by itself keeps the roster lawful. -/
theorem stepKeepsTowerLaws : Obligations.StepKeepsTowerLaws := by
  intro s t h k
  exact step_keeps (P := State.TowersLawful) (fun _ _ => id)
    (fun _ _ payload _ hf => carryOut_towers (handlerOf_towers hf) payload) (fun _ _ _ => id) (fun _ _ => event_towers)
    (fun _ => startRound_towers) (fun _ => characterTime_towers) h k

end Sys2Proof.Machine

/-! PROOFS. The passing of time (O39, R77, R82, R91, R95, R129, R133, R137, R142). -/

namespace Sys2Proof.Machine

theorem toStep_of_end {l : Link} {n : Nat} (pos : 1 ≤ n) (h : l.clock + n = l.settings.rate.perStep) : l.toStep = n := by
  rw [Link.toStep, Nat.mod_eq_of_lt (by omega)]
  omega

/-- Character times that end the present step of 100 ms end with the timers' step (R129). -/
theorem timePasses_to_step {n : Nat} {s : State} (pos : 1 ≤ n) (h : s.link.clock + n = s.link.settings.rate.perStep) :
    timePasses n s = stepTimers { s with link := s.link.pass n, ev := if n = 0 then s.ev else settleLine s.ev } := by
  have e := timePasses_step s
  rw [toStep_of_end pos h, lineRuns, if_neg (by omega)] at e
  rw [e, if_neg (by omega)]

section
variable {s : State} {n : Nat}

theorem stepStart_counts (h : s.sup.startTimer = some n) (k : 2 ≤ n) :
    stepStart s = { s with sup := { s.sup with startTimer := some (n - 1) } } := by
  simp only [stepStart, h, if_neg (show ¬n ≤ 1 by omega)]

theorem stepStart_expires (h : s.sup.startTimer = some n) (k : n ≤ 1) : stepStart s = changeState .running s := by
  simp only [stepStart, h, if_pos k, startExpires]

theorem stepDwell_counts (h : s.sup.hold.dwell = .running n) (k : 2 ≤ n) :
    stepDwell s = { s with sup := { s.sup with hold := { s.sup.hold with dwell := .running (n - 1) } } } := by
  simp only [stepDwell, h, if_neg (show ¬n ≤ 1 by omega)]

theorem stepDwell_expires (h : s.sup.hold.dwell = .running n) (k : n ≤ 1) : stepDwell s = dwellExpires s := by
  simp only [stepDwell, h, if_pos k]

theorem stepReversal_counts (h : s.sup.reversal = .delay n) (k : 2 ≤ n) :
    stepReversal s = { s with sup := { s.sup with reversal := .delay (n - 1) } } := by
  simp only [stepReversal, h, if_neg (show ¬n ≤ 1 by omega)]

theorem stepReversal_expires (h : s.sup.reversal = .delay n) (k : n ≤ 1) : stepReversal s = reversalExpires s := by
  simp only [stepReversal, h, if_pos k]

variable {p : Nat}

theorem stepReset_counts (h : (s.tower p).resetTimer = some n) (k : 2 ≤ n) :
    stepReset p s = s.modTower p fun t => { t with resetTimer := some (n - 1) } := by
  simp only [stepReset, h, if_neg (show ¬n ≤ 1 by omega)]

theorem stepReset_expires (h : (s.tower p).resetTimer = some n) (k : n ≤ 1) : stepReset p s = resetTimeout p s := by
  simp only [stepReset, h, if_pos k]

theorem exec_resetTimerExpiry (h : (s.tower p).resetTimer = some n) :
    exec (.resetTimerExpiry p) s = .next (resetTimeout p s) := congrArg Host.Outcome.next (if_pos (by simp [h]))

end

/-- Settles O39: time within a step, time to its end, time in parts, and each timer's step counted down or expired. -/
theorem timePassesOnTheLineAndTheTimers : Obligations.TimePassesOnTheLineAndTheTimers := by
  refine ⟨⟨rfl, rfl, rfl⟩, fun n s => ⟨timePasses_within, timePasses_to_step, fun m => timePasses_add m n s⟩, fun s =>
    ⟨rfl, fun none => ?_, fun n => stepStart_counts, fun n timer last hm => ?_, fun n => stepDwell_counts,
      fun n => stepDwell_expires, fun n => stepReversal_counts, fun n timer last => ?_, fun p n => stepReset_counts,
      fun p n timer last => ?_⟩⟩
  · rw [stepStart, none]
  · rw [stepStart_expires timer last, leaveStarting hm]
  · by_cases hm : s.sup.machine = .reversing
    · exact .inl (by rw [exec_reversalTimerExpiry hm timer, stepReversal_expires timer last])
    · exact .inr hm
  · rw [exec_resetTimerExpiry timer, stepReset_expires timer last]

end Sys2Proof.Machine

/-! PROOFS. BREAK (O47, R68, R76, R95 to R98, R158, R163). -/

namespace Sys2Proof.Machine

/-- While rounds run BREAK follows on a free line with 4 character times left, and becomes PENDING otherwise (R96). -/
theorem breakOnFree_eq {l : Link} (running : l.running = true) :
    l.breakOnFree = { l with brk := if 4 ≤ l.remaining then .sending 0 else .pending } := by
  by_cases fits : 4 ≤ l.remaining <;> simp [Link.breakOnFree, Link.sendBreak, Config.breakReserve, running, fits]

theorem requestBreak_on_free {s : State} (running : s.link.running = true) (quiet : s.link.brk = .none)
    (free : s.link.exchange = none) : requestBreak s = { s with link := s.link.breakOnFree } := by
  simp only [requestBreak, running, if_true, quiet, free]

/-- Without rounds a request for BREAK is not begun, and one that is sent, pending or waits serves (R97). -/
theorem requestBreak_served {s : State} (h : s.link.running = false ∨ s.link.brk ≠ .none) : requestBreak s = s := by
  unfold requestBreak
  split
  · rename_i runs
    split
    · rename_i brk
      rcases h with h | h
      · simp [runs] at h
      · exact absurd brk h
    all_goals rfl
  · rfl

/-- The outcome ABANDONED of a SERVICE exchange reaches its slot. -/
theorem deliverAbandoned_service {x : Exchange} {n : Nat} (h : x.owner = .service n) (kept : x.discard = false) (s : State) :
    deliverAbandoned x s = serviceOutcome n .abandoned s := by
  simp [deliverAbandoned, h, kept]

/-- A poll or a RESET that is cut short changes nothing but the line (R68, R76). -/
theorem deliverAbandoned_silent {x : Exchange} (h : ∀ n, x.owner ≠ .service n) (s : State) : deliverAbandoned x s = s := by
  unfold deliverAbandoned
  split
  · rfl
  · split
    · rfl
    · rfl
    · exact absurd ‹_› (h _)

/-- A BREAK that waited for a quiet line begins, or becomes PENDING (R96). -/
theorem breakBegins_waiting {s : State} {left quiet : Nat} (h : s.link.brk = .waiting left quiet)
    (running : s.link.running = true) (goes : s.link.phase ≠ .poll ∨ s.link.nextPos ≠ none) : breakBegins s =
    { s with link := { s.link with brk := if 4 ≤ s.link.remaining then .sending 0 else .pending } } := by
  simp only [breakBegins, h]
  rw [breakOnFree_eq running]
  exact settlePoll_id goes

theorem breakBegins_fits {s : State} (h : s.link.brk = .pending) (free : s.link.exchange = none)
    (fits : 4 ≤ s.link.remaining) : breakBegins s = { s with link := { s.link with brk := .sending 0 } } := by
  simp [breakBegins, h, free, Config.breakReserve, fits, Link.sendBreak]

/-- Settles O47: what a request makes of a free line and of an exchange, and then the rows that begin and end a BREAK. -/
theorem breakIsRequestedBegunAndEnded : Obligations.BreakIsRequestedBegunAndEnded := by
  intro s
  refine ⟨fun running quiet free => ?_, fun x running quiet line => ?_, fun idle => requestBreak_served (.inl idle),
    fun under => requestBreak_served (.inr under), fun pending free fits => ?_, fun left quiet waits => ?_,
    fun left quiet waits free running goes => ?_, fun n sending => ?_⟩
  · rw [requestBreak_on_free running quiet free, breakOnFree_eq running]
  · have cut := requestBreak_exchange running quiet line
    refine ⟨fun p owner => ?_, fun p owner => ?_, fun n r owner kept slot => ⟨fun sent => ?_, fun cancelling => ?_⟩⟩
    · rw [cut, deliverAbandoned_silent (by simp [owner]), owner]
      rfl
    · rw [cut, deliverAbandoned_silent (by simp [owner]), owner]
      rfl
    · rw [cut, deliverAbandoned_service owner kept, owner]
      exact serviceOutcome_failed slot sent rfl
    · rw [cut, deliverAbandoned_service owner kept, owner]
      exact serviceOutcome_cancelling _ slot cancelling
  · have row : exec .breakBegin s = .next (breakBegins s) := by
      simp only [exec, execBreakBegin, pending]
    rw [row, breakBegins_fits pending free fits]
  · intro t goes running l q brk
    have row : exec .breakBegin s = .next (breakBegins t) := by
      simp only [exec, execBreakBegin, waits, t]
    rw [row, breakBegins_waiting brk running goes]
  · have row : exec .replyGapTimeout s = .next (breakBegins s) := by
      have off : s.link.exchangeAt .receiving = none := exchangeAt_eq_none (by simp [free])
      simp only [exec, execReplyGapTimeout, off, waits]
    rw [row, breakBegins_waiting waits running goes]
  · intro t goes
    have row : exec .breakEnd s = .next (breakEnds t) := by
      simp only [exec, execBreakEnd, breakSent, sending, Config.breakReserve, t]
    rw [row]
    exact congrArg Host.Outcome.next (settlePoll_id goes)

end Sys2Proof.Machine

/-! PROOFS. A good poll reply, stored and judged by the tower's state (O31, R61, R63 to R66, R70, R71), and a tower at its miss,
follow or stall limit or at the end of its reset timer (O32, R67, R77). -/

namespace Sys2Proof.Machine

/-! ### One tower's record replaced -/

section
variable {s u : State} {p : Nat} {v : Tower}

theorem State.TowerBecomes.refl (s : State) (p : Nat) : s.TowerBecomes s p (s.tower p) :=
  ⟨rfl, fun _ _ => rfl, rfl, rfl, rfl, rfl, rfl, rfl, rfl, rfl⟩

theorem State.TowerBecomes.modTower (hp : 1 ≤ p ∧ p ≤ Config.positions) (h : u.TowerBecomes s p v) (g : Tower → Tower) :
    (u.modTower p g).TowerBecomes s p (g v) := by
  obtain ⟨own, others, sup, link, tracker, plan, tune, svc, port, free⟩ := h
  refine ⟨?_, fun q hq => ?_, ?_⟩
  · rw [tower_modTower, if_pos ⟨rfl, hp⟩, own]
  · rw [tower_modTower, if_neg (by simp [hq]), others q hq]
  · simp [sup, link, tracker, plan, tune, svc, port, free]

theorem State.TowerBecomes.change (hp : 1 ≤ p ∧ p ≤ Config.positions) (h : u.TowerBecomes s p v) (g : Tower → Tower)
    (c : ChangeFlag) {w : Tower} (hw : w = { g v with changes := (g v).changes ||| c.bit }) :
    (setChange p c (u.modTower p g)).TowerBecomes s p w := by
  obtain ⟨own, others, sup, link, tracker, plan, tune, svc, port, free⟩ := h
  exact setChange_becomes hp sup link tracker plan tune svc port free others g c (by rw [own, hw])

theorem State.TowerBecomes.inMotion (h : u.TowerBecomes s p v) : u.inMotion = s.inMotion := by
  obtain ⟨-, -, sup, -⟩ := h
  unfold State.inMotion
  rw [sup]

theorem State.TowerBecomes.towers (h : u.TowerBecomes s p v) (ht : s.TowersLawful) (hv : v.Lawful s.inMotion) :
    u.TowersLawful := by
  intro q hq
  rw [h.inMotion]
  obtain ⟨own, others, -⟩ := h
  by_cases e : q = p
  · subst e; rw [own]; exact hv
  · rw [others q e]; exact ht q hq

theorem Tower.leaveTo_undriven {t : Tower} (d : t.isDriven = false) (st : TowerState) :
    t.leaveTo st = { t with state := st } := by
  simp [Tower.leaveTo, d]

/-! ### Faults and restarts -/

/-- A standing machine takes no trip request from the roster (R70). -/
theorem tripIfMoving_still {s : State} (h : s.inMotion = false) (cause : TripCause) (p : Nat) : tripIfMoving cause p s = s :=
  if_neg (by simp [h])

/-- A fault of a tower that is not driven, in a standing machine (R63, R70). -/
theorem enterFaulted_becomes (hp : 1 ≤ p ∧ p ≤ Config.positions) (h : u.TowerBecomes s p v) (rest : s.inMotion = false)
    (d : v.isDriven = false) (reason : FaultReason) : (enterFaulted p reason u).TowerBecomes s p { v with
      state := .faulted, reason := reason, miss := 0, follow := 0, stall := 0, stage := .none, resetPending := false
      resetTimer := none, changes := v.changes ||| 0x02 } := by
  unfold enterFaulted
  rw [tripIfMoving_still (by simpa [h.inMotion] using rest)]
  exact h.change hp _ .fault (by rw [Tower.faulted, Tower.leaveTo_undriven d]; rfl)

/-- An unrequested restart of a tower that is not driven, in a standing machine (R64, R70). -/
theorem enterUnrequested_becomes (hp : 1 ≤ p ∧ p ≤ Config.positions) (h : u.TowerBecomes s p v) (rest : s.inMotion = false)
    (d : v.isDriven = false) : (enterUnrequested p u).TowerBecomes s p { v with
      state := .resetting, stage := .unrequested, resetTimer := some (10 * s.link.settings.resetLimit)
      changes := v.changes ||| 0x08 } := by
  obtain ⟨-, -, -, link, -⟩ := id h
  unfold enterUnrequested
  rw [tripIfMoving_still (by simpa only [setChange_inMotion, modTower_inMotion, h.inMotion] using rest)]
  exact h.change hp _ .restarted (by rw [Tower.leaveTo_undriven d, State.resetSteps, link]; rfl)

/-- Of a standing machine an ONLINE tower that reaches the miss limit falls SILENT and nothing trips (R67). -/
theorem missLimit_becomes (hp : 1 ≤ p ∧ p ≤ Config.positions) (rest : s.inMotion = false) (d : (s.tower p).isDriven = false) :
    (missLimit p s).TowerBecomes s p { s.tower p with
      state := .silent, miss := s.link.settings.missLimit, changes := (s.tower p).changes ||| 0x01 } := by
  unfold missLimit
  rw [tripIfMoving_still (by simpa only [setChange_inMotion, modTower_inMotion] using rest)]
  exact (State.TowerBecomes.refl s p).change hp _ .presence (by rw [Tower.leaveTo_undriven d]; rfl)

/-- A fault in a motion state trips the machine with the reason's cause and the tower's position (R70). -/
theorem enterFaulted_trips (hp : 1 ≤ p ∧ p ≤ Config.positions) (h : u.TowerBecomes s p v) (moving : s.inMotion = true)
    (ht : s.TowersLawful) (hs : s.sup.Lawful) (hv : v.Lawful s.inMotion) (reason : FaultReason) :
    (enterFaulted p reason u).TrippedBy s reason.cause (some p) ∧ ((enterFaulted p reason u).tower p).state = .faulted
      ∧ ((enterFaulted p reason u).tower p).reason = reason := by
  have towers := h.towers ht hv
  obtain ⟨own, others, sup, link, tracker, plan, tune, svc, port, free⟩ := h
  obtain ⟨trips, state, why, -⟩ := leaves_trips hp sup link tracker plan tune free others towers hs moving
    (fun t => t.faulted reason) .fault reason.cause rfl (Tower.leaveTo_still (by rw [own]; exact hv) .faulted)
  exact ⟨trips, state, why⟩

/-- An unrequested restart in a motion state trips the machine (R70). -/
theorem enterUnrequested_trips (hp : 1 ≤ p ∧ p ≤ Config.positions) (h : u.TowerBecomes s p v) (moving : s.inMotion = true)
    (ht : s.TowersLawful) (hs : s.sup.Lawful) (hv : v.Lawful s.inMotion) :
    (enterUnrequested p u).TrippedBy s .towerFault (some p) ∧ ((enterUnrequested p u).tower p).state = .resetting
      ∧ ((enterUnrequested p u).tower p).stage = .unrequested := by
  have towers := h.towers ht hv
  obtain ⟨own, others, sup, link, tracker, plan, tune, svc, port, free⟩ := h
  obtain ⟨trips, state, -, stage⟩ := leaves_trips hp sup link tracker plan tune free others towers hs moving
    (fun t => { t.leaveTo .resetting with stage := .unrequested, resetTimer := some u.resetSteps }) .restarted
    .towerFault rfl (Tower.leaveTo_still (by rw [own]; exact hv) .resetting)
  exact ⟨trips, state, stage⟩

end

/-! ### A good reply is stored and judged -/

/-- `s` with a good reply to a tower's poll stored (R61). -/
abbrev State.storing (s : State) (p : Nat) (r : Reading) : State := s.modTower p fun _ => s.stored p r

/-- `s` with a good reply stored, and the PRESENCE of a tower that was SILENT set (R63). -/
def State.heard (s : State) (p : Nat) (r : Reading) : State :=
  if (s.tower p).state = .silent then setChange p .presence (s.storing p r) else s.storing p r

theorem stored_lawful {s : State} (h : s.TowersLawful) (p : Nat) (r : Reading) (flags : BitVec 5) :
    Tower.Lawful s.inMotion { s.stored p r with changes := (s.stored p r).changes ||| flags } :=
  (h.all p).congr rfl rfl rfl

section
variable {s : State} {p : Nat} {r : Reading}

theorem pollOutcome_good {reply : List Byte} (h : readingOf reply = some r) (p : Nat) (s : State) :
    pollOutcome p (.good reply) s = pollGood p r s := by
  simp only [pollOutcome, h]

theorem heard_becomes (hp : 1 ≤ p ∧ p ≤ Config.positions) : (s.heard p r).TowerBecomes s p { s.stored p r with
    changes := (s.stored p r).changes ||| if (s.tower p).state = .silent then 0x01 else 0 } := by
  unfold State.heard
  split
  · exact (State.TowerBecomes.refl s p).change hp _ .presence rfl
  · have same : (s.stored p r).changes ||| 0 = (s.stored p r).changes := BitVec.or_zero
    rw [same]
    exact (State.TowerBecomes.refl s p).modTower hp _

theorem heard_of_not_silent (h : (s.tower p).state ≠ .silent) : s.heard p r = s.storing p r := if_neg h

/-- The towers whose good replies are judged for faults and restarts (R64 to R66). -/
abbrev State.Judges (s : State) (p : Nat) (r : Reading) : Prop :=
  (s.tower p).state = .silent ∨ (s.tower p).state = .online ∨ (s.tower p).isDriven = true
    ∨ (s.tower p).state = .resetting ∧ ((s.tower p).stage = .acknowledged ∨ (s.tower p).stage = .unrequested)
      ∧ ¬shows (r.storedStatus p) statusInitialising = true

/-- A status as stored that shows none of drive fault, local stop and initialising. -/
abbrev Reading.Clean (r : Reading) (p : Nat) : Prop :=
  ¬shows (r.storedStatus p) statusDriveFault = true ∧ ¬shows (r.storedStatus p) statusLocalStop = true
    ∧ ¬shows (r.storedStatus p) statusInitialising = true

theorem isDriven_cases {t : Tower} (h : t.isDriven = true) : t.state = .driving ∨ t.state = .following := by
  simpa [Tower.isDriven] using h

theorem pollGood_silent (h : (s.tower p).state = .silent) :
    pollGood p r s = judgeUndriven p (r.storedStatus p) (s.heard p r) := by
  unfold pollGood State.heard
  simp only [h]
  rfl

theorem pollGood_online (h : (s.tower p).state = .online) :
    pollGood p r s = judgeUndriven p (r.storedStatus p) (s.heard p r) := by
  unfold pollGood State.heard
  simp only [h]
  rfl

theorem pollGood_driven (h : (s.tower p).isDriven = true) :
    pollGood p r s = judgeDriven p (s.tower p) (r.storedStatus p) r.track (s.heard p r) := by
  unfold pollGood State.heard
  rcases isDriven_cases h with h | h <;> (simp only [h]; rfl)

theorem pollGood_resetting (h : (s.tower p).state = .resetting) :
    pollGood p r s = judgeResetting p (s.tower p).stage (r.storedStatus p) (s.heard p r) := by
  unfold pollGood State.heard
  simp only [h]
  rfl

/-- Of three checks made in order the first that holds decides. -/
theorem first_check_decides {a b c : Prop} [Decidable a] [Decidable b] [Decidable c] {out x y z rest : State}
    (h : out = if a then x else if b then y else if c then z else rest) :
    (a → out = x) ∧ (¬a → b → out = y) ∧ (¬a → ¬b → c → out = z) :=
  ⟨fun ha => by rw [h, if_pos ha], fun ha hb => by rw [h, if_neg ha, if_pos hb],
    fun ha hb hc => by rw [h, if_neg ha, if_neg hb, if_pos hc]⟩

/-- The reply that ends a reset is judged like any other (R66). -/
theorem judgeResetting_quiet {stage : ResetStage} {status : BitVec 5} (h : stage = .acknowledged ∨ stage = .unrequested)
    (quiet : ¬shows status statusInitialising = true) (u : State) : judgeResetting p stage status u =
      if shows status statusDriveFault = true then enterFaulted p .drive u
      else if shows status statusLocalStop = true then enterFaulted p .localStop u
      else setChange p .resetDone (u.modTower p fun t => { t with state := .online, stage := .none, resetTimer := none }) := by
  rcases h with rfl | rfl <;> exact if_neg quiet

/-- Drive fault goes before local stop and that before a restart, whatever the tower's state (R64 to R66). -/
theorem pollGood_judges (h : s.Judges p r) :
    (shows (r.storedStatus p) statusDriveFault = true → pollGood p r s = enterFaulted p .drive (s.heard p r))
    ∧ (¬shows (r.storedStatus p) statusDriveFault = true → shows (r.storedStatus p) statusLocalStop = true →
        pollGood p r s = enterFaulted p .localStop (s.heard p r))
    ∧ (¬shows (r.storedStatus p) statusDriveFault = true → ¬shows (r.storedStatus p) statusLocalStop = true →
        shows (r.storedStatus p) statusInitialising = true → pollGood p r s = enterUnrequested p (s.heard p r)) := by
  rcases h with h | h | h | ⟨h, stage, quiet⟩
  · exact first_check_decides (pollGood_silent h)
  · exact first_check_decides (pollGood_online h)
  · exact first_check_decides (pollGood_driven h)
  · have judged := (pollGood_resetting h).trans (judgeResetting_quiet stage quiet (s.heard p r))
    exact ⟨fun a => by rw [judged, if_pos a], fun a b => by rw [judged, if_neg a, if_pos b], fun _ _ c => absurd c quiet⟩

/-- A clean reply to a SILENT or ONLINE tower leaves it ONLINE (R63, R64). -/
theorem pollGood_clean_undriven (h : (s.tower p).state = .silent ∨ (s.tower p).state = .online)
    (clean : r.Clean p) :
    pollGood p r s = (s.heard p r).modTower p fun t => { t with state := .online } := by
  obtain ⟨fault, stop, quiet⟩ := clean
  have judged : pollGood p r s = judgeUndriven p (r.storedStatus p) (s.heard p r) := by
    rcases h with h | h
    · exact pollGood_silent h
    · exact pollGood_online h
  rw [judged, judgeUndriven, if_neg fault, if_neg stop, if_neg quiet]

/-- A clean reply to a DRIVING or FOLLOWING tower counts a sensor-invalid reply or an unchanged track count, each up to its
limit (R65, R71). -/
theorem pollGood_clean_driven (h : (s.tower p).isDriven = true) (clean : r.Clean p) : pollGood p r s =
    if shows (r.storedStatus p) statusSensorInvalid = true ∧ s.isEnd p = false then
      if s.tune.follow ≤ (s.tower p).follow + 1 then enterFaulted p .sensor (s.heard p r)
      else s.modTower p fun _ => { s.stored p r with state := .following, follow := (s.tower p).follow + 1 }
    else
      if s.tune.stallRounds ≤ stallCount (s.tower p) r.track s.tune.stallThreshold then enterFaulted p .stall (s.heard p r)
      else s.modTower p fun _ => { s.stored p r with
        state := .driving, follow := 0, stall := stallCount (s.tower p) r.track s.tune.stallThreshold } := by
  obtain ⟨fault, stop, quiet⟩ := clean
  have stores : s.heard p r = s.storing p r :=
    heard_of_not_silent (by rcases isDriven_cases h with h | h <;> simp [h])
  have last : (s.storing p r).isEnd p = s.isEnd p := by simp [State.isEnd]
  rw [pollGood_driven h, judgeDriven, if_neg fault, if_neg stop, if_neg quiet, stores]
  simp only [Bool.and_eq_true, Bool.not_eq_true', modTower_tune, last, modTower_modTower]
  rfl

/-- The reply that ends a reset (R66). -/
theorem pollGood_clean_resetting (h : (s.tower p).state = .resetting)
    (stage : (s.tower p).stage = .acknowledged ∨ (s.tower p).stage = .unrequested) (clean : r.Clean p) : pollGood p r s = setChange p .resetDone
      ((s.heard p r).modTower p fun t => { t with state := .online, stage := .none, resetTimer := none }) := by
  obtain ⟨fault, stop, quiet⟩ := clean
  rw [pollGood_resetting h, judgeResetting_quiet stage quiet, if_neg fault, if_neg stop]

/-- A RESETTING tower whose RESET has not gone out, or that still initialises, takes no notice (R66). -/
theorem pollGood_still_resetting (h : (s.tower p).state = .resetting)
    (k : (s.tower p).stage = .requested ∨ shows (r.storedStatus p) statusInitialising = true) :
    pollGood p r s = s.storing p r := by
  have stores : s.heard p r = s.storing p r := heard_of_not_silent (by simp [h])
  rw [pollGood_resetting h, stores]
  cases e : (s.tower p).stage with
  | requested => rfl
  | none => rfl
  | acknowledged => exact if_pos (k.resolve_left (by simp [e]))
  | unrequested => exact if_pos (k.resolve_left (by simp [e]))

theorem pollGood_faulted (h : (s.tower p).state = .faulted) : pollGood p r s = s.storing p r := by
  unfold pollGood
  simp only [h]
  rfl

end

/-- Settles O31: the reply is stored, and then each state's judgement acts on the record as stored. -/
theorem goodPollReplyIsJudgedByTowerState : Obligations.GoodPollReplyIsJudgedByTowerState := by
  intro p reply r s h1 h2 e t w sees clean invalid stalls fault reset
  have hp : 1 ≤ p ∧ p ≤ Config.positions := ⟨h1, h2⟩
  have ht : t = pollGood p r s := pollOutcome_good e p s
  have heard := heard_becomes (s := s) (r := r) hp
  refine ⟨fun hs hc => ?_, fun hs hc => ?_, fun flags rest hf => ?_, fun moving towers lawful hj => ?_, fun hd hc => ?_,
    fun hs => ⟨fun hk => ?_, fun stage hc => ?_, fun stage quiet rest => ?_⟩, fun hs => ?_⟩
  · rw [if_pos hs] at heard
    rw [ht, pollGood_clean_undriven (.inl hs) hc]
    exact heard.modTower hp _
  · have same : { s.stored p r with state := .online } = s.stored p r := by rw [← hs]
    rw [ht, pollGood_clean_undriven (.inr hs) hc, heard_of_not_silent (by simp [hs]), modTower_modTower, same]
  · have judges : s.Judges p r := by
      rcases hf with ⟨hs, -⟩ | ⟨hs, -⟩
      · exact .inl hs
      · exact .inr (.inl hs)
    have still : (s.stored p r).isDriven = false := by
      rcases hf with ⟨hs, -⟩ | ⟨hs, -⟩ <;> simp [Tower.isDriven, hs]
    have hears : (s.heard p r).TowerBecomes s p { s.stored p r with changes := (s.stored p r).changes ||| flags } := by
      rcases hf with ⟨hs, hf⟩ | ⟨hs, hf⟩
      · rwa [if_pos hs, ← hf] at heard
      · rwa [if_neg (by simp [hs]), ← hf] at heard
    obtain ⟨drive, stop, restart⟩ := pollGood_judges judges
    refine ⟨fun a => ?_, fun a b => ?_, fun a b c => ?_⟩
    · rw [ht, drive a]
      simpa only [fault, BitVec.or_assoc] using enterFaulted_becomes hp hears rest still .drive
    · rw [ht, stop a b]
      simpa only [fault, BitVec.or_assoc] using enterFaulted_becomes hp hears rest still .localStop
    · rw [ht, restart a b c]
      simpa only [reset, BitVec.or_assoc] using enterUnrequested_becomes hp hears rest still
  · obtain ⟨drive, stop, restart⟩ := pollGood_judges hj
    have lawfulRecord := stored_lawful towers p r (if (s.tower p).state = .silent then 0x01 else 0)
    refine ⟨fun a => ?_, fun a b => ?_, fun a b c => ?_⟩
    · rw [ht, drive a]
      exact enterFaulted_trips hp heard moving towers lawful lawfulRecord .drive
    · rw [ht, stop a b]
      exact enterFaulted_trips hp heard moving towers lawful lawfulRecord .localStop
    · rw [ht, restart a b c]
      exact enterUnrequested_trips hp heard moving towers lawful lawfulRecord
  · have counts : stallCount (s.tower p) r.track s.tune.stallThreshold = stalls := rfl
    have judged := pollGood_clean_driven hd hc
    rw [counts] at judged
    have faults : s.TowersLawful → s.sup.Lawful → ∀ reason, (enterFaulted p reason (s.heard p r)).TrippedBy s reason.cause
        (some p) ∧ ((enterFaulted p reason (s.heard p r)).tower p).state = .faulted
        ∧ ((enterFaulted p reason (s.heard p r)).tower p).reason = reason := fun towers lawful =>
      enterFaulted_trips hp heard ((towers.all p).1 hd) towers lawful (stored_lawful towers p r _)
    refine ⟨fun inv below => ?_, fun inv limit towers lawful => ?_, fun valid below => ?_, fun valid limit towers lawful => ?_⟩
    · rw [ht, judged, if_pos inv, if_neg (by omega)]
    · rw [ht, judged, if_pos inv, if_pos limit]
      exact faults towers lawful .sensor
    · rw [ht, judged, if_neg valid, if_neg (by omega)]
    · rw [ht, judged, if_neg valid, if_pos limit]
      exact faults towers lawful .stall
  · exact ht.trans (pollGood_still_resetting hs hk)
  · rw [ht, pollGood_clean_resetting hs stage hc, heard_of_not_silent (by simp [hs])]
    exact ((State.TowerBecomes.refl s p).modTower hp _).change hp _ .resetDone rfl
  · obtain ⟨drive, stop, -⟩ := pollGood_judges (r := r) (.inr (.inr (.inr ⟨hs, stage, quiet⟩)))
    have stored : (s.heard p r).TowerBecomes s p (s.stored p r) := by
      rw [heard_of_not_silent (by simp [hs])]
      exact (State.TowerBecomes.refl s p).modTower hp _
    have still : (s.stored p r).isDriven = false := by simp [Tower.isDriven, hs]
    refine ⟨fun a => ?_, fun a b => ?_⟩
    · rw [ht, drive a]
      exact enterFaulted_becomes hp stored rest still .drive
    · rw [ht, stop a b]
      exact enterFaulted_becomes hp stored rest still .localStop
  · exact ht.trans (pollGood_faulted hs)

/-! ### Limits (O32) -/

theorem missReaches_driven {s : State} {p : Nat} (d : (s.tower p).isDriven = true)
    (h : s.link.settings.missLimit ≤ (s.tower p).miss + 1) : missReaches s p = true := by
  simp [missReaches, d, h]

theorem missReaches_online {s : State} {p : Nat} (d : (s.tower p).state = .online)
    (h : s.link.settings.missLimit ≤ (s.tower p).miss + 1) : missReaches s p = true := by
  simp [missReaches, d, h]

theorem exec_missLimitReached {s : State} {p : Nat} (h : missReaches s p = true) :
    exec (.missLimitReached p) s = .next (missLimit p s) := congrArg Host.Outcome.next (if_pos h)

/-- A driven tower that faults trips the machine with the reason's cause and stops (R63, R69, R70, R72). -/
theorem enterFaulted_driven_trips {s : State} {p : Nat} (ht : s.TowersLawful) (hs : s.sup.Lawful)
    (hd : (s.tower p).isDriven = true) (reason : FaultReason) :
    let t := enterFaulted p reason s
    (t.tower p).state = .faulted ∧ (t.tower p).reason = reason ∧ (t.tower p).target = 0
      ∧ (t.tower p).hasChange .fault = true ∧ t.TrippedBy s reason.cause (some p) := by
  obtain ⟨trips, state, -, why, target, change⟩ := limit_trips p (fun t => t.faulted reason) .fault reason.cause ht hs hd rfl
    (Tower.leaveTo_still (ht.all p) .faulted)
  exact ⟨state, why, target, change, trips⟩

/-- Settles O32: a driven tower's limit is the trip of leaving the driven states, and of a standing machine one record changes. -/
theorem towerAtALimitFallsOut : Obligations.TowerAtALimitFallsOut := by
  refine ⟨fun p s ht hs hd => ⟨fun miss => ?_, fun last follow => ?_, fun applied stall => ?_⟩,
    fun p s h1 h2 rest => ⟨fun n timer still => ?_, fun online miss => ?_⟩⟩
  · obtain ⟨trips, state, count, -, target, change⟩ := limit_trips p
      (fun t => { t.leaveTo .silent with miss := s.link.settings.missLimit }) .presence .linkLoss ht hs hd rfl
      (Tower.leaveTo_still (ht.all p) .silent)
    exact ⟨_, exec_missLimitReached (missReaches_driven hd miss), state, count, target, change, trips⟩
  · exact ⟨_, congrArg Host.Outcome.next (if_pos ⟨hd, last, follow⟩), enterFaulted_driven_trips ht hs hd .sensor⟩
  · exact ⟨_, congrArg Host.Outcome.next (if_pos ⟨hd, applied, stall⟩), enterFaulted_driven_trips ht hs hd .stall⟩
  · exact ⟨_, congrArg Host.Outcome.next (if_pos (by simp [timer])),
      enterFaulted_becomes ⟨h1, h2⟩ (State.TowerBecomes.refl s p) rest still .resetTimeout⟩
  · exact ⟨_, exec_missLimitReached (missReaches_online online miss),
      missLimit_becomes ⟨h1, h2⟩ rest (by simp [Tower.isDriven, online])⟩

end Sys2Proof.Machine

/-! PROOFS. The end of an exchange: a failed one (O44, R67, R76, R91, R92, R158, R163) and a good one (O46, R76, R88, R94,
R158). -/

namespace Sys2Proof.Machine

/-! ### The rows that end an exchange (R91, R92) -/

section
variable {s : State} {x y : Exchange} {w : Owner}

/-- The row NO_REPLY ends the exchange where its reply window closes. -/
theorem exec_noReply (h : s.link.exchange = some x) (k : x.step = .awaiting) (o : x.owner = w)
    (hy : (timePasses (w.requestLength + 8 - x.used) s).link.exchange = some y) (ky : y.step = x.step) :
    exec .noReply s = .next (endExchange y .noReply (timePasses (w.requestLength + 8 - x.used) s)) := by
  subst o
  exact congrArg Host.Outcome.next (atMoment_at (exchangeAt_of h k) (exchangeAt_of hy (ky.trans k)))

/-- The row RESERVATION_USED_UP ends the exchange where its reservation does. -/
theorem exec_reservationUsedUp (h : s.link.exchange = some x) (k : x.step = .receiving) (o : x.owner = w)
    (hy : (timePasses (w.reserve - x.used) s).link.exchange = some y) (ky : y.step = x.step) :
    exec .reservationUsedUp s = .next (endExchange y .check (timePasses (w.reserve - x.used) s)) := by
  subst o
  have ends := atMoment_at (m := Exchange.reserveEnd) (act := reservationEnds) (exchangeAt_of h k)
    (exchangeAt_of hy (ky.trans k))
  simp only [exec, execReservationUsedUp, exchangeAt_of h k]
  exact congrArg Host.Outcome.next ends

/-- The row REPLY_COMPLETE ends the exchange where its reply is whole. -/
theorem exec_replyComplete {reply : List Byte} (h : s.link.exchange = some x) (k : x.step = .receiving) (o : x.owner = w)
    (len : reply.length = w.replyLength)
    (hy : (timePasses (x.replyAt + w.replyLength - x.used) s).link.exchange = some y) (ky : y.step = x.step) :
    let t := timePasses (x.replyAt + w.replyLength - x.used) s
    exec (.replyComplete reply) s = .next (endExchange y (judgeReply y t.link.round reply) t) := by
  subst o
  have ends := atMoment_at (m := Exchange.replyEnd) (act := replyArrives reply) (exchangeAt_of h k)
    (exchangeAt_of hy (ky.trans k))
  simp only [exec, execReplyComplete, exchangeAt_of h k, len, if_true]
  exact congrArg Host.Outcome.next ends

theorem replyBreaksOff_eq (h : s.link.exchange = some x) (k : x.step = .receiving) :
    replyBreaksOff s = endExchange x .check s := by
  simp only [replyBreaksOff, exchangeAt_of h k]

theorem exec_replyGapTimeout (h : s.link.exchange = some x) (k : x.step = .receiving) :
    exec .replyGapTimeout s = .next (endExchange x .check s) := by
  simp only [exec, execReplyGapTimeout, exchangeAt_of h k, replyBreaksOff_eq h k]

theorem exec_replyFramingError (h : s.link.exchange = some x) (k : x.step = .receiving) :
    exec .replyFramingError s = .next (endExchange x .check s) :=
  congrArg Host.Outcome.next (replyBreaksOff_eq h k)

end

/-! ### The line free again, and the poll phase complete with the last poll (R88, R94) -/

/-- `t` with the exchange off the line. -/
abbrev State.lineEnded (t : State) : State := { t with link := { t.link with exchange := none } }

/-- `u` with the poll phase complete if its last poll has begun. -/
abbrev State.pollSettled (u : State) : State :=
  if u.link.running = true ∧ u.link.phase = .poll ∧ u.link.nextPos = none then pollComplete u else u

/-- The outcomes of a poll that are misses (R91 to R93). -/
abbrev LineOutcome.IsMiss (o : LineOutcome) : Prop := o ∈ [LineOutcome.noReply, .check, .late, .wrongAddress]

section
variable {t : State} {y : Exchange} {o : LineOutcome} {p n : Nat} {r : Request}

theorem deliver_poll (owner : y.owner = .poll p) (kept : y.discard = false) (s : State) :
    deliver y o s = pollOutcome p o s := by
  simp [deliver, owner, kept]

theorem deliver_reset (owner : y.owner = .reset p) (kept : y.discard = false) (s : State) :
    deliver y o s = resetOutcome p o s := by
  simp [deliver, owner, kept]

theorem deliver_service (owner : y.owner = .service n) (kept : y.discard = false) (s : State) :
    deliver y o s = serviceOutcome n o s := by
  simp [deliver, owner, kept]

theorem endExchange_poll (owner : y.owner = .poll p) (kept : y.discard = false) :
    endExchange y o t = (pollOutcome p o t.lineEnded).pollSettled := by
  rw [endExchange_eq, deliver_poll owner kept]

theorem pollOutcome_miss (miss : o.IsMiss) (s : State) : pollOutcome p o s = pollMissed p s := by
  simp only [LineOutcome.IsMiss, List.mem_cons, List.not_mem_nil, or_false] at miss
  rcases miss with rfl | rfl | rfl | rfl <;> rfl

/-- What the outcome of a SERVICE exchange makes of its SENT slot (R158). -/
theorem serviceOutcome_sent {s : State} {st : SlotState} {c : ResultCode} {v : Option Nat} (h : s.svc.slot n = some r)
    (k : r.state = .sent) (e : serviceEnd o = (st, c, v)) : serviceOutcome n o s = raise .serviceDone
      { s with svc := s.svc.setSlot n (some { r with state := st, code := c, result := v }) } := by
  unfold serviceOutcome
  simp only [h, k, e]

/-- A SERVICE exchange outside the poll phase ends in its SENT slot. -/
theorem endExchange_sent {st : SlotState} {c : ResultCode} {v : Option Nat} (owner : y.owner = .service n)
    (kept : y.discard = false) (goes : t.link.phase ≠ .poll ∨ t.link.nextPos ≠ none) (slot : t.svc.slot n = some r)
    (sent : r.state = .sent) (e : serviceEnd o = (st, c, v)) : endExchange y o t = raise .serviceDone
      { t.lineEnded with svc := t.svc.setSlot n (some { r with state := st, code := c, result := v }) } :=
  endExchange_delivers ((deliver_service owner kept _).trans (serviceOutcome_sent slot sent e)) goes

/-- A CANCELLING slot is freed, whatever the outcome (R163). -/
theorem endExchange_cancelling (owner : y.owner = .service n) (kept : y.discard = false)
    (goes : t.link.phase ≠ .poll ∨ t.link.nextPos ≠ none) (slot : t.svc.slot n = some r) (cancelling : r.state = .cancelling) :
    endExchange y o t = { t.lineEnded with svc := t.svc.setSlot n none } :=
  endExchange_delivers ((deliver_service owner kept _).trans (serviceOutcome_cancelling o slot cancelling)) goes

/-- A failed RESET exchange leaves its tower as it was (R76). -/
theorem deliver_reset_failed (owner : y.owner = .reset p) (fails : ∀ b, o ≠ .good b) (s : State) : deliver y o s = s := by
  unfold deliver
  rw [owner]
  cases o with
  | good b => exact absurd rfl (fails b)
  | noReply | check | late | wrongAddress | abandoned | skipped => exact ite_self _

theorem endExchange_reset_failed (owner : y.owner = .reset p) (fails : ∀ b, o ≠ .good b)
    (goes : t.link.phase ≠ .poll ∨ t.link.nextPos ≠ none) : endExchange y o t = t.lineEnded :=
  endExchange_delivers (deliver_reset_failed owner fails _) goes

end

/-! ### A miss (R67) -/

section
variable {u : State} {p : Nat}

/-- Two changes of a record that agree on it are one. -/
theorem modTower_congr {f g : Tower → Tower} (h : f (u.tower p) = g (u.tower p)) : u.modTower p f = u.modTower p g :=
  congrArg (u.setTower p) h

/-- Below the limit a miss is counted, and a DRIVING tower becomes FOLLOWING. -/
theorem pollMissed_counts {st : TowerState} (h : (u.tower p).state = st) (k : st ∈ [TowerState.online, .driving, .following])
    (below : (u.tower p).miss + 1 < u.link.settings.missLimit) : pollMissed p u = u.modTower p fun w =>
      { w with state := if st = .driving then .following else st, miss := (u.tower p).miss + 1 } := by
  subst h
  rw [pollMissed_below (by simp [missReaches, below]) (List.mem_cons_of_mem _ k)]
  exact modTower_congr (by rw [min_eq_right below.le])

/-- A miss that reaches the limit in ONLINE, DRIVING or FOLLOWING is the event MISS_LIMIT_REACHED. -/
theorem pollMissed_limit (limit : u.link.settings.missLimit ≤ (u.tower p).miss + 1)
    (h : (u.tower p).state ∈ [TowerState.online, .driving, .following]) :
    exec (.missLimitReached p) u = .next (pollMissed p u) := by
  have reaches : missReaches u p = true := by
    simp only [List.mem_cons, List.not_mem_nil, or_false] at h
    rcases h with h | h | h
    · exact missReaches_online h limit
    · exact missReaches_driven (by simp [Tower.isDriven, h]) limit
    · exact missReaches_driven (by simp [Tower.isDriven, h]) limit
  rw [exec_missLimitReached reaches, pollMissed, if_pos reaches]

/-- The count of a SILENT tower climbs to the limit and rests there. -/
theorem pollMissed_silent (h : (u.tower p).state = .silent) : pollMissed p u = u.modTower p fun w =>
    { w with state := .silent, miss := min u.link.settings.missLimit ((u.tower p).miss + 1) } := by
  rw [pollMissed_below (by simp [missReaches, Tower.isDriven, h]) (by simp [h])]
  exact modTower_congr (by simp [h])

/-- A RESETTING or FAULTED tower takes no notice of a miss, nor does a VACANT one. -/
theorem pollMissed_ignored (h : (u.tower p).state ∈ [TowerState.resetting, .faulted, .vacant]) : pollMissed p u = u := by
  simp only [List.mem_cons, List.not_mem_nil, or_false] at h
  rcases h with h | h | h <;> simp [pollMissed, missReaches, Tower.isDriven, h]

end

/-- Settles O44: each row ends the exchange at its moment, and the outcome reaches its owner. -/
theorem failedExchangeReachesItsOwner : Obligations.FailedExchangeReachesItsOwner := by
  refine ⟨?service, ?reset, ?poll⟩
  case service =>
    intro x y n r s line owner kept failed freed sent cancelled
    have fails : ∀ {t : State} {o : LineOutcome} {c : ResultCode}, sent t → serviceEnd o = (.failed, c, none) →
        endExchange y o t = failed t c := fun ⟨_, _, phase, slot, state⟩ e =>
      endExchange_sent owner kept (.inl (by simp [phase])) slot state e
    have frees : ∀ {t : State} {o : LineOutcome}, cancelled t → endExchange y o t = freed t :=
      fun ⟨_, _, phase, slot, state⟩ => endExchange_cancelling owner kept (.inl (by simp [phase])) slot state
    refine ⟨fun k o h => ?_, fun k o h => ?_, fun k h => ?_, fun k h => ?_, fun k h => ?_, fun k h => ?_, fun k o h => ?_,
      fun k o h => ?_, fun reply k o len => ⟨fun h judged => ?_, fun h => ?_⟩⟩
    all_goals obtain ⟨hy, ky, -⟩ := id h
    · exact (exec_noReply line k o hy ky).trans (congrArg _ (fails h rfl))
    · exact (exec_noReply line k o hy ky).trans (congrArg _ (frees h))
    · exact (exec_replyGapTimeout hy (ky.trans k)).trans (congrArg _ (fails h rfl))
    · exact (exec_replyGapTimeout hy (ky.trans k)).trans (congrArg _ (frees h))
    · exact (exec_replyFramingError hy (ky.trans k)).trans (congrArg _ (fails h rfl))
    · exact (exec_replyFramingError hy (ky.trans k)).trans (congrArg _ (frees h))
    · exact (exec_reservationUsedUp line k o hy ky).trans (congrArg _ (fails h rfl))
    · exact (exec_reservationUsedUp line k o hy ky).trans (congrArg _ (frees h))
    · refine (exec_replyComplete line k o len hy ky).trans (congrArg _ (fails h ?_))
      rcases judged with e | e <;> exact congrArg serviceEnd e
    · exact (exec_replyComplete line k o len hy ky).trans (congrArg _ (frees h))
  case reset =>
    intro x y p s line o owner ended held
    have leaves : ∀ {t : State} {o : LineOutcome}, held t → (∀ b, o ≠ .good b) → endExchange y o t = ended t :=
      fun ⟨_, _, goes⟩ fails => endExchange_reset_failed owner fails goes
    refine ⟨fun k h => ?_, fun k h => ⟨?_, ?_⟩, fun k h => ?_, fun reply k len h fails => ?_⟩
    all_goals obtain ⟨hy, ky, -⟩ := id h
    · exact (exec_noReply line k o hy ky).trans (congrArg _ (leaves h (by simp)))
    · exact (exec_replyGapTimeout hy (ky.trans k)).trans (congrArg _ (leaves h (by simp)))
    · exact (exec_replyFramingError hy (ky.trans k)).trans (congrArg _ (leaves h (by simp)))
    · exact (exec_reservationUsedUp line k o hy ky).trans (congrArg _ (leaves h (by simp)))
    · exact (exec_replyComplete line k o len hy ky).trans (congrArg _ (leaves h fails))
  case poll =>
    intro x y p s line o owner kept ended settled missed
    have misses : ∀ {t : State} {o : LineOutcome} {out : Host.Outcome State Fault Refusal}, o.IsMiss →
        (t.link.exchange = some y → y.step = x.step → out = .next (endExchange y o t)) → missed t out := by
      intro t o out miss row hy ky counted
      have settles : ∀ {u : State}, pollMissed p (ended t) = u → out = settled u := by
        rintro _ rfl
        rw [row hy ky, endExchange_poll owner kept, pollOutcome_miss miss]
      refine ⟨fun below => ⟨fun h => ?_, fun h => ?_, fun h => ?_⟩, fun limit h => ?_, fun h => ?_, fun h => ?_⟩
      · exact settles (pollMissed_counts (u := ended t) h (by simp) below)
      · exact settles (pollMissed_counts (u := ended t) h (by simp) below)
      · exact settles (pollMissed_counts (u := ended t) h (by simp) below)
      · exact ⟨_, pollMissed_limit (u := ended t) limit h, settles rfl⟩
      · exact settles (pollMissed_silent (u := ended t) h)
      · exact settles (pollMissed_ignored (u := ended t) h)
    refine ⟨fun k => ?_, fun k => ⟨?_, ?_, ?_⟩, fun reply k len judged => ?_⟩
    · exact misses (o := .noReply) (by simp) (exec_noReply line k o)
    · exact misses (o := .check) (by simp) fun hy ky => exec_replyGapTimeout hy (ky.trans k)
    · exact misses (o := .check) (by simp) fun hy ky => exec_replyFramingError hy (ky.trans k)
    · exact misses (o := .check) (by simp) (exec_reservationUsedUp line k o)
    · exact misses (List.mem_cons_of_mem _ judged) (exec_replyComplete line k o len)

/-! ### A good reply (O46) -/

section
variable {reply : List Byte} {c h l : Byte}

/-- What a good SERVICE reply makes of its slot: DONE with the reply's value, or the drive unit's refusal (R158). -/
theorem serviceEnd_good (hc : reply[2]? = some c) (hh : reply[3]? = some h) (hl : reply[4]? = some l) :
    serviceEnd (.good reply) =
      if c = 0 then (.done, .ok, some (wordOf h l)) else (.failed, .unitRefused, some c.toNat) := by
  match reply, hc, hh, hl with
  | _ :: _ :: _ :: _ :: _ :: _, hc, hh, hl =>
    simp only [List.getElem?_cons_succ, List.getElem?_cons_zero, Option.some.injEq] at hc hh hl
    subst hc hh hl
    rfl

end

/-- The acknowledgement of a RESET that was requested (R76). -/
theorem resetOutcome_good {reply : List Byte} {p : Nat} {s : State} (h : (s.tower p).state = .resetting)
    (k : (s.tower p).stage = .requested) : resetOutcome p (.good reply) s =
      s.modTower p fun t => { t with stage := .acknowledged, resetPending := false } := if_pos ⟨h, k⟩

/-- A good reply to a poll that is not the last of its round is the roster's alone. -/
theorem endExchange_poll_alone {t : State} {y : Exchange} {o : LineOutcome} {p : Nat} (owner : y.owner = .poll p)
    (kept : y.discard = false) (goes : t.link.phase ≠ .poll ∨ t.link.nextPos ≠ none) :
    endExchange y o t = pollOutcome p o t.lineEnded := by
  obtain ⟨-, -, -, phase, next, -⟩ := Link.place_eq (pollOutcome_place p o t.lineEnded)
  exact endExchange_delivers (deliver_poll owner kept _) (by rw [phase, next]; exact goes)

/-- Settles O46: the reply's end delivers the outcome, and the poll phase completes block by block. -/
theorem goodReplyReachesItsOwner : Obligations.GoodReplyReachesItsOwner := by
  refine ⟨fun x y reply s line k len => ?_, fun s => ⟨?_, rfl, fun no => ?_, fun waits => ?_, fun p h1 h2 => ?_⟩⟩
  · intro t hy ky kept freed
    have row := exec_replyComplete line k rfl len hy (ky.trans k.symm)
    refine ⟨fun p owner _ _ _ => ?_, fun goes good => ?_⟩
    · exact row.trans (congrArg _ (endExchange_poll owner kept))
    · dsimp only at row
      rw [good] at row
      refine ⟨fun p owner => ?_, fun p owner state stage => ?_, fun n r h l owner slot sent hc hh hl => ?_,
        fun n r c h l owner slot sent hc ne hh hl => ?_⟩
      · exact row.trans (congrArg _ (endExchange_poll_alone owner kept goes))
      · refine row.trans (congrArg _ (endExchange_delivers ?_ (by simpa using goes)))
        exact (deliver_reset owner kept _).trans (resetOutcome_good state stage)
      · exact row.trans (congrArg _ (endExchange_sent owner kept goes slot sent
          ((serviceEnd_good hc hh hl).trans (if_pos rfl))))
      · exact row.trans (congrArg _ (endExchange_sent owner kept goes slot sent
          ((serviceEnd_good hc hh hl).trans (if_neg ne))))
  · obtain ⟨-, -, -, phase, -⟩ := Link.place_eq (pollComplete_place s)
    exact phase
  · exact if_neg (by simp [no])
  · exact if_pos waits
  · unfold rosterCompletes
    rw [tower_mapTowers, if_pos ⟨h1, h2⟩]

end Sys2Proof.Machine

/-! PROOFS. The commands of the roster and of the configuration (O30, O37), JOG (O53) and ONLINE (O48). -/

namespace Sys2Proof.Machine

/-! ### TOWER_SET, TOWER_TRIM, TOWER_ACK and TOWER_RESET (R56, R59, R73, R75) -/

theorem exec_towerSet {payload : List Byte} {c : TowerSetting} {s : State} (k : s.takes 0x30 payload)
    (e : decodeTowerSet payload = some c) : exec (.towerSet payload) s = .next (answered 0x30 (towerSet c s)) :=
  next_decoded k e

theorem exec_towerTrim {payload : List Byte} {c : Nat × Int} {s : State} (k : s.takes 0x31 payload)
    (e : decodeTrim payload = some c) : exec (.towerTrim payload) s = .next (answered 0x31 (towerTrim c s)) :=
  next_decoded k e

theorem exec_towerAck {payload : List Byte} {c : Nat × BitVec 5} {s : State} (k : s.takes 0x33 payload)
    (e : decodeTowerAck payload = some c) : exec (.towerAck payload) s = .next (answered 0x33 (towerAck c s)) :=
  next_decoded k e

theorem exec_towerReset {b : Byte} {s : State} (k : s.takes 0x34 [b]) :
    exec (.towerReset [b]) s = .next (answered 0x34 (towerReset b.toNat s)) :=
  next_decoded (d := decodeByte) k rfl

/-- In SETUP a TOWER_SET of a position of the roster clears its geometry, or checks and writes it (R56). -/
theorem towerSet_inSetup {c : TowerSetting} {s : State} (hm : s.sup.machine = .setup) (h1 : 1 ≤ c.position)
    (h2 : c.position ≤ 21) :
    (c.geometry = none → towerSet c s = (s.modTower c.position fun t => { t with geometry := none }, .ok))
    ∧ (∀ g, c.geometry = some g → g.valid c.position = true → towerSet c s =
        if addressTaken s c.position g.address then (s, .refuse .exists)
        else (s.modTower c.position fun t => { t with geometry := some g }, .ok)) := by
  have inside : ¬(c.position < 1 ∨ Config.positions < c.position) := by simp only [Config.positions]; omega
  unfold towerSet
  rw [if_neg (by simp [hm]), if_neg inside]
  exact ⟨fun hg => by rw [hg], fun g hg hv => by rw [hg]; exact if_pos hv⟩

/-- Settles O30: each handler's checks pass or fail as stated, and then one record changes. -/
theorem towerCommandsChangeOneTower : Obligations.TowerCommandsChangeOneTower := by
  refine ⟨fun payload c s k e => ?_, fun payload p v g s k e h1 h2 lo hi hg => ?_, fun payload p set s k e h1 h2 hs => ?_,
    fun b s k => ?_⟩
  · rw [exec_towerSet k e]
    refine ⟨fun hm => ?_, fun hm h1 h2 hg => ?_, fun g hm h1 h2 hg hv => ?_⟩
    · rw [towerSet, if_pos hm, answered_mk]
    · rw [(towerSet_inSetup hm h1 h2).1 hg, answered_mk]
    · rw [(towerSet_inSetup hm h1 h2).2 g hg hv]
      simp only [answered_ite, answered_mk]
  · have inside : ¬(p < 1 ∨ Config.positions < p ∨ v < -300 ∨ 300 < v) := by simp only [Config.positions]; omega
    rw [exec_towerTrim k e, towerTrim, if_neg inside]
    simp only [hg, answered_mk]
  · have inside : ¬(p < 1 ∨ Config.positions < p ∨ set = 0) := by
      rintro (low | high | none)
      · omega
      · exact absurd h2 (Nat.not_le.mpr high)
      · exact hs none
    rw [exec_towerAck k e, towerAck, if_neg inside, answered_mk]
  · rw [exec_towerReset k]
    simp only [towerReset, answered_ite, answered_mk]
    rfl

/-! ### LINK_SETUP (R55, R101) -/

theorem exec_linkSetup {payload : List Byte} {l : LinkSettings} {s : State} (k : s.takes 0x40 payload)
    (e : decodeLink payload = some l) : exec (.linkSetup payload) s = .next (answered 0x40 (linkSetup l s)) :=
  next_decoded k e

theorem reconfigure_tower (old new : LinkSettings) (s : State) {p : Nat} (h1 : 1 ≤ p) (h2 : p ≤ 21) :
    (reconfigure old new s).tower p =
      if old.isConfigured p = new.isConfigured p then s.tower p else clearedTower new p (s.tower p) := by
  unfold reconfigure
  rw [tower_mapTowers, if_pos ⟨h1, h2⟩]

/-- Settles O37: the settings are replaced whole, and then each position by whether it was and is configured. -/
theorem linkSetupReconfigures : Obligations.LinkSetupReconfigures := by
  intro payload l s k e
  rw [exec_linkSetup k e]
  refine ⟨fun hm => ?_, fun hm out => ?_, fun hm ok => ?_⟩
  · rw [linkSetup, if_pos hm, answered_mk]
  · rw [linkSetup, if_neg (by simp [hm]), if_neg (by simp [out]), answered_mk]
  · rw [linkSetup, if_neg (by simp [hm]), if_pos ok]
    have towers := fun p h1 h2 =>
      reconfigure_tower s.link.settings l { s with link := s.link.withSettings l } (p := p) h1 h2
    refine ⟨_, rfl, rfl, fun p h1 h2 same => ?_, fun p h1 h2 differ => ?_, rfl, rfl, rfl, rfl, rfl, rfl, rfl, rfl⟩
    · exact (towers p h1 h2).trans (if_pos same)
    · exact (towers p h1 h2).trans (if_neg differ)

/-! ### JOG (R143, R144) -/

theorem exec_jog {payload : List Byte} {j : Jog} {s : State} (k : s.takes 0x57 payload)
    (e : decodeJog payload = some j) : exec (.jog payload) s = .next (answered 0x57 (jog j s)) := next_decoded k e

/-- From STANDBY a jog starts with the permit up and its context set, in one tower (R69, R143). -/
theorem acceptJog_eq (j : Jog) {s : State} (hm : s.sup.machine = .standby) : acceptJog j s =
    (raise .machineState { s with sup := { s.sup with machine := .jogging, permit := true, jog := some j } }).modTower
      j.position Tower.drive := by
  unfold acceptJog
  rw [changeState_motion rfl]
  simp [Supervisor.moveTo, Supervisor.depart, permitAfter, hm, MachineState.isMotion, raise]

/-- A JOG that passes the checks of R143 is accepted. -/
theorem jog_accepted {j : Jog} {s : State} (conf : s.isConfigured j.position = true) (speed : 1 ≤ j.speed.val)
    (least : 1 ≤ j.roundsLeft) (most : j.roundsLeft ≤ 120) (hm : s.sup.machine = .standby)
    (loop : s.sup.loopClosed = true) (online : (s.tower j.position).state = .online) :
    jog j s = (acceptJog j s, .ok) := by
  simp [jog, Jog.inRange, conf, speed, least, most, hm, loop, online]

/-- The last round of a jog moves the machine to STOPPING with the context kept (R144). -/
theorem countJogRound_last {j : Jog} {s : State} (hm : s.sup.machine = .jogging) (last : j.roundsLeft ≤ 1) :
    countJogRound j s = raise .machineState
      { s with sup := { s.sup with machine := .stopping, jog := some { j with roundsLeft := j.roundsLeft - 1 } } } := by
  unfold countJogRound
  dsimp only
  rw [if_pos last, changeState_motion rfl]
  simp [Supervisor.moveTo, Supervisor.depart, permitAfter, hm, MachineState.isMotion]

theorem exec_jogRoundsExpired {j : Jog} {s : State} (hm : s.sup.machine = .jogging) (hj : s.sup.jog = some j)
    (last : j.roundsLeft ≤ 1) : exec .jogRoundsExpired s = .next (countJogRound j s) := by
  simp only [exec, execJogRoundsExpired, hm, hj, if_pos last]

/-- A speed above 300 is no operand of a jog (R143). -/
theorem decodeJog_too_fast {v1 v0 : Byte} (h : 300 < wordOf v1 v0) (p d n m : Byte) :
    decodeJog [p, d, v1, v0, n, m] = none := by
  have speed : jogSpeed (wordOf v1 v0) = none := dif_neg (by omega)
  simp [decodeJog, speed]

/-- A JOG whose payload is refused (R169). -/
theorem exec_jog_refused {payload : List Byte} {s : State} (k : s.takes 0x57 payload) (e : decodeJog payload = none) :
    exec (.jog payload) s = .next (s.answer 0x57 (.refuse .badValue)) := by
  show Host.Outcome.next (carryOut 0x57 jogHandler payload s) = _
  rw [next_carryOut _ k, jogHandler, decodedHandler_none e]

/-- Settles O53: JOG from STANDBY, its last round, and a speed that its payload cannot hold. -/
theorem jogDrivesOneTowerForItsRounds : Obligations.JogDrivesOneTowerForItsRounds := by
  refine ⟨fun payload j s k e conf h1 h2 speed least most hm loop online => ?_, fun j s hm hj last => ?_,
    fun p d v1 v0 n m s k fast => exec_jog_refused k (decodeJog_too_fast fast p d n m)⟩
  · rw [exec_jog k e, jog_accepted conf speed least most hm loop online, answered_mk, acceptJog_eq j hm]
    refine ⟨_, rfl, by simp, ?_, fun q hq => ?_, by simp, by simp, by simp, by simp, by simp, by simp, by simp, by simp⟩
    · rw [respond_tower, tower_modTower, if_pos ⟨rfl, h1, h2⟩]
      rfl
    · rw [respond_tower, tower_modTower, if_neg (by simp [hq])]
      rfl
  · rw [exec_jogRoundsExpired hm hj last, countJogRound_last hm last]

/-! ### ONLINE (R80, R130) -/

theorem exec_online {s : State} (k : s.takes 0x50 []) : exec (.online []) s = .next (answered 0x50 (online s)) :=
  next_plain k

/-- STANDBY with rounds running, as the first round start finds it (R80). -/
abbrev State.onlined (s : State) : State :=
  { changeState .standby s with link := { (changeState .standby s).link with running := true } }

theorem goOnline_eq (s : State) : goOnline s = startRound s.onlined := rfl

/-- A machine that leaves SETUP stands before and after: the permit stays as it was (R127). -/
theorem leaveSetup_permit {s : State} (hm : s.sup.machine = .setup) :
    (changeState .standby s).sup.permit = s.sup.permit := by
  have moves : (s.sup.moveTo .standby).permit = s.sup.permit := by
    simp [Supervisor.moveTo, Supervisor.depart, permitAfter, hm, MachineState.isMotion]
  rcases changeState_sup .standby s with e | e <;> rw [e] <;> exact moves

theorem goOnline_link (s : State) : (goOnline s).link = { s.link with running := true }.startRound := by
  rw [goOnline_eq, startRound_link]
  simp only [changeState_link]

/-- The first round start makes every configured reading STALE (R61), and a tower that is not driven stays as it is (R69). -/
theorem goOnline_tower {s : State} {p : Nat} (still : (s.tower p).isDriven = false) : (goOnline s).tower p =
    { s.tower p with fresh := if s.isConfigured p then false else (s.tower p).fresh } := by
  have same : s.onlined.tower p = s.tower p := (toStandby_tower s p).trans (if_neg (by simp [still]))
  have conf : s.onlined.isConfigured p = s.isConfigured p := by simp [State.isConfigured]
  rw [goOnline_eq, startRound_tower, same, conf]
  by_cases hp : 1 ≤ p ∧ p ≤ Config.positions
  · rw [if_pos hp]
    split <;> rfl
  · rw [if_neg hp, tower_outside hp]
    split <;> rfl

theorem goOnline_flag (s : State) : (goOnline s).ev.isSet .machineState = true := by
  have set : s.onlined.ev.isSet .machineState = true := changeState_sets .standby s
  rw [goOnline_eq, startRound_ev]
  split
  · exact isSet_raise_mono _ _ _ set
  · exact set

/-- Settles O48: the checks of R130 in their order, and then STANDBY and the first round. -/
theorem onlineChecksAndStartsTheRounds : Obligations.OnlineChecksAndStartsTheRounds := by
  intro s k
  rw [exec_online k]
  refine ⟨fun hm => ?_, fun hm none => ?_, fun p hm some fails => ?_, fun hm some good short => ?_, fun hm some good fits => ?_⟩
  · rw [online, if_pos hm, answered_mk]
  · rw [online, if_neg (by simp [hm]), if_pos none, answered_mk]
  · simp [online, hm, some, fails]
  · simp [online, hm, some, good, short]
  · have accepted : online s = (goOnline s, .ok) := by simp [online, hm, some, good, fits]
    have sup : (goOnline s).sup = (changeState .standby s).sup := startRound_sup s.onlined
    have tracker : (goOnline s).tracker = { (changeState .standby s).tracker with awaiting := true } :=
      startRound_tracker s.onlined
    have plan : (goOnline s).plan = (changeState .standby s).plan := startRound_plan s.onlined
    have angle := changeState_angle .standby s
    have link := goOnline_link s
    have kept := goOnline_kept s
    rw [accepted, answered_mk]
    exact ⟨_, rfl, (congrArg _ sup).trans (changeState_machine .standby s), (congrArg _ sup).trans (leaveSetup_permit hm),
      (congrArg _ sup).trans (changeState_direction .standby s), (congrArg _ sup).trans (changeState_trip .standby s),
      congrArg Link.running link, congrArg Link.round link, congrArg Link.phase link, congrArg Link.remaining link,
      congrArg Link.nextPos link, kept.settings, congrArg Tracker.awaiting tracker,
      (congrArg Tracker.settings tracker).trans angle.settings, (congrArg Tracker.lastGood tracker).trans angle.lastGood,
      kept.tune, kept.free, fun none => plan.trans ((toStandby_frame s).1 none), fun p => goOnline_tower, goOnline_flag s, rfl,
      rfl⟩

end Sys2Proof.Machine

/-! PROOFS. The judgement of a reply (O45), what begins on a free line (O41, O42), the idle step (O40) and an exchange's way
through its steps (O43): R79, R82 to R89, R91, R93, R156, R157. -/

namespace Sys2Proof.Machine

/-! ### The tests of a whole reply (R93) -/

section
variable {x : Exchange} {round : Nat} {reply : List Byte}

theorem judgeReply_of_bad_check (check : checkHolds reply = false) : judgeReply x round reply = .check := if_pos check

theorem judgeReply_of_wrong_address (check : checkHolds reply = true) (address : reply[0]? ≠ some (byte x.address)) :
    judgeReply x round reply = .wrongAddress := by
  rw [judgeReply, if_neg (by simp [check]), if_pos address]

theorem judgeReply_of_wrong_kind (check : checkHolds reply = true) (address : reply[0]? = some (byte x.address))
    (kind : reply[1]? ≠ some x.owner.replyKind) : judgeReply x round reply = .check := by
  rw [judgeReply, if_neg (by simp [check]), if_neg (not_not_intro address), if_pos kind]

/-- A reply that passes the first three tests is judged by its round echo. -/
theorem judgeReply_of_kind {w : Owner} (check : checkHolds reply = true) (address : reply[0]? = some (byte x.address))
    (owner : x.owner = w) (kind : reply[1]? = some w.replyKind) :
    judgeReply x round reply = if echoHolds x round reply = false then .late else .good reply := by
  subst owner
  rw [judgeReply, if_neg (by simp [check]), if_neg (not_not_intro address), if_neg (not_not_intro kind)]

/-- Only a poll's reply is tested for the round. -/
theorem echoHolds_poll {p : Nat} (owner : x.owner = .poll p) :
    echoHolds x round reply = (reply[7]? == some (byte round)) := by
  rw [echoHolds, owner]

theorem echoHolds_reset {p : Nat} (owner : x.owner = .reset p) : echoHolds x round reply = true := by
  rw [echoHolds, owner]

theorem echoHolds_service {n : Nat} (owner : x.owner = .service n) : echoHolds x round reply = true := by
  rw [echoHolds, owner]

end

/-- Settles O45: the four tests in R93's order, the last of them by the owner of the exchange. -/
theorem replyTestsAreTakenInOrder : Obligations.ReplyTestsAreTakenInOrder := by
  intro x round reply
  refine ⟨judgeReply_of_bad_check, judgeReply_of_wrong_address, judgeReply_of_wrong_kind,
    fun p check address kind owner echo => ?_, fun p check address kind owner echo => ?_,
    fun p check address kind owner => ?_, fun n check address kind owner => ?_⟩
  · rw [judgeReply_of_kind check address owner kind, echoHolds_poll owner, if_pos (by simpa using echo)]
  · rw [judgeReply_of_kind check address owner kind, echoHolds_poll owner, if_neg (by simp [echo])]
  · rw [judgeReply_of_kind check address owner kind, echoHolds_reset owner, if_neg (by simp)]
  · rw [judgeReply_of_kind check address owner kind, echoHolds_service owner, if_neg (by simp)]

/-! ### What begins on a free line (R83 to R86, R89) -/

theorem mayBegin_iff {l : Link} {ph : Phase} :
    l.mayBegin ph = true ↔ l.running = true ∧ l.phase = ph ∧ l.free = true := by
  simp [Link.mayBegin, and_assoc]

theorem fits_iff {l : Link} {o : Owner} : l.fits o = true ↔ o.reserve ≤ l.remaining := by simp [Link.fits]

section
variable {s : State} {p n : Nat} {r : Request}

theorem pollBegins_fits (next : s.link.nextPos = some p) (may : s.link.mayBegin .poll = true)
    (fits : (Owner.poll p).reserve ≤ s.link.remaining) : pollBegins s = beginPoll p s := by
  simp only [pollBegins, next, if_pos may]
  exact if_pos (fits_iff.mpr fits)

/-- A POLL that does not fit is skipped with every later one, and the poll phase completes (R85). -/
theorem pollBegins_skips (next : s.link.nextPos = some p) (may : s.link.mayBegin .poll = true)
    (short : s.link.remaining < (Owner.poll p).reserve) : pollBegins s =
      pollComplete { raise .roundShort s with link := { s.link with nextPos := none } } := by
  simp only [pollBegins, next, if_pos may]
  rw [← skipPolls_eq p]
  exact if_neg (mt fits_iff.mp (Nat.not_le_of_lt short))

theorem resetBegins_fits (candidate : resetCandidate s = some p) (may : s.link.mayBegin .service = true)
    (fits : (Owner.reset p).reserve ≤ s.link.remaining) : resetBegins s = beginReset p s := by
  simp only [resetBegins, candidate, if_pos may]
  exact if_pos (fits_iff.mpr fits)

theorem resetBegins_closes (candidate : resetCandidate s = some p) (may : s.link.mayBegin .service = true)
    (short : s.link.remaining < (Owner.reset p).reserve) : resetBegins s = closePhase s := by
  simp only [resetBegins, candidate, if_pos may]
  exact if_neg (mt fits_iff.mp (Nat.not_le_of_lt short))

/-- No service request begins while a RESET exchange is to be offered (R89). -/
theorem serviceBegins_yields (candidate : resetCandidate s = some p) : serviceBegins s = s := by
  simp only [serviceBegins, candidate]

theorem serviceBegins_fits (noReset : resetCandidate s = none) (candidate : serviceCandidate s = some n)
    (slot : s.svc.slot n = some r) (may : s.link.mayBegin .service = true)
    (fits : (Owner.service n).reserve ≤ s.link.remaining) : serviceBegins s = beginService n r s := by
  simp only [serviceBegins, noReset, candidate, slot, if_pos may]
  exact if_pos (fits_iff.mpr fits)

theorem serviceBegins_closes (noReset : resetCandidate s = none) (candidate : serviceCandidate s = some n)
    (slot : s.svc.slot n = some r) (may : s.link.mayBegin .service = true)
    (short : s.link.remaining < (Owner.service n).reserve) : serviceBegins s = closePhase s := by
  simp only [serviceBegins, noReset, candidate, slot, if_pos may]
  exact if_neg (mt fits_iff.mp (Nat.not_le_of_lt short))

@[simp] theorem slot_leaveOrder (v : Service) (m n : Nat) : (v.leaveOrder n).slot m = v.slot m := rfl

/-- The slot of an exchange that begins is SENT. -/
theorem beginService_slot (slot : s.svc.slot n = some r) :
    (beginService n r s).svc.slot n = some { r with state := .sent } := by
  simp only [beginService, slot_leaveOrder, slot_setSlot, slot_range slot, and_self, if_true]

/-- Every other slot is left as it is. -/
theorem beginService_slot_ne {m : Nat} (other : m ≠ n) : (beginService n r s).svc.slot m = s.svc.slot m := by
  simp only [beginService, slot_leaveOrder, slot_setSlot, other, false_and, if_false]

theorem beginService_order : (beginService n r s).svc.order = s.svc.order.filter (· != n) :=
  congrArg (List.filter (· != n)) (setSlot_order s.svc n _)

theorem beginService_counter : (beginService n r s).svc.counter = s.svc.counter := setSlot_counter s.svc n _

end

/-- Settles O41: by whether the POLL of the next position fits in the round remaining. -/
theorem pollBeginSendsOrSkips : Obligations.PollBeginSendsOrSkips := by
  intro p s running free phase next
  have may : s.link.mayBegin .poll = true := mayBegin_iff.mpr ⟨running, phase, free⟩
  exact ⟨fun fits => congrArg Host.Outcome.next (pollBegins_fits next may fits),
    fun short => congrArg Host.Outcome.next (pollBegins_skips next may short)⟩

/-- Settles O42: a RESET exchange, then a SERVICE exchange, each by whether it fits in the round remaining. -/
theorem servicePhaseChoosesResetThenRequest : Obligations.ServicePhaseChoosesResetThenRequest := by
  intro s running free phase
  have may : s.link.mayBegin .service = true := mayBegin_iff.mpr ⟨running, phase, free⟩
  refine ⟨fun p candidate fits => ?_, fun p candidate short => ?_, fun p candidate => ?_,
    fun n r noReset candidate slot fits => ?_, fun n r noReset candidate slot short => ?_⟩
  · exact congrArg Host.Outcome.next (resetBegins_fits candidate may fits)
  · exact congrArg Host.Outcome.next (resetBegins_closes candidate may short)
  · exact congrArg Host.Outcome.next (serviceBegins_yields candidate)
  · exact ⟨_, congrArg Host.Outcome.next (serviceBegins_fits noReset candidate slot may fits), rfl, beginService_slot slot,
      beginService_order, fun m => beginService_slot_ne, beginService_counter, rfl, rfl, rfl, rfl, rfl, rfl, rfl, rfl⟩
  · exact congrArg Host.Outcome.next (serviceBegins_closes noReset candidate slot may short)

/-! ### The idle step (log 3) -/

section
variable {s : State}

theorem step_idle (queue : s.pending = []) : step s = .next (idle s) := by rw [step, queue]

theorem roundIsOver_iff {l : Link} : l.roundIsOver = true ↔ l.running = true ∧ l.remaining = 0 ∧ l.free = true := by
  simp [Link.roundIsOver, and_assoc]

/-- A poll that has not begun comes first. -/
theorem idle_polls (command : s.port.command = none) (may : s.link.mayBegin .poll = true) (next : s.link.nextPos ≠ none) :
    idle s = pollBegins s := by
  simp only [idle, command]
  exact if_pos (by simp [may, Option.isSome_iff_ne_none, next])

/-- With no poll to begin, a round that is over is followed by the next (R82). -/
theorem idle_starts_round (command : s.port.command = none) (done : s.link.phase ≠ .poll ∨ s.link.nextPos = none)
    (ended : s.link.roundIsOver = true) : idle s = startRound s := by
  have noPoll : ¬(s.link.mayBegin .poll && s.link.nextPos.isSome) = true := by
    rw [Bool.and_eq_true, mayBegin_iff, Option.isSome_iff_ne_none]
    rintro ⟨⟨-, phase, -⟩, next⟩
    exact done.elim (· phase) next
  simp only [idle, command]
  rw [if_neg noPoll, if_pos ended]

/-- With nothing to begin, one character time passes. -/
theorem idle_waits (command : s.port.command = none) (noPoll : s.link.mayBegin .poll = false)
    (goes : s.link.roundIsOver = false) (noService : s.link.mayBegin .service = false) : idle s = characterTime s := by
  simp only [idle, command, noPoll, goes, noService, Bool.false_and, Bool.false_eq_true, if_false]

/-- Nothing begins without rounds, or on a line that is taken. -/
theorem mayBegin_of_stopped {l : Link} (h : l.running = false ∨ l.free = false) (ph : Phase) : l.mayBegin ph = false := by
  rcases h with h | h <;> simp [Link.mayBegin, h]

theorem roundIsOver_of_stopped {l : Link} (h : l.running = false ∨ l.free = false) : l.roundIsOver = false := by
  rcases h with h | h <;> simp [Link.roundIsOver, h]

end

/-- Settles O40: the idle step by what the line and the round allow to begin. -/
theorem idleRoundEndsAtItsBudget : Obligations.IdleRoundEndsAtItsBudget := by
  intro s queue command
  rw [step_idle queue]
  refine ⟨fun running free used done => ?_, fun p running free phase next short => ?_, fun stopped => ?_,
    fun closed left => ?_, rfl⟩
  · rw [idle_starts_round command done (roundIsOver_iff.mpr ⟨running, used, free⟩)]
  · have may : s.link.mayBegin .poll = true := mayBegin_iff.mpr ⟨running, phase, free⟩
    rw [idle_polls command may (by simp [next]), pollBegins_skips next may short]
  · rw [idle_waits command (mayBegin_of_stopped stopped _) (roundIsOver_of_stopped stopped) (mayBegin_of_stopped stopped _)]
  · rw [idle_waits command (by simp [Link.mayBegin, closed]) (by simp [Link.roundIsOver, left])
      (by simp [Link.mayBegin, closed])]

/-! ### An exchange passes through its steps (R79, R91) -/

section
variable {s : State} {x y : Exchange}

theorem exec_requestSent_at (line : s.link.exchange = some x) (sending : x.step = .sending)
    (still : (timePasses (x.owner.requestLength - x.used) s).link.exchange = some y) (same : y.step = .sending) :
    exec .requestSent s = .next (requestEnds y (timePasses (x.owner.requestLength - x.used) s)) :=
  congrArg Host.Outcome.next (atMoment_at (exchangeAt_of line sending) (exchangeAt_of still same))

/-- A request that a timer's expiry cuts short lets no more time pass. -/
theorem exec_requestSent_cut {k : Nat} (line : s.link.exchange = some x) (sending : x.step = .sending)
    (within : k ≤ x.owner.requestLength - x.used)
    (cut : ∀ y, (timePasses k s).link.exchange = some y → y.step ≠ .sending)
    (before : ∀ j < k, ∃ y, (timePasses j s).link.exchange = some y ∧ y.step = .sending) :
    exec .requestSent s = .next (breakDue (timePasses k s)) := by
  refine congrArg Host.Outcome.next
    (atMoment_cut (exchangeAt_of line sending) within (exchangeAt_eq_none cut) fun j lt => ?_)
  obtain ⟨y, still, same⟩ := before j lt
  simp [exchangeAt_of still same]

theorem exec_replyBegun (line : s.link.exchange = some x) (awaiting : x.step = .awaiting) : exec .replyBegun s = .next
    { s with link := { s.link with exchange := some { x with step := .receiving, replyAt := x.used } } } := by
  simp only [exec, execReplyBegun, exchangeAt_of line awaiting]

/-- While a request goes out SPAN_TX carries the bits of the present character (R79). -/
theorem spanTx_sending {l : Link} {bit : Nat} {b : Byte} (line : l.exchange = some x) (quiet : l.brk = .none)
    (sending : x.step = .sending) (within : bit < 10) (char : x.request[x.used]? = some b) :
    l.spanTx bit = (characterBits b)[bit]! := by
  simp only [Link.spanTx, quiet, line, if_pos sending]
  exact requestBits_now x bit b char within

end

theorem characterBits_eq (b : Byte) : characterBits b = [false, b.getLsbD 0, b.getLsbD 1, b.getLsbD 2, b.getLsbD 3,
    b.getLsbD 4, b.getLsbD 5, b.getLsbD 6, b.getLsbD 7, true] := rfl

/-- The eight data bits of a byte, least significant first, make up the byte. -/
theorem ofBoolListLE_getLsbD (b : Byte) : BitVec.ofBoolListLE [b.getLsbD 0, b.getLsbD 1, b.getLsbD 2, b.getLsbD 3,
    b.getLsbD 4, b.getLsbD 5, b.getLsbD 6, b.getLsbD 7] = b := by
  refine BitVec.eq_of_getLsbD_eq fun i lt => ?_
  rw [BitVec.getLsbD_ofBoolListLE]
  change i < 8 at lt
  interval_cases i <;> rfl

/-- A character is read back as it was sent (R79, R92). -/
theorem readCharacter_characterBits (b : Byte) : readCharacter (characterBits b) = some b := by
  rw [characterBits_eq, readCharacter, ofBoolListLE_getLsbD]

/-- Settles O43: the exchange at its moment or cut short on the way, the reply that begins, and the bits of a character. -/
theorem exchangePassesThroughItsSteps : Obligations.ExchangePassesThroughItsSteps := by
  refine ⟨fun x s line => ⟨fun sending => ⟨fun y => exec_requestSent_at line sending,
      fun k => exec_requestSent_cut line sending⟩, exec_replyBegun line,
      fun bit b quiet sending => spanTx_sending line quiet sending⟩, rfl, rfl, rfl,
    fun b => ⟨characterBits_eq b, readCharacter_characterBits b⟩⟩

end Sys2Proof.Machine

/-! PROOFS. The Alignment Engine's computation (O33 to O36, R106 to R123): what it writes into the records of the driven towers,
its checks of the line, and its requests, reports and snapshot. -/

namespace Sys2Proof.Machine

/-! ### What is written into a record (R106, R107, R113) -/

/-- The applied command takes a target within the slew limit of it, and moves by the limit toward one beyond (R113). -/
theorem slewed_eq (applied target limit : Nat) : slewed applied target limit =
    if target ≤ applied + limit ∧ applied ≤ target + limit then target
    else if applied < target then applied + limit else applied - limit := by
  unfold slewed clampInt
  split
  · omega
  · split <;> omega

section
variable {s : State} {swing : Option Nat} {p : Nat} {t : Tower}

theorem tower_writeTowers (hp : 1 ≤ p ∧ p ≤ Config.positions) :
    (writeTowers swing s).tower p = computedTower s swing p (s.tower p) :=
  (tower_mapTowers s _ p).trans (if_pos hp)

theorem computedTower_driven (configured : s.isConfigured p = true) (driven : t.isDriven = true) :
    computedTower s swing p t = { t with
      target := (targetOf s swing p t).1, saturated := (targetOf s swing p t).2
      applied := slewed t.applied (targetOf s swing p t).1 s.tune.slew
      followingFlag := followingAt s swing p t } := if_pos (by simp [configured, driven])

theorem computedTower_other (h : ¬(s.isConfigured p = true ∧ t.isDriven = true)) : computedTower s swing p t = t :=
  if_neg (by simpa using h)

theorem targetOf_running (run : s.sup.machine = .running) : targetOf s swing p t =
    ((max 0 (min 1000 (wanted s swing p t))).toNat, decide (wanted s swing p t < 0 ∨ 1000 < wanted s swing p t)) := by
  simp only [targetOf, run, clampInt]

theorem targetOf_jogging {j : Jog} (jogs : s.sup.machine = .jogging) (context : s.sup.jog = some j) :
    targetOf s swing p t = (if j.position = p then j.speed.val else 0, false) := by
  simp only [targetOf, jogs, jogTarget, context]

/-- Outside RUNNING and JOGGING every target is 0 (R107). -/
theorem targetOf_other (notRunning : s.sup.machine ≠ .running) (notJogging : s.sup.machine ≠ .jogging) :
    targetOf s swing p t = (0, false) := by
  unfold targetOf
  split
  · exact absurd ‹_› notRunning
  · exact absurd ‹_› notJogging
  all_goals rfl

end

/-- Settles O33: the record of each tower by whether it is configured and driven, and the slew by its two cases. -/
theorem appliedCommandMovesAtMostTheSlewLimit : Obligations.AppliedCommandMovesAtMostTheSlewLimit := by
  refine ⟨fun s swing p h1 h2 => ?_, fun applied target limit => ?_⟩
  · rw [tower_writeTowers ⟨h1, h2⟩]
    refine ⟨fun ⟨configured, driven⟩ => ?_, computedTower_other, fun _ => targetOf_le _ _ _ _,
      fun notRunning notJogging => ?_⟩
    · rw [computedTower_driven configured driven]
      exact ⟨rfl, rfl⟩
    · rw [targetOf_other notRunning notJogging]
  · rw [slewed_eq]
    split
    · omega
    · split <;> omega

/-! ### Feedforward and correction (R108 to R112, R114) -/

section
variable {D : Nat} {e : Int}

theorem beyondDeadband_within (h : e.natAbs ≤ D) : beyondDeadband D e = 0 := if_pos h

theorem beyondDeadband_above (h : D < e) : beyondDeadband D e = e - D := by
  rw [beyondDeadband, if_neg (by omega), if_pos (by omega)]

theorem beyondDeadband_below (h : e < -D) : beyondDeadband D e = e + D := by
  rw [beyondDeadband, if_neg (by omega), if_neg (by omega)]

end

theorem gained_eq (e : Int) (gain : Nat) : gained e gain = (e * gain).tdiv 16 := rfl

section
variable {s : State} {swing : Option Nat} {p : Nat} {t : Tower}

theorem mainCorrection_following (h : t.state = .following) : mainCorrection s p t = 0 := if_neg (by simp [h])

theorem mainCorrection_driving (h : t.state = .driving) (inner : s.isEnd p = false) :
    mainCorrection s p t = gained (beyondDeadband s.tune.deadband t.error) s.tune.gain := if_pos ⟨h, inner⟩

/-- A joint within the deadband asks for no correction (R109). -/
theorem mainCorrection_within (h : t.state = .driving) (inner : s.isEnd p = false)
    (within : t.error.natAbs ≤ s.tune.deadband) : mainCorrection s p t = 0 := by
  rw [mainCorrection_driving h inner, beyondDeadband_within within, gained_eq, Int.zero_mul, Int.zero_tdiv]

section
variable {a r v : Nat} {m : Mount} {trim : Int} (main : t.geometry = some (.mainLine a r v m trim))
include main

theorem error_mainLine : t.error = t.joint - trim := by simp only [Tower.error, Tower.trim, main]

/-- The end tower is driven at the effective pace (R108). -/
theorem wanted_end (last : s.isEnd p = true) : wanted s swing p t = s.tracker.pace := by
  simp [wanted, main, mainFeedforward, mainCorrection, last]

theorem wanted_inner {aN rN vN : Nat} {mN : Mount} {trimN : Int} (inner : s.isEnd p = false)
    (ends : (s.tower s.link.settings.towers).geometry = some (.mainLine aN rN vN mN trimN)) :
    wanted s swing p t = (feedforward s.tracker.pace r v rN vN : Int) + mainCorrection s p t := by
  simp [wanted, main, mainFeedforward, inner, State.endTower, ends]

end

section
variable {a k : Nat} {m : Mount} {o : Int} (corner : t.geometry = some (.corner a m k o))
include corner

theorem wanted_corner_driving {target : Nat} (driving : t.state = .driving) : wanted s (some target) p t =
    (cornerFeedforward s.tracker.pace k : Int) + gained (t.joint - o - target) s.tune.cornerGain := by
  simp only [wanted, corner, cornerCorrection, if_pos driving, measuredSwing_corner corner]

/-- Without a swing target, or FOLLOWING, the corner tower is driven at its feedforward (R114). -/
theorem wanted_corner_plain (h : swing = none ∨ t.state = .following) :
    wanted s swing p t = cornerFeedforward s.tracker.pace k := by
  have none : cornerCorrection s swing t = 0 := by
    rcases h with rfl | h
    · rfl
    · unfold cornerCorrection
      split <;> simp [h]
  simp only [wanted, corner, none, Int.add_zero]

end

theorem followingAt_following (h : t.state = .following) : followingAt s swing p t = true := by simp [followingAt, h]

theorem followingAt_driving (h : t.state = .driving) :
    followingAt s swing p t = true ↔ s.sup.machine = .running ∧ p = 21 ∧ swing = none := by
  simp [followingAt, h, Config.cornerPos, and_assoc]

end

/-- Settles O34: the target is read off the machine state, and in RUNNING off the tower's geometry and state. -/
theorem runningTargetIsFeedforwardPlusCorrection : Obligations.RunningTargetIsFeedforwardPlusCorrection := by
  intro s swing p h1 h2 configured driven t gives
  have record : t = _ := (tower_writeTowers ⟨h1, h2⟩).trans (computedTower_driven configured driven)
  have given (run : s.sup.machine = .running) {w : Int} (h : wanted s swing p (s.tower p) = w) : gives w := by
    simp only [gives, record, targetOf_running run, h, decide_eq_true_eq, and_self]
  refine ⟨fun run => ⟨fun a r v m trim main => ⟨fun last => given run (wanted_end main last), ?inner⟩, ?corner⟩,
    fun j jogs context => ?jogging, fun notRunning notJogging => ?other, fun following => ?_, fun driving => ?_⟩
  case inner =>
    intro aN rN vN mN trimN inner ends ff e
    have total {c : Int} (h : mainCorrection s p (s.tower p) = c) : gives (ff + c) :=
      given run (by rw [wanted_inner main inner ends, h]; rfl)
    have plain (h : mainCorrection s p (s.tower p) = 0) : gives ff := Int.add_zero ff ▸ total h
    have error : (s.tower p).error = e := error_mainLine main
    refine ⟨fun following => plain (mainCorrection_following following),
      fun driving within => plain (mainCorrection_within driving inner (error ▸ within)), fun driving above => total ?_,
      fun driving below => total ?_⟩
    · rw [mainCorrection_driving driving inner, error, beyondDeadband_above above, gained_eq]
    · rw [mainCorrection_driving driving inner, error, beyondDeadband_below below, gained_eq]
  case corner =>
    intro a m k o corner ff
    refine ⟨fun target turned driving => ?_, fun h => given run (wanted_corner_plain corner h)⟩
    subst turned
    exact given run (wanted_corner_driving corner driving)
  case jogging =>
    rw [record, targetOf_jogging jogs context]
    exact ⟨rfl, rfl⟩
  case other =>
    rw [record, targetOf_other notRunning notJogging]
    exact ⟨rfl, rfl⟩
  · rw [record]
    exact followingAt_following following
  · rw [record]
    exact followingAt_driving driving

/-! ### The warn check (R115, R116) -/

theorem watches_iff {m : MachineState} : m.watches = true ↔ m = .running ∨ m = .starting ∨ m = .holding := by
  cases m <;> simp [MachineState.watches]

/-- The machine states in which the line is watched as a whole are motion states. -/
theorem isMotion_of_watches {m : MachineState} (h : m.watches = true) : m.isMotion = true := by
  rcases watches_iff.mp h with rfl | rfl | rfl <;> rfl

section
variable {s : State} {p : Nat}

/-- The limit in use is the active record's, held below X, and otherwise W (R115). -/
theorem eq_warnLimitInUse {limit : Nat}
    (ofRecord : ∀ v w, s.tracker.view = some v → v.warnLimit = some w → limit = min w (s.tune.trip - 1))
    (ofTune : (∀ v, s.tracker.view = some v → v.warnLimit = none) → limit = s.tune.warn) : limit = warnLimitInUse s := by
  unfold warnLimitInUse
  split
  case h_1 w h =>
    obtain ⟨v, view, warn⟩ := Option.bind_eq_some_iff.mp h
    exact ofRecord v w view warn
  case h_2 h => exact ofTune (Option.bind_eq_none_iff.mp h)

/-- What the warn checks write into a checked record (R116). -/
theorem tower_warnChecks_checked (checked : p ∈ warnChecked s) (range : p ≤ Config.positions) : (warnChecks s).tower p =
    if warnLimitInUse s < (s.tower p).error.natAbs then
      if (s.tower p).alignWarn then s.tower p
      else { s.tower p with alignWarn := true, changes := (s.tower p).changes ||| ChangeFlag.warn.bit }
    else { s.tower p with alignWarn := false } := by
  obtain ⟨-, ⟨least, -⟩, -⟩ := mem_warnChecked.mp checked
  rw [tower_warnChecks, if_pos checked, tower_warnCheck, if_pos ⟨rfl, least, range⟩]

end

/-! ### The MISALIGN and SWING checks (R117, R118, R121) -/

/-- The machine states in which the line is watched as a whole (R116 to R118). -/
abbrev State.Watching (s : State) : Prop :=
  s.sup.machine = .running ∨ s.sup.machine = .starting ∨ s.sup.machine = .holding

/-- A joint that the MISALIGN check reads (R117, R121). -/
abbrev State.JointChecked (s : State) (p : Nat) : Prop :=
  (1 ≤ p ∧ p < s.link.settings.towers)
    ∧ (s.Watching ∧ (s.tower p).state = .driving
      ∨ ∃ j, s.sup.machine = .jogging ∧ s.sup.jog = some j ∧ (s.tower p).fresh = true
        ∧ (j.position = 21 ∨ (p + 1 ≠ j.position ∧ p ≠ j.position ∧ p ≠ j.position + 1)))

/-- The arm stands beyond Y from its target, and the SWING check reads it (R118, R121). -/
abbrev State.ArmOut (s : State) : Prop :=
  ∃ target, swingTarget s = some target ∧ (s.tune.swingTrip : Int) < ((s.tower 21).measuredSwing - target).natAbs
    ∧ (s.Watching ∧ (s.tower 21).state = .driving
      ∨ ∃ j, s.sup.machine = .jogging ∧ s.sup.jog = some j ∧ (s.tower 21).fresh = true
        ∧ j.position ≠ s.link.settings.towers ∧ j.position ≠ 21)

/-- The first of an ascending list that meets a test is the lowest that does. -/
theorem find?_lowest {l : List Nat} (ascending : l.Pairwise (· < ·)) {test : Nat → Bool} {p : Nat} (mem : p ∈ l)
    (meets : test p = true) (lowest : ∀ q < p, q ∈ l → test q = false) : l.find? test = some p := by
  induction l with
  | nil => exact absurd mem List.not_mem_nil
  | cons a l ih =>
    obtain ⟨above, ascending⟩ := List.pairwise_cons.mp ascending
    rcases List.mem_cons.mp mem with rfl | later
    · exact List.find?_cons_of_pos meets
    · rw [List.find?_cons_of_neg (by simp [lowest a (above p later)])]
      exact ih ascending later fun q less mem => lowest q less (List.mem_cons_of_mem a mem)

section
variable {s : State} {p : Nat} {j : Jog}

theorem misalignChecked_jogging (jogs : s.sup.machine = .jogging) (context : s.sup.jog = some j) :
    misalignChecked s = (jointPositions s).filter fun p => (s.tower p).fresh && !nextToJog j.position p := by
  simp only [misalignChecked, jogs, context]

theorem misalignChecked_other (h : ∀ j, ¬(s.sup.machine = .jogging ∧ s.sup.jog = some j)) :
    misalignChecked s = warnChecked s := by
  unfold misalignChecked
  split
  · exact absurd ⟨‹_›, ‹_›⟩ (h _)
  · rfl

theorem mem_jointPositions : p ∈ jointPositions s ↔ 1 ≤ p ∧ p < s.link.settings.towers := by
  rw [jointPositions, List.mem_range'_1]
  omega

/-- Joints j − 1, j and j + 1 touch the jogged tower j; none touches the corner tower (R121). -/
theorem nextToJog_eq_false {j p : Nat} :
    nextToJog j p = false ↔ j = 21 ∨ (p + 1 ≠ j ∧ p ≠ j ∧ p ≠ j + 1) := by
  simp [nextToJog, Config.cornerPos, Decidable.imp_iff_not_or, and_assoc]

theorem mem_misalignChecked : p ∈ misalignChecked s ↔ s.JointChecked p := by
  by_cases h : ∃ j, s.sup.machine = .jogging ∧ s.sup.jog = some j
  · obtain ⟨j, jogs, context⟩ := h
    rw [misalignChecked_jogging jogs context]
    simp [State.JointChecked, mem_jointPositions, nextToJog_eq_false, jogs, context]
  · rw [not_exists] at h
    rw [misalignChecked_other h, mem_warnChecked, watches_iff]
    constructor
    · exact fun ⟨watching, joint, driving⟩ => ⟨joint, .inl ⟨watching, driving⟩⟩
    · rintro ⟨joint, ⟨watching, driving⟩ | ⟨j, jogs, context, -⟩⟩
      · exact ⟨watching, joint, driving⟩
      · exact absurd ⟨jogs, context⟩ (h j)

theorem misalignChecked_ascending (s : State) : (misalignChecked s).Pairwise (· < ·) := by
  have joints : (jointPositions s).Pairwise (· < ·) := List.pairwise_lt_range'
  unfold misalignChecked
  split
  · exact joints.filter _
  · unfold warnChecked
    split
    · exact joints.filter _
    · exact .nil

theorem misaligned_eq_some (checked : s.JointChecked p) (beyond : s.tune.trip < (s.tower p).error.natAbs)
    (lowest : ∀ q < p, s.JointChecked q → ¬s.tune.trip < (s.tower q).error.natAbs) : misaligned s = some p :=
  find?_lowest (misalignChecked_ascending s) (mem_misalignChecked.mpr checked) (decide_eq_true beyond)
    fun q less mem => decide_eq_false (lowest q less (mem_misalignChecked.mp mem))

theorem misaligned_eq_none (within : ∀ p, s.JointChecked p → ¬s.tune.trip < (s.tower p).error.natAbs) :
    misaligned s = none :=
  List.find?_eq_none.mpr fun p mem => by simpa using within p (mem_misalignChecked.mp mem)

theorem swingChecked_iff : swingChecked s = true ↔ s.Watching ∧ (s.tower 21).state = .driving
    ∨ ∃ j, s.sup.machine = .jogging ∧ s.sup.jog = some j ∧ (s.tower 21).fresh = true
      ∧ j.position ≠ s.link.settings.towers ∧ j.position ≠ 21 := by
  unfold swingChecked
  split
  case h_1 j jogs context => simp [State.Watching, jogs, context, Config.cornerPos, and_assoc]
  case h_2 h =>
    rw [Bool.and_eq_true, watches_iff, beq_iff_eq]
    refine ⟨.inl, ?_⟩
    rintro (watched | ⟨j, jogs, context, -⟩)
    · exact watched
    · exact absurd context (h j jogs)

theorem swungOut_iff : swungOut s (swingTarget s) = true ↔ s.ArmOut := by
  unfold swungOut State.ArmOut
  split
  case h_1 target given =>
    rw [Bool.and_eq_true, swingChecked_iff, decide_eq_true_eq, and_comm]
    simp only [given, swingError, Option.some.injEq, exists_eq_left', Config.cornerPos, Nat.cast_lt]
  case h_2 none => simp [none]

theorem State.Watching.inMotion (h : s.Watching) : s.inMotion = true := isMotion_of_watches (watches_iff.mpr h)

theorem inMotion_of_jogging (jogs : s.sup.machine = .jogging) : s.inMotion = true := by
  rw [State.inMotion, jogs]
  rfl

theorem State.JointChecked.inMotion (h : s.JointChecked p) : s.inMotion = true := by
  obtain ⟨-, ⟨watching, -⟩ | ⟨j, jogs, -⟩⟩ := h
  · exact watching.inMotion
  · exact inMotion_of_jogging jogs

theorem State.ArmOut.inMotion (h : s.ArmOut) : s.inMotion = true := by
  obtain ⟨-, -, -, ⟨watching, -⟩ | ⟨j, jogs, -⟩⟩ := h
  · exact watching.inMotion
  · exact inMotion_of_jogging jogs

end

/-! ### The trip requests of a computation (R117 to R119, R147) -/

section
variable {s : State}

theorem tripRequest_tripped (tripped : s.sup.machine = .tripped) (cause : TripCause) (position : Option Nat) :
    tripRequest cause position s = addCause cause s := by
  simp only [tripRequest, tripped]

/-- A MISALIGN trip leaves the machine TRIPPED, and a SWING request on top of it adds its cause (R118). -/
theorem makeReports_misalign (moving : s.inMotion = true) (p : Nat) (swung met rest : Bool) :
    makeReports (some p) swung met rest s =
      if swung then addCause .swing (takeTrip .misalign (some p) s) else takeTrip .misalign (some p) s := by
  unfold makeReports
  dsimp only
  rw [tripRequest_moving _ _ moving, tripRequest_tripped (takeTrip_machine _ _ _)]
  refine reports_tripped ?_ met rest
  split
  · exact takeTrip_machine _ _ _
  · exact takeTrip_machine _ _ _

theorem makeReports_swing (moving : s.inMotion = true) (met rest : Bool) :
    makeReports none true met rest s = takeTrip .swing (some Config.cornerPos) s := by
  unfold makeReports
  dsimp only
  rw [if_pos rfl, tripRequest_moving _ _ moving]
  exact reports_tripped (takeTrip_machine _ _ _) met rest

theorem makeReports_none (met rest : Bool) :
    makeReports none false met rest s = takeRest rest (if met then takeJogMet s else s) := rfl

end

/-! ### The checks within a computation -/

/-- The state in which a computation makes its requests and reports: the commands written and the warn checks made (R106). -/
abbrev State.computed (s : State) : State := warnChecks (writeTowers (swingTarget s) s)

/-- The supervisor after a trip with this record (R127, R128, R147). -/
abbrev Supervisor.trippedBy (u : Supervisor) (record : Trip) : Supervisor :=
  { u with machine := .tripped, permit := false, startTimer := none, hold := .cleared, reversal := .none, jog := none
           trip := some record }

section
variable {s : State}

theorem computed_sameLine (s : State) : SameLine s s.computed :=
  (writeTowers_sameLine _ s).trans (warnChecks_sameLine _)

theorem computed_inMotion (s : State) : s.computed.inMotion = s.inMotion := by
  obtain ⟨sup, -⟩ := computed_sameLine s
  rw [State.inMotion, sup]
  rfl

/-- The trip record of a computation holds the round and the last good angle it began with (R147). -/
theorem takeTrip_computed (lawful : s.sup.Lawful) (moving : s.inMotion = true) (cause : TripCause) (position : Option Nat) :
    (takeTrip cause position s.computed).sup = s.sup.trippedBy
      { cause := cause, position := position, round := s.link.round, angle := s.tracker.lastGood, further := 0 } := by
  obtain ⟨sup, -, link, tracker, -⟩ := computed_sameLine s
  rw [takeTrip_sup cause position _ ((computed_inMotion s).trans moving) (sup ▸ lawful)]
  simp only [State.tripRecord, sup, link, tracker]

theorem computation_sup_misalign {p : Nat} (lawful : s.sup.Lawful) (moving : s.inMotion = true)
    (bent : misaligned s = some p) : (computation s).sup = s.sup.trippedBy
      { cause := .misalign, position := some p, round := s.link.round, angle := s.tracker.lastGood
        further := if swungOut s (swingTarget s) then 0x002 else 0 } := by
  rw [computation_sup, bent, makeReports_misalign ((computed_inMotion s).trans moving)]
  split
  · have added : (0 : BitVec 9) ||| TripCause.swing.bit = 0x002 := by decide
    simp only [addCause, takeTrip_computed lawful moving, Option.map_some, added]
  · exact takeTrip_computed lawful moving _ _

theorem computation_sup_swing (lawful : s.sup.Lawful) (moving : s.inMotion = true) (straight : misaligned s = none)
    (out : swungOut s (swingTarget s) = true) : (computation s).sup = s.sup.trippedBy
      { cause := .swing, position := some 21, round := s.link.round, angle := s.tracker.lastGood, further := 0 } := by
  rw [computation_sup, straight, out, makeReports_swing ((computed_inMotion s).trans moving)]
  exact takeTrip_computed lawful moving _ _

/-- A computation that makes no trip request, as the two reports leave it (R119). -/
theorem computation_reports (straight : misaligned s = none) (within : swungOut s (swingTarget s) = false) :
    computation s = refreshSnapshot s.tracker.pace (takeRest (atRest (writeTowers (swingTarget s) s))
      (if jogMet s (swingTarget s) then takeJogMet s.computed else s.computed)) := by
  rw [computation_eq, straight, within, makeReports_none]

theorem computation_trip_quiet (straight : misaligned s = none) (within : swungOut s (swingTarget s) = false) :
    (computation s).sup.trip = s.sup.trip := by
  obtain ⟨sup, -⟩ := computed_sameLine s
  rw [computation_reports straight within, refreshSnapshot_sup, takeRest_trip]
  split
  · rw [takeJogMet_trip, sup]
  · rw [sup]

end

/-- Settles O35: the warn check of a tower that it reads, and the trips by the lowest joint beyond X and by the arm. -/
theorem computationChecksTheLine : Obligations.ComputationChecksTheLine := by
  intro s watching joint beyond checked swung
  refine ⟨fun limit p range watched isJoint driving ofRecord ofTune => ?warn, fun p unread => ?unread,
    fun p lawful isChecked bent lowest => ?misalign, fun lawful straight out => ?swing, fun straight within => ?quiet⟩
  case warn =>
    obtain rfl := eq_warnLimitInUse ofRecord ofTune
    have mem : p ∈ warnChecked s := mem_warnChecked.mpr ⟨watches_iff.mpr watched, isJoint, driving⟩
    rw [tower_warnChecks_checked mem range]
    refine ⟨fun exceeds clear => ⟨?_, warnChecks_raises mem exceeds clear⟩, fun exceeds set => ?_, fun atMost => ?_⟩
    · rw [if_pos exceeds, clear]
      rfl
    · rw [if_pos exceeds, if_pos set]
    · rw [if_neg atMost]
  case unread => rw [tower_warnChecks, if_neg (by rw [mem_warnChecked, watches_iff]; exact unread)]
  case misalign =>
    rw [computation_sup_misalign lawful (State.JointChecked.inMotion isChecked) (misaligned_eq_some isChecked bent lowest)]
    refine ⟨rfl, rfl, fun out => ?_, fun within => ?_⟩
    · rw [if_pos (swungOut_iff.mpr out)]
    · rw [if_neg (mt swungOut_iff.mp within)]
  case swing =>
    rw [computation_sup_swing lawful (State.ArmOut.inMotion out) (misaligned_eq_none straight) (swungOut_iff.mpr out)]
    exact ⟨rfl, rfl, rfl⟩
  case quiet =>
    exact computation_trip_quiet (misaligned_eq_none straight) (Bool.eq_false_iff.mpr (mt swungOut_iff.mp within))

/-! ### The reports (R119, R122, R135, R142, R144) -/

section
variable {s : State}

theorem atRest_iff : atRest s = true ↔ ∀ p ∈ s.link.settings.positions, (s.tower p).applied = 0 := by
  simp [atRest]

/-- The jog report concerns a jog alone (R122). -/
theorem jogMet_other (notJogging : s.sup.machine ≠ .jogging) (swing : Option Nat) : jogMet s swing = false := by
  unfold jogMet
  split
  · exact absurd ‹_› notJogging
  · rfl

/-- A machine that is neither watched as a whole nor JOGGING makes no check of the line (R107). -/
theorem no_checks (unwatched : s.sup.machine.watches = false) (notJogging : s.sup.machine ≠ .jogging) :
    misaligned s = none ∧ swungOut s (swingTarget s) = false := by
  have unwatching : ¬s.Watching := mt watches_iff.mpr (by simp [unwatched])
  refine ⟨misaligned_eq_none ?_, Bool.eq_false_iff.mpr (mt swungOut_iff.mp ?_)⟩
  · rintro p ⟨-, ⟨watching, -⟩ | ⟨j, jogs, -⟩⟩
    · exact absurd watching unwatching
    · exact absurd jogs notJogging
  · rintro ⟨-, -, -, ⟨watching, -⟩ | ⟨j, jogs, -⟩⟩
    · exact unwatching watching
    · exact notJogging jogs

theorem takeRest_stopping (stops : s.sup.machine = .stopping) (rest : Bool) :
    takeRest rest s = if rest then changeState .standby s else s := by
  simp only [takeRest, stops]

theorem takeRest_reversing (reverses : s.sup.machine = .reversing) (rest : Bool) :
    takeRest rest s = if rest = true ∧ s.sup.reversal = .awaitingRest then
      { s with sup := { s.sup with reversal := .delay (10 * s.sup.reversalDelay) } } else s := by
  simp only [takeRest, reverses]

theorem takeRest_jogging {j : Jog} (jogs : s.sup.machine = .jogging) (context : s.sup.jog = some j) (rest : Bool) :
    takeRest rest s = countJogRound j s := by
  simp only [takeRest, jogs, context]

/-- In every other state the rest report changes nothing (R119). -/
theorem takeRest_other (notStopping : s.sup.machine ≠ .stopping) (notReversing : s.sup.machine ≠ .reversing)
    (notJogging : s.sup.machine ≠ .jogging) (rest : Bool) : takeRest rest s = s := by
  unfold takeRest
  split
  · exact absurd ‹_› notStopping
  · exact absurd ‹_› notReversing
  · exact absurd ‹_› notJogging
  all_goals rfl

/-- STOPPING ends in STANDBY with the permit low and no jog context (R127, R128, R135). -/
theorem stopping_toStandby (stops : s.sup.machine = .stopping) :
    (changeState .standby s).sup.permit = false ∧ (changeState .standby s).sup.jog = none := by
  have moved : (s.sup.moveTo .standby).permit = false ∧ (s.sup.moveTo .standby).jog = none := by
    simp [Supervisor.moveTo, Supervisor.depart, permitAfter, stops, MachineState.isMotion]
  rcases changeState_sup .standby s with e | e <;> rw [e] <;> exact moved

/-- A met ALIGN condition moves the jog to STOPPING with its context kept (R128, R144). -/
theorem takeJogMet_jogging (jogs : s.sup.machine = .jogging) :
    takeJogMet s = raise .machineState { s with sup := { s.sup with machine := .stopping } } := by
  rw [takeJogMet, if_pos jogs, changeState_motion rfl]
  simp [Supervisor.moveTo, Supervisor.depart, permitAfter, jogs, MachineState.isMotion]

/-- A round of a jog that is not the last only counts (R144). -/
theorem countJogRound_more {j : Jog} (more : 2 ≤ j.roundsLeft) (s : State) : countJogRound j s =
    { s with sup := { s.sup with jog := some { j with roundsLeft := j.roundsLeft - 1 } } } := if_neg (by omega)

/-- Outside JOGGING a computation without a trip request makes the rest report alone (R119). -/
theorem computation_rest (notJogging : s.sup.machine ≠ .jogging) (straight : misaligned s = none)
    (within : swungOut s (swingTarget s) = false) : computation s =
      refreshSnapshot s.tracker.pace (takeRest (atRest (writeTowers (swingTarget s) s)) s.computed) := by
  rw [computation_reports straight within, jogMet_other notJogging]
  rfl

theorem computation_unwatched (unwatched : s.sup.machine.watches = false) (notJogging : s.sup.machine ≠ .jogging) :
    computation s = refreshSnapshot s.tracker.pace (takeRest (atRest (writeTowers (swingTarget s) s)) s.computed) :=
  computation_rest notJogging (no_checks unwatched notJogging).1 (no_checks unwatched notJogging).2

/-- A computation outside STOPPING, REVERSING and JOGGING that makes no trip request leaves the supervisor (R119). -/
theorem computation_sup_other (notStopping : s.sup.machine ≠ .stopping) (notReversing : s.sup.machine ≠ .reversing)
    (notJogging : s.sup.machine ≠ .jogging) (straight : misaligned s = none)
    (within : swungOut s (swingTarget s) = false) : (computation s).sup = s.sup := by
  obtain ⟨sup, -⟩ := computed_sameLine s
  rw [computation_rest notJogging straight within, refreshSnapshot_sup,
    takeRest_other (sup ▸ notStopping) (sup ▸ notReversing) (sup ▸ notJogging), sup]

theorem computation_stopping (stops : s.sup.machine = .stopping) : computation s = refreshSnapshot s.tracker.pace
    (if atRest (writeTowers (swingTarget s) s) then changeState .standby s.computed else s.computed) := by
  obtain ⟨sup, -⟩ := computed_sameLine s
  rw [computation_unwatched (by rw [stops]; rfl) (by simp [stops]), takeRest_stopping (sup ▸ stops)]

theorem computation_sup_reversing (reverses : s.sup.machine = .reversing) : (computation s).sup =
    if atRest (writeTowers (swingTarget s) s) = true ∧ s.sup.reversal = .awaitingRest then
      { s.sup with reversal := .delay (10 * s.sup.reversalDelay) } else s.sup := by
  obtain ⟨sup, -⟩ := computed_sameLine s
  rw [computation_unwatched (by rw [reverses]; rfl) (by simp [reverses]), takeRest_reversing (sup ▸ reverses),
    refreshSnapshot_sup, sup]
  split
  · rfl
  · exact sup

section
variable {j : Jog} (jogs : s.sup.machine = .jogging) (context : s.sup.jog = some j) (straight : misaligned s = none)
  (within : swungOut s (swingTarget s) = false)
include jogs straight within

theorem computation_sup_jogMet (met : jogMet s (swingTarget s) = true)
    (moving : atRest (writeTowers (swingTarget s) s) = false) : (computation s).sup = { s.sup with machine := .stopping } := by
  obtain ⟨sup, -⟩ := computed_sameLine s
  rw [computation_reports straight within, met, moving, if_pos rfl, takeJogMet_jogging (sup ▸ jogs), takeRest_stopping rfl]
  show { s.computed.sup with machine := .stopping } = _
  rw [sup]

include context

theorem computation_jogging (unmet : jogMet s (swingTarget s) = false) :
    computation s = refreshSnapshot s.tracker.pace (countJogRound j s.computed) := by
  obtain ⟨sup, -⟩ := computed_sameLine s
  rw [computation_reports straight within, unmet, if_neg Bool.false_ne_true, takeRest_jogging (sup ▸ jogs) (sup ▸ context)]

end

/-- The snapshot takes the round, the angle, the pace and the view the computation began with, and what the reports left of the
supervisor (R123). -/
theorem computation_snapshot (s : State) : (computation s).port.snapshot =
    { round := s.link.round, angle := s.tracker.angleUsed, held := s.tracker.held, pace := s.tracker.pace
      activeKey := s.tracker.view.map View.activeKey, revision := (s.tracker.view.map View.revision).getD 0
      nextKey := s.tracker.view.map View.nextKey, dist := s.tracker.view.map View.dist
      direction := (computation s).sup.direction, machine := (computation s).sup.machine
      cause := (computation s).sup.trip.map Trip.cause } := by
  obtain ⟨-, -, link, tracker, -⟩ := computed_sameLine s
  rw [computation_eq]
  generalize hu : makeReports _ _ _ _ _ = u
  obtain ⟨view, angle, held⟩ : u.tracker.view = s.tracker.view ∧ u.tracker.angleUsed = s.tracker.angleUsed
      ∧ u.tracker.held = s.tracker.held := by
    rw [← hu, ← tracker]
    exact makeReports_view _ _ _ _ _
  have round : u.link.round = s.link.round := by
    rw [← hu, (Link.place_eq (makeReports_place _ _ _ _ _)).2.1, link]
  show snapshotOf s.tracker.pace u = _
  simp only [snapshotOf, Tracker.activeKey, view, angle, held, round, refreshSnapshot_sup]

end

/-- Settles O36: the rest report by machine state, the jog's two reports, and the snapshot. -/
theorem computationReportsAndRefreshesTheSnapshot : Obligations.ComputationReportsAndRefreshesTheSnapshot := by
  intro s swing rest t
  obtain ⟨sup, -⟩ := computed_sameLine s
  refine ⟨fun stops still => ?stopped, ?moving, fun reverses awaits still => ?delay, fun reverses served => ?served,
    fun j jogs context straight within => ⟨fun met unrest => computation_sup_jogMet jogs straight within met unrest,
      fun unmet more => ?more, fun unmet last => ?last⟩, fun h => ?standing, fun h straight within => ?watched,
    computation_snapshot s⟩
  case stopped =>
    have toStandby : t = _ := computation_stopping stops
    rw [if_pos (atRest_iff.mpr still)] at toStandby
    obtain ⟨permit, jog⟩ := stopping_toStandby (sup ▸ stops)
    rw [toStandby]
    exact ⟨changeState_machine _ _, permit, jog, (changeState_direction _ _).trans (by rw [sup]), changeState_sets _ _⟩
  case moving =>
    rintro (stops | reverses) unrest
    · show (computation s).sup = _
      rw [computation_stopping stops, if_neg (mt atRest_iff.mp unrest)]
      exact sup
    · exact (computation_sup_reversing reverses).trans (if_neg fun h => unrest (atRest_iff.mp h.1))
  case delay => exact (computation_sup_reversing reverses).trans (if_pos ⟨atRest_iff.mpr still, awaits⟩)
  case served => exact (computation_sup_reversing reverses).trans (if_neg fun h => served h.2)
  case more =>
    show (computation s).sup = _
    rw [computation_jogging jogs context straight within unmet, countJogRound_more more, refreshSnapshot_sup, sup]
  case last =>
    show (computation s).sup = _
    rw [computation_jogging jogs context straight within unmet, countJogRound_last (sup ▸ jogs) last, refreshSnapshot_sup,
      raise_sup, sup]
  case standing =>
    obtain ⟨straight, within⟩ : misaligned s = none ∧ swungOut s (swingTarget s) = false := by
      rcases h with h | h <;> exact no_checks (by rw [h]; rfl) (by simp [h])
    rcases h with h | h <;> exact computation_sup_other (by simp [h]) (by simp [h]) (by simp [h]) straight within
  case watched =>
    rcases h with h | h | h <;> exact computation_sup_other (by simp [h]) (by simp [h]) (by simp [h]) straight within

end Sys2Proof.Machine

/-! PROOFS. The laws of the Motion Supervisor over a step (O7, R127, R128, R147). -/

namespace Sys2Proof.Machine

/-- An event that does not happen in a state leaves it as it is (log 5). -/
theorem SupKept.ite {s t : State} {c : Prop} [Decidable c] (h : c → SupKept s t) : SupKept s (if c then t else s) := by
  split
  · exact h ‹_›
  · exact id

/-- The bytes received are judged in the port and the event flags alone. -/
theorem judgeReceived_sup (busy : Bool) (received : List Byte) (s : State) :
    (judgeReceived busy received s).sup = s.sup := by
  unfold judgeReceived takeCommand
  (repeat' split) <;> rfl

theorem windowCloses_lawful (x : Exchange) (s : State) (h : s.sup.Lawful) : (windowCloses x s).sup.Lawful :=
  endExchange_lawful x _ s h

theorem reservationEnds_lawful (x : Exchange) (s : State) (h : s.sup.Lawful) : (reservationEnds x s).sup.Lawful :=
  endExchange_lawful x _ s h

theorem replyArrives_lawful (reply : List Byte) (x : Exchange) (s : State) (h : s.sup.Lawful) :
    (replyArrives reply x s).sup.Lawful := endExchange_lawful x _ s h

/-- Every event happens, and keeps the supervisor lawful. -/
theorem event_sup {i : Instr} {s : State} (e : commandOf i = none) (h : s.sup.Lawful) :
    ∃ t, exec i s = .next t ∧ t.sup.Lawful := by
  cases i with
  | powerOnReset ended => exact ⟨_, rfl, powerOn_lawful _⟩
  | transactionStart =>
    refine ⟨_, rfl, ?_⟩
    (repeat' split) <;> exact h
  | transactionEnd received =>
    refine ⟨_, rfl, ?_⟩
    split
    · rw [judgeReceived_sup]; exact h
    · exact h
  | attnHighEnd => exact ⟨_, rfl, h⟩
  | attnGapEnd => exact ⟨_, rfl, h⟩
  | roundStart =>
    refine ⟨_, rfl, SupKept.ite (fun _ l => ?_) h⟩
    rw [startRound_sup]
    exact endRound_lawful _ (roundPasses_lawful s l)
  | unreachable n => exact ⟨_, rfl, SupKept.ite (t := unreachableSlot n s) (fun _ => id) h⟩
  | angleSample a v => exact ⟨_, rfl, takeAnswer_lawful _ v s h⟩
  | angleLoss => exact ⟨_, rfl, SupKept.ite (fun _ => missingSample_lawful s) h⟩
  | pollBegin => exact ⟨_, rfl, pollBegins_lawful s h⟩
  | resetExchangeBegin => exact ⟨_, rfl, (resetBegins_sup s).symm ▸ h⟩
  | serviceExchangeBegin => exact ⟨_, rfl, (serviceBegins_sup s).symm ▸ h⟩
  | requestSent => exact ⟨_, rfl, atMoment_lawful (act := requestEnds) (fun _ _ => id) _ _ s h⟩
  | noReply => exact ⟨_, rfl, atMoment_lawful windowCloses_lawful _ _ s h⟩
  | replyGapTimeout =>
    refine ⟨_, rfl, ?_⟩
    split
    · exact replyBreaksOff_lawful s h
    · exact breakBegins_lawful s h
    · exact h
  | reservationUsedUp =>
    refine ⟨_, rfl, ?_⟩
    split
    · exact atMoment_lawful reservationEnds_lawful _ _ s h
    · exact breakBegins_lawful _ (timePasses_lawful _ s h)
    · exact h
  | replyFramingError => exact ⟨_, rfl, replyBreaksOff_lawful s h⟩
  | replyComplete reply =>
    refine ⟨_, rfl, ?_⟩
    split
    · exact SupKept.ite (fun _ => atMoment_lawful (replyArrives_lawful reply) _ _ s) h
    · exact breakDue_lawful _ (lineFallsIdle_lawful _ (timePasses_lawful _ s h))
    · exact h
  | missLimitReached n => exact ⟨_, rfl, SupKept.ite (fun _ => missLimit_lawful n s) h⟩
  | followLimitReached n => exact ⟨_, rfl, SupKept.ite (fun _ => enterFaulted_lawful n .sensor s) h⟩
  | stall n => exact ⟨_, rfl, SupKept.ite (fun _ => enterFaulted_lawful n .stall s) h⟩
  | jogRoundsExpired =>
    refine ⟨_, rfl, ?_⟩
    split
    · exact SupKept.ite (fun _ l => countJogRound_lawful _ s l ‹_›) h
    · exact h
  | startTimerExpiry => exact ⟨_, rfl, SupKept.ite (fun c l => startExpires_lawful s l (by simp [c.1])) h⟩
  | dwellTimerExpiry => exact ⟨_, rfl, SupKept.ite (fun c l => dwellExpires_lawful s l c.1) h⟩
  | reversalTimerExpiry => exact ⟨_, rfl, SupKept.ite (fun c l => reversalExpires_lawful s l (by simp [c.1])) h⟩
  | resetTimerExpiry n => exact ⟨_, rfl, SupKept.ite (fun _ => enterFaulted_lawful n .resetTimeout s) h⟩
  | safetyLoopChange closed =>
    refine ⟨_, rfl, ?_⟩
    split
    · exact h
    · exact loopChanges_lawful closed s h
  | breakBegin =>
    refine ⟨_, rfl, ?_⟩
    split
    · exact breakBegins_lawful _ (timePasses_lawful _ s h)
    all_goals exact breakBegins_lawful s h
  | breakEnd => exact ⟨_, rfl, breakSent_lawful s h⟩
  | replyBegun =>
    refine ⟨_, rfl, ?_⟩
    split <;> exact h
  | _ => cases e

/-- Settles O7: every command, every event and the part by itself keeps the supervisor lawful. -/
theorem stepKeepsSupervisorLaws : Obligations.StepKeepsSupervisorLaws := by
  intro s t h k
  exact step_keeps (P := fun s => s.sup.Lawful) (fun _ _ => id)
    (fun _ _ payload _ hf => carryOut_sup_lawful (handlerOf_sup hf) payload) (fun _ _ _ => id) (fun _ _ => event_sup)
    (fun s l => (startRound_sup s).symm ▸ l) characterTime_lawful h k

end Sys2Proof.Machine

/-! PROOFS. STOP (O51, R134), and PAUSE, CONTINUE and REVERSE (O52, R139 to R141). -/

namespace Sys2Proof.Machine

/-! ### STOP (R134) -/

/-- A command without payload refuses one (R169). -/
theorem next_plain_refused {code : Byte} {f : State → State × Answer} {p : List Byte} {s : State} (hp : p ≠ [])
    (k : s.takes code p) : (Host.Outcome.next (carryOut code (plainHandler f) p s) : Host.Outcome State Fault Refusal)
      = .next (s.answer code (.refuse .badValue)) := by
  obtain ⟨b, rest, rfl⟩ := List.exists_cons_of_ne_nil hp
  rw [next_carryOut _ k, plainHandler_cons]

theorem exec_stop {s : State} (k : s.executes 0x53 []) : exec (.stop []) s = .next (answered 0x53 (stop s)) :=
  next_plain (.inl k)

/-- The permit after a change of machine state is R127's. -/
theorem changeState_permit (m : MachineState) (s : State) :
    (changeState m s).sup.permit = permitAfter s.sup.machine m s.sup.permit := by
  rcases changeState_sup m s with e | e <;> rw [e] <;> rfl

/-- STARTING ends with the start timer stopped (R128). -/
theorem starting_startTimer {m : MachineState} {s : State} (hm : s.sup.machine = .starting) :
    (changeState m s).sup.startTimer = none := by
  have moved : (s.sup.moveTo m).startTimer = none := by simp [Supervisor.moveTo, Supervisor.depart, hm]
  rcases changeState_sup m s with e | e <;> rw [e] <;> exact moved

/-- The supervisor after a moving machine has gone to STOPPING: a hold and a reversal end with their states, and a jog keeps its
context (R128). -/
theorem toStopping_sup {s : State} (hm : s.sup.machine = .running ∨ s.sup.machine = .holding
      ∨ s.sup.machine = .reversing ∨ s.sup.machine = .jogging) :
    s.sup.moveTo .stopping = { s.sup with
      machine := .stopping
      hold := if s.sup.machine = .holding then Hold.cleared else s.sup.hold
      reversal := if s.sup.machine = .reversing then .none else s.sup.reversal } := by
  rcases hm with h | h | h | h <;> simp [Supervisor.moveTo, Supervisor.depart, permitAfter, h, MachineState.isMotion]

theorem stop_refused {s : State} (hm : s.sup.machine = .setup ∨ s.sup.machine = .tripped) :
    stop s = (s, .refuse .state) := by
  rcases hm with h | h <;> simp [stop, h]

theorem stop_unchanged {s : State} (hm : s.sup.machine = .standby ∨ s.sup.machine = .stopping) : stop s = (s, .ok) := by
  rcases hm with h | h <;> simp [stop, h]

theorem stop_moving {s : State} (hm : s.sup.machine = .running ∨ s.sup.machine = .holding ∨ s.sup.machine = .reversing
    ∨ s.sup.machine = .jogging) : stop s = (changeState .stopping s, .ok) := by
  rcases hm with h | h | h | h <;> simp [stop, h]

/-- Settles O51: a row of R134's table for each clause. -/
theorem stopActsByMachineState : Obligations.StopActsByMachineState := by
  intro s
  refine ⟨fun p hp k => next_plain_refused hp (.inl k), fun k => ⟨fun hm => ?refused, fun hm => ?unchanged,
    fun hm => ?starting, fun hm => ?moving⟩⟩
  case refused => rw [exec_stop k, stop_refused hm, answered_mk]
  case unchanged => rw [exec_stop k, stop_unchanged hm, answered_mk]
  case starting =>
    have permit : (changeState .standby s).sup.permit = false := by
      simp [changeState_permit, permitAfter, hm, MachineState.isMotion]
    obtain ⟨plan, escape, served, svc⟩ := toStandby_frame s
    have angle := changeState_angle .standby s
    have kept := changeState_kept .standby s
    exact ⟨_, exec_stop_starting (.inl k) hm, changeState_machine _ s, permit, starting_startTimer hm, changeState_direction _ s,
      toStandby_tower s, plan, angle.lastGood, angle.settings, escape, served, changeState_link _ s, kept.tune, svc,
      kept.free, rfl⟩
  case moving =>
    rw [exec_stop k, stop_moving hm, changeState_motion rfl, toStopping_sup hm]
    exact ⟨_, rfl, rfl, rfl, fun h => if_pos h, fun h => if_pos h, rfl, rfl, rfl, rfl, rfl, rfl, rfl, rfl, rfl, rfl, rfl⟩

/-! ### PAUSE (R139) and CONTINUE (R140) -/

theorem exec_pause {s : State} (k : s.executes 0x54 []) : exec (.pause []) s = .next (answered 0x54 (pause s)) :=
  next_plain (.inl k)

theorem exec_continueRun {s : State} (k : s.executes 0x55 []) :
    exec (.continueRun []) s = .next (answered 0x55 (continueRun s)) := next_plain (.inl k)

/-- A machine that leaves RUNNING for HOLDING by PAUSE is in a manual hold, and nothing else changes but MACHINE_STATE (R127,
R128, R139). -/
theorem pause_running {s : State} (hm : s.sup.machine = .running) : pause s =
    (raise .machineState { s with sup := { s.sup with machine := .holding, hold := { held := none, dwell := .stopped } } },
      .ok) := by
  have moved : s.sup.moveTo .holding = { s.sup with machine := .holding } := by
    simp [Supervisor.moveTo, Supervisor.depart, permitAfter, hm, MachineState.isMotion]
  have paused : pause s = (manualHold (changeState .holding s), .ok) := by simp [pause, hm]
  rw [paused, changeState_motion rfl, moved]
  rfl

theorem pause_holding {s : State} (hm : s.sup.machine = .holding) : pause s = (manualHold s, .ok) := by
  simp [pause, hm]

theorem pause_refused {s : State} (notRunning : s.sup.machine ≠ .running) (notHolding : s.sup.machine ≠ .holding) :
    pause s = (s, .refuse .state) := by
  unfold pause
  split
  · exact absurd ‹_› notRunning
  · exact absurd ‹_› notHolding
  all_goals rfl

/-! ### REVERSE (R141) -/

theorem exec_reverse {s : State} (k : s.takes 0x56 []) : exec (.reverse []) s = .next (answered 0x56 (reverse s)) :=
  next_plain k

/-- From RUNNING or HOLDING the machine enters REVERSING and awaits rest, a hold ended with its state (R127, R128, R141). -/
theorem beginReversal_eq {s : State} (hm : s.sup.machine = .running ∨ s.sup.machine = .holding) : beginReversal s =
    raise .machineState { s with sup := { s.sup with
      machine := .reversing, reversal := .awaitingRest
      hold := if s.sup.machine = .holding then { held := none, dwell := .stopped } else s.sup.hold } } := by
  have moved : s.sup.moveTo .reversing = { s.sup with
      machine := .reversing
      hold := if s.sup.machine = .holding then { held := none, dwell := .stopped } else s.sup.hold } := by
    rcases hm with h | h <;>
      simp [Supervisor.moveTo, Supervisor.depart, permitAfter, h, MachineState.isMotion, Hold.cleared]
  unfold beginReversal
  rw [changeState_motion rfl, moved]
  rfl

/-- Settles O52: each command by the machine states it is taken in. -/
theorem pauseContinueAndReverse : Obligations.PauseContinueAndReverse := by
  refine ⟨fun s => ⟨fun k hm => ?running, fun k hm => ?holding, fun k notRunning notHolding => ?refused,
    fun k hm => ?continues, fun k notHolding => ?stays⟩, fun s k => ⟨fun hm free => ?reverses, fun barred => ?barred⟩⟩
  case running => rw [exec_pause k, pause_running hm, answered_mk]
  case holding => rw [exec_pause k, pause_holding hm, answered_mk]; rfl
  case refused => rw [exec_pause k, pause_refused notRunning notHolding, answered_mk]
  case continues => rw [exec_continueRun k, continueRun, if_pos hm, leaveHolding s hm, answered_mk]
  case stays => rw [exec_continueRun k, continueRun, if_neg notHolding, answered_mk]
  case reverses => rw [exec_reverse k, reverse, if_pos ⟨hm, free⟩, beginReversal_eq hm, answered_mk]
  case barred => rw [exec_reverse k, reverse, if_neg barred, answered_mk]

end Sys2Proof.Machine

/-! PROOFS. ESTOP and CLEAR_TRIP (O54, R148, R149), and the safety loop (O55, R145). -/

namespace Sys2Proof.Machine

/-! ### ESTOP (R148) -/

theorem exec_estop {s : State} (k : s.takes 0x58 []) : exec (.estop []) s = .next (answered 0x58 (estop s)) := next_plain k

/-- A trip request of a moving machine trips it from the state it is taken in (R146, R147). -/
theorem tripRequest_trips (cause : TripCause) (position : Option Nat) {s : State} (moving : s.inMotion = true)
    (towers : s.TowersLawful) (sup : s.sup.Lawful) : (tripRequest cause position s).TrippedBy s cause position :=
  trippedBy cause position moving sup towers rfl rfl rfl rfl rfl rfl (List.Sublist.refl _) rfl rfl fun _ _ _ => rfl

/-- In TRIPPED ESTOP adds PANEL_STOP to the further causes (R147, R148). -/
theorem estop_tripped {s : State} (hm : s.sup.machine = .tripped) : estop s = (addCause .panelStop s, .ok) := by
  simp [estop, tripRequest, hm]

/-! ### CLEAR_TRIP (R149) -/

theorem exec_clearTrip {s : State} (k : s.takes 0x59 []) :
    exec (.clearTrip []) s = .next (answered 0x59 (clearTrip s)) := next_plain k

/-- `s` with its trip record emptied. -/
abbrev State.untripped (s : State) : State := { s with sup := { s.sup with trip := none } }

theorem clearTrip_tripped {s : State} (hm : s.sup.machine = .tripped) :
    clearTrip s = (changeState .standby s.untripped, .ok) := if_pos hm

/-- Settles O54: ESTOP by machine state, and CLEAR_TRIP as the entry to STANDBY from TRIPPED with the record emptied. -/
theorem estopAndClearTrip : Obligations.EstopAndClearTrip := by
  refine ⟨fun s k => ⟨fun hm => ?setup, fun hm => ?standby, fun hm => ?tripped, fun moving towers sup => ?moving⟩,
    fun s k => ⟨fun hm => ?clears, fun hm => ?refused⟩⟩
  case setup => rw [exec_estop k, show estop s = (s, .ok) by simp [estop, hm], answered_mk]
  case standby => rw [exec_estop k, show estop s = (requestBreak s, .ok) by simp [estop, hm], answered_mk]
  case tripped => rw [exec_estop k, estop_tripped hm, answered_mk]; rfl
  case moving =>
    have trips := tripRequest_trips .panelStop none moving towers sup
    rw [tripRequest_moving _ _ moving] at trips
    exact ⟨_, exec_estop_moving k moving, trips, rfl⟩
  case clears =>
    obtain ⟨plan, -, served, svc⟩ := toStandby_frame s.untripped
    have angle := changeState_angle .standby s.untripped
    have kept := changeState_kept .standby s.untripped
    have permit : (changeState .standby s.untripped).sup.permit = s.sup.permit := by
      simp [changeState_permit, permitAfter, hm, MachineState.isMotion]
    have towers : ∀ p, (s.tower p).isDriven = false → (changeState .standby s.untripped).tower p = s.tower p :=
      fun p still => (toStandby_tower s.untripped p).trans (if_neg (Bool.eq_false_iff.mp still))
    rw [exec_clearTrip k, clearTrip_tripped hm]
    exact ⟨_, rfl, changeState_machine _ _, changeState_trip _ _, permit, served,
      fun p _ => towers p, plan, angle.lastGood, angle.settings,
      changeState_direction _ _, kept.tune, svc, kept.free, changeState_link _ _, changeState_sets _ _, rfl⟩
  case refused => rw [exec_clearTrip k, clearTrip, if_neg hm, answered_mk]

/-! ### The safety loop (R145) -/

/-- `s` with the safety loop closed or open. -/
abbrev State.withLoop (s : State) (closed : Bool) : State := { s with sup := { s.sup with loopClosed := closed } }

/-- The row is the change of the loop (log 22). -/
theorem exec_safetyLoopChange {closed : Bool} {s : State} (changes : s.sup.loopClosed = !closed) :
    exec (.safetyLoopChange closed) s = .next (loopChanges closed s) :=
  congrArg Host.Outcome.next (if_neg (by simp [changes]))

theorem loopChanges_closes (s : State) : loopChanges true s = s.withLoop true := rfl

theorem loopChanges_opens (s : State) : loopChanges false s =
    if s.inMotion then tripRequest .safetyLoop none (s.withLoop false) else s.withLoop false := rfl

/-- Settles O55: the loop's state is set first, and an opening in motion is a trip request in the state with the loop open. -/
theorem openingLoopTripsAMovingMachine : Obligations.OpeningLoopTripsAMovingMachine := by
  intro s
  refine ⟨fun opened => ?_, fun closed still => ?_, fun closed moving towers sup => ?_⟩
  · rw [exec_safetyLoopChange opened, loopChanges_closes]
  · rw [exec_safetyLoopChange closed, loopChanges_opens, if_neg (by simp [still])]
  · have moving' : (s.withLoop false).inMotion = true := moving
    rw [exec_safetyLoopChange closed, loopChanges_opens, if_pos moving]
    refine ⟨_, rfl, tripRequest_trips .safetyLoop none moving' towers sup, ?_⟩
    rw [tripRequest_moving _ _ moving', takeTrip_sup _ _ _ moving' sup]

end Sys2Proof.Machine

/-! PROOFS. The service table: SVC_SUBMIT, SVC_RESULT, SVC_CANCEL (O57) and a request that grows too old (O58). -/

namespace Sys2Proof.Machine

/-! ### A slot of the table (R153) -/

/-- A slot that is not FREE reads back what is written into it. -/
theorem slot_setSlot_self {v : Service} {n : Nat} {r : Request} (taken : v.slot n = some r) (q : Option Request) :
    (v.setSlot n q).slot n = q := by
  rw [slot_setSlot, if_pos ⟨rfl, slot_range taken⟩]

theorem slot_setSlot_ne {n m : Nat} (other : m ≠ n) (v : Service) (q : Option Request) :
    (v.setSlot n q).slot m = v.slot m := by
  rw [slot_setSlot, if_neg fun same => other same.1]

/-- A number from 1 to 8 passes the range check of SVC_RESULT and SVC_CANCEL. -/
theorem not_outside_slots {n : Nat} (low : 1 ≤ n) (high : n ≤ 8) : ¬(n < 1 ∨ Config.slots < n) := by
  simp only [Config.slots]
  omega

/-- A slot that is not FREE has such a number. -/
theorem not_outside_of_slot {v : Service} {n : Nat} {r : Request} (taken : v.slot n = some r) :
    ¬(n < 1 ∨ Config.slots < n) :=
  not_outside_slots (slot_range taken).1 (slot_range taken).2

/-! ### A request that grows too old (R159) -/

theorem exec_unreachable {n : Nat} {s : State} (old : slotOutlives s n = true) :
    exec (.unreachable n) s = .next (unreachableSlot n s) := congrArg Host.Outcome.next (if_pos old)

/-- The row ages one slot, which leaves the submission order. -/
theorem unreachableSlot_svc (n : Nat) (s : State) : (unreachableSlot n s).svc =
    (s.svc.setSlot n ((s.svc.slot n).map (Request.aged s.link.settings.ageLimit))).leaveOrder n := rfl

/-- Settles O58: the row's slot outlives the limit, so it is aged to FAILED. -/
theorem tooOldRequestFailsUnreachable : Obligations.TooOldRequestFailsUnreachable := by
  intro n r s slot queued old
  have outlives : slotOutlives s n = true := slotOutlives_iff.mpr ⟨r, slot, queued, old⟩
  refine ⟨_, exec_unreachable outlives, ?aged, fun m other => ?others, ?order, ?counter, rfl, rfl, rfl, rfl, rfl, rfl, rfl,
    rfl, rfl⟩
  case aged =>
    rw [unreachableSlot_svc, slot_leaveOrder, slot_setSlot_self slot, slot, Option.map_some, aged_too_old queued old]
  case others => rw [unreachableSlot_svc, slot_leaveOrder, slot_setSlot_ne other]
  case order => rw [unreachableSlot_svc, Service.leaveOrder, setSlot_order]
  case counter => exact setSlot_counter ..

/-! ### SVC_SUBMIT (R154, R155) -/

theorem exec_svcSubmit {payload : List Byte} {c : Submission} {s : State} (k : s.takes 0x60 payload)
    (e : decodeSubmit payload = some c) : exec (.svcSubmit payload) s = .next (answered 0x60 (svcSubmit c s)) :=
  next_decoded k e

/-- A position from 1 to 21 passes the first check of R155. -/
theorem not_outside_positions {p : Nat} (low : 1 ≤ p) (high : p ≤ 21) : ¬(p < 1 ∨ Config.positions < p) := by
  simp only [Config.positions]
  omega

/-- The search finds the FREE slot below which none is FREE. -/
theorem freeSlot_lowest {v : Service} {n : Nat} (low : 1 ≤ n) (high : n ≤ 8) (free : v.slot n = none)
    (least : ∀ m, 1 ≤ m → m < n → v.slot m ≠ none) : freeSlot v = some n := by
  refine List.find?_range'_eq_some.mpr
    ⟨by simp [free], List.mem_range'_1.mpr ⟨low, Nat.lt_succ_of_le high⟩, fun m from1 below => ?_⟩
  simpa using Option.isSome_iff_ne_none.mpr (least m from1 below)

/-- With every slot taken the search finds none. -/
theorem freeSlot_full {v : Service} (full : ∀ m, 1 ≤ m → m ≤ 8 → v.slot m ≠ none) : freeSlot v = none := by
  refine List.find?_eq_none.mpr fun m mem => ?_
  obtain ⟨low, high⟩ := List.mem_range'_1.mp mem
  simpa using full m low (Nat.le_of_lt_succ high)

section
variable {c : Submission} {s : State} (low : 1 ≤ c.position) (high : c.position ≤ 21) (online : s.sup.machine ≠ .setup)
  (conf : s.isConfigured c.position = true)
include low high online conf

theorem svcSubmit_fills {n : Nat} (free : freeSlot s.svc = some n) : svcSubmit c s =
    ({ s with svc := s.svc.submit n c }, .okWith ([byte n] ++ word ((s.svc.counter + 1) % 65536))) := by
  rw [svcSubmit, if_neg (not_outside_positions low high), if_neg online, if_neg (by simp [conf]), free]

theorem svcSubmit_full (full : freeSlot s.svc = none) : svcSubmit c s = (s, .refuse .full) := by
  rw [svcSubmit, if_neg (not_outside_positions low high), if_neg online, if_neg (by simp [conf]), full]

end

/-- The filled slot holds the request, with the number the counter is raised to. -/
theorem submit_slot {n : Nat} (low : 1 ≤ n) (high : n ≤ 8) (v : Service) (c : Submission) :
    (v.submit n c).slot n = some (c.request ((v.counter + 1) % 65536)) :=
  (slot_setSlot v n n _).trans (if_pos ⟨rfl, low, high⟩)

theorem submit_slot_ne {n m : Nat} (other : m ≠ n) (v : Service) (c : Submission) : (v.submit n c).slot m = v.slot m :=
  slot_setSlot_ne other v _

/-! ### SVC_RESULT (R160) -/

theorem exec_svcResult {b : Byte} {s : State} (k : s.takes 0x61 [b]) :
    exec (.svcResult [b]) s = .next (answered 0x61 (svcResult b.toNat s)) := next_decoded (d := decodeByte) k rfl

theorem hasEnded_iff {r : Request} : r.hasEnded = true ↔ r.state = .done ∨ r.state = .failed := by
  simp [Request.hasEnded]

theorem svcResult_outside {n : Nat} (outside : n < 1 ∨ 8 < n) (s : State) : svcResult n s = (s, .refuse .badValue) :=
  if_pos outside

theorem svcResult_free {n : Nat} {s : State} (low : 1 ≤ n) (high : n ≤ 8) (free : s.svc.slot n = none) :
    svcResult n s = (s, .refuse .notFound) := by
  rw [svcResult, if_neg (not_outside_slots low high), free]

/-- A taken slot is reported, and freed if its request has ended. -/
theorem svcResult_taken {n : Nat} {r : Request} {s : State} (slot : s.svc.slot n = some r) : svcResult n s =
    (if r.state = .done ∨ r.state = .failed then { s with svc := s.svc.setSlot n none } else s, .okWith (r.encode n)) := by
  simp only [svcResult, if_neg (not_outside_of_slot slot), slot, hasEnded_iff]

/-! ### SVC_CANCEL (R161) -/

theorem exec_svcCancel {b : Byte} {s : State} (k : s.takes 0x62 [b]) :
    exec (.svcCancel [b]) s = .next (answered 0x62 (svcCancel b.toNat s)) := next_decoded (d := decodeByte) k rfl

section
variable {n : Nat} {r : Request} {s : State}

theorem svcCancel_queued (slot : s.svc.slot n = some r) (queued : r.state = .queued) : svcCancel n s =
    ({ s with svc := { s.svc.setSlot n none with order := s.svc.order.filter (· != n) } }, .ok) := by
  simp only [svcCancel, if_neg (not_outside_of_slot slot), slot, queued, Service.leaveOrder, setSlot_order]

theorem svcCancel_sent (slot : s.svc.slot n = some r) (sent : r.state = .sent) : svcCancel n s =
    ({ s with svc := s.svc.setSlot n (some { r with state := .cancelling }) }, .deferred) := by
  simp only [svcCancel, if_neg (not_outside_of_slot slot), slot, sent]

theorem svcCancel_cancelling (slot : s.svc.slot n = some r) (cancelling : r.state = .cancelling) :
    svcCancel n s = (s, .deferred) := by
  simp only [svcCancel, if_neg (not_outside_of_slot slot), slot, cancelling]

theorem svcCancel_ended (slot : s.svc.slot n = some r) (ended : r.state = .done ∨ r.state = .failed) :
    svcCancel n s = (s, .refuse .state) := by
  rcases ended with e | e <;> simp only [svcCancel, if_neg (not_outside_of_slot slot), slot, e]

end

/-- Settles O57: SVC_SUBMIT by what the search for a FREE slot finds, the other two by what the named slot holds. -/
theorem slotsAreFilledCollectedAndCancelled : Obligations.SlotsAreFilledCollectedAndCancelled := by
  refine ⟨fun payload c s k e low high online conf => ?submit, fun b s => ⟨fun k outside => ?outside,
    fun k low high free => ?free, fun r k slot => ?result, fun r k slot queued => ?queued, fun r k slot sent => ?sent,
    fun r k slot cancelling => ?cancelling, fun r k slot ended => ?ended⟩⟩
  case submit =>
    rw [exec_svcSubmit k e]
    refine ⟨fun n first last free least => ?_, fun full => ?_⟩
    · rw [svcSubmit_fills low high online conf (freeSlot_lowest first last free least)]
      exact ⟨_, rfl, submit_slot first last s.svc c, fun m other => submit_slot_ne other s.svc c, rfl, rfl, rfl, rfl, rfl,
        rfl, rfl, rfl, rfl⟩
    · rw [svcSubmit_full low high online conf (freeSlot_full full), answered_mk]
  case outside => rw [exec_svcResult k, svcResult_outside outside, answered_mk]
  case free => rw [exec_svcResult k, svcResult_free low high free, answered_mk]
  case result => rw [exec_svcResult k, svcResult_taken slot, answered_mk]
  case queued => rw [exec_svcCancel k, svcCancel_queued slot queued, answered_mk]
  case sent => rw [exec_svcCancel k, svcCancel_sent slot sent, answered_mk]
  case cancelling => rw [exec_svcCancel k, svcCancel_cancelling slot cancelling, answered_mk]
  case ended => rw [exec_svcCancel k, svcCancel_ended slot ended, answered_mk]

end Sys2Proof.Machine

/-! PROOFS. The two slots over a step (O8, R165, R166), and that every row happens and keeps the queue (O3). -/

namespace Sys2Proof.Machine

/-! ### Events outside the command link -/

theorem KeptSlots.refl (s : State) : KeptSlots s s := Kept.slots ⟨rfl, rfl, rfl, rfl, rfl⟩

/-- An event that does not happen in a state leaves it as it is (log 5). -/
theorem KeptSlots.ite {s t : State} {c : Prop} [Decidable c] (h : KeptSlots s t) : KeptSlots s (if c then t else s) := by
  split
  · exact h
  · exact .refl s

/-- Whether a row acts on the port itself: power-on reset, and the start and the end of a transaction. -/
def isPortEvent : Instr → Bool
  | .powerOnReset _ | .transactionStart | .transactionEnd _ => true
  | _ => false

/-- An event of any other block happens, and leaves the slots, the transaction and the queue alone. -/
theorem event_slots {i : Instr} (s : State) (e : commandOf i = none) (p : isPortEvent i = false) :
    ∃ t, exec i s = .next t ∧ KeptSlots s t := by
  cases i with
  | powerOnReset _ | transactionStart | transactionEnd _ => cases p
  | attnHighEnd => exact ⟨_, rfl, Kept.slots ⟨rfl, rfl, rfl, rfl, rfl⟩⟩
  | attnGapEnd => exact ⟨_, rfl, Kept.slots ⟨rfl, rfl, rfl, rfl, rfl⟩⟩
  | roundStart =>
    exact ⟨_, rfl, .ite (((roundPasses_kept s).trans (endRound_kept _)).trans (startRound_kept _).slots)⟩
  | unreachable n => exact ⟨_, rfl, .ite (unreachableSlot_kept n s).slots⟩
  | angleSample a v => exact ⟨_, rfl, (takeAnswer_kept _ v s).slots⟩
  | angleLoss => exact ⟨_, rfl, .ite (missingSample_kept s).slots⟩
  | pollBegin => exact ⟨_, rfl, pollBegins_kept s⟩
  | resetExchangeBegin => exact ⟨_, rfl, (resetBegins_kept s).slots⟩
  | serviceExchangeBegin => exact ⟨_, rfl, (serviceBegins_kept s).slots⟩
  | requestSent => exact ⟨_, rfl, atMoment_kept (fun x s => (requestEnds_kept x s).slots) _ _ s⟩
  | noReply => exact ⟨_, rfl, atMoment_kept windowCloses_kept _ _ s⟩
  | replyGapTimeout =>
    refine ⟨_, rfl, ?_⟩
    split
    · exact replyBreaksOff_kept s
    · exact breakBegins_kept s
    · exact .refl s
  | reservationUsedUp =>
    refine ⟨_, rfl, ?_⟩
    split
    · exact atMoment_kept reservationEnds_kept _ _ s
    · exact (timePasses_kept _ s).slots.trans (breakBegins_kept _)
    · exact .refl s
  | replyFramingError => exact ⟨_, rfl, replyBreaksOff_kept s⟩
  | replyComplete reply =>
    refine ⟨_, rfl, ?_⟩
    split
    · exact .ite (atMoment_kept (replyArrives_kept reply) _ _ s)
    · exact ((timePasses_kept _ s).trans (lineFallsIdle_kept _)).slots.trans (breakDue_kept _)
    · exact .refl s
  | missLimitReached n => exact ⟨_, rfl, .ite (missLimit_kept n s).slots⟩
  | followLimitReached n => exact ⟨_, rfl, .ite (followLimit_kept n s).slots⟩
  | stall n => exact ⟨_, rfl, .ite (stallLimit_kept n s).slots⟩
  | jogRoundsExpired =>
    refine ⟨_, rfl, ?_⟩
    split
    · exact .ite (countJogRound_kept _ s).slots
    · exact .refl s
  | startTimerExpiry => exact ⟨_, rfl, .ite (startExpires_kept s).slots⟩
  | dwellTimerExpiry => exact ⟨_, rfl, .ite (dwellExpires_kept s).slots⟩
  | reversalTimerExpiry => exact ⟨_, rfl, .ite (reversalExpires_kept s).slots⟩
  | resetTimerExpiry n => exact ⟨_, rfl, .ite (resetTimeout_kept n s).slots⟩
  | safetyLoopChange closed =>
    refine ⟨_, rfl, ?_⟩
    split
    · exact .refl s
    · exact (loopChanges_kept closed s).slots
  | breakBegin =>
    refine ⟨_, rfl, ?_⟩
    split
    · exact (timePasses_kept _ s).slots.trans (breakBegins_kept _)
    all_goals exact breakBegins_kept s
  | breakEnd => exact ⟨_, rfl, breakSent_kept s⟩
  | replyBegun =>
    refine ⟨_, rfl, ?_⟩
    split <;> exact Kept.slots ⟨rfl, rfl, rfl, rfl, rfl⟩
  | _ => cases e

/-! ### The queue (O3) -/

/-- The judgement of the bytes received takes nothing from the queue. -/
theorem judgeReceived_pending (busy : Bool) (received : List Byte) (s : State) :
    (judgeReceived busy received s).pending = s.pending := by
  unfold judgeReceived takeCommand
  (repeat' split) <;> rfl

/-- The port's own events happen, and leave the queue alone. -/
theorem portEvent_pending {i : Instr} (s : State) (p : isPortEvent i = true) :
    ∃ t, exec i s = .next t ∧ t.pending = s.pending := by
  cases i with
  | powerOnReset _ => exact ⟨_, rfl, rfl⟩
  | transactionStart =>
    refine ⟨_, rfl, ?_⟩
    (repeat' split) <;> rfl
  | transactionEnd received =>
    refine ⟨_, rfl, ?_⟩
    split
    · exact judgeReceived_pending ..
    · rfl
  | _ => cases p

/-- Settles O3: a command is carried out by its handler, and an event is the port's or leaves the slots alone. -/
theorem everyCommandAnswersNextAndKeepsTheQueue : Obligations.EveryCommandAnswersNextAndKeepsTheQueue := by
  intro i s
  cases e : commandOf i with
  | some c =>
    obtain ⟨h, isHandler, runs⟩ := exec_command i c.1 c.2 s e
    exact ⟨_, runs, carryOut_pending (handlerOf_queue isHandler) c.2 s⟩
  | none =>
    cases p : isPortEvent i with
    | true => exact portEvent_pending s p
    | false =>
      obtain ⟨t, happens, kept⟩ := event_slots s e p
      exact ⟨t, happens, kept.pending⟩

/-! ### The laws of the slots (O8) -/

/-- The laws of the slots do not look at the snapshot or at what other blocks do. -/
theorem KeptSlots.port_lawful {s t : State} (k : KeptSlots s t) (l : s.port.Lawful) : t.port.Lawful := by
  simp only [Port.Lawful, Transaction.Lawful, k.command, k.response, k.rdy, k.transaction]
  exact l

/-- A transaction that starts with a command in its slot begins with BUSY, and one without finds both slots empty once the
waiting answer has been taken out (R165, R167). -/
theorem startTransaction_lawful (p : Port) : p.startTransaction.Lawful := by
  refine ⟨rfl, .inr rfl, ?_⟩
  rintro t ⟨rfl⟩
  cases h : p.command with
  | some _ => exact .inl rfl
  | none => exact .inr ⟨h, rfl⟩

/-- A transaction that has ended leaves the slots as they are. -/
theorem endTransaction_lawful {p : Port} (l : p.Lawful) : ({ p with transaction := none } : Port).Lawful :=
  ⟨l.1, l.2.1, fun _ m => by cases m⟩

/-- A command is taken, or its unknown code answered, where both slots are empty and no transaction is in progress. -/
theorem takeCommand_lawful (c : Command) {s : State} (ended : s.port.transaction = none) (low : s.port.rdy = false)
    (empty : s.port.response = none) : (takeCommand c s).port.Lawful := by
  unfold takeCommand
  split
  · exact ⟨by simp [low, empty], .inr empty, fun _ m => by cases ended.symm.trans m⟩
  · exact respond_port_lawful _ fun _ m => by cases ended.symm.trans m

/-- The bytes received are judged after the transaction: a good frame is taken only in one that found both slots empty. -/
theorem judgeReceived_lawful {busy : Bool} (received : List Byte) {s : State} (l : s.port.Lawful)
    (ended : s.port.transaction = none) (found : busy = false → s.port.response = none) :
    (judgeReceived busy received s).port.Lawful := by
  unfold judgeReceived
  split
  · exact l
  split
  · exact l
  · have empty := found (Bool.eq_false_iff.mpr ‹_›)
    split
    · exact takeCommand_lawful _ ended (by rw [l.1, empty]; rfl) empty
    · exact respond_port_lawful _ fun _ m => by cases ended.symm.trans m

/-- The port's own events keep the laws of the slots. -/
theorem portEvent_lawful {i : Instr} {s : State} (p : isPortEvent i = true) (l : s.port.Lawful) :
    ∃ t, exec i s = .next t ∧ t.port.Lawful := by
  cases i with
  | powerOnReset _ => exact ⟨_, rfl, rfl, .inl rfl, fun _ m => by cases m⟩
  | transactionStart =>
    refine ⟨_, rfl, ?_⟩
    split
    · exact l
    split
    · exact startTransaction_lawful s.port
    · exact l
  | transactionEnd received =>
    refine ⟨_, rfl, ?_⟩
    split
    next t inProgress =>
      refine judgeReceived_lawful received (endTransaction_lawful l) rfl fun notBusy => ?_
      rcases l.2.2 t inProgress with busy | ⟨-, empty⟩
      · cases notBusy.symm.trans busy
      · exact empty
    · exact l
  | _ => cases p

/-- Every event keeps the laws of the slots. -/
theorem event_port_lawful {i : Instr} {s : State} (e : commandOf i = none) (l : s.port.Lawful) :
    ∃ t, exec i s = .next t ∧ t.port.Lawful := by
  cases p : isPortEvent i with
  | true => exact portEvent_lawful p l
  | false =>
    obtain ⟨t, happens, kept⟩ := event_slots s e p
    exact ⟨t, happens, kept.port_lawful l⟩

/-- Settles O8: an answer enters while no transaction waits on empty slots, the port's own events are lawful one by one, and
every other event leaves the slots alone. -/
theorem stepKeepsSlotLaws : Obligations.StepKeepsSlotLaws := by
  intro s t h k
  refine step_keeps (P := fun s => s.port.Lawful) (fun _ _ => id) ?command ?unknown (fun _ _ => event_port_lawful)
    (fun s => (startRound_kept s).slots.port_lawful) (fun s => (characterTime_kept s).port_lawful) h k
  case command => exact fun _ _ payload _ hf => carryOut_port_lawful (handlerOf_queue hf) payload
  case unknown =>
    intro c s executes l
    exact respond_port_lawful _ (takes_busy (code := c.code) (payload := c.payload) l (.inl executes))

end Sys2Proof.Machine

/-! PROOFS. The answer to a command (O13, R169, R170), the part on an empty queue (O2), and the commands that read (O16, R74,
R151, R173, R174, R182). -/

namespace Sys2Proof.Machine

/-! ### Every command that is taken (R169, R170) -/

/-- The commands of R169's table that carry no payload. -/
theorem handlerOf_plain {code : Byte} (mem : code ∈ ([0x01, 0x02, 0x03, 0x16, 0x50, 0x51, 0x53, 0x54, 0x55, 0x56, 0x58, 0x59,
    0x5B, 0x70] : List Byte)) : ∃ f, handlerOf code = some (plainHandler f) := by
  revert code
  simp only [List.forall_mem_cons]
  exact ⟨⟨_, rfl⟩, ⟨_, rfl⟩, ⟨_, rfl⟩, ⟨_, rfl⟩, ⟨_, rfl⟩, ⟨_, rfl⟩, ⟨_, rfl⟩, ⟨_, rfl⟩, ⟨_, rfl⟩, ⟨_, rfl⟩, ⟨_, rfl⟩,
    ⟨_, rfl⟩, ⟨_, rfl⟩, ⟨_, rfl⟩, fun _ m => by cases m⟩

/-- Settles O13: the row runs the handler of its code, whose answer enters the response slot; a handler that refuses leaves the
state as it is. -/
theorem refusedCommandChangesOnlyTheSlots : Obligations.RefusedCommandChangesOnlyTheSlots := by
  intro i code payload s e k
  obtain ⟨h, isHandler, runs⟩ := exec_command i code payload s e
  refine ⟨⟨_, (h payload s).2, runs.trans (next_carryOut h k), rfl, rfl, rfl, (handlerOf_queue isHandler payload s).2,
    fun notOk notDeferred => ?refused⟩, fun mem hp => ?payload⟩
  case refused => rw [refused_leaves h code isHandler payload s notOk notDeferred]
  case payload =>
    obtain ⟨f, plain⟩ := handlerOf_plain mem
    obtain rfl : h = plainHandler f := Option.some.inj (isHandler.symm.trans plain)
    exact runs.trans (next_plain_refused hp k)

/-! ### The empty queue (log 3, log 7) -/

/-- A part that is executing a command answers it. -/
theorem idle_executes {c : Command} {h : Handler} {s : State} (command : s.port.command = some c)
    (isHandler : handlerOf c.code = some h) : idle s = answered c.code (h c.payload s) := by
  simp only [idle, command, completeCommand, isHandler]
  exact finishCommand_eq ..

/-- Settles O2: with nothing to take the part goes on by itself, and a command it is executing comes first. -/
theorem emptyQueueCompletesExecutingCommand : Obligations.EmptyQueueCompletesExecutingCommand := by
  refine fun s queue => ⟨step_idle queue, fun c h command isHandler => ?_⟩
  exact (step_idle queue).trans (congrArg _ (idle_executes command isHandler))

/-! ### TOWER_GET (R74) -/

theorem exec_towerGet {b : Byte} {s : State} (k : s.takes 0x32 [b]) :
    exec (.towerGet [b]) s = .next (answered 0x32 (towerGet b.toNat s)) := next_decoded (d := decodeByte) k rfl

theorem towerGet_outside {p : Nat} (outside : p = 0 ∨ 21 < p) (s : State) : towerGet p s = (s, .refuse .badValue) :=
  if_pos (outside.imp_left (by omega))

/-- A position from 1 to 21 has its record answered, with the swing reading of its kind. -/
theorem towerGet_inside {p : Nat} (low : 1 ≤ p) (high : p ≤ 21) (s : State) : towerGet p s =
    ({ s with free := freeAfterGet s p }, .okWith ((s.tower p).encode p (s.isConfigured p) (swingBytes s p))) :=
  if_neg (not_outside_positions low high)

/-- A main-line tower has no swing. -/
theorem towerGet_mainLine {p : Nat} (low : 1 ≤ p) (high : p ≤ 20) (s : State) :
    towerGet p s = (s, .okWith ((s.tower p).encode p (s.isConfigured p) [0, 0])) := by
  have main : p ≠ Config.cornerPos := by simp only [Config.cornerPos]; omega
  rw [towerGet_inside low (by omega), swingBytes, freeAfterGet, if_neg main, if_neg fun corner => main corner.1]
  rfl

/-- The corner tower's swing reading is its joint less the swing offset in force (R66, R74). -/
theorem towerGet_corner {g : Geometry} {s : State} (geometry : (s.tower 21).geometry = some g) : towerGet 21 s =
    (s, .okWith ((s.tower 21).encode 21 (s.isConfigured 21)
      (signedWord ((s.tower 21).joint - (s.tower 21).swingOffset)))) := by
  have read : swingBytes s 21 = signedWord (s.tower 21).measuredSwing := by
    rw [swingBytes, if_pos (show 21 = Config.cornerPos from rfl), geometry]
  have kept : freeAfterGet s 21 = s.free := if_neg fun none => by cases geometry.symm.trans none.2
  rw [towerGet_inside (by omega) (by omega), read, kept]
  rfl

/-- Without geometry the swing reading is the free value (log 15). -/
theorem towerGet_corner_free {s : State} (geometry : (s.tower 21).geometry = none) : towerGet 21 s =
    ({ s with free := s.free + 1 }, .okWith ((s.tower 21).encode 21 (s.isConfigured 21)
      (word (Config.swingWithoutGeometry s.free).toNat))) := by
  have read : swingBytes s 21 = word (Config.swingWithoutGeometry s.free).toNat := by
    rw [swingBytes, if_pos (show 21 = Config.cornerPos from rfl), geometry]
  have advanced : freeAfterGet s 21 = s.free + 1 := if_pos ⟨rfl, geometry⟩
  rw [towerGet_inside (by omega) (by omega), read, advanced]

/-! ### The commands that read -/

/-- Settles O16: four handlers without payload that return the state they are given, and TOWER_GET by its position. -/
theorem readingCommandsChangeNothing : Obligations.ReadingCommandsChangeNothing := by
  refine ⟨fun s => ⟨fun p hp k => next_plain_refused hp (.inl k), fun k => next_plain (.inl k),
    fun k => next_plain (.inl k), fun k => next_plain (.inl k), fun k => next_plain (.inl k)⟩,
    fun b s k => ⟨fun outside => ?outside, fun low high => ?mainLine, fun g corner geometry => ?corner,
      fun corner geometry => ⟨Config.swingWithoutGeometry s.free, ?free⟩⟩⟩
  case outside => rw [exec_towerGet k, towerGet_outside outside, answered_mk]
  case mainLine => rw [exec_towerGet k, towerGet_mainLine low high, answered_mk]
  case corner => rw [exec_towerGet k, corner, towerGet_corner geometry, answered_mk]
  case free => rw [exec_towerGet k, corner, towerGet_corner_free geometry, answered_mk]

end Sys2Proof.Machine

/-! PROOFS. A transaction's start and end (O14, R165, R167, R168), and a framed command (O15, R168, R169, R184). -/

namespace Sys2Proof.Machine

/-! ### The start and the end of a transaction (R165, R167) -/

/-- `s` with no transaction in progress. -/
abbrev State.endTransaction (s : State) : State := { s with port := { s.port with transaction := none } }

/-- The fall of SEL starts a transaction where none is in progress and no reset keeps the port off it (R165, R176). -/
theorem exec_transactionStart {s : State} (between : s.port.transaction = none) (clear : s.port.mask = .clear) :
    exec .transactionStart s = .next { s with port := s.port.startTransaction } := by
  show execTransactionStart s = _
  rw [execTransactionStart, between, if_neg (by simp), if_pos clear]

/-- The rise of SEL ends the transaction, and the bytes received are judged. -/
theorem exec_transactionEnd {s : State} {t : Transaction} (inProgress : s.port.transaction = some t) (received : List Byte) :
    exec (.transactionEnd received) s = .next (judgeReceived t.busy received s.endTransaction) := by
  show execTransactionEnd received s = _
  rw [execTransactionEnd, inProgress]

theorem isFetch_iff {received : List Byte} : isFetch received = true ↔ received = [] ∨ received.head? = some 0 := by
  cases received <;> simp [isFetch]

/-! ### The judgement of the bytes received (R167, R168) -/

section
variable {received : List Byte}

theorem judgeReceived_fetch (fetch : isFetch received = true) (busy : Bool) (s : State) :
    judgeReceived busy received s = s := if_pos fetch

variable (frame : ¬isFetch received = true) (s : State)
include frame

theorem judgeReceived_busy : judgeReceived true received s = raise .cmdDropped s.dropFrame := by
  rw [judgeReceived, if_neg frame, if_pos rfl]

theorem judgeReceived_bad (bad : frameGood received = false) :
    judgeReceived false received s = answerBadFrame received s := by
  rw [judgeReceived, if_neg frame, if_neg (by decide), bad, if_neg (by decide)]

theorem judgeReceived_good (good : frameGood received = true) :
    judgeReceived false received s = takeCommand (frameCommand received) s := by
  rw [judgeReceived, if_neg frame, if_neg (by decide), if_pos good]

end

/-- Settles O14: R165 at the start, and the cases of R167 and R168 that take no command at the end. -/
theorem transactionStartsAndEnds : Obligations.TransactionStartsAndEnds := by
  refine ⟨fun s => exec_transactionStart, fun received t s inProgress => ?_⟩
  rw [exec_transactionEnd inProgress]
  refine ⟨fun fetch => ?fetch, fun bytes first busy => ?busy, fun bytes first notBusy bad => ?bad⟩
  case fetch => rw [judgeReceived_fetch (isFetch_iff.mpr fetch)]
  case busy =>
    rw [busy, judgeReceived_busy fun fetch => (isFetch_iff.mp fetch).elim bytes first]
    rfl
  case bad =>
    rw [notBusy, judgeReceived_bad (fun fetch => (isFetch_iff.mp fetch).elim bytes first) _ bad]
    rfl

/-! ### A whole frame (R168, R184) -/

theorem length_withCheck (bytes : List Byte) : (withCheck bytes).length = bytes.length + 2 := by
  simp [withCheck, checkBytes, word]

/-- The tests of R168 on bytes that begin with a length byte. -/
theorem frameGood_cons {b : Byte} {rest : List Byte} : frameGood (b :: rest) = true ↔ 4 ≤ b.toNat ∧ b.toNat ≤ 64
    ∧ b.toNat ≤ (b :: rest).length ∧ checkHolds ((b :: rest).take b.toNat) = true := by
  simp [frameGood, and_assoc]

/-- The check that a frame is sent with is the one it is tested for (R184). -/
theorem checkHolds_withCheck (bytes : List Byte) : checkHolds (withCheck bytes) = true := by
  rw [checkHolds, length_withCheck, Nat.add_sub_cancel, withCheck, List.drop_left, List.take_left, beq_self_eq_true]

/-- The two bytes of a frame's check are the last, and what stands before them is left when they are dropped. -/
theorem dropLast_payload_check (payload bytes : List Byte) : (payload ++ checkBytes bytes).dropLast.dropLast = payload := by
  simp [checkBytes, word]

/-- The bytes of a command frame before the check: length, code and payload. -/
abbrev commandBytes (code : Byte) (payload : List Byte) : List Byte := [byte (payload.length + 4), code] ++ payload

section
variable (code : Byte) {payload : List Byte} (beyond : List Byte) (short : payload.length ≤ 60)
include short

/-- The length byte of a frame with at most 60 payload bytes counts all its bytes. -/
theorem lengthByte_toNat : (byte (payload.length + 4)).toNat = payload.length + 4 := by
  rw [byte, BitVec.toNat_ofNat, Nat.mod_eq_of_lt (by omega)]

/-- The length byte takes the frame from what follows it. -/
theorem take_frame : (withCheck (commandBytes code payload) ++ beyond).take (byte (payload.length + 4)).toNat =
    withCheck (commandBytes code payload) :=
  List.take_left' (by rw [lengthByte_toNat short, length_withCheck]; simp)

theorem frame_not_fetch : ¬isFetch (withCheck (commandBytes code payload) ++ beyond) = true := by
  have counts : byte (payload.length + 4) ≠ 0 := fun zero => by
    have := lengthByte_toNat short
    rw [zero] at this
    simp at this
  simpa [isFetch, withCheck] using counts

/-- A whole frame passes the tests of R168, whatever follows it. -/
theorem frameGood_frame : frameGood (withCheck (commandBytes code payload) ++ beyond) = true := by
  have counted := lengthByte_toNat short
  have whole : (byte (payload.length + 4)).toNat ≤ (withCheck (commandBytes code payload) ++ beyond).length := by
    rw [counted, List.length_append, length_withCheck]
    simp
  have check : checkHolds
      ((withCheck (commandBytes code payload) ++ beyond).take (byte (payload.length + 4)).toNat) = true := by
    rw [take_frame code beyond short, checkHolds_withCheck]
  exact frameGood_cons.mpr ⟨by omega, by omega, whole, check⟩

/-- The command of a whole frame is the one it was built from. -/
theorem frameCommand_frame : frameCommand (withCheck (commandBytes code payload) ++ beyond) =
    { code := code, payload := payload } := by
  have cut : (withCheck (commandBytes code payload)).drop 2 = payload ++ checkBytes (commandBytes code payload) := rfl
  show Command.mk code (((List.take (byte (payload.length + 4)).toNat _).drop 2).dropLast.dropLast) = _
  rw [take_frame code beyond short, cut, dropLast_payload_check]

end

/-- Settles O15: the frame is good and its command the one it was built from, which is taken if its code names one. -/
theorem framedCommandIsTakenWhole : Obligations.FramedCommandIsTakenWhole := by
  intro code payload beyond t s inProgress notBusy short
  have taken : exec (.transactionEnd (withCheck (commandBytes code payload) ++ beyond)) s =
      .next (takeCommand { code := code, payload := payload } s.endTransaction) := by
    rw [exec_transactionEnd inProgress, notBusy, judgeReceived_good (frame_not_fetch code beyond short) _
      (frameGood_frame code beyond short), frameCommand_frame code beyond short]
  exact ⟨fun known => taken.trans (congrArg _ (if_pos known)),
    fun unknown => taken.trans (congrArg _ (if_neg (by simp [unknown])))⟩

end Sys2Proof.Machine

/-! PROOFS. The Event Unit: EVT_ENABLE and EVT_DISABLE (O59, R178, R179), and EVT_ACK, the pulse and a raise (O60, R177, R179 to
R181). -/

namespace Sys2Proof.Machine

/-! ### The pulse (R180) -/

section
variable {e : Events}

/-- A pulse begins at once on a line that is LOW. -/
theorem pulse_low (low : e.phase = .low) : e.pulse = { e with phase := .high } := by
  rw [Events.pulse, low]

/-- On a line in a pulse or its gap the pulse is owed. -/
theorem pulse_notLow (notLow : e.phase ≠ .low) : e.pulse = { e with owed := true } := by
  cases h : e.phase with
  | low => exact absurd h notLow
  | high | gap => rw [Events.pulse, h]

/-- A pulse acts on the line by the line alone, whatever is enabled. -/
theorem pulse_enables (e : Events) (enables : BitVec 11) (master : Bool) :
    ({ e with enables := enables, master := master } : Events).pulse =
      { e.pulse with enables := enables, master := master } := by
  cases h : e.phase <;> simp only [Events.pulse, h]

/-- The unit's state as it is answered does not show the line (R182). -/
theorem pulse_encode (e : Events) : e.pulse.encode = e.encode := by
  cases h : e.phase <;> simp only [Events.pulse, h] <;> rfl

theorem highEnd_high (high : e.phase = .high) : e.highEnd = { e with phase := .gap } := by
  rw [Events.highEnd, high]

theorem gapEnd_gap (gap : e.phase = .gap) :
    e.gapEnd = { e with phase := if e.owed && e.anyPending then .high else .low, owed := false } := by
  rw [Events.gapEnd, gap]

/-- The gap ends with the owed pulse if something is pending. -/
theorem gapEnd_pulses (gap : e.phase = .gap) (owed : e.owed = true) (pending : e.anyPending = true) :
    e.gapEnd = { e with phase := .high, owed := false } := by
  rw [gapEnd_gap gap, if_pos (by rw [owed, pending]; rfl)]

/-- Where no pulse is owed, or nothing is pending any more, the gap ends with the line LOW. -/
theorem gapEnd_drops (gap : e.phase = .gap) (dropped : e.owed = false ∨ e.anyPending = false) :
    e.gapEnd = { e with phase := .low, owed := false } := by
  rw [gapEnd_gap gap, if_neg]
  rcases dropped with h | h <;> simp [h]

end

/-! ### What is pending (R179) -/

theorem anyPending_false_iff {e : Events} : e.anyPending = false ↔ e.pendingCount = 0 := by
  rw [← Bool.not_eq_true, anyPending_iff]
  omega

theorem getLsbD_pendingFlags (e : Events) (i : Nat) :
    e.pendingFlags.getLsbD i = (e.master && (e.flags.getLsbD i && e.enables.getLsbD i)) := by
  cases h : e.master <;> simp [Events.pendingFlags, h]

/-- The pending count counts the flags set and enabled while the master enable is on. -/
theorem pendingCount_eq (e : Events) : e.pendingCount =
    ((List.range 11).filter fun i => e.master && (e.flags.getLsbD i && e.enables.getLsbD i)).length := by
  rw [Events.pendingCount, funext (getLsbD_pendingFlags e)]

/-- A pulse changes nothing of what is pending. -/
@[simp] theorem settle_anyPending (old new : Events) : (old.settle new).anyPending = new.anyPending := by
  simp [Events.anyPending, Events.pendingFlags]

/-- A change of the unit that brings the pending count up from zero gives a pulse. -/
theorem settle_of_rise {old new : Events} (before : old.anyPending = false) (after : new.anyPending = true) :
    old.settle new = new.pulse := by
  rw [Events.settle, if_pos (by simp [before, after])]

/-! ### EVT_ENABLE and EVT_DISABLE (R178) -/

/-- The unit changes, and its new state is the answer (R182). -/
theorem answered_changeEvents (code : Byte) (f : Events → Events) (s : State) : answered code (changeEvents f s) =
    State.answer { s with ev := f s.ev } code (.okWith (f s.ev).encode) := rfl

section
variable {payload : List Byte} {c : BitVec 11 × Bool} {s : State} (e : decodeEvtSet payload = some c)
include e

theorem exec_evtEnable (k : s.takes 0x72 payload) : exec (.evtEnable payload) s =
    .next (answered 0x72 (changeEvents (Events.enable c.1 c.2) s)) := next_decoded k e

theorem exec_evtDisable (k : s.takes 0x73 payload) : exec (.evtDisable payload) s =
    .next (answered 0x73 (changeEvents (Events.disable c.1 c.2) s)) := next_decoded k e

end

section
variable {set : BitVec 11} {master : Bool} {e : Events}

/-- An enabling that does not bring the pending count up from zero leaves the line alone. -/
theorem enable_quiet (quiet : e.anyPending = true ∨ (e.enable set master).anyPending = false) :
    e.enable set master = { e with enables := e.enables ||| set, master := e.master || master } := by
  rw [Events.enable, settle_anyPending] at quiet
  exact settle_of_pending quiet

/-- An enabling that does gives a pulse. -/
theorem enable_pulses (before : e.anyPending = false) (after : (e.enable set master).anyPending = true) :
    e.enable set master = { e.pulse with enables := e.enables ||| set, master := e.master || master } := by
  rw [Events.enable, settle_anyPending] at after
  exact (settle_of_rise before after).trans (pulse_enables e _ _)

end

/-- Settles O59: an enabling settles the pulse by the pending count before and after it, and a disabling has no pulse to
settle. -/
theorem enablesChangeOnlyWhatIsNamed : Obligations.EnablesChangeOnlyWhatIsNamed := by
  refine fun payload set master s e => ⟨fun k => ?enables, fun k => ?disables⟩
  case enables =>
    rw [exec_evtEnable e k, answered_changeEvents]
    refine ⟨_, rfl, settle_flags .., settle_enables .., settle_master .., fun quiet => ?quiet,
      fun ⟨before, after⟩ => ?pulse, rfl⟩
    case quiet =>
      have unit := enable_quiet quiet
      exact ⟨(congrArg Events.phase unit :), (congrArg Events.owed unit :)⟩
    case pulse =>
      have unit := enable_pulses before after
      exact ⟨(congrArg Events.phase unit :), (congrArg Events.owed unit :)⟩
  case disables => rw [exec_evtDisable e k, answered_changeEvents, Events.disable]

/-! ### EVT_ACK (R181) -/

theorem exec_evtAck {payload : List Byte} {set : BitVec 11} {s : State} (k : s.takes 0x71 payload)
    (e : decodeEvtAck payload = some set) : exec (.evtAck payload) s =
      .next (answered 0x71 (changeEvents (Events.acknowledge set) s)) := next_decoded k e

/-- `e` with the flags of `set` cleared. -/
abbrev Events.clear (e : Events) (set : BitVec 11) : Events := { e with flags := e.flags &&& ~~~set }

theorem acknowledge_quiet {set : BitVec 11} {e : Events} (quiet : (e.clear set).anyPending = false) :
    e.acknowledge set = e.clear set := if_neg (by simp [quiet])

theorem acknowledge_pending {set : BitVec 11} {e : Events} (pending : (e.clear set).anyPending = true) :
    e.acknowledge set = (e.clear set).pulse := if_pos pending

/-- While something is still pending the answer shows the flags left, and the line has its pulse. -/
theorem exec_evtAck_pending {payload : List Byte} {set : BitVec 11} {s : State} (k : s.takes 0x71 payload)
    (e : decodeEvtAck payload = some set) (pending : (s.ev.clear set).anyPending = true) : exec (.evtAck payload) s =
      .next (State.answer { s with ev := (s.ev.clear set).pulse } 0x71 (.okWith (s.ev.clear set).encode)) := by
  rw [exec_evtAck k e, answered_changeEvents, acknowledge_pending pending, pulse_encode]

/-! ### The pulse's ends (R180) -/

theorem exec_attnHighEnd (s : State) : exec .attnHighEnd s = .next { s with ev := s.ev.highEnd } := rfl

theorem exec_attnGapEnd (s : State) : exec .attnGapEnd s = .next { s with ev := s.ev.gapEnd } := rfl

/-! ### A raise (R177, R179) -/

/-- `e` with the flag set, before its pulse. -/
abbrev Events.withFlag (e : Events) (f : EventFlag) : Events := { e with flags := e.flags ||| f.bit }

/-- A raise that brings the pending count up from zero gives a pulse. -/
theorem raise_pulses {f : EventFlag} {e : Events} (before : e.pendingCount = 0) (after : 1 ≤ (e.withFlag f).pendingCount) :
    e.raise f = (e.withFlag f).pulse := settle_of_rise (anyPending_false_iff.mpr before) (anyPending_iff.mpr after)

/-- Any other raise sets the flag alone. -/
theorem raise_quiet {f : EventFlag} {e : Events} (quiet : 1 ≤ e.pendingCount ∨ (e.withFlag f).pendingCount = 0) :
    e.raise f = e.withFlag f := settle_of_pending (quiet.imp anyPending_iff.mpr anyPending_false_iff.mpr)

/-- Settles O60: EVT_ACK by whether anything is still pending and by the line, the two ends of a pulse, and a raise by the
pending count before and after it. -/
theorem acknowledgeAndPulses : Obligations.AcknowledgeAndPulses := by
  refine ⟨fun payload set s k e => ⟨fun quiet => ?ackQuiet, fun pending low => ?ackPulses, fun pending notLow => ?ackOwes⟩,
    fun s => ⟨fun high => ?highEnds, fun gap owed pending => ?gapPulses, fun gap dropped => ?gapDrops⟩,
    fun f s => ⟨rfl, fun g => isSet_raise f g s.ev, fun before after low => ?raisePulses,
      fun before after notLow => ?raiseOwes, raise_quiet, anyPending_iff, pendingCount_eq s.ev⟩⟩
  case ackQuiet => rw [exec_evtAck k e, answered_changeEvents, acknowledge_quiet quiet]
  case ackPulses => rw [exec_evtAck_pending k e pending, pulse_low (e := s.ev.clear set) low]
  case ackOwes => rw [exec_evtAck_pending k e pending, pulse_notLow (e := s.ev.clear set) notLow]
  case highEnds => rw [exec_attnHighEnd, highEnd_high high]
  case gapPulses => rw [exec_attnGapEnd, gapEnd_pulses gap owed pending]
  case gapDrops => rw [exec_attnGapEnd, gapEnd_drops gap dropped]
  case raisePulses => exact (raise_pulses before after).trans (pulse_low low)
  case raiseOwes => exact (raise_pulses before after).trans (pulse_notLow notLow)

end Sys2Proof.Machine

/-! PROOFS. A step with a command waiting in the queue (O1). -/

namespace Sys2Proof.Machine

/-- The companion of `step_idle`: a queue with a command at its front. -/
theorem step_front {c : Instr} {rest : List Instr} {s : State} (queue : s.pending = c :: rest) :
    step s = exec c { s with pending := rest } := by rw [step, queue]

/-- Settles O1: of the step's two cases, the one with a command at the front of the queue. -/
theorem stepRunsFrontCommand : Obligations.StepRunsFrontCommand :=
  fun _ _ _ queue => step_front queue

end Sys2Proof.Machine
